-- ==== Sys2Proof/Word.lean ====
section
/-! DEFINITION. The unsigned integers u8, u16, u32, u64 and byte strings of 00_scope.md rule R13. -/

namespace Sys2Proof

/-- A u8 of rule R13: bit 0 is the least significant bit. -/
abbrev Byte := BitVec 8

/-- A u16 of rule R13. -/
abbrev U16 := BitVec 16

/-- A u32 of rule R13. -/
abbrev U32 := BitVec 32

/-- A u64 (`SSW.BLOCKS_DONE`, `SSW.TRANS_SIZE` of rule R34). -/
abbrev U64 := BitVec 64

/-- A byte string of rule R13, first byte first. -/
abbrev Bytes := List Byte

end Sys2Proof
end

