-- ==== Sys2Proof/Machine/Bytes.lean ====
section
/-! DEFINITION. Byte strings and the assembly of multi-byte fields from single bytes
(00_scope.md rule R13, 20_memory.md rules R62 to R64, 30_encoding.md rule R110). -/

namespace Sys2Proof

/-- `s[i]` of rule R13. -/
def byteAt (s : Bytes) (i : Nat) : Byte := s.getD i 0

/-- `s[a .. a+n)` of rule R13. -/
def bytesAt (s : Bytes) (a n : Nat) : Bytes := (s.drop a).take n

/-- `le16` of the two bytes at offset `i` (rule R13). -/
def le16 (s : Bytes) (i : Nat) : U16 :=
  BitVec.ofNat 16 ((byteAt s i).toNat + 256 * (byteAt s (i + 1)).toNat)

/-- `le32` of the four bytes at offset `i` (rule R13). -/
def le32 (s : Bytes) (i : Nat) : U32 :=
  BitVec.ofNat 32 ((byteAt s i).toNat + 256 * (byteAt s (i + 1)).toNat + 65536 * (byteAt s (i + 2)).toNat
    + 16777216 * (byteAt s (i + 3)).toNat)

/-- The eight-byte little-endian value at offset `i` (the model's encoding of a time, log 12). -/
def le64 (s : Bytes) (i : Nat) : U64 :=
  BitVec.ofNat 64 ((le32 s i).toNat + 4294967296 * (le32 s (i + 4)).toNat)

/-- `be16` of the two bytes at offset `i` (rules R13, R62). -/
def be16 (s : Bytes) (i : Nat) : U16 :=
  BitVec.ofNat 16 (256 * (byteAt s i).toNat + (byteAt s (i + 1)).toNat)

/-- Byte `k` of a number, counting from the least significant. -/
def byteOf (v k : Nat) : Byte := BitVec.ofNat 8 (v / 256 ^ k)

/-- `enc_le16` of rule R13. -/
def encLe16 (v : U16) : Bytes := [byteOf v.toNat 0, byteOf v.toNat 1]

/-- `enc_le32` of rule R13. -/
def encLe32 (v : U32) : Bytes := [byteOf v.toNat 0, byteOf v.toNat 1, byteOf v.toNat 2, byteOf v.toNat 3]

/-- The inverse of `le64`. -/
def encLe64 (v : U64) : Bytes :=
  encLe32 (BitVec.ofNat 32 v.toNat) ++ encLe32 (BitVec.ofNat 32 (v.toNat / 4294967296))

/-- The CRC field of a frame: high byte, then low byte (rule R95). -/
def encBe16 (v : U16) : Bytes := [byteOf v.toNat 1, byteOf v.toNat 0]

/-- Bit 7 of a byte (rule R110 (e)). -/
def bit7 (b : Byte) : Bool := b.msb

/-- Bits 6:0 of a byte. -/
def low7 (b : Byte) : BitVec 7 := BitVec.ofNat 7 b.toNat

/-- The flags byte of a CBW: the direction in bit 7, the ignored bits below it (rule R100). -/
def flagsByte (dirIn : Bool) (low : BitVec 7) : Byte := BitVec.ofNat 8 ((if dirIn then 128 else 0) + low.toNat)

/-- The bytes of a number numbered as spec/opcode_table.json numbers bits: byte `k` is bits `8k+7 .. 8k`. -/
def bytesOfNat : Nat → Nat → Bytes
  | 0, _ => []
  | n + 1, w => BitVec.ofNat 8 w :: bytesOfNat n (w / 256)

end Sys2Proof
end

