-- ==== Sys2Proof/Config.lean ====
section
/-! DEFINITION. The configuration of the instance (00_scope.md rules R9 to R11) and the free values:
what the spec leaves open. A free value is an opaque constant, so nothing can be proved of which value it is. -/

namespace Sys2Proof

/-- A transport that can carry a command header (44_command_interface.md rules R349, R350). -/
inductive Transport where
  | uart
  | usb
  deriving DecidableEq, Repr

/-- The seven variants of UpgradeMode (rule R352). -/
inductive UpgradeMode where
  | fullDiskUpgrade
  | partitionUpgrade
  | burnUserId
  | dumpPartition
  | burnImgForce
  | burnFrozen
  | invalid
  deriving DecidableEq, Repr, Inhabited

/-- A partition descriptor: `start` and `size` in storage blocks, `bs` bytes a block (rule R12). -/
structure Desc where
  start : U32
  size : U32
  bs : U32
  deriving DecidableEq, Repr

/-- The parameter `P_CRC16` (rules R11, R141): the default instance CRC-16/XMODEM, or another function,
of which nothing is known (log 26). -/
inductive Crc16Alg where
  | xmodem
  | other (k : Nat)
  deriving DecidableEq, Repr

/-- The parameter `P_CRC32` (rules R11, R283): the default zlib CRC-32, or another record `init`, `update`,
of which nothing is known (log 26). -/
inductive Crc32Alg where
  | zlib
  | other (k : Nat)
  deriving DecidableEq, Repr

/-- The parameter `P_HDRSUM` (rules R11, R341, R345): open. `byteSum` is the sample of the examples of
44_command_interface.md; `other k` is a function of which nothing is known (log 26). -/
inductive HdrSumAlg where
  | byteSum
  | other (k : Nat)
  deriving DecidableEq, Repr

/-- The parameter `UNKNOWN_CHUNK_POLICY` (rules R11, R297). -/
inductive ChunkPolicy where
  | hardError
  | reuseLast
  deriving DecidableEq, Repr

/-- The parameter `FILL_STRATEGY` (rules R11, R295). -/
inductive FillStrategy where
  | alwaysFill
  | eraseOpt
  deriving DecidableEq, Repr

/-- The parameter `HDR_PAD` (rules R9, R11, R98): 0 or 4 pad bytes. -/
inductive HdrPad where
  | none
  | four
  deriving DecidableEq, Repr

/-- The parameters of rule R11: constants of the instance (rule R40). -/
structure Config where
  soh : Byte
  stx : Byte
  ack : Byte
  nak : Byte
  can : Byte
  sigC : Byte
  dc1 : Byte
  dc2 : Byte
  crc16 : Crc16Alg
  /-- `T_FRAME`, ticks. -/
  tFrame : Nat
  /-- `T_ACK`, ticks. -/
  tAck : Nat
  /-- `T_SESSION`, ticks. -/
  tSession : Nat
  /-- `Q_CAP`, tasks. -/
  qCap : Nat
  usbCmdWrite : Byte
  usbCmdRead : Byte
  /-- `PKT_BUF_SIZE`, bytes. -/
  pktBufSize : Nat
  /-- `EP_MPS`, bytes. -/
  epMps : Nat
  sparseMagic : U32
  typeRaw : U16
  typeFill : U16
  typeDontCare : U16
  typeCrc32 : U16
  /-- `SPARSE_HDR_LEN`, bytes. -/
  sparseHdrLen : Nat
  /-- `CHUNK_HDR_LEN`, bytes. -/
  chunkHdrLen : Nat
  crc32 : Crc32Alg
  unknownPolicy : ChunkPolicy
  fillStrategy : FillStrategy
  fillBufBlks : Nat
  eraseThreshBlks : Nat
  eraseGroupBlks : Nat
  hdrPad : HdrPad
  hdrSum : HdrSumAlg
  cmdSetFwcMeta : Byte
  cmdSendFwcData : Byte
  cmdGetFwcCrc : Byte
  cmdGetFwcBurnResult : Byte
  cmdSetUpgCfg : Byte
  cmdSetUpgEnd : Byte
  /-- `RSP_INVALID` (rule R347). -/
  rspInvalid : Byte
  /-- `RSP_FAILED` (rule R347). -/
  rspFailed : Byte
  /-- `T_MODE(BurnUserId)`, microseconds. -/
  tModeUserId : Nat
  /-- `T_MODE(BurnImgForce)`, microseconds. -/
  tModeImgForce : Nat
  deriving DecidableEq, Repr

/-- The parameters at reset. PRESUMED for the defaults the spec marks as general knowledge (log 6), DESIGN CHOICE
for the parameters it leaves open, where the values are the samples of 95_test_vectors.md (log 5). Every statement
about a step holds for every configuration, since the configuration is a field of the state. -/
def Config.default : Config where
  soh := 0x01
  stx := 0x02
  ack := 0x06
  nak := 0x15
  can := 0x18
  sigC := 0x43
  dc1 := 0x11
  dc2 := 0x12
  crc16 := .xmodem
  tFrame := 3
  tAck := 5
  tSession := 50
  qCap := 4
  usbCmdWrite := 0x01
  usbCmdRead := 0x02
  pktBufSize := 1024
  epMps := 512
  sparseMagic := 0xED26FF3A
  typeRaw := 0xCAC1
  typeFill := 0xCAC2
  typeDontCare := 0xCAC3
  typeCrc32 := 0xCAC4
  sparseHdrLen := 28
  chunkHdrLen := 12
  crc32 := .zlib
  unknownPolicy := .hardError
  fillStrategy := .alwaysFill
  fillBufBlks := 256
  eraseThreshBlks := 1024
  eraseGroupBlks := 1024
  hdrPad := .none
  hdrSum := .other 0
  cmdSetFwcMeta := 0x11
  cmdSendFwcData := 0x10
  cmdGetFwcCrc := 0x12
  cmdGetFwcBurnResult := 0x13
  cmdSetUpgCfg := 0x14
  cmdSetUpgEnd := 0x15
  rspInvalid := 0x01
  rspFailed := 0x02
  tModeUserId := 1000
  tModeImgForce := 2000

namespace Config

/-! Constants the source fixes (rule R9) and constants derived from them (rule R10). -/

/-- `SHORT_MAX`. -/
def shortMax : Nat := 61
/-- `LONG_LEN`. -/
def longLen : Nat := 1024
/-- `LONG_FRAME_LEN` and `FRAME_BUF_SIZE`, both 1029 (rule R10). -/
def longFrameLen : Nat := 3 + longLen + 2
/-- `CBW_LEN`. -/
def cbwLen : Nat := 31
/-- `CSW_LEN`. -/
def cswLen : Nat := 13
/-- `CBW_SIG`. -/
def cbwSig : U32 := 0x43425355
/-- `CSW_SIG`. -/
def cswSig : U32 := 0x53425355
/-- `CMD_MAGIC` (rule R97). -/
def cmdMagic : U32 := 0x43475055
/-- `RSP_MAGIC` (rule R97). -/
def rspMagic : U32 := 0x52475055
/-- `PROTO`. -/
def proto : Byte := 1
/-- `VERSION`. -/
def version : Byte := 1
/-- `FWHDR_LEN` (rule R105): the block of the FirmwareImageHeader, which no unit reads. -/
def fwHdrLen : Nat := 2048

/-- The pad bytes of `HDR_PAD`. -/
def padBytes : HdrPad → Nat
  | .none => 0
  | .four => 4

/-- `HDR_LEN = 16 + HDR_PAD` (rule R9). -/
def hdrLen (c : Config) : Nat := 16 + padBytes c.hdrPad

/-! Free values. The collaborators' answers are applied to a counter of calls (rules R8, R21, R233, U16, U17; log 3). -/

/-- Answer of `DISP.EXPECT` (rule R233): any u32. -/
opaque freeExpect : Nat → U32
/-- Answer of `DISP.OUT` (rule R233), before it is limited to the bytes given. -/
opaque freeConsumed : Nat → Nat
/-- Answer of `DISP.IN` (rule R233), before it is limited to the bytes asked. -/
opaque freeSupply : Nat → Bytes
/-- Answer of `DISP.STATUS` (rule R233): any u8. -/
opaque freeStatus : Nat → Byte
/-- Answer of `DEV.WRITE` (rule R305): ok or fail. -/
opaque freeWriteOk : Nat → Bool
/-- Answer of `DEV.ERASE` (rule R305): ok or fail. -/
opaque freeEraseOk : Nat → Bool
/-- Answer of `DEV.READ` (rules R301, U16): fail, or bytes that stand in place of the stored ones. -/
opaque freeRead : Nat → Option Bytes
/-- A byte of a block named by a call that answered fail (U9), by the call's number and the byte's address (log 9). -/
opaque freeFailedByte : Nat → Nat → Byte
/-- Answer of the partition lookup by name (rules R61, R349): not found, or a descriptor (log 18). -/
opaque freeLookup : Nat → Option Desc
/-- The mode that a SET_UPG_CFG payload requests (rule R353, N13; log 18). -/
opaque freeMode : Nat → UpgradeMode
/-- Where among the pending events the dispatcher's SSW.CLOSE comes to stand after an abort (rules R356, R436; log 28). -/
opaque freeClose : Nat → Nat
/-- The GET_FWC_CRC payload for a return code and a CRC: format not in the source (rule R349, N13; log 18). -/
opaque crcPayload : Byte → U32 → Bytes
/-- Status and payload of GET_FWC_BURN_RESULT for an outcome code: format not in the source (rule R349, N13; log 18). Its status
stands for the errors only whose failure status no rule gives. -/
opaque burnReply : Byte → Byte × Bytes
/-- Byte 6 of a rejected header that has fewer than 7 bytes (rule R344; log 21). -/
opaque absentEcho : Byte
/-- Whether BurnUserId is the required mode when InitMode holds both modes that can be required (rule R354; log 20). -/
opaque userIdFirst : Bool
/-- A byte of the blocks that a DEV.WRITE row of no whole blocks touches, by the call's number and the byte's address (log 35). -/
opaque freeOddByte : Nat → Nat → Byte
/-- A `P_CRC16` other than the default (rule R141; log 26). -/
opaque crc16Other : Nat → Bytes → U16
/-- `init` of a `P_CRC32` other than the default (rule R283; log 26). -/
opaque crc32OtherInit : Nat → U32
/-- `update` of a `P_CRC32` other than the default (rule R283; log 26). -/
opaque crc32OtherUpdate : Nat → U32 → Bytes → U32
/-- A `P_HDRSUM` (rule R345; log 26). -/
opaque hdrSumOther : Nat → Bytes → U32

end Config

/-- The streaming law of rule R283: the value after a stream does not depend on how the stream was cut. -/
def Streams (update : U32 → Bytes → U32) : Prop :=
  (∀ c a b, update (update c a) b = update c (a ++ b)) ∧ ∀ c, update c [] = c

/-- What rule R11 asks of a `P_CRC32`. The default has the law (theorem crc32Zlib_streams); of another record it is a premise. -/
def Crc32Alg.lawful : Crc32Alg → Prop
  | .zlib => True
  | .other k => Streams (Config.crc32OtherUpdate k)

/-- The constraints of rule R11 (and of rule R347 on the two response codes) on the values of the parameters. A header has room for
its fields and its length fits the 16-bit field that repeats it (rules R102, R103; log 32). -/
abbrev Config.okValues (c : Config) : Prop :=
  [c.soh, c.stx, c.ack, c.nak, c.can, c.sigC, c.dc1, c.dc2].Nodup ∧
  1 ≤ c.tFrame ∧ 1 ≤ c.tAck ∧ 1 ≤ c.tSession ∧ 1 ≤ c.qCap ∧
  c.usbCmdWrite ≠ c.usbCmdRead ∧ 31 ≤ c.pktBufSize ∧ 31 ≤ c.epMps ∧
  [c.typeRaw, c.typeFill, c.typeDontCare, c.typeCrc32].Nodup ∧
  1 ≤ c.fillBufBlks ∧ 1 ≤ c.eraseThreshBlks ∧ 1 ≤ c.eraseGroupBlks ∧
  [c.cmdSetFwcMeta, c.cmdSendFwcData, c.cmdGetFwcCrc, c.cmdGetFwcBurnResult, c.cmdSetUpgCfg, c.cmdSetUpgEnd].Nodup ∧
  [0, c.rspInvalid, c.rspFailed].Nodup ∧
  28 ≤ c.sparseHdrLen ∧ c.sparseHdrLen < 65536 ∧ 12 ≤ c.chunkHdrLen ∧ c.chunkHdrLen < 65536

/-- The constraints of rule R11 on an instance: its values, and the streaming law of its `P_CRC32`. -/
def Config.ok (c : Config) : Prop := c.okValues ∧ c.crc32.lawful

end Sys2Proof
end

