-- ==== Sys2Proof/Syntax.lean ====
section
/-! DEFINITION. The instructions: one constructor for each row of spec/opcode_table.json (log 1).
The block executes no instruction stream (rules R1, R20): a wire-format row stands for the arrival of those bytes at
the unit that reads them, an event row for the event, a function row for one call, an action row for the action performed. -/

namespace Sys2Proof

/-- The CBW bits the block ignores (rules R100, R124): flag bits 6:0, offset 13, `bCBWCBLength`, offsets 16 to 30. -/
structure CbwRest where
  flags : BitVec 7
  lun : Byte
  cbLen : Byte
  reserved : Bytes
  deriving DecidableEq, Repr

/-- A command or response header without its magic, command byte and byte 7 (rules R98, R99). -/
structure HdrRest where
  protocol : Byte
  version : Byte
  dataLength : U32
  pad : Bytes
  checksum : U32
  deriving DecidableEq, Repr

/-- What a chunk header carries and no rule reads (rule R103): the reserved field, and the bytes past the fields where
`CHUNK_HDR_LEN` is greater than 12 (log 32). -/
structure ChunkRest where
  reserved : U16
  extra : Bytes
  deriving DecidableEq, Repr

/-- What a sparse header carries after its counts and no rule uses (rules R102, R288): the image checksum, and the bytes past the
fields where `SPARSE_HDR_LEN` is greater than 28 (log 32). -/
structure SparseRest where
  checksum : U32
  extra : Bytes
  deriving DecidableEq, Repr

/-- A bulk transfer completion: what a bulk-OUT transfer delivered, or how many bytes a bulk-IN transfer sent (rule R8). -/
inductive Completion where
  | out (bytes : Bytes)
  | inn (n : U32)
  deriving DecidableEq, Repr

/-- The rows of spec/opcode_table.json, in the table's order. -/
inductive Instr where
  -- control bytes (rule R93): the byte arrives on the UART link
  | sigC
  | dc1
  | dc2
  | ack
  | nak
  | can
  | soh
  | stx
  | uartDropped (b : Byte)
  -- UART frames (rules R91, R92): the frame's bytes arrive, damaged ones included
  | shortFrame (blk cblk : Byte) (data : Bytes) (crc : U16)
  | longFrame (blk cblk : Byte) (data : Bytes) (crc : U16)
  -- CBW and CSW (rules R100, R101)
  | cbwWrite (tag len : U32) (rest : CbwRest)
  | cbwRead (tag len : U32) (rest : CbwRest)
  | cbwMalformed (bytes : Bytes)
  | csw (tag residue : U32) (status : Byte)
  -- sparse container (rules R102 to R104): the header's bytes are pushed to the writer
  | sparseHeader (major minor : U16) (blkSz totalBlks totalChunks : U32) (rest : SparseRest)
  | chunkRaw (rest : ChunkRest) (chunkSz totalSz : U32)
  | chunkFill (rest : ChunkRest) (chunkSz totalSz : U32)
  | chunkDontCare (rest : ChunkRest) (chunkSz totalSz : U32)
  | chunkCrc32 (rest : ChunkRest) (chunkSz totalSz : U32)
  | chunkUnknown (chunkType : U16) (rest : ChunkRest) (chunkSz totalSz : U32)
  -- command and response headers (rules R98, R99), and the six commands (rule R349) with the payload they carry
  | commandHeader (command reserved : Byte) (rest : HdrRest)
  | responseHeader (command status : Byte) (rest : HdrRest)
  | cmdSetFwcMeta (via : Transport) (reserved : Byte) (rest : HdrRest) (payload : Bytes)
  | cmdSendFwcData (via : Transport) (reserved : Byte) (rest : HdrRest) (payload : Bytes)
  | cmdGetFwcCrc (via : Transport) (reserved : Byte) (rest : HdrRest) (payload : Bytes)
  | cmdGetFwcBurnResult (via : Transport) (reserved : Byte) (rest : HdrRest) (payload : Bytes)
  | cmdSetUpgCfg (via : Transport) (reserved : Byte) (rest : HdrRest) (payload : Bytes)
  | cmdSetUpgEnd (via : Transport) (reserved : Byte) (rest : HdrRest) (payload : Bytes)
  -- port events (rule R8)
  | reset
  | tick
  | uartRx (b : Byte)
  | upeInit
  | upeDeinit
  | startRead (len : U32)
  | startWrite (data : Bytes)
  | getStatus
  | setStatus (code : Byte)
  | uteInit
  | usbReset
  | outDoneReadCbw (bytes : Bytes)
  | outDoneDataOut (bytes : Bytes)
  | inDoneDataIn (n : U32)
  | inDoneWaitCsw (n : U32)
  | doneIgnored (c : Completion)
  | sswOpen (start size bs : U32)
  | sswClose
  | sswPush (bytes : Bytes)
  | pushDetect
  | pushSpHdr
  | pushSpChunkHdr
  | pushSpRaw
  | pushSpFill
  | pushSpDone
  | pushRaw
  | sswGetResult
  | sswGetCrc
  -- functions of FC and of the dispatcher interface
  | crc16 (data : Bytes)
  | packShort (blk : Byte) (data : Bytes)
  | packLong (blk : Byte) (data : Bytes)
  | packFrame (blk : Byte) (data : Bytes)
  | frameTotal (pre : Bytes)
  | unpack (frame : Bytes)
  | slice (rem : U32)
  | split (blk0 : Byte) (data : Bytes)
  | hdrEncodeCmd (protocol version command reserved : Byte) (dataLength : U32)
  | hdrDecodeCmd (bytes : Bytes)
  | hdrEncodeRsp (protocol version command status : Byte) (dataLength : U32)
  | hdrDecodeRsp (bytes : Bytes)
  | handleCommand (via : Transport) (header payload : Bytes)
  | checkUpgMode (now : U64)
  -- output actions and oracle calls (rule R8)
  | uartTx (bytes : Bytes)
  | epRecv (n : U32)
  | epSend (bytes : Bytes)
  | dispExpect (cmd : Byte) (len : U32)
  | dispOut (bytes : Bytes)
  | dispIn (n : U32)
  | dispStatus
  | devWrite (blk : U32) (data : Bytes)
  | devRead (blk n : U32)
  | devErase (blk n : U32)
  | progress (percent : Byte)
  deriving DecidableEq, Repr

end Sys2Proof
end

