-- ==== Sys2Proof/WellFormed.lean ====
section
/-! DEFINITION. Which instructions are well formed: the operands that an encoding of 30_encoding.md, or a port of
rule R8, can carry. A frame whose complement, length or CRC is wrong is well formed: rule R122 gives it a meaning. -/

namespace Sys2Proof

/-- The eight control bytes (rule R93). -/
def Config.controlBytes (c : Config) : List Byte := [c.soh, c.stx, c.ack, c.nak, c.can, c.sigC, c.dc1, c.dc2]

/-- The four known chunk types (rule R104). -/
def Config.chunkTypes (c : Config) : List U16 := [c.typeRaw, c.typeFill, c.typeDontCare, c.typeCrc32]

/-- The pad of a header is `HDR_PAD` bytes (rule R98). -/
abbrev HdrRest.wf (c : Config) (h : HdrRest) : Prop := h.pad.length = Config.padBytes c.hdrPad

/-- A chunk header is `CHUNK_HDR_LEN` bytes (rules R11, R103). -/
abbrev ChunkRest.wf (c : Config) (r : ChunkRest) : Prop := r.extra.length + 12 = c.chunkHdrLen

/-- A sparse header is `SPARSE_HDR_LEN` bytes (rules R11, R102). -/
abbrev SparseRest.wf (c : Config) (r : SparseRest) : Prop := r.extra.length + 28 = c.sparseHdrLen

/-- 31 bytes, `CBW_SIG`, a known command byte and the direction flag that goes with it (rules R117, R123). -/
abbrev Config.goodCbw (c : Config) (b : Bytes) : Prop :=
  b.length = Config.cbwLen ∧ b.take 4 = [0x55, 0x53, 0x42, 0x43] ∧
  ((b.getD 15 0 = c.usbCmdWrite ∧ (b.getD 12 0).msb = false) ∨ (b.getD 15 0 = c.usbCmdRead ∧ (b.getD 12 0).msb = true))

/-- The operands an encoding can carry. -/
abbrev Instr.wf (c : Config) : Instr → Prop
  | .uartDropped b => b ∉ c.controlBytes
  | .shortFrame _ _ data _ => data.length ≤ 255
  | .longFrame _ _ data _ => data.length = Config.longLen
  | .cbwWrite _ _ r => r.reserved.length = 15
  | .cbwRead _ _ r => r.reserved.length = 15
  | .cbwMalformed b => ¬ c.goodCbw b
  | .sparseHeader _ _ _ _ _ r => r.wf c
  | .chunkRaw r _ _ => r.wf c
  | .chunkFill r _ _ => r.wf c
  | .chunkDontCare r _ _ => r.wf c
  | .chunkCrc32 r _ _ => r.wf c
  | .chunkUnknown ty r _ _ => ty ∉ c.chunkTypes ∧ r.wf c
  | .commandHeader _ _ r => r.wf c
  | .responseHeader _ _ r => r.wf c
  | .cmdSetFwcMeta _ _ r _ => r.wf c
  | .cmdSendFwcData _ _ r _ => r.wf c
  | .cmdGetFwcCrc _ _ r _ => r.wf c
  | .cmdGetFwcBurnResult _ _ r _ => r.wf c
  | .cmdSetUpgCfg _ _ r _ => r.wf c
  | .cmdSetUpgEnd _ _ r _ => r.wf c
  | .startWrite data => data.length < 2 ^ 32
  | .handleCommand _ h _ => h.length < 2 ^ 32
  | .sigC => True
  | .dc1 => True
  | .dc2 => True
  | .ack => True
  | .nak => True
  | .can => True
  | .soh => True
  | .stx => True
  | .csw _ _ _ => True
  | .reset => True
  | .tick => True
  | .uartRx _ => True
  | .upeInit => True
  | .upeDeinit => True
  | .startRead _ => True
  | .getStatus => True
  | .setStatus _ => True
  | .uteInit => True
  | .usbReset => True
  | .outDoneReadCbw _ => True
  | .outDoneDataOut _ => True
  | .inDoneDataIn _ => True
  | .inDoneWaitCsw _ => True
  | .doneIgnored _ => True
  | .sswOpen _ _ _ => True
  | .sswClose => True
  | .sswPush _ => True
  | .pushDetect => True
  | .pushSpHdr => True
  | .pushSpChunkHdr => True
  | .pushSpRaw => True
  | .pushSpFill => True
  | .pushSpDone => True
  | .pushRaw => True
  | .sswGetResult => True
  | .sswGetCrc => True
  | .crc16 _ => True
  | .packShort _ _ => True
  | .packLong _ _ => True
  | .packFrame _ _ => True
  | .frameTotal _ => True
  | .unpack _ => True
  | .slice _ => True
  | .split _ _ => True
  | .hdrEncodeCmd _ _ _ _ _ => True
  | .hdrDecodeCmd _ => True
  | .hdrEncodeRsp _ _ _ _ _ => True
  | .hdrDecodeRsp _ => True
  | .checkUpgMode _ => True
  | .uartTx _ => True
  | .epRecv _ => True
  | .epSend _ => True
  | .dispExpect _ _ => True
  | .dispOut _ => True
  | .dispIn _ => True
  | .dispStatus => True
  | .devWrite _ _ => True
  | .devRead _ _ => True
  | .devErase _ _ => True
  | .progress _ => True

end Sys2Proof
end

