-- ==== Sys2Proof/Machine/Operands.lean ====
section
/-! DEFINITION. The wire formats of 30_encoding.md as byte strings, field by field: every operand form of the rows
of the opcode table that have a wire encoding. -/

namespace Sys2Proof

/-- The short frame of rule R91 with the fields as given (its length byte is the number of data bytes). -/
def shortFrameBytes (c : Config) (blk cblk : Byte) (data : Bytes) (crc : U16) : Bytes :=
  c.soh :: blk :: cblk :: BitVec.ofNat 8 data.length :: (data ++ encBe16 crc)

/-- The long frame of rule R92 with the fields as given. -/
def longFrameBytes (c : Config) (blk cblk : Byte) (data : Bytes) (crc : U16) : Bytes :=
  c.stx :: blk :: cblk :: (data ++ encBe16 crc)

/-- The CBW of rule R100. -/
def cbwBytes (tag len : U32) (dirIn : Bool) (cmd : Byte) (r : CbwRest) : Bytes :=
  encLe32 Config.cbwSig ++ encLe32 tag ++ encLe32 len ++ [flagsByte dirIn r.flags, r.lun, r.cbLen, cmd] ++ r.reserved

/-- The CSW of rule R101. -/
def cswBytes (tag residue : U32) (status : Byte) : Bytes :=
  encLe32 Config.cswSig ++ encLe32 tag ++ encLe32 residue ++ [status]

/-- The sparse header of rule R102 with `file_hdr_sz` `SPARSE_HDR_LEN` and `chunk_hdr_sz` `CHUNK_HDR_LEN` (28 and 12 by default);
`r` has the bytes past the fields (log 32). -/
def sparseHeaderBytes (c : Config) (major minor : U16) (blkSz totalBlks totalChunks : U32) (r : SparseRest) : Bytes :=
  encLe32 c.sparseMagic ++ encLe16 major ++ encLe16 minor ++ encLe16 (BitVec.ofNat 16 c.sparseHdrLen)
    ++ encLe16 (BitVec.ofNat 16 c.chunkHdrLen) ++ encLe32 blkSz ++ encLe32 totalBlks ++ encLe32 totalChunks
    ++ encLe32 r.checksum ++ r.extra

/-- The chunk header of rule R103. -/
def chunkHeaderBytes (chunkType : U16) (r : ChunkRest) (chunkSz totalSz : U32) : Bytes :=
  encLe16 chunkType ++ encLe16 r.reserved ++ encLe32 chunkSz ++ encLe32 totalSz ++ r.extra

/-- A CommandHeader or ResponseHeader (rules R98, R99): `b7` is the reserved or the status byte. -/
def headerBytes (magic : U32) (command b7 : Byte) (r : HdrRest) : Bytes :=
  encLe32 magic ++ [r.protocol, r.version, command, b7] ++ encLe32 r.dataLength ++ r.pad ++ encLe32 r.checksum

/-- The ignored bytes of a chunk header (rule R103). -/
def chunkRestOf (b : Bytes) : ChunkRest where
  reserved := le16 b 2
  extra := b.drop 12

/-- The ignored fields of a CBW's bytes (rules R100, R124). -/
def cbwRestOf (b : Bytes) : CbwRest where
  flags := low7 (byteAt b 12)
  lun := byteAt b 13
  cbLen := byteAt b 14
  reserved := bytesAt b 16 15

/-- The fields of a header's bytes other than magic, command and byte 7 (rules R98, R99). -/
def hdrRestOf (c : Config) (b : Bytes) : HdrRest where
  protocol := byteAt b 4
  version := byteAt b 5
  dataLength := le32 b 8
  pad := bytesAt b 12 (Config.padBytes c.hdrPad)
  checksum := le32 b (12 + Config.padBytes c.hdrPad)

end Sys2Proof
end

