-- ==== Sys2Proof/Decode.lean ====
section
/-! DEFINITION. The decoder: total on any bytes at any port, rejecting by name; and the encoder after it.
A packet is what waits at a port: on a wire, the bytes of 30_encoding.md; at the other ports, the operand bytes
of the event, call or action (log 12). -/

namespace Sys2Proof

/-- Where a packet waits: a wire, or the port of an event, function or action row (rule R8, log 12). -/
inductive Port where
  /-- One byte on the UART link (rule R93). -/
  | uartWire
  /-- The bytes of one UART frame (rules R91, R92). -/
  | frameWire
  /-- One bulk-OUT transfer where a CBW is expected (rule R100). -/
  | outWire
  /-- One bulk-IN transfer that is a CSW (rule R101). -/
  | inWire
  /-- A sparse header in the image stream (rule R102). -/
  | imageWire
  /-- A chunk header in the image stream (rule R103). -/
  | chunkWire
  /-- A command or response header (rules R98, R99). -/
  | headerWire
  /-- A command header and the payload after it, on a transport (rule R349). -/
  | commandWire (via : Transport)
  | reset | tick | uartRx
  | upeInit | upeDeinit | startRead | startWrite | getStatus | setStatus
  | uteInit | usbReset | outDoneReadCbw | outDoneDataOut | inDoneDataIn | inDoneWaitCsw | ignoredOut | ignoredIn
  | sswOpen | sswClose | sswPush
  | pushDetect | pushSpHdr | pushSpChunkHdr | pushSpRaw | pushSpFill | pushSpDone | pushRaw
  | sswGetResult | sswGetCrc
  | crc16 | packShort | packLong | packFrame | frameTotal | unpack | slice | split
  | hdrEncodeCmd | hdrDecodeCmd | hdrEncodeRsp | hdrDecodeRsp
  | handleCommand (via : Transport)
  | checkUpgMode
  | uartTx | epRecv | epSend | dispExpect | dispOut | dispIn | dispStatus | devWrite | devRead | devErase | progress
  deriving DecidableEq, Repr

/-- What waits at a port. -/
structure Packet where
  port : Port
  bytes : Bytes
  deriving DecidableEq, Repr

/-- Why a packet stands for no instruction. -/
inductive DecodeErr where
  /-- The number of bytes is not what the format or the operands take. -/
  | length
  /-- A frame whose first byte is neither SOH nor STX (rule R146). -/
  | lead
  /-- A signature or magic that is none of the format's (rules R98 to R102). -/
  | magic
  /-- A header size in a sparse header other than the two that the row's encoding fixes (rule R127). -/
  | headerSize
  /-- A command byte that is none of the six (rule R118). -/
  | command
  /-- An operand outside the range the row gives it. -/
  | operand
  deriving DecidableEq, Repr

/-- The control byte rows (rule R93); every other value is UART_DROPPED (rule R191). -/
def decodeUartByte (c : Config) (b : Byte) : Instr :=
  if b = c.sigC then .sigC
  else if b = c.dc1 then .dc1
  else if b = c.dc2 then .dc2
  else if b = c.ack then .ack
  else if b = c.nak then .nak
  else if b = c.can then .can
  else if b = c.soh then .soh
  else if b = c.stx then .stx
  else .uartDropped b

/-- A whole frame by its lead byte (rule R96). -/
def decodeFrame (c : Config) (b : Bytes) : Except DecodeErr Instr :=
  match b with
  | [] => .error .length
  | lead :: _ =>
    if lead = c.stx then
      if b.length = Config.longFrameLen then
        .ok (.longFrame (byteAt b 1) (byteAt b 2) (bytesAt b 3 Config.longLen) (be16 b (3 + Config.longLen)))
      else .error .length
    else if lead = c.soh then
      if b.length = 6 + (byteAt b 3).toNat then
        .ok (.shortFrame (byteAt b 1) (byteAt b 2) (bytesAt b 4 (b.length - 6)) (be16 b (b.length - 2)))
      else .error .length
    else .error .lead

/-- A bulk-OUT transfer where a CBW is expected (rules R116, R117, R123). -/
def decodeCbw (c : Config) (b : Bytes) : Instr :=
  if c.goodCbw b then
    if bit7 (byteAt b 12) then .cbwRead (le32 b 4) (le32 b 8) (cbwRestOf b)
    else .cbwWrite (le32 b 4) (le32 b 8) (cbwRestOf b)
  else .cbwMalformed b

/-- A CSW (rule R101). -/
def decodeCsw (b : Bytes) : Except DecodeErr Instr :=
  if b.length = Config.cswLen then
    if le32 b 0 = Config.cswSig then .ok (.csw (le32 b 4) (le32 b 8) (byteAt b 12)) else .error .magic
  else .error .length

/-- A sparse header (rule R102). -/
def decodeSparseHeader (c : Config) (b : Bytes) : Except DecodeErr Instr :=
  if b.length = c.sparseHdrLen then
    if le32 b 0 = c.sparseMagic then
      if (le16 b 8).toNat = c.sparseHdrLen ∧ (le16 b 10).toNat = c.chunkHdrLen then
        .ok (.sparseHeader (le16 b 4) (le16 b 6) (le32 b 12) (le32 b 16) (le32 b 20) ⟨le32 b 24, b.drop 28⟩)
      else .error .headerSize
    else .error .magic
  else .error .length

/-- A chunk header (rules R103, R104, R126). -/
def decodeChunkHeader (c : Config) (b : Bytes) : Except DecodeErr Instr :=
  if b.length = c.chunkHdrLen then
    if le16 b 0 = c.typeRaw then .ok (.chunkRaw (chunkRestOf b) (le32 b 4) (le32 b 8))
    else if le16 b 0 = c.typeFill then .ok (.chunkFill (chunkRestOf b) (le32 b 4) (le32 b 8))
    else if le16 b 0 = c.typeDontCare then .ok (.chunkDontCare (chunkRestOf b) (le32 b 4) (le32 b 8))
    else if le16 b 0 = c.typeCrc32 then .ok (.chunkCrc32 (chunkRestOf b) (le32 b 4) (le32 b 8))
    else .ok (.chunkUnknown (le16 b 0) (chunkRestOf b) (le32 b 4) (le32 b 8))
  else .error .length

/-- A command or response header (rules R98, R99). -/
def decodeHeader (c : Config) (b : Bytes) : Except DecodeErr Instr :=
  if b.length = c.hdrLen then
    if le32 b 0 = Config.cmdMagic then .ok (.commandHeader (byteAt b 6) (byteAt b 7) (hdrRestOf c b))
    else if le32 b 0 = Config.rspMagic then .ok (.responseHeader (byteAt b 6) (byteAt b 7) (hdrRestOf c b))
    else .error .magic
  else .error .length

/-- A command header and the payload after it (rules R98, R118, R349). -/
def decodeCommand (c : Config) (via : Transport) (b : Bytes) : Except DecodeErr Instr :=
  if c.hdrLen ≤ b.length then
    if le32 b 0 = Config.cmdMagic then
      if byteAt b 6 = c.cmdSetFwcMeta then .ok (.cmdSetFwcMeta via (byteAt b 7) (hdrRestOf c b) (b.drop c.hdrLen))
      else if byteAt b 6 = c.cmdSendFwcData then .ok (.cmdSendFwcData via (byteAt b 7) (hdrRestOf c b) (b.drop c.hdrLen))
      else if byteAt b 6 = c.cmdGetFwcCrc then .ok (.cmdGetFwcCrc via (byteAt b 7) (hdrRestOf c b) (b.drop c.hdrLen))
      else if byteAt b 6 = c.cmdGetFwcBurnResult then
        .ok (.cmdGetFwcBurnResult via (byteAt b 7) (hdrRestOf c b) (b.drop c.hdrLen))
      else if byteAt b 6 = c.cmdSetUpgCfg then .ok (.cmdSetUpgCfg via (byteAt b 7) (hdrRestOf c b) (b.drop c.hdrLen))
      else if byteAt b 6 = c.cmdSetUpgEnd then .ok (.cmdSetUpgEnd via (byteAt b 7) (hdrRestOf c b) (b.drop c.hdrLen))
      else .error .command
    else .error .magic
  else .error .length

/-- An instruction without operands. -/
def decodePlain (i : Instr) (b : Bytes) : Except DecodeErr Instr :=
  if b.length = 0 then .ok i else .error .length

/-- An instruction whose operands take `n` bytes. -/
def decodeFixed (n : Nat) (i : Bytes → Instr) (b : Bytes) : Except DecodeErr Instr :=
  if b.length = n then .ok (i b) else .error .length

/-- An instruction whose operands take at least `n` bytes. -/
def decodeAtLeast (n : Nat) (i : Bytes → Instr) (b : Bytes) : Except DecodeErr Instr :=
  if n ≤ b.length then .ok (i b) else .error .length

/-- The decoder: the instruction that a packet stands for, or the reason why it stands for none. -/
def decode (c : Config) (p : Packet) : Except DecodeErr Instr :=
  match p.port with
  | .uartWire => decodeFixed 1 (fun b => decodeUartByte c (byteAt b 0)) p.bytes
  | .frameWire => decodeFrame c p.bytes
  | .outWire => .ok (decodeCbw c p.bytes)
  | .inWire => decodeCsw p.bytes
  | .imageWire => decodeSparseHeader c p.bytes
  | .chunkWire => decodeChunkHeader c p.bytes
  | .headerWire => decodeHeader c p.bytes
  | .commandWire via => decodeCommand c via p.bytes
  | .reset => decodePlain .reset p.bytes
  | .tick => decodePlain .tick p.bytes
  | .uartRx => decodeFixed 1 (fun b => .uartRx (byteAt b 0)) p.bytes
  | .upeInit => decodePlain .upeInit p.bytes
  | .upeDeinit => decodePlain .upeDeinit p.bytes
  | .startRead => decodeFixed 4 (fun b => .startRead (le32 b 0)) p.bytes
  | .startWrite => if p.bytes.length < 2 ^ 32 then .ok (.startWrite p.bytes) else .error .operand
  | .getStatus => decodePlain .getStatus p.bytes
  | .setStatus => decodeFixed 1 (fun b => .setStatus (byteAt b 0)) p.bytes
  | .uteInit => decodePlain .uteInit p.bytes
  | .usbReset => decodePlain .usbReset p.bytes
  | .outDoneReadCbw => .ok (.outDoneReadCbw p.bytes)
  | .outDoneDataOut => .ok (.outDoneDataOut p.bytes)
  | .inDoneDataIn => decodeFixed 4 (fun b => .inDoneDataIn (le32 b 0)) p.bytes
  | .inDoneWaitCsw => decodeFixed 4 (fun b => .inDoneWaitCsw (le32 b 0)) p.bytes
  | .ignoredOut => .ok (.doneIgnored (.out p.bytes))
  | .ignoredIn => decodeFixed 4 (fun b => .doneIgnored (.inn (le32 b 0))) p.bytes
  | .sswOpen => decodeFixed 12 (fun b => .sswOpen (le32 b 0) (le32 b 4) (le32 b 8)) p.bytes
  | .sswClose => decodePlain .sswClose p.bytes
  | .sswPush => .ok (.sswPush p.bytes)
  | .pushDetect => decodePlain .pushDetect p.bytes
  | .pushSpHdr => decodePlain .pushSpHdr p.bytes
  | .pushSpChunkHdr => decodePlain .pushSpChunkHdr p.bytes
  | .pushSpRaw => decodePlain .pushSpRaw p.bytes
  | .pushSpFill => decodePlain .pushSpFill p.bytes
  | .pushSpDone => decodePlain .pushSpDone p.bytes
  | .pushRaw => decodePlain .pushRaw p.bytes
  | .sswGetResult => decodePlain .sswGetResult p.bytes
  | .sswGetCrc => decodePlain .sswGetCrc p.bytes
  | .crc16 => .ok (.crc16 p.bytes)
  | .packShort => decodeAtLeast 1 (fun b => .packShort (byteAt b 0) (b.drop 1)) p.bytes
  | .packLong => decodeAtLeast 1 (fun b => .packLong (byteAt b 0) (b.drop 1)) p.bytes
  | .packFrame => decodeAtLeast 1 (fun b => .packFrame (byteAt b 0) (b.drop 1)) p.bytes
  | .frameTotal => .ok (.frameTotal p.bytes)
  | .unpack => .ok (.unpack p.bytes)
  | .slice => decodeFixed 4 (fun b => .slice (le32 b 0)) p.bytes
  | .split => decodeAtLeast 1 (fun b => .split (byteAt b 0) (b.drop 1)) p.bytes
  | .hdrEncodeCmd =>
    decodeFixed 8 (fun b => .hdrEncodeCmd (byteAt b 0) (byteAt b 1) (byteAt b 2) (byteAt b 3) (le32 b 4)) p.bytes
  | .hdrDecodeCmd => .ok (.hdrDecodeCmd p.bytes)
  | .hdrEncodeRsp =>
    decodeFixed 8 (fun b => .hdrEncodeRsp (byteAt b 0) (byteAt b 1) (byteAt b 2) (byteAt b 3) (le32 b 4)) p.bytes
  | .hdrDecodeRsp => .ok (.hdrDecodeRsp p.bytes)
  | .handleCommand via =>
    if 4 + (le32 p.bytes 0).toNat ≤ p.bytes.length then
      .ok (.handleCommand via (bytesAt p.bytes 4 (le32 p.bytes 0).toNat) (p.bytes.drop (4 + (le32 p.bytes 0).toNat)))
    else .error .length
  | .checkUpgMode => decodeFixed 8 (fun b => .checkUpgMode (le64 b 0)) p.bytes
  | .uartTx => .ok (.uartTx p.bytes)
  | .epRecv => decodeFixed 4 (fun b => .epRecv (le32 b 0)) p.bytes
  | .epSend => .ok (.epSend p.bytes)
  | .dispExpect => decodeFixed 5 (fun b => .dispExpect (byteAt b 0) (le32 b 1)) p.bytes
  | .dispOut => .ok (.dispOut p.bytes)
  | .dispIn => decodeFixed 4 (fun b => .dispIn (le32 b 0)) p.bytes
  | .dispStatus => decodePlain .dispStatus p.bytes
  | .devWrite => decodeAtLeast 4 (fun b => .devWrite (le32 b 0) (b.drop 4)) p.bytes
  | .devRead => decodeFixed 8 (fun b => .devRead (le32 b 0) (le32 b 4)) p.bytes
  | .devErase => decodeFixed 8 (fun b => .devErase (le32 b 0) (le32 b 4)) p.bytes
  | .progress => decodeFixed 1 (fun b => .progress (byteAt b 0)) p.bytes

/-- The encoder: the packet of an instruction, from the layouts of 30_encoding.md and log 12. -/
def encode (c : Config) : Instr → Packet
  | .sigC => ⟨.uartWire, [c.sigC]⟩
  | .dc1 => ⟨.uartWire, [c.dc1]⟩
  | .dc2 => ⟨.uartWire, [c.dc2]⟩
  | .ack => ⟨.uartWire, [c.ack]⟩
  | .nak => ⟨.uartWire, [c.nak]⟩
  | .can => ⟨.uartWire, [c.can]⟩
  | .soh => ⟨.uartWire, [c.soh]⟩
  | .stx => ⟨.uartWire, [c.stx]⟩
  | .uartDropped b => ⟨.uartWire, [b]⟩
  | .shortFrame blk cblk data crc => ⟨.frameWire, shortFrameBytes c blk cblk data crc⟩
  | .longFrame blk cblk data crc => ⟨.frameWire, longFrameBytes c blk cblk data crc⟩
  | .cbwWrite tag len r => ⟨.outWire, cbwBytes tag len false c.usbCmdWrite r⟩
  | .cbwRead tag len r => ⟨.outWire, cbwBytes tag len true c.usbCmdRead r⟩
  | .cbwMalformed b => ⟨.outWire, b⟩
  | .csw tag residue status => ⟨.inWire, cswBytes tag residue status⟩
  | .sparseHeader major minor blkSz totalBlks totalChunks r =>
    ⟨.imageWire, sparseHeaderBytes c major minor blkSz totalBlks totalChunks r⟩
  | .chunkRaw r z t => ⟨.chunkWire, chunkHeaderBytes c.typeRaw r z t⟩
  | .chunkFill r z t => ⟨.chunkWire, chunkHeaderBytes c.typeFill r z t⟩
  | .chunkDontCare r z t => ⟨.chunkWire, chunkHeaderBytes c.typeDontCare r z t⟩
  | .chunkCrc32 r z t => ⟨.chunkWire, chunkHeaderBytes c.typeCrc32 r z t⟩
  | .chunkUnknown ty r z t => ⟨.chunkWire, chunkHeaderBytes ty r z t⟩
  | .commandHeader cmd rsv r => ⟨.headerWire, headerBytes Config.cmdMagic cmd rsv r⟩
  | .responseHeader cmd st r => ⟨.headerWire, headerBytes Config.rspMagic cmd st r⟩
  | .cmdSetFwcMeta via rsv r p => ⟨.commandWire via, headerBytes Config.cmdMagic c.cmdSetFwcMeta rsv r ++ p⟩
  | .cmdSendFwcData via rsv r p => ⟨.commandWire via, headerBytes Config.cmdMagic c.cmdSendFwcData rsv r ++ p⟩
  | .cmdGetFwcCrc via rsv r p => ⟨.commandWire via, headerBytes Config.cmdMagic c.cmdGetFwcCrc rsv r ++ p⟩
  | .cmdGetFwcBurnResult via rsv r p => ⟨.commandWire via, headerBytes Config.cmdMagic c.cmdGetFwcBurnResult rsv r ++ p⟩
  | .cmdSetUpgCfg via rsv r p => ⟨.commandWire via, headerBytes Config.cmdMagic c.cmdSetUpgCfg rsv r ++ p⟩
  | .cmdSetUpgEnd via rsv r p => ⟨.commandWire via, headerBytes Config.cmdMagic c.cmdSetUpgEnd rsv r ++ p⟩
  | .reset => ⟨.reset, []⟩
  | .tick => ⟨.tick, []⟩
  | .uartRx b => ⟨.uartRx, [b]⟩
  | .upeInit => ⟨.upeInit, []⟩
  | .upeDeinit => ⟨.upeDeinit, []⟩
  | .startRead len => ⟨.startRead, encLe32 len⟩
  | .startWrite data => ⟨.startWrite, data⟩
  | .getStatus => ⟨.getStatus, []⟩
  | .setStatus code => ⟨.setStatus, [code]⟩
  | .uteInit => ⟨.uteInit, []⟩
  | .usbReset => ⟨.usbReset, []⟩
  | .outDoneReadCbw b => ⟨.outDoneReadCbw, b⟩
  | .outDoneDataOut b => ⟨.outDoneDataOut, b⟩
  | .inDoneDataIn n => ⟨.inDoneDataIn, encLe32 n⟩
  | .inDoneWaitCsw n => ⟨.inDoneWaitCsw, encLe32 n⟩
  | .doneIgnored (.out b) => ⟨.ignoredOut, b⟩
  | .doneIgnored (.inn n) => ⟨.ignoredIn, encLe32 n⟩
  | .sswOpen start size bs => ⟨.sswOpen, encLe32 start ++ encLe32 size ++ encLe32 bs⟩
  | .sswClose => ⟨.sswClose, []⟩
  | .sswPush b => ⟨.sswPush, b⟩
  | .pushDetect => ⟨.pushDetect, []⟩
  | .pushSpHdr => ⟨.pushSpHdr, []⟩
  | .pushSpChunkHdr => ⟨.pushSpChunkHdr, []⟩
  | .pushSpRaw => ⟨.pushSpRaw, []⟩
  | .pushSpFill => ⟨.pushSpFill, []⟩
  | .pushSpDone => ⟨.pushSpDone, []⟩
  | .pushRaw => ⟨.pushRaw, []⟩
  | .sswGetResult => ⟨.sswGetResult, []⟩
  | .sswGetCrc => ⟨.sswGetCrc, []⟩
  | .crc16 d => ⟨.crc16, d⟩
  | .packShort blk d => ⟨.packShort, blk :: d⟩
  | .packLong blk d => ⟨.packLong, blk :: d⟩
  | .packFrame blk d => ⟨.packFrame, blk :: d⟩
  | .frameTotal p => ⟨.frameTotal, p⟩
  | .unpack f => ⟨.unpack, f⟩
  | .slice rem => ⟨.slice, encLe32 rem⟩
  | .split blk d => ⟨.split, blk :: d⟩
  | .hdrEncodeCmd p v cmd r len => ⟨.hdrEncodeCmd, p :: v :: cmd :: r :: encLe32 len⟩
  | .hdrDecodeCmd b => ⟨.hdrDecodeCmd, b⟩
  | .hdrEncodeRsp p v cmd st len => ⟨.hdrEncodeRsp, p :: v :: cmd :: st :: encLe32 len⟩
  | .hdrDecodeRsp b => ⟨.hdrDecodeRsp, b⟩
  | .handleCommand via h p => ⟨.handleCommand via, encLe32 (BitVec.ofNat 32 h.length) ++ h ++ p⟩
  | .checkUpgMode now => ⟨.checkUpgMode, encLe64 now⟩
  | .uartTx b => ⟨.uartTx, b⟩
  | .epRecv n => ⟨.epRecv, encLe32 n⟩
  | .epSend b => ⟨.epSend, b⟩
  | .dispExpect cmd len => ⟨.dispExpect, cmd :: encLe32 len⟩
  | .dispOut b => ⟨.dispOut, b⟩
  | .dispIn n => ⟨.dispIn, encLe32 n⟩
  | .dispStatus => ⟨.dispStatus, []⟩
  | .devWrite blk d => ⟨.devWrite, encLe32 blk ++ d⟩
  | .devRead blk n => ⟨.devRead, encLe32 blk ++ encLe32 n⟩
  | .devErase blk n => ⟨.devErase, encLe32 blk ++ encLe32 n⟩
  | .progress pct => ⟨.progress, [pct]⟩

/-- The wire a table row's bytes belong to, by their number and first bytes (log 11): one byte is a byte of the UART
link, more bytes that open with a frame's lead byte a frame, and else the format of 30_encoding.md of that length. -/
def tablePort (c : Config) (b : Bytes) : Port :=
  if b.length = 1 then .uartWire
  else if byteAt b 0 = c.soh ∨ byteAt b 0 = c.stx then .frameWire
  else if b.length = Config.cswLen then .inWire
  else if b.length = c.sparseHdrLen then .imageWire
  else if b.length = c.chunkHdrLen then .chunkWire
  else if b.length = c.hdrLen then .headerWire
  else .outWire

/-- The packet of an instruction whose bits are `w`, numbered as spec/opcode_table.json numbers them. -/
def tablePacket (c : Config) (nbits w : Nat) : Packet :=
  let b := bytesOfNat (nbits / 8) w
  ⟨tablePort c b, b⟩

/-- The instruction the decoder reads from a table row's word, in the default configuration. -/
def decodeTableWord (nbits w : Nat) : Option Instr :=
  match decode Config.default (tablePacket Config.default nbits w) with
  | .ok i => some i
  | .error _ => none

end Sys2Proof
end

