-- ==== Sys2Proof/Machine/Crc.lean ====
section
/-! DEFINITION. The check functions `P_CRC16` (40_frame_codec.md rule R141), `P_CRC32` (43_sparse_writer.md rule
R283) and `P_HDRSUM` (44_command_interface.md rule R345), each a parameter of the configuration. -/

namespace Sys2Proof

/-- One of the eight rounds of rule R141. -/
def crc16Round (crc : U16) : U16 := if crc.msb then (crc <<< 1) ^^^ 0x1021 else crc <<< 1

/-- One byte of rule R141. -/
def crc16Byte (crc : U16) (b : Byte) : U16 :=
  (List.range 8).foldl (fun r _ => crc16Round r) (crc ^^^ (b.setWidth 16 <<< 8))

/-- CRC-16/XMODEM (rule R141). -/
def crc16Xmodem (data : Bytes) : U16 := data.foldl crc16Byte 0

/-- `CRC16(data) = P_CRC16(data)` (rule R141). -/
def crc16Of (alg : Crc16Alg) (data : Bytes) : U16 :=
  match alg with
  | .xmodem => crc16Xmodem data
  | .other k => Config.crc16Other k data

/-- One of the eight rounds of rule R283. -/
def crc32Round (r : U32) : U32 := if r.getLsbD 0 then (r >>> 1) ^^^ 0xEDB88320 else r >>> 1

/-- One byte of rule R283. -/
def crc32Byte (r : U32) (b : Byte) : U32 :=
  (List.range 8).foldl (fun x _ => crc32Round x) (r ^^^ b.setWidth 32)

/-- `update` of zlib's CRC-32 (rule R283). -/
def crc32Zlib (crc : U32) (data : Bytes) : U32 := (data.foldl crc32Byte (crc ^^^ 0xFFFFFFFF)) ^^^ 0xFFFFFFFF

/-- `P_CRC32.init` (rule R283). -/
def crc32Init (alg : Crc32Alg) : U32 :=
  match alg with
  | .zlib => 0
  | .other k => Config.crc32OtherInit k

/-- `P_CRC32.update` (rule R283). -/
def crc32Update (alg : Crc32Alg) (crc : U32) (data : Bytes) : U32 :=
  match alg with
  | .zlib => crc32Zlib crc data
  | .other k => Config.crc32OtherUpdate k crc data

/-- `d'` is `d` with exactly one byte changed (rules R142, R345). -/
abbrev OneByteChanged (d d' : Bytes) : Prop := ∃ (p : Nat) (b : Byte), p < d.length ∧ b ≠ d.getD p 0 ∧ d' = d.set p b

/-- The law that rule R142 asks of a `P_CRC16`: a premise, unless the function is one that has it (log 26). -/
def Crc16Alg.detects (alg : Crc16Alg) : Prop :=
  ∀ d d' : Bytes, d.length ≤ 1024 → OneByteChanged d d' → crc16Of alg d ≠ crc16Of alg d'

/-- `P_HDRSUM` (rules R11, R341). -/
def hdrSumOf (alg : HdrSumAlg) (data : Bytes) : U32 :=
  match alg with
  | .byteSum => BitVec.ofNat 32 (data.map BitVec.toNat).sum
  | .other k => Config.hdrSumOther k data

/-- The law that rule R345 asks of a `P_HDRSUM` on the bytes before the checksum: a premise, unless the function is one that
has it (log 26). -/
def HdrSumAlg.detects (alg : HdrSumAlg) (pad : HdrPad) : Prop :=
  ∀ d d' : Bytes, d.length = 12 + Config.padBytes pad → OneByteChanged d d' → hdrSumOf alg d ≠ hdrSumOf alg d'

end Sys2Proof
end

