-- ==== Sys2Proof/Machine/Codec.lean ====
section
/-! DEFINITION. The Frame Codec: pure functions, no state (40_frame_codec.md rules R140 to R152). -/

namespace Sys2Proof

/-- The error codes of the codec (rules R140, R370). -/
inductive FcErr where
  | data
  | frame
  | len
  deriving DecidableEq, Repr, Inhabited

/-- The numbers of rule R370. -/
def fcErrNum : FcErr → Byte
  | .data => 1
  | .frame => 2
  | .len => 9

/-- What `FRAME_TOTAL` answers (rule R146): a number of bytes, that more bytes are needed, or a code. -/
inductive FrameLen where
  | total (n : Nat)
  | unknown
  | err (e : FcErr)
  deriving DecidableEq, Repr, Inhabited

/-- The answer of `FRAME_TOTAL` for no byte at all, which rule R146 does not state: free (log 35). -/
opaque Config.freeFrameTotal : FrameLen

/-- The answer of `UNPACK` for bytes that are no whole frame, which rule R147 does not state: free (log 35). -/
opaque Config.freeUnpack : Bytes → Except FcErr (Byte × Bytes)

/-- `PACK_SHORT` (rule R143). -/
def packShortOf (c : Config) (blk : Byte) (data : Bytes) : Except FcErr Bytes :=
  if data.length ≤ Config.shortMax then .ok (shortFrameBytes c blk (255 - blk) data (crc16Of c.crc16 data))
  else .error .len

/-- `PACK_LONG` (rule R144). -/
def packLongOf (c : Config) (blk : Byte) (data : Bytes) : Except FcErr Bytes :=
  if data.length = Config.longLen then .ok (longFrameBytes c blk (255 - blk) data (crc16Of c.crc16 data))
  else .error .len

/-- `PACK_FRAME` (rule R145). -/
def packFrameOf (c : Config) (blk : Byte) (data : Bytes) : Except FcErr Bytes :=
  if data.length = Config.longLen then packLongOf c blk data
  else if data.length ≤ Config.shortMax then packShortOf c blk data
  else .error .len

/-- `FRAME_TOTAL` (rule R146) of at least one byte: a first byte that is no lead byte is `UART_ERR_FRAME`. -/
def frameTotalOf (c : Config) (pre : Bytes) : FrameLen :=
  match pre with
  | [] => .unknown
  | lead :: _ =>
    if lead = c.stx then .total Config.longFrameLen
    else if lead = c.soh then
      if 4 ≤ pre.length then .total (4 + (byteAt pre 3).toNat + 2) else .unknown
    else .err .frame

/-- `UNPACK` (rule R147): the checks in the order complement, short length, CRC. -/
def unpackOf (c : Config) (frame : Bytes) : Except FcErr (Byte × Bytes) :=
  let short := byteAt frame 0 = c.soh
  let n := if short then (byteAt frame 3).toNat else Config.longLen
  let off := if short then 4 else 3
  let data := bytesAt frame off n
  if (byteAt frame 1).toNat + (byteAt frame 2).toNat ≠ 255 then .error .frame
  else if short ∧ Config.shortMax < n then .error .frame
  else if crc16Of c.crc16 data ≠ be16 frame (off + n) then .error .data
  else .ok (byteAt frame 1, data)

/-- `SLICE` (rule R150). -/
def sliceOf (rem : Nat) : Nat :=
  if Config.longLen ≤ rem then Config.longLen else if Config.shortMax ≤ rem then Config.shortMax else rem

/-- The loop of `SPLIT` (rule R151), at most `fuel` frames. -/
def splitFrom (c : Config) : Nat → Byte → Bytes → List Bytes
  | 0, _, _ => []
  | fuel + 1, blk, data =>
    if data.length = 0 then []
    else
      match packFrameOf c blk (data.take (sliceOf data.length)) with
      | .ok f => f :: splitFrom c fuel (blk + 1) (data.drop (sliceOf data.length))
      | .error _ => []

/-- `SPLIT` (rule R151). -/
def splitOf (c : Config) (blk0 : Byte) (data : Bytes) : List Bytes := splitFrom c data.length blk0 data

end Sys2Proof
end

