-- ==== Sys2Proof/Machine/Headers.lean ====
section
/-! DEFINITION. The header codec of the dispatcher interface: pure functions (44_command_interface.md rules R341 to R343). -/

namespace Sys2Proof

/-- Why a header is refused (rules R342, R370). -/
inductive CdiErr where
  | hdr
  | checksum
  deriving DecidableEq, Repr

/-- The record a header carries: `b7` is `reserved` of a command, `status` of a response (rules R341, R343). -/
structure HdrRecord where
  protocol : Byte
  version : Byte
  command : Byte
  b7 : Byte
  dataLength : U32
  deriving DecidableEq, Repr

/-- The bytes before the checksum (rule R341). -/
def hdrBody (c : Config) (magic : U32) (x : HdrRecord) : Bytes :=
  encLe32 magic ++ [x.protocol, x.version, x.command, x.b7] ++ encLe32 x.dataLength
    ++ List.replicate (Config.padBytes c.hdrPad) 0

/-- `HDR_ENCODE_CMD` and `HDR_ENCODE_RSP` (rules R341, R343). -/
def hdrEncode (c : Config) (magic : U32) (x : HdrRecord) : Bytes :=
  hdrBody c magic x ++ encLe32 (hdrSumOf c.hdrSum (hdrBody c magic x))

/-- `HDR_DECODE_CMD` and `HDR_DECODE_RSP` (rules R342, R343): length, then magic, then checksum. -/
def hdrDecode (c : Config) (magic : U32) (b : Bytes) : Except CdiErr HdrRecord :=
  if b.length ≠ c.hdrLen then .error .hdr
  else if le32 b 0 ≠ magic then .error .hdr
  else if le32 b (12 + Config.padBytes c.hdrPad) ≠ hdrSumOf c.hdrSum (b.take (12 + Config.padBytes c.hdrPad)) then
    .error .checksum
  else .ok { protocol := byteAt b 4, version := byteAt b 5, command := byteAt b 6, b7 := byteAt b 7,
             dataLength := le32 b 8 }

end Sys2Proof
end

