-- ==== Sys2Proof/Machine/Memory.lean ====
section
/-! DEFINITION. The buffer spaces of 20_memory.md rule R60 as sparse byte memories in one canonical form:
addresses strictly rising, and no entry equal to what an unlisted address reads as. -/

namespace Sys2Proof.Machine

/-- A buffer space: the listed bytes, by address. -/
abbrev Memory := List Host.Cell

/-- What an unlisted address reads as. DESIGN CHOICE, unsafe: rules R44 and R414 leave unwritten bytes unspecified (log 7). -/
def unwritten : Byte := 0

/-- One byte of a memory. -/
def Memory.read : Memory → Nat → Byte
  | [], _ => unwritten
  | (k, b) :: r, a => if k = a then b else Memory.read r a

/-- `MemRead` without a bound: `n` bytes from `a` on (rule R14). -/
def Memory.readRun (m : Memory) (a n : Nat) : Bytes := (List.range' a n).map m.read

/-- The bytes of a string as cells from `a` on. -/
def cellsFrom : Nat → Bytes → Memory
  | _, [] => []
  | a, b :: r => (a, b) :: cellsFrom (a + 1) r

/-- `MemWrite` without a bound: the bytes of a string from `a` on (rules R14, R68). Writing what an unlisted
address reads as lists nothing. -/
def Memory.writeRun (m : Memory) (a : Nat) (v : Bytes) : Memory :=
  m.filter (fun c => c.1 < a) ++ ((cellsFrom a v).filter (fun c => c.2 ≠ unwritten) ++
    m.filter (fun c => a + v.length ≤ c.1))

/-- The memory that holds a byte string from address 0 on. -/
def Memory.ofBytes (v : Bytes) : Memory := Memory.writeRun [] 0 v

/-- The canonical form. -/
abbrev Memory.wf (m : Memory) : Prop := m.Pairwise (fun x y => x.1 < y.1) ∧ ∀ c ∈ m, c.2 ≠ unwritten

end Sys2Proof.Machine
end

