-- ==== Sys2Proof/Machine/State.lean ====
section
/-! DEFINITION. The state: everything the spec gives the machine (10_state.md rules R24 to R34, 20_memory.md rule
R60, 44_command_interface.md rule R352), the configuration, and the model's own fields (INVENTORY.md, State). -/

namespace Sys2Proof.Machine

/-- The buffer spaces with a bound (rule R60). -/
inductive Space where
  | fbuf
  | taskBuf
  | pktbuf
  | left
  deriving DecidableEq, Repr

/-- Why the machine stops. None of these is reachable from `State.reset`; each is safe (log 22). -/
inductive Fault where
  /-- An access outside a buffer space's size (rule R60): raised by the operations that read or write a buffer. Safe. -/
  | bufferRange (sp : Space)
  /-- `AWAIT_ACK = 1` with no task at the head (rule R192 says there is one): raised by ACK, NAK and the ACK timeout. Safe. -/
  | noHead
  /-- A frame in progress whose first byte is no lead byte (rule R180 says it is one): raised by a frame byte. Safe. -/
  | noLead
  /-- A frame in flight of a length that no frame carries (rule R186 says `PACK_FRAME` cannot fail): raised by a replay. Safe. -/
  | noFrame
  deriving DecidableEq, Repr

/-- Why an instruction is turned away. -/
inductive Refusal where
  /-- Raised by `exec` for a row that has no meaning yet. Safe. -/
  | notModelled (mnemonic : String)
  /-- Raised by UTE.OUT_DONE with more bytes than armed in a data-out stage: U6 has the model take no step. Safe. -/
  | outTooLong
  /-- Raised by UTE.IN_DONE that reports more than was submitted in a data-in stage: U6 has the model take no step. Safe. -/
  | inTooLong
  deriving DecidableEq, Repr

/-- `UPE.ST` (rule R171). -/
inductive UpeSt where
  | cmdRecv
  | dataRecv
  | dataSend
  deriving DecidableEq, Repr

/-- Direction of a UART task (rule R26). -/
inductive Dir where
  | recv
  | send
  deriving DecidableEq, Repr

/-- A UART task (rule R26): `BUF` is a buffer space of `LEN` bytes. -/
structure Task where
  dir : Dir
  len : U32
  done : U32
  buf : Memory
  deriving DecidableEq, Repr

/-- The registers of UPE and its queue, the head first (rules R24, R26). -/
structure Upe where
  run : Bool
  st : UpeSt
  awaitAck : Bool
  fresh : Bool
  lastBlk : Byte
  sendBlk : Byte
  fcnt : U16
  fneed : U16
  slice : U16
  tByte : U32
  tWait : U32
  tSess : U32
  statusValid : Bool
  statusCode : Byte
  statusOverrun : Bool
  abort : Bool
  err : Byte
  q : List Task
  deriving DecidableEq, Repr

/-- `UTE.STAGE` (rule R231). -/
inductive Stage where
  | readCbw
  | dataOut
  | dataOutBuf
  | dataIn
  | dataInBuf
  | sendCsw
  | waitCsw
  deriving DecidableEq, Repr

/-- The registers of UTE (rule R30). -/
structure Ute where
  run : Bool
  stage : Stage
  cbw : Bytes
  csw : Bytes
  tag : U32
  dlen : U32
  dirIn : Bool
  cmd : Byte
  remain : U32
  moved : U32
  taskXfer : U32
  taskDone : U32
  pktXfer : U32
  pktDone : U32
  phaseErr : Bool
  drain : Bool
  err : Byte
  deriving DecidableEq, Repr

/-- `SSW.PHASE` (rule R281). -/
inductive Phase where
  | closed
  | detect
  | spHdr
  | spChunkHdr
  | spRaw
  | spFill
  | spDone
  | raw
  | failed
  deriving DecidableEq, Repr

/-- The registers of SSW (rule R34). -/
structure Ssw where
  phase : Phase
  partStart : U32
  partSize : U32
  bs : U32
  cursor : U32
  sbs : U32
  totalBlks : U32
  totalChunks : U32
  chunksDone : U32
  blocksDone : U64
  curHdr : Bytes
  chunkRem : U32
  lastValid : Bool
  lastHdr : Bytes
  leftLen : U32
  crcWr : U32
  crcTx : U32
  transSize : U64
  fail : Byte
  err : Byte
  /-- The bytes at hand `W[pos ..]` of a running SSW.PUSH (rule R286), empty between events. The model's own (log 15). -/
  hand : Bytes
  deriving DecidableEq, Repr

/-- The dispatcher's state, outside the block (rules R344, R350, R352, R354). No rule says what sets INIT_MODE, and nothing but
CHECK_UPG_MODE sets T_START: a session has the values the state gives it (log 17). -/
structure Cdi where
  mode : UpgradeMode
  initMode : List UpgradeMode
  tStart : U64
  modeSet : Bool
  owner : Option Transport
  /-- The last header that came over USB was rejected and `DISP.STATUS` has not answered since (rule R344; log 28). -/
  usbRejected : Bool
  deriving DecidableEq, Repr

/-- The answers the collaborators will give, one list a call, the next first. The model's own (log 3). `close` says after how many
of the pending events the dispatcher's SSW.CLOSE comes, for each abort (log 28). -/
structure Answers where
  expect : List U32
  consumed : List Nat
  supply : List Bytes
  status : List Byte
  writeOk : List Bool
  eraseOk : List Bool
  read : List (Option Bytes)
  lookup : List (Option Desc)
  mode : List UpgradeMode
  close : List Nat
  deriving DecidableEq, Repr

/-- An output action or oracle call, with the answer it got (rules R8, R132). -/
inductive Action where
  | uartTx (bytes : Bytes)
  | epRecv (n : Nat)
  | epSend (bytes : Bytes)
  | dispExpect (cmd : Byte) (len answer : U32)
  | dispOut (bytes : Bytes) (answer : Nat)
  | dispIn (n : Nat) (answer : Bytes)
  | dispStatus (answer : Byte)
  | devWrite (blk : Nat) (data : Bytes) (ok : Bool)
  | devRead (blk n : Nat) (answer : Option Bytes)
  | devErase (blk n : Nat) (ok : Bool)
  | progress (percent : Byte)
  /-- The dispatcher's lookup of the partition a SET_FWC_META payload names (rules R61, R349). -/
  | lookup (payload : Bytes) (answer : Option Desc)
  /-- The dispatcher's reading of a SET_UPG_CFG payload (rule R353). -/
  | readMode (payload : Bytes) (answer : UpgradeMode)
  deriving DecidableEq, Repr

/-- What an operation hands back at its port (rules R14, R132). -/
inductive Ret where
  /-- A return code or a status code. -/
  | code (c : Byte)
  /-- `SSW.GET_CRC`: the code and the CRC. -/
  | crc (c : Byte) (v : U32)
  | u16 (v : U16)
  | num (n : Nat)
  | bytes (b : Bytes)
  | frames (f : List Bytes)
  | frameLen (f : FrameLen)
  | unpacked (blk : Byte) (data : Bytes)
  | fcErr (e : FcErr)
  | record (x : HdrRecord)
  | cdiErr (e : CdiErr)
  /-- `HANDLE_COMMAND`: the response header and payload. -/
  | response (header payload : Bytes)
  /-- `HANDLE_COMMAND` of a header rejected before dispatch, and the response header if one is fetched (rule R344). -/
  | rejected (e : CdiErr) (header : Bytes)
  /-- `CHECK_UPG_MODE`: OK or EXIT. -/
  | exitUpgrade (exit : Bool)
  | answer (a : Action)
  deriving DecidableEq, Repr

/-- The state. -/
structure State where
  cfg : Config
  upe : Upe
  fbuf : Memory
  ute : Ute
  pktbuf : Memory
  ssw : Ssw
  left : Memory
  store : Memory
  cdi : Cdi
  inbox : List Packet
  ans : Answers
  asked : Nat
  log : List Action
  ret : Option Ret
  finished : List Task
  deriving DecidableEq, Repr

/-- UPE after RESET (rule R411). -/
def upeReset : Upe where
  run := false
  st := .cmdRecv
  awaitAck := false
  fresh := true
  lastBlk := 0
  sendBlk := 1
  fcnt := 0
  fneed := 0
  slice := 0
  tByte := 0
  tWait := 0
  tSess := 0
  statusValid := false
  statusCode := 0
  statusOverrun := false
  abort := false
  err := 0
  q := []

/-- UTE after RESET (rule R413). -/
def uteReset : Ute where
  run := false
  stage := .readCbw
  cbw := List.replicate 31 0
  csw := List.replicate 13 0
  tag := 0
  dlen := 0
  dirIn := false
  cmd := 0
  remain := 0
  moved := 0
  taskXfer := 0
  taskDone := 0
  pktXfer := 0
  pktDone := 0
  phaseErr := false
  drain := false
  err := 0

/-- SSW after RESET and after SSW.CLOSE (rules R34, R412): the CRC registers hold `P_CRC32.init`. -/
def sswReset (c : Config) : Ssw where
  phase := .closed
  partStart := 0
  partSize := 0
  bs := 0
  cursor := 0
  sbs := 0
  totalBlks := 0
  totalChunks := 0
  chunksDone := 0
  blocksDone := 0
  curHdr := List.replicate c.chunkHdrLen 0
  chunkRem := 0
  lastValid := false
  lastHdr := List.replicate c.chunkHdrLen 0
  leftLen := 0
  crcWr := crc32Init c.crc32
  crcTx := crc32Init c.crc32
  transSize := 0
  fail := 0
  err := 0
  hand := []

/-- The dispatcher at the start: DESIGN CHOICE, unsafe, the spec gives no value (rule R352, N16; log 17). -/
def cdiReset : Cdi where
  mode := .invalid
  initMode := []
  tStart := 0
  modeSet := false
  owner := none
  usbRejected := false

/-- No answer supplied: every call then gets a free value (log 3). -/
def noAnswers : Answers where
  expect := []
  consumed := []
  supply := []
  status := []
  writeOk := []
  eraseOk := []
  read := []
  lookup := []
  mode := []
  close := []

/-- The machine right after reset (rules R44, R410 to R414), in the default configuration (log 5, log 6). -/
def State.reset : State where
  cfg := Config.default
  upe := upeReset
  fbuf := []
  ute := uteReset
  pktbuf := []
  ssw := sswReset Config.default
  left := []
  store := []
  cdi := cdiReset
  inbox := []
  ans := noAnswers
  asked := 0
  log := []
  ret := none
  finished := []

end Sys2Proof.Machine
end

