-- ==== Sys2Proof/Machine/Flags.lean ====
section
/-! DEFINITION. The conditions that rules test and the one-bit results they compute: gates, timer comparisons,
block-number classes, CBW and CSW status bits, sizes of buffer spaces. The block has no arithmetic flags (rule R38). -/

namespace Sys2Proof.Machine

/-- The gate of rule R170: the engine does not run, or has aborted. -/
def upeMasked (u : Upe) : Bool := !u.run || u.abort

/-- `sat(v + 1)` of rule R195: tick counters saturate at `0xFFFFFFFF` (rule R24). -/
def satInc (v : U32) : U32 := if v = 0xFFFFFFFF then v else v + 1

/-- A counter is "longer than" its threshold (rule R195): strictly greater. -/
def past (counter : U32) (threshold : Nat) : Bool := decide (threshold < counter.toNat)

/-- Whether a received byte belongs to a frame (rules R115, R172). -/
def inFrame (c : Config) (u : Upe) (b : Byte) : Bool :=
  u.st == .dataRecv && (u.fcnt != 0 || b == c.soh || b == c.stx)

/-- The class of a received block number (rule R183). -/
inductive BlkClass where
  | new
  | dup
  | bad
  deriving DecidableEq, Repr

/-- The classification of rule R183. -/
def blkClass (u : Upe) (blk : Byte) : BlkClass :=
  if (u.fresh = true ∧ blk = 1) ∨ blk = u.lastBlk + 1 then .new
  else if u.fresh = false ∧ blk = u.lastBlk then .dup
  else .bad

/-- Whether try_send has something to send (rule R186). -/
def sendReady (u : Upe) : Bool :=
  u.st == .dataSend && (match u.q with | [] => false | t :: _ => t.dir == .send)

/-- The command byte and the direction flag of a CBW go together (rules R117, R236). -/
def cbwPaired (c : Config) (cmd : Byte) (dirIn : Bool) : Bool :=
  (cmd == c.usbCmdWrite && !dirIn) || (cmd == c.usbCmdRead && dirIn)

/-- `bCSWStatus` without a phase error (rules R101, R246). -/
def cswStatusOf (s : Byte) : Byte := if s = 0 then 0 else 1

/-- `LEFT_CAP = max(SSW.BS, 28)` (rules R34, R300): a block, or the longest header (log 32). -/
def leftCap (c : Config) (w : Ssw) : Nat := max w.bs.toNat (max c.sparseHdrLen c.chunkHdrLen)

/-- A valid descriptor (rules R12, R284): the sum is not taken modulo 2^32. -/
def descOk (d : Desc) : Bool :=
  decide (4 ≤ d.bs.toNat) && decide (d.bs.toNat % 4 = 0) && decide (d.start.toNat + d.size.toNat ≤ 2 ^ 32)

/-- The progress percentage of rule R289. `100 * BLOCKS_DONE` is an exact natural, as rule R292 has it for the other products of
header fields: DESIGN CHOICE, rule R289 does not say that it cannot wrap (log 36). -/
def progressOf (blocksDone : U64) (totalBlks : U32) : Byte :=
  BitVec.ofNat 8 (if totalBlks = 0 then 100 else min 100 (100 * blocksDone.toNat / totalBlks.toNat))

end Sys2Proof.Machine
end

