-- ==== Sys2Proof/Machine/Ops.lean ====
section
/-! DEFINITION. The shared operations: updates of one record of the state, output actions, return values, bounded
buffer accesses, recording an error outcome, and the oracle calls. -/

namespace Sys2Proof.Machine

/-- The three outcomes with this machine's types. -/
abbrev Result := Host.Outcome State Fault Refusal

/-- Go on after an outcome: only a next state goes on. -/
def andThen (o : Result) (k : State → Result) : Result :=
  match o with
  | .next s => k s
  | .fault f => .fault f
  | .refused r => .refused r

/-- Go on with a value, or stop with the fault. -/
def withVal {α : Type} (e : Except Fault α) (k : α → Result) : Result :=
  match e with
  | .ok a => k a
  | .error f => .fault f

/-! ## Updates -/

def State.withUpe (s : State) (u : Upe) : State := { s with upe := u }
def State.withUte (s : State) (u : Ute) : State := { s with ute := u }
def State.withSsw (s : State) (w : Ssw) : State := { s with ssw := w }
def State.withCdi (s : State) (d : Cdi) : State := { s with cdi := d }
def State.withFbuf (s : State) (m : Memory) : State := { s with fbuf := m }
def State.withPktbuf (s : State) (m : Memory) : State := { s with pktbuf := m }
def State.withLeft (s : State) (m : Memory) : State := { s with left := m }
def State.withStore (s : State) (m : Memory) : State := { s with store := m }
def State.withInbox (s : State) (q : List Packet) : State := { s with inbox := q }
def State.withFinished (s : State) (f : List Task) : State := { s with finished := f }

/-- An oracle call has been made: the answers left, and the count of calls (log 3). -/
def State.withAns (s : State) (a : Answers) : State := { s with ans := a, asked := s.asked + 1 }

/-- Perform an output action (rules R8, R73). -/
def State.act (s : State) (a : Action) : State := { s with log := s.log ++ [a] }

/-- Hand a value back at the port (rule R14). -/
def State.withRet (s : State) (r : Ret) : State := { s with ret := some r }

/-! ## Buffers -/

/-- `MemRead(space, addr, n)` (rule R14) in a space of `size` bytes. -/
def readBuf (sp : Space) (size : Nat) (m : Memory) (a n : Nat) : Except Fault Bytes :=
  if a + n ≤ size then .ok (m.readRun a n) else .error (.bufferRange sp)

/-- `MemWrite(space, addr, n, v)` (rule R14) in a space of `size` bytes. -/
def writeBuf (sp : Space) (size : Nat) (m : Memory) (a : Nat) (v : Bytes) : Except Fault Memory :=
  if a + v.length ≤ size then .ok (m.writeRun a v) else .error (.bufferRange sp)

/-! ## Error outcomes: the block's exceptions (60_exceptions.md rules R370, R380)

`raise E` records the number of `E` in the unit's `ERR` register and nothing else; the entry actions are those of the
raising rule. Nothing is saved and there is no return operation (rule R382). -/

/-- The error outcomes of UPE (rule R370). -/
inductive UpeErr where
  | fc (e : FcErr)
  | seq
  | noTask
  | overflow
  | timeoutFrame
  | timeoutAck
  | timeoutSession
  deriving DecidableEq, Repr

/-- Their numbers (rule R370). -/
def upeErrNum : UpeErr → Byte
  | .fc e => fcErrNum e
  | .seq => 3
  | .noTask => 4
  | .overflow => 5
  | .timeoutFrame => 6
  | .timeoutAck => 7
  | .timeoutSession => 8

/-- The error outcomes of UTE (rule R370). -/
inductive UteErr where
  | cbw
  | length
  | short
  deriving DecidableEq, Repr

/-- Their numbers (rule R370). -/
def uteErrNum : UteErr → Byte
  | .cbw => 1
  | .length => 2
  | .short => 3

/-- The codes of SSW (rule R370): 0 is `SSW_OK`. -/
inductive SswCode where
  | ok
  | noSession
  | busy
  | desc
  | hdr
  | chunkHdr
  | chunkType
  | overrun
  | dev
  | trailing
  | incomplete
  | verify
  deriving DecidableEq, Repr

/-- Their numbers (rule R370). -/
def sswNum : SswCode → Byte
  | .ok => 0
  | .noSession => 1
  | .busy => 2
  | .desc => 3
  | .hdr => 4
  | .chunkHdr => 5
  | .chunkType => 6
  | .overrun => 7
  | .dev => 8
  | .trailing => 9
  | .incomplete => 10
  | .verify => 11

/-- The return codes of UPE's ports (rule R370). -/
inductive PortCode where
  | ok
  | state
  | len
  | full
  deriving DecidableEq, Repr

/-- Their numbers (rule R370). -/
def portNum : PortCode → Byte
  | .ok => 0
  | .state => 1
  | .len => 2
  | .full => 3

/-- `raise E` in UPE (rule R380). -/
def raiseUpe (e : UpeErr) (s : State) : State := s.withUpe { s.upe with err := upeErrNum e }

/-- `raise E` in UTE (rule R380), where every raise comes with `PHASE_ERR <- 1`. -/
def raiseUte (e : UteErr) (s : State) : State := s.withUte { s.ute with err := uteErrNum e, phaseErr := true }

/-- `raise E` in SSW (rule R380). -/
def raiseSsw (e : SswCode) (s : State) : State := s.withSsw { s.ssw with err := sswNum e }

/-- `fail(code)` of SSW (rule R304). -/
def failSsw (e : SswCode) (s : State) : State :=
  s.withSsw { s.ssw with err := sswNum e, fail := sswNum e, phase := .failed, leftLen := 0 }

/-! ## Oracle calls (rules R8, R233): the next supplied answer, or a free value (log 3) -/

/-- The next answer of a list, or the free value; and the answers left. -/
def nextAnswer {α : Type} (given : List α) (free : α) : α × List α :=
  match given with
  | [] => (free, [])
  | a :: r => (a, r)

/-- `DISP.EXPECT(cmd, L)` (rule R233). -/
def dispExpectCall (cmd : Byte) (len : U32) (s : State) : U32 × State :=
  let (a, r) := nextAnswer s.ans.expect (Config.freeExpect s.asked)
  (a, (s.withAns { s.ans with expect := r }).act (.dispExpect cmd len a))

/-- `DISP.OUT(bytes)` (rule R233): at most as many as given. -/
def dispOutCall (bytes : Bytes) (s : State) : Nat × State :=
  let (a, r) := nextAnswer s.ans.consumed (Config.freeConsumed s.asked)
  let c := min a bytes.length
  (c, (s.withAns { s.ans with consumed := r }).act (.dispOut bytes c))

/-- `DISP.IN(n)` (rule R233): at most `n` bytes. -/
def dispInCall (n : Nat) (s : State) : Bytes × State :=
  let (a, r) := nextAnswer s.ans.supply (Config.freeSupply s.asked)
  let d := a.take n
  (d, (s.withAns { s.ans with supply := r }).act (.dispIn n d))

/-- The answer that stands for a rejected header is not 0 (rule R344): an answer 0 is raised to 1 (log 28). -/
def statusAnswer (rejected : Bool) (a : Byte) : Byte := if rejected = true ∧ a = 0 then 1 else a

/-- `DISP.STATUS()` (rules R233, R344). It answers once for a rejected header. -/
def dispStatusCall (s : State) : Byte × State :=
  let (a, r) := nextAnswer s.ans.status (Config.freeStatus s.asked)
  let st := statusAnswer s.cdi.usbRejected a
  (st, ((s.withAns { s.ans with status := r }).withCdi { s.cdi with usbRejected := false }).act (.dispStatus st))

/-- Any bytes, for the blocks a failed call named (rule R305, U9): by call and by address (log 9). -/
def failedBytes (call a n : Nat) : Bytes := (List.range' a n).map (Config.freeFailedByte call)

/-- The byte address in STORE of an absolute block offset: blocks of `SSW.BS` bytes (rules R60, R61; log 8). -/
def storeAddr (s : State) (blk : Nat) : Nat := blk * s.ssw.bs.toNat

/-- `DEV.WRITE(blk, data)` (rules R61, R67, R305, R310). -/
def devWriteCall (blk : Nat) (data : Bytes) (s : State) : Bool × State :=
  let (ok, r) := nextAnswer s.ans.writeOk (Config.freeWriteOk s.asked)
  let v := if ok then data else failedBytes s.asked (storeAddr s blk) data.length
  (ok, ((s.withAns { s.ans with writeOk := r }).withStore (s.store.writeRun (storeAddr s blk) v)).act
    (.devWrite blk data ok))

/-- Bytes of the whole blocks of `bs` bytes that `n` bytes touch. -/
def touched (n bs : Nat) : Nat := (n + bs - 1) / bs * bs

/-- `DEV.WRITE(blk, data)` of what is no positive number of whole blocks, which rule R67 says never comes from the writer: the blocks
that the data touches hold free bytes afterwards, whatever the device answers (log 35). -/
def devWriteOdd (blk : Nat) (data : Bytes) (s : State) : Bool × State :=
  let (ok, r) := nextAnswer s.ans.writeOk (Config.freeWriteOk s.asked)
  let a := storeAddr s blk
  let v := (List.range' a (touched data.length s.ssw.bs.toNat)).map (Config.freeOddByte s.asked)
  (ok, ((s.withAns { s.ans with writeOk := r }).withStore (s.store.writeRun a v)).act (.devWrite blk data ok))

/-- `DEV.ERASE(blk, n)` (rules R61, R69, R305, R310): an erased block reads as zeros. -/
def devEraseCall (blk n : Nat) (s : State) : Bool × State :=
  let (ok, r) := nextAnswer s.ans.eraseOk (Config.freeEraseOk s.asked)
  let size := n * s.ssw.bs.toNat
  let v := if ok then List.replicate size 0 else failedBytes s.asked (storeAddr s blk) size
  (ok, ((s.withAns { s.ans with eraseOk := r }).withStore (s.store.writeRun (storeAddr s blk) v)).act
    (.devErase blk n ok))

/-- `DEV.READ(blk, n)` (rules R61, R69, R301, U16): fail, or `n` blocks, which need not be what is stored: the
answer's bytes stand in place of the stored ones as far as they go (log 3). -/
def devReadCall (blk n : Nat) (s : State) : Option Bytes × State :=
  let (a, r) := nextAnswer s.ans.read (Config.freeRead s.asked)
  let size := n * s.ssw.bs.toNat
  let d := a.map (fun o => o.take size ++ (s.store.readRun (storeAddr s blk) size).drop o.length)
  (d, (s.withAns { s.ans with read := r }).act (.devRead blk n d))

/-- The dispatcher's partition lookup by name (rules R61, R349; log 18). -/
def lookupCall (payload : Bytes) (s : State) : Option Desc × State :=
  let (a, r) := nextAnswer s.ans.lookup (Config.freeLookup s.asked)
  (a, (s.withAns { s.ans with lookup := r }).act (.lookup payload a))

/-- The mode that a SET_UPG_CFG payload requests (rule R353; log 18). -/
def readModeCall (payload : Bytes) (s : State) : UpgradeMode × State :=
  let (a, r) := nextAnswer s.ans.mode (Config.freeMode s.asked)
  (a, (s.withAns { s.ans with mode := r }).act (.readMode payload a))

end Sys2Proof.Machine
end

