-- ==== Sys2Proof/Machine/Ssw.lean ====
section
/-! DEFINITION. The Sparse Stream Writer's operations (43_sparse_writer.md). The bytes at hand `W[pos ..]` of a running
PUSH are the field `hand` (log 15). -/

namespace Sys2Proof.Machine

/-- `PROGRESS(percent)` (rule R8). -/
def progressAct (p : Byte) (s : State) : State := s.act (.progress p)

/-- `consume(n)` (rules R286, R307, R308). -/
def consume (n : Nat) (s : State) : State :=
  let c := s.ssw.hand.take n
  s.withSsw { s.ssw with
    hand := s.ssw.hand.drop n
    transSize := s.ssw.transSize + BitVec.ofNat 64 n
    crcTx := crc32Update s.cfg.crc32 s.ssw.crcTx c
    crcWr := if s.ssw.phase = .raw then s.ssw.crcWr else crc32Update s.cfg.crc32 s.ssw.crcWr c }

/-- The absolute block offset of the cursor (rules R61, R302). -/
def cursorBlk (s : State) : Nat := s.ssw.partStart.toNat + s.ssw.cursor.toNat

/-- Advance the cursor by a number of blocks. -/
def advance (n : Nat) (s : State) : State :=
  s.withSsw { s.ssw with cursor := s.ssw.cursor + BitVec.ofNat 32 n }

/-- `chunk_done()` (rule R289). -/
def chunkDone (s : State) : State :=
  let blocks := s.ssw.blocksDone + (le32 s.ssw.curHdr 4).setWidth 64
  let s1 := progressAct (progressOf blocks s.ssw.totalBlks)
    (s.withSsw { s.ssw with chunksDone := s.ssw.chunksDone + 1, blocksDone := blocks })
  s1.withSsw { s1.ssw with phase := if s1.ssw.chunksDone = s1.ssw.totalChunks then .spDone else .spChunkHdr }

/-- What one step of the PUSH loop does (rule R286): it waits for more bytes, or goes on. -/
inductive PushStep where
  | wait
  | go (s : State)

/-- Step DETECT (rule R287). -/
def stepDetect (s : State) : PushStep :=
  if s.ssw.hand.length < 4 then .wait
  else .go (s.withSsw { s.ssw with phase := if le32 s.ssw.hand 0 = s.cfg.sparseMagic then .spHdr else .raw })

/-- Step SP_HDR (rule R288). -/
def stepSpHdr (s : State) : PushStep :=
  if s.ssw.hand.length < s.cfg.sparseHdrLen then .wait
  else
    let h := s.ssw.hand.take s.cfg.sparseHdrLen
    if (le16 h 8).toNat ≠ s.cfg.sparseHdrLen ∨ (le16 h 10).toNat ≠ s.cfg.chunkHdrLen then .go (failSsw .hdr s)
    else if le32 h 12 = 0 ∨ (le32 h 12).toNat % s.ssw.bs.toNat ≠ 0 then .go (failSsw .hdr s)
    else
      let s1 := consume s.cfg.sparseHdrLen s
      .go (s1.withSsw { s1.ssw with
        sbs := le32 h 12
        totalBlks := le32 h 16
        totalChunks := le32 h 20
        phase := if le32 h 20 = 0 then .spDone else .spChunkHdr })

/-- The known chunk types (rule R104). -/
inductive ChunkKind where
  | raw
  | fill
  | dontCare
  | crc32
  deriving DecidableEq, Repr

/-- The type of a chunk header, if it is a known one (rules R104, R126). -/
def chunkKind (c : Config) (h : Bytes) : Option ChunkKind :=
  if le16 h 0 = c.typeRaw then some .raw
  else if le16 h 0 = c.typeFill then some .fill
  else if le16 h 0 = c.typeDontCare then some .dontCare
  else if le16 h 0 = c.typeCrc32 then some .crc32
  else none

/-- Payload bytes that a chunk's type and `chunk_sz` call for, as an exact natural (rules R104, R290, R292). -/
def chunkWant (k : ChunkKind) (csz sbs : U32) : Nat :=
  match k with
  | .raw => csz.toNat * sbs.toNat
  | .fill => 4
  | .dontCare => 0
  | .crc32 => 0

/-- Storage blocks of a chunk, as an exact natural (rules R290, R292). -/
def chunkBlks (csz : U32) (w : Ssw) : Nat := csz.toNat * (w.sbs.toNat / w.bs.toNat)

/-- A chunk header `h` taken as `eff` of type `k` (rule R290 from `type` on): `total_sz`, then overrun, then the chunk. -/
def takeChunk (h eff : Bytes) (k : ChunkKind) (s : State) : State :=
  let csz := le32 eff 4
  let nblk := chunkBlks csz s.ssw
  if (le32 eff 8).toNat ≠ s.cfg.chunkHdrLen + chunkWant k csz s.ssw.sbs then failSsw .chunkHdr s
  else if k ≠ .crc32 ∧ s.ssw.partSize.toNat < s.ssw.cursor.toNat + nblk then failSsw .overrun s
  else
    let s1 := consume s.cfg.chunkHdrLen s
    let s2 := s1.withSsw { s1.ssw with
      curHdr := eff
      lastHdr := if eff = h then h else s1.ssw.lastHdr
      lastValid := if eff = h then true else s1.ssw.lastValid }
    match k with
    | .raw =>
      let s3 := s2.withSsw { s2.ssw with chunkRem := BitVec.ofNat 32 (chunkWant .raw csz s2.ssw.sbs) }
      if s3.ssw.chunkRem = 0 then chunkDone s3 else s3.withSsw { s3.ssw with phase := .spRaw }
    | .fill => s2.withSsw { s2.ssw with chunkRem := 4, phase := .spFill }
    | .dontCare => chunkDone (advance nblk s2)
    | .crc32 => chunkDone s2

/-- An unknown chunk type (rule R297): recorded, then refused, or the last valid header is used again. -/
def unknownChunk (h : Bytes) (s : State) : State :=
  let s1 := raiseSsw .chunkType s
  if s1.cfg.unknownPolicy = .hardError ∨ s1.ssw.lastValid = false then failSsw .chunkType s1
  else
    match chunkKind s1.cfg s1.ssw.lastHdr with
    | none => failSsw .chunkType s1
    | some k => takeChunk h s1.ssw.lastHdr k s1

/-- Step SP_CHUNK_HDR (rule R290). -/
def stepSpChunkHdr (s : State) : PushStep :=
  if s.ssw.hand.length < s.cfg.chunkHdrLen then .wait
  else
    let h := s.ssw.hand.take s.cfg.chunkHdrLen
    match chunkKind s.cfg h with
    | some k => .go (takeChunk h h k s)
    | none => .go (unknownChunk h s)

/-- Step SP_RAW (rule R293). -/
def stepSpRaw (s : State) : PushStep :=
  let bs := s.ssw.bs.toNat
  let k := min s.ssw.hand.length s.ssw.chunkRem.toNat / bs
  if k = 0 then .wait
  else
    let (ok, s1) := devWriteCall (cursorBlk s) (s.ssw.hand.take (k * bs)) s
    if ok then
      let s2 := advance k (consume (k * bs) s1)
      let s3 := s2.withSsw { s2.ssw with chunkRem := s2.ssw.chunkRem - BitVec.ofNat 32 (k * bs) }
      .go (if s3.ssw.chunkRem = 0 then chunkDone s3 else s3)
    else .go (failSsw .dev s1)

/-- `pattern(w, L)` (rules R65, R295): byte `i` is `w[i mod 4]`. -/
def pattern (w : Bytes) (len : Nat) : Bytes := (List.range len).map (fun i => byteAt w (i % 4))

/-- `fill_write(w, n)` (rule R295), at most `fuel` writes. -/
def fillWrite (w : Bytes) : Nat → Nat → State → State
  | 0, _, s => s
  | fuel + 1, n, s =>
    if n = 0 ∨ s.ssw.phase = .failed then s
    else
      let m := min n s.cfg.fillBufBlks
      let (ok, s1) := devWriteCall (cursorBlk s) (pattern w (m * s.ssw.bs.toNat)) s
      if ok then fillWrite w fuel (n - m) (advance m s1) else failSsw .dev s1

/-- The erase of the aligned middle (rule R295). -/
def eraseMid (mid : Nat) (s : State) : State :=
  if 0 < mid ∧ s.ssw.phase ≠ .failed then
    let (ok, s1) := devEraseCall (cursorBlk s) mid s
    if ok then advance mid s1 else failSsw .dev s1
  else s

/-- Blocks up to the next erase-group boundary, at most `nblk` (rule R295). -/
def fillHead (c : Config) (blk nblk : Nat) : Nat :=
  min nblk ((c.eraseGroupBlks - blk % c.eraseGroupBlks) % c.eraseGroupBlks)

/-- `do_fill(w, nblk)` (rule R295). -/
def doFill (w : Bytes) (nblk : Nat) (s : State) : State :=
  if s.cfg.fillStrategy = .eraseOpt ∧ w = [0, 0, 0, 0] ∧ s.cfg.eraseThreshBlks ≤ nblk then
    let head := fillHead s.cfg (cursorBlk s) nblk
    let mid := (nblk - head) / s.cfg.eraseGroupBlks * s.cfg.eraseGroupBlks
    let tail := nblk - head - mid
    fillWrite w tail tail (eraseMid mid (fillWrite w head head s))
  else fillWrite w nblk nblk s

/-- `consume(4); CHUNK_REM <- 0` of rule R294. -/
def eatWord (s : State) : State :=
  let s1 := consume 4 s
  s1.withSsw { s1.ssw with chunkRem := 0 }

/-- Step SP_FILL (rule R294). The word is consumed before the device calls of `do_fill`, and `fail` (rule R304) undoes nothing: what a
failing call leaves out is the blocks it names, by which the cursor does not advance (log 38). -/
def stepSpFill (s : State) : PushStep :=
  if s.ssw.hand.length < 4 then .wait
  else
    let s1 := eatWord s
    let s2 := doFill (s.ssw.hand.take 4) (chunkBlks (le32 s1.ssw.curHdr 4) s1.ssw) s1
    .go (if s2.ssw.phase = .failed then s2 else chunkDone s2)

/-- Step SP_DONE (rule R299). -/
def stepSpDone (s : State) : PushStep := if 0 < s.ssw.hand.length then .go (failSsw .trailing s) else .wait

/-- Step RAW (rule R301): overrun, then write, then read-back (rule R375). -/
def stepRaw (s : State) : PushStep :=
  let bs := s.ssw.bs.toNat
  let k := s.ssw.hand.length / bs
  if k = 0 then .wait
  else if s.ssw.partSize.toNat < s.ssw.cursor.toNat + k then .go (failSsw .overrun s)
  else
    let (ok, s1) := devWriteCall (cursorBlk s) (s.ssw.hand.take (k * bs)) s
    if ok then
      let (rb, s2) := devReadCall (cursorBlk s1) k s1
      match rb with
      | none => .go (failSsw .dev s2)
      | some d =>
        let s3 := s2.withSsw { s2.ssw with crcWr := crc32Update s2.cfg.crc32 s2.ssw.crcWr d }
        .go (advance k (consume (k * bs) s3))
    else .go (failSsw .dev s1)

/-- The step of the current phase (rules R281, R286). -/
def pushStep (s : State) : PushStep :=
  match s.ssw.phase with
  | .closed => .wait
  | .detect => stepDetect s
  | .spHdr => stepSpHdr s
  | .spChunkHdr => stepSpChunkHdr s
  | .spRaw => stepSpRaw s
  | .spFill => stepSpFill s
  | .spDone => stepSpDone s
  | .raw => stepRaw s
  | .failed => .wait

/-- The loop of `SSW.PUSH` (rule R286), at most `fuel` steps. -/
def pushLoop : Nat → State → State
  | 0, s => s
  | fuel + 1, s =>
    match pushStep s with
    | .wait => s
    | .go s1 => if s1.ssw.phase = .failed then s1 else pushLoop fuel s1

/-- Enough steps for `n` bytes at hand: a step that does not wait consumes a byte, leaves DETECT, or fails (rule R286). -/
def pushFuel (n : Nat) : Nat := n + 2

/-- The end of `SSW.PUSH` (rules R286, R300): nothing stays at hand, the tail is the leftover unless the session failed. -/
def pushEnd (s : State) : Except Fault (Byte × State) :=
  if s.ssw.phase = .failed then .ok (s.ssw.fail, s.withSsw { s.ssw with hand := [] })
  else
    match writeBuf .left (leftCap s.cfg s.ssw) s.left 0 s.ssw.hand with
    | .error f => .error f
    | .ok m =>
      .ok (sswNum .ok, (s.withLeft m).withSsw { s.ssw with leftLen := BitVec.ofNat 32 s.ssw.hand.length, hand := [] })

/-- `SSW.PUSH(B)` (rule R286). -/
def sswPushOp (b : Bytes) (s : State) : Except Fault (Byte × State) :=
  if s.ssw.phase = .closed then .ok (sswNum .noSession, s)
  else if s.ssw.phase = .failed then .ok (s.ssw.fail, s)
  else if b.length = 0 then .ok (sswNum .ok, s)
  else
    match readBuf .left (leftCap s.cfg s.ssw) s.left 0 s.ssw.leftLen.toNat with
    | .error f => .error f
    | .ok l => pushEnd (pushLoop (pushFuel (l ++ b).length) (s.withSsw { s.ssw with hand := l ++ b }))

/-- `SSW.OPEN(desc)` (rule R284): session open, block size, range (rule R375). The row names no transport, so that it leaves the
dispatcher's owner (rule R350) as it was: DESIGN CHOICE, log 19. -/
def sswOpenOp (d : Desc) (s : State) : Byte × State :=
  if s.ssw.phase ≠ .closed then (sswNum .busy, s)
  else if descOk d then
    (sswNum .ok, s.withSsw { sswReset s.cfg with
      phase := .detect, partStart := d.start, partSize := d.size, bs := d.bs })
  else (sswNum .desc, s)

/-- `SSW.CLOSE` (rule R285). The dispatcher, its only caller (rule R74), forgets who owned the session (rule R350). -/
def sswCloseOp (s : State) : Byte × State :=
  if s.ssw.phase = .closed then (sswNum .noSession, s)
  else (sswNum .ok, (s.withSsw (sswReset s.cfg)).withCdi { s.cdi with owner := none })

/-- `SSW.GET_RESULT` (rule R306). -/
def sswResultOf (w : Ssw) : Byte :=
  match w.phase with
  | .closed => sswNum .noSession
  | .failed => w.fail
  | .spHdr => sswNum .incomplete
  | .spChunkHdr => sswNum .incomplete
  | .spRaw => sswNum .incomplete
  | .spFill => sswNum .incomplete
  | .detect => if w.leftLen ≠ 0 then sswNum .incomplete else sswNum .ok
  | .spDone => if w.leftLen ≠ 0 then sswNum .incomplete else sswNum .ok
  | .raw =>
    if w.leftLen ≠ 0 then sswNum .incomplete
    else if w.crcWr ≠ w.crcTx then sswNum .verify
    else sswNum .ok

/-- `SSW.GET_CRC` (rule R309). -/
def sswCrcOf (w : Ssw) : Byte × U32 :=
  if w.phase = .closed then (sswNum .noSession, 0) else (sswNum .ok, w.crcWr)

end Sys2Proof.Machine
end

