-- ==== Sys2Proof/Machine/Upe.lean ====
section
/-! DEFINITION. The UART Protocol Engine's operations (41_uart_engine.md). -/

namespace Sys2Proof.Machine

/-- `tx(bytes)` (rules R14, R73). -/
def tx (b : Bytes) (s : State) : State := s.act (.uartTx b)

/-- `frame_reset()` (rule R184). -/
def frameReset (s : State) : State := s.withUpe { s.upe with fcnt := 0, fneed := 0 }

/-- `post_status(code)` (rule R199). -/
def postStatus (code : Byte) (s : State) : State :=
  s.withUpe { s.upe with
    statusOverrun := s.upe.statusOverrun || s.upe.statusValid
    statusCode := code
    statusValid := true }

/-- `ST_RECV_DONE` and `ST_SEND_DONE` (rule R25). -/
def stRecvDone : Byte := 1
def stSendDone : Byte := 2

/-- A refused frame: record the code, NAK, frame reset (rules R181 to R183, R380). -/
def nakFrame (e : UpeErr) (s : State) : State := frameReset (tx [s.cfg.nak] (raiseUpe e s))

/-- The queue without its head (rules R185, R187, R192). -/
def dropHead (s : State) : State := s.withUpe { s.upe with q := s.upe.q.tail }

/-- The head task is satisfied: it leaves the queue with its status (rules R26, R185, R192), its buffer to the
caller (rules R173, R424; log 4). -/
def finishHead (t : Task) (code : Byte) (s : State) : State :=
  dropHead ((postStatus code s).withFinished (s.finished ++ [t]))

/-- `switch_dir(d)` (rule R187): only the head is examined, at most one task is removed, no status is posted. -/
def switchDir (d : Dir) (s : State) : State :=
  match s.upe.q with
  | [] => s
  | t :: _ => if t.dir = d then s else dropHead s

/-- Pack the slice of the head task and transmit it (rules R186, R193). `PACK_FRAME` fails on no length that
`SLICE` gives (rule R186); a state with another `SLICE` is none of the machine's (log 22). -/
def sendSlice (t : Task) (n : Nat) (k : State → Result) (s : State) : Result :=
  withVal (readBuf .taskBuf t.len.toNat t.buf t.done.toNat n) fun data =>
    match packFrameOf s.cfg s.upe.sendBlk data with
    | .ok f => k (tx f s)
    | .error _ => .fault .noFrame

/-- `try_send()` (rule R186). -/
def trySend (s : State) : Result :=
  if sendReady s.upe then
    match s.upe.q with
    | [] => .next s
    | t :: _ =>
      let n := sliceOf (t.len - t.done).toNat
      sendSlice t n (fun s1 => .next (s1.withUpe { s1.upe with st := .cmdRecv, awaitAck := true, tWait := 0 }))
        (s.withUpe { s.upe with slice := BitVec.ofNat 16 n })
  else .next s

/-- `retransmit()` (rule R193). -/
def retransmit (s : State) : Result :=
  match s.upe.q with
  | [] => .fault .noHead
  | t :: _ => sendSlice t s.upe.slice.toNat (fun s1 => .next (s1.withUpe { s1.upe with tWait := 0 })) s

/-- SIG_C outside a frame (rule R177). -/
def cmdSigC (s : State) : State := tx [s.cfg.ack] (s.withUpe { s.upe with fresh := true })

/-- DC1 or DC2 outside a frame (rules R178, R179). -/
def cmdSwitch (d : Dir) (st : UpeSt) (s : State) : State :=
  frameReset ((switchDir d s).withUpe { (switchDir d s).upe with st := st, awaitAck := false })

/-- ACK while a frame is in flight (rule R192). -/
def cmdAck (s : State) : Result :=
  match s.upe.q with
  | [] => .fault .noHead
  | t :: rest =>
    let t1 := { t with done := t.done + s.upe.slice.setWidth 32 }
    let s1 := s.withUpe { s.upe with q := t1 :: rest, sendBlk := s.upe.sendBlk + 1, awaitAck := false }
    if t1.done = t1.len then .next (finishHead t1 stSendDone s1)
    else .next (s1.withUpe { s1.upe with st := .dataSend })

/-- `command_byte(b)` (rules R177 to R179, R191 to R194). -/
def commandByte (b : Byte) (s : State) : Result :=
  if b = s.cfg.sigC then .next (cmdSigC s)
  else if b = s.cfg.dc1 then .next (cmdSwitch .recv .dataRecv s)
  else if b = s.cfg.dc2 then .next (cmdSwitch .send .dataSend s)
  else if b = s.cfg.ack ∧ s.upe.awaitAck = true then cmdAck s
  else if b = s.cfg.nak ∧ s.upe.awaitAck = true then retransmit s
  else .next s

/-- Admission and acceptance of a new frame (rules R182, R185). -/
def acceptFrame (blk : Byte) (data : Bytes) (s : State) : Result :=
  match s.upe.q with
  | [] => .next (nakFrame .noTask s)
  | t :: rest =>
    if t.dir ≠ .recv then .next (nakFrame .noTask s)
    else if (t.len - t.done).toNat < data.length then .next (nakFrame .overflow s)
    else
      withVal (writeBuf .taskBuf t.len.toNat t.buf t.done.toNat data) fun m =>
        let t1 := { t with buf := m, done := t.done + BitVec.ofNat 32 data.length }
        let s1 := frameReset (tx [s.cfg.ack] (s.withUpe { s.upe with q := t1 :: rest, lastBlk := blk, fresh := false }))
        if t1.done = t1.len then .next (finishHead t1 stRecvDone s1) else .next s1

/-- `complete_frame()` (rules R181, R183). -/
def completeFrame (frame : Bytes) (s : State) : Result :=
  match unpackOf s.cfg frame with
  | .error e => .next (nakFrame (.fc e) s)
  | .ok (blk, data) =>
    match blkClass s.upe blk with
    | .bad => .next (nakFrame .seq s)
    | .dup => .next (frameReset (tx [s.cfg.ack] s))
    | .new => acceptFrame blk data s

/-- `frame_byte(b)` (rule R180). -/
def frameByte (b : Byte) (s : State) : Result :=
  withVal (writeBuf .fbuf Config.longFrameLen s.fbuf s.upe.fcnt.toNat [b]) fun m =>
    let n := s.upe.fcnt.toNat + 1
    let frame := m.readRun 0 n
    let s1 := (s.withFbuf m).withUpe { s.upe with fcnt := BitVec.ofNat 16 n }
    match frameTotalOf s.cfg frame with
    | .err _ => .fault .noLead
    | .unknown => .next (s1.withUpe { s1.upe with fneed := 4 })
    | .total t =>
      let s2 := s1.withUpe { s1.upe with fneed := BitVec.ofNat 16 t }
      if n = t then completeFrame frame s2 else .next s2

/-- `UART.RX(b)` (rule R172). -/
def uartRx (b : Byte) (s : State) : Result :=
  if upeMasked s.upe then .next s
  else
    let s1 := s.withUpe { s.upe with tByte := 0, tSess := 0 }
    andThen (if inFrame s1.cfg s1.upe b then frameByte b s1 else commandByte b s1) trySend

/-- `UART.RXS(b0 b1 ...)` (rule R133). -/
def uartRxs : Bytes → State → Result
  | [], s => .next s
  | b :: r, s => andThen (uartRx b s) (uartRxs r)

/-- Enqueue a task (rules R173, R174). -/
def startTask (t : Task) (s : State) : Result :=
  if upeMasked s.upe then .next (s.withRet (.code (portNum .state)))
  else if t.len = 0 then .next (s.withRet (.code (portNum .len)))
  else if s.upe.q.length = s.cfg.qCap then .next (s.withRet (.code (portNum .full)))
  else
    andThen (trySend (s.withUpe { s.upe with q := s.upe.q ++ [t] }))
      (fun s1 => .next (s1.withRet (.code (portNum .ok))))

/-- `UPE.INIT` (rule R175). -/
def upeInitOp (s : State) : State := tx [s.cfg.can] (s.withUpe { upeReset with run := true })

/-- `frame_watchdog()` (rule R196). -/
def frameWatchdog (s : State) : State :=
  let s1 := tx [s.cfg.nak] (frameReset (raiseUpe .timeoutFrame s))
  s1.withUpe { s1.upe with tByte := 0 }

/-- `session_timeout()` (rule R198). -/
def sessionTimeout (s : State) : State :=
  let s1 := raiseUpe .timeoutSession s
  s1.withUpe { s1.upe with abort := true }

/-- On seeing `UPE.ABORT` the dispatcher releases the writer (rule R356): its SSW.CLOSE becomes a pending event. No order among events
of different sources may be assumed (rules R375, R436), so it comes to stand after any number of the events that already wait: the next
supplied number, or a free value (log 28). -/
def releaseWriter (s : State) : State :=
  let (n, r) := nextAnswer s.ans.close (Config.freeClose s.asked)
  (s.withAns { s.ans with close := r }).withInbox (s.inbox.take n ++ ⟨.sswClose, []⟩ :: s.inbox.drop n)

/-- The counters of a tick (rule R195). -/
def tickCounters (u : Upe) : Upe :=
  { u with
    tByte := satInc u.tByte
    tSess := satInc u.tSess
    tWait := if u.awaitAck then satInc u.tWait else u.tWait }

/-- `TICK` (rule R195): session timeout, frame watchdog, ACK timeout, in this order (rule R375); the dispatcher sees the session
timeout (rules R198, R356). -/
def tickOp (s : State) : Result :=
  if upeMasked s.upe then .next s
  else
    let s1 := s.withUpe (tickCounters s.upe)
    if past s1.upe.tSess s1.cfg.tSession then .next (releaseWriter (sessionTimeout s1))
    else
      let s2 := if s1.upe.st = .dataRecv ∧ s1.upe.fcnt ≠ 0 ∧ past s1.upe.tByte s1.cfg.tFrame = true then frameWatchdog s1
        else s1
      andThen (if s2.upe.awaitAck = true ∧ past s2.upe.tWait s2.cfg.tAck = true then retransmit (raiseUpe .timeoutAck s2)
        else .next s2) trySend

end Sys2Proof.Machine
end

