-- ==== Sys2Proof/Machine/Ute.lean ====
section
/-! DEFINITION. The USB Transport Engine's operations (42_usb_engine.md). -/

namespace Sys2Proof.Machine

/-- `ep_recv(n)` (rule R14). -/
def epRecvAct (n : Nat) (s : State) : State := s.act (.epRecv n)

/-- `ep_send(bytes)` (rule R14). -/
def epSendAct (b : Bytes) (s : State) : State := s.act (.epSend b)

/-- Build a CSW, submit it and wait for its completion: the end of rule R246. `SendCsw` is held only inside (rule R231). -/
def submitCsw (tag residue : U32) (status : Byte) (s : State) : State :=
  let b := cswBytes tag residue status
  let s1 := epSendAct b (s.withUte { s.ute with stage := .sendCsw, csw := b })
  s1.withUte { s1.ute with stage := .waitCsw }

/-- `send_csw()` (rule R246): the dispatcher is not asked when there is a phase error. -/
def sendCsw (s : State) : State :=
  if s.ute.phaseErr then submitCsw s.ute.tag (s.ute.dlen - s.ute.moved) 2 s
  else
    let (st, s1) := dispStatusCall s
    submitCsw s1.ute.tag (s1.ute.dlen - s1.ute.moved) (cswStatusOf st) s1

/-- `malformed(UTE_ERR_CBW)` (rule R237). -/
def malformedCbw (s : State) : State := sendCsw (raiseUte .cbw s)

/-- `min(TASK_XFER - TASK_DONE, EP_MPS)` of rules R239, R243. -/
def nextPacket (c : Config) (u : Ute) : U32 := BitVec.ofNat 32 (min (u.taskXfer - u.taskDone).toNat c.epMps)

/-- `arm_out_packet()` (rule R239). -/
def armOutPacket (s : State) : State :=
  epRecvAct (nextPacket s.cfg s.ute).toNat
    (s.withUte { s.ute with pktXfer := nextPacket s.cfg s.ute, pktDone := 0 })

/-- The next task: one filling of the packet buffer (rules R232, R239, R242). -/
def nextTask (s : State) : State :=
  s.withUte { s.ute with
    taskXfer := BitVec.ofNat 32 (min s.ute.remain.toNat s.cfg.pktBufSize)
    taskDone := 0 }

/-- `start_out_task()` (rule R239). -/
def startOutTask (s : State) : State := armOutPacket (nextTask s)

/-- `submit_in_packet()` (rule R243). -/
def submitInPacket (s : State) : Result :=
  let n := nextPacket s.cfg s.ute
  withVal (readBuf .pktbuf s.cfg.pktBufSize s.pktbuf s.ute.taskDone.toNat n.toNat) fun d =>
    .next (epSendAct d (s.withUte { s.ute with pktXfer := n, pktDone := 0 }))

/-- `start_in_task()` (rule R242). -/
def startInTask (s : State) : Result :=
  let s1 := nextTask s
  let (d, s2) := dispInCall s1.ute.taskXfer.toNat s1
  let n := BitVec.ofNat 32 d.length
  let s3 := if d.length < s2.ute.taskXfer.toNat then
      (raiseUte .length s2).withUte { (raiseUte .length s2).ute with taskXfer := n, remain := n }
    else s2
  withVal (writeBuf .pktbuf s3.cfg.pktBufSize s3.pktbuf 0 d) fun m =>
    let s4 := s3.withPktbuf m
    if s4.ute.taskXfer = 0 then .next (sendCsw s4) else submitInPacket s4

/-- `forward_task()` (rule R241). -/
def forwardTask (s : State) : Except Fault State :=
  if s.ute.drain = false ∧ s.ute.taskDone ≠ 0 then
    match readBuf .pktbuf s.cfg.pktBufSize s.pktbuf 0 s.ute.taskDone.toNat with
    | .error f => .error f
    | .ok b =>
      let (c, s1) := dispOutCall b s
      let s2 := s1.withUte { s1.ute with moved := s1.ute.moved + BitVec.ofNat 32 c }
      if c < s2.ute.taskDone.toNat then
        .ok ((raiseUte .length s2).withUte { (raiseUte .length s2).ute with drain := true })
      else .ok s2
  else .ok s

/-- `begin_data()` (rule R238). -/
def beginData (s : State) : Result :=
  let (e, s1) := dispExpectCall s.ute.cmd s.ute.dlen s
  let s2 := if e ≠ s1.ute.dlen then raiseUte .length s1 else s1
  if s2.ute.dirIn then
    let s3 := s2.withUte { s2.ute with remain := BitVec.ofNat 32 (min s2.ute.dlen.toNat e.toNat) }
    if s3.ute.remain = 0 then .next (sendCsw s3)
    else startInTask (s3.withUte { s3.ute with stage := .dataIn })
  else
    let s3 := s2.withUte { s2.ute with drain := s2.ute.phaseErr, remain := s2.ute.dlen }
    if s3.ute.remain = 0 then .next (sendCsw s3)
    else .next (startOutTask (s3.withUte { s3.ute with stage := .dataOut }))

/-- The registers that a transfer in ReadCbw clears, and the tag it carries (rule R236). -/
def cbwStart (b : Bytes) (u : Ute) : Ute :=
  { u with
    phaseErr := false
    drain := false
    moved := 0
    remain := 0
    taskXfer := 0
    taskDone := 0
    pktXfer := 0
    pktDone := 0
    tag := if 8 ≤ b.length then le32 b 4 else 0 }

/-- The fields of a CBW (rules R100, R236). -/
def cbwFields (b : Bytes) (u : Ute) : Ute :=
  { u with cbw := b, dlen := le32 b 8, dirIn := bit7 (byteAt b 12), cmd := byteAt b 15 }

/-- `UTE.OUT_DONE(bytes)` in ReadCbw (rule R236). -/
def outReadCbw (b : Bytes) (s : State) : Result :=
  let s1 := s.withUte (cbwStart b s.ute)
  if b.length ≠ Config.cbwLen ∨ le32 b 0 ≠ Config.cbwSig then
    .next (malformedCbw (s1.withUte { s1.ute with dlen := 0 }))
  else
    let s2 := s1.withUte (cbwFields b s1.ute)
    if cbwPaired s2.cfg s2.ute.cmd s2.ute.dirIn then beginData s2 else .next (malformedCbw s2)

/-- `UTE.OUT_DONE(bytes)` in DataOut or DataOutBuf (rule R240). More bytes than armed: the model takes no step (U6). -/
def outData (b : Bytes) (s : State) : Result :=
  if s.ute.pktXfer.toNat < b.length then .refused .outTooLong
  else
    withVal (writeBuf .pktbuf s.cfg.pktBufSize s.pktbuf s.ute.taskDone.toNat b) fun m =>
      let n := BitVec.ofNat 32 b.length
      let s1 := (s.withPktbuf m).withUte { s.ute with
        pktDone := n, taskDone := s.ute.taskDone + n, remain := s.ute.remain - n }
      let short := decide (b.length < s.ute.pktXfer.toNat)
      let s2 := if short then raiseUte .short s1 else s1
      if s2.ute.taskDone = s2.ute.taskXfer ∨ short = true then
        withVal (forwardTask s2) fun s3 =>
          if s3.ute.remain = 0 ∨ short = true then .next (sendCsw s3)
          else .next (startOutTask (s3.withUte { s3.ute with stage := .dataOutBuf }))
      else .next (armOutPacket (s2.withUte { s2.ute with stage := .dataOutBuf }))

/-- `UTE.OUT_DONE(bytes)` (rules R230, R236, R240, R248). The stage takes a completion whether or not it was armed: rule R426 leaves
one that was not armed undefined (log 14). -/
def outDone (b : Bytes) (s : State) : Result :=
  if s.ute.run then
    match s.ute.stage with
    | .readCbw => outReadCbw b s
    | .dataOut => outData b s
    | .dataOutBuf => outData b s
    | .dataIn => .next s
    | .dataInBuf => .next s
    | .sendCsw => .next s
    | .waitCsw => .next s
  else .next s

/-- `UTE.IN_DONE(n)` in DataIn or DataInBuf (rule R244). More than submitted: the model takes no step (U6). -/
def inData (n : U32) (s : State) : Result :=
  if s.ute.pktXfer.toNat < n.toNat then .refused .inTooLong
  else
    let s1 := s.withUte { s.ute with
      pktDone := n, taskDone := s.ute.taskDone + n, remain := s.ute.remain - n, moved := s.ute.moved + n }
    if s1.ute.taskDone = s1.ute.taskXfer then
      if s1.ute.remain = 0 then .next (sendCsw s1)
      else startInTask (s1.withUte { s1.ute with stage := .dataInBuf })
    else submitInPacket (s1.withUte { s1.ute with stage := .dataInBuf })

/-- `UTE.IN_DONE(n)` in WaitCsw (rule R247). -/
def inWaitCsw (s : State) : State := epRecvAct Config.cbwLen (s.withUte { s.ute with stage := .readCbw })

/-- `UTE.IN_DONE(n)` (rules R230, R244, R247, R248), armed or not (rule R426; log 14). -/
def inDone (n : U32) (s : State) : Result :=
  if s.ute.run then
    match s.ute.stage with
    | .dataIn => inData n s
    | .dataInBuf => inData n s
    | .waitCsw => .next (inWaitCsw s)
    | .readCbw => .next s
    | .dataOut => .next s
    | .dataOutBuf => .next s
    | .sendCsw => .next s
  else .next s

/-- `UTE.INIT` (rule R235). -/
def uteInitOp (s : State) : State := epRecvAct Config.cbwLen (s.withUte { uteReset with run := true })

/-- `UTE.USB_RESET` (rules R230, R249, R374): ignored while the engine does not run. -/
def usbResetOp (s : State) : State := if s.ute.run then uteInitOp s else s

end Sys2Proof.Machine
end

