-- ==== Sys2Proof/Machine/Actions.lean ====
section
/-! DEFINITION. The output action rows: the action is performed, and an oracle call's answer is handed back
(rules R8, R67, R69, R233, R289). -/

namespace Sys2Proof.Machine

/-- Hand back the action just performed, with the answer it got. -/
def retLast (s : State) : State :=
  match s.log.getLast? with
  | none => s
  | some a => s.withRet (.answer a)

/-- UART.TX (rules R8, R186). -/
def execUartTx (b : Bytes) (s : State) : Result := .next (tx b s)

/-- EP.RECV (rules R8, R239). -/
def execEpRecv (n : U32) (s : State) : Result := .next (epRecvAct n.toNat s)

/-- EP.SEND (rules R8, R243). -/
def execEpSend (b : Bytes) (s : State) : Result := .next (epSendAct b s)

/-- DISP.EXPECT (rule R233). -/
def execDispExpect (cmd : Byte) (len : U32) (s : State) : Result := .next (retLast (dispExpectCall cmd len s).2)

/-- DISP.OUT (rule R233). -/
def execDispOut (b : Bytes) (s : State) : Result := .next (retLast (dispOutCall b s).2)

/-- DISP.IN (rule R233). -/
def execDispIn (n : U32) (s : State) : Result := .next (retLast (dispInCall n.toNat s).2)

/-- DISP.STATUS (rule R233). -/
def execDispStatus (s : State) : Result := .next (retLast (dispStatusCall s).2)

/-- DEV.WRITE (rules R67, R305, R310): whole blocks of `SSW.BS` bytes; of anything else, what the blocks hold afterwards is free
(log 35). -/
def execDevWrite (blk : U32) (data : Bytes) (s : State) : Result :=
  if data.length ≠ 0 ∧ s.ssw.bs ≠ 0 ∧ data.length % s.ssw.bs.toNat = 0 then
    .next (retLast (devWriteCall blk.toNat data s).2)
  else .next (retLast (devWriteOdd blk.toNat data s).2)

/-- DEV.READ (rules R69, R301, U16). -/
def execDevRead (blk n : U32) (s : State) : Result := .next (retLast (devReadCall blk.toNat n.toNat s).2)

/-- DEV.ERASE (rules R69, R305, R310). -/
def execDevErase (blk n : U32) (s : State) : Result := .next (retLast (devEraseCall blk.toNat n.toNat s).2)

/-- PROGRESS (rules R8, R289). -/
def execProgress (percent : Byte) (s : State) : Result := .next (progressAct percent s)

end Sys2Proof.Machine
end

