-- ==== Sys2Proof/Machine/Cdi.lean ====
section
/-! DEFINITION. The Command Dispatcher's operations (44_command_interface.md), outside the block but rows of the
opcode table (log 17 to log 21, log 28, log 30, log 37). -/

namespace Sys2Proof.Machine

/-- What a handler answers: the response status and payload (rule R348). -/
structure Reply where
  status : Byte
  out : Bytes
  deriving DecidableEq, Repr

/-- `respond(cmd, status, out)` (rule R348): the header bytes. -/
def respondHeader (c : Config) (cmd : Byte) (r : Reply) : Bytes :=
  hdrEncode c Config.rspMagic
    { protocol := Config.proto, version := Config.version, command := cmd, b7 := r.status,
      dataLength := BitVec.ofNat 32 r.out.length }

/-- The response status of an SSW code (rules R347, R349). -/
def statusOfCode (c : Config) (code : Byte) : Byte := if code = 0 then 0 else c.rspFailed

/-- SET_FWC_META (rules R349, R350; log 19, log 30): an open session of another owner is refused without a call; else the
partition is looked up by name, the owner's own open session is closed, and the new one opened. A session that the row SSW.OPEN
opened has the owner remembered before, or none, and with none both transports are refused (log 19). -/
def handleSetMeta (via : Transport) (payload : Bytes) (s : State) : Reply × State :=
  if s.ssw.phase ≠ .closed ∧ s.cdi.owner ≠ some via then (⟨s.cfg.rspFailed, []⟩, s)
  else
    let (d, s1) := lookupCall payload s
    match d with
    | none => (⟨s1.cfg.rspFailed, []⟩, s1)
    | some desc =>
      let s2 := if s1.ssw.phase = .closed then s1 else (sswCloseOp s1).2
      let (code, s3) := sswOpenOp desc s2
      (⟨statusOfCode s3.cfg code, []⟩,
        if code = 0 then s3.withCdi { s3.cdi with owner := some via } else s3)

/-- SEND_FWC_DATA (rule R349), whichever transport carries it: rule R350 turns only SET_FWC_META away (log 37). -/
def handleSendData (payload : Bytes) (s : State) : Except Fault (Reply × State) :=
  match sswPushOp payload s with
  | .error f => .error f
  | .ok (code, s1) => .ok (⟨statusOfCode s1.cfg code, []⟩, s1)

/-- GET_FWC_CRC (rule R349); the payload's format is open (log 18). -/
def handleGetCrc (s : State) : Reply × State :=
  let (code, v) := sswCrcOf s.ssw
  (⟨statusOfCode s.cfg code, Config.crcPayload code v⟩, s)

/-- The status of a GET_FWC_BURN_RESULT response for an outcome code: 0 for an outcome that is good (rule R347), RSP_FAILED without a
session (rules R347, R370), and for an error some failure status, since storage and integrity errors are encoded in the status (rule
R385). Which one is open (rules R347, R349; log 18): a free value, where 0, which is no failure, stands for RSP_FAILED. -/
def resultStatus (c : Config) (code : Byte) : Byte :=
  if code = sswNum .ok ∨ code = sswNum .noSession ∨ (Config.burnReply code).1 = 0 then statusOfCode c code
  else (Config.burnReply code).1

/-- GET_FWC_BURN_RESULT (rule R349); the payload is open (log 18). -/
def handleGetResult (s : State) : Reply × State :=
  let code := sswResultOf s.ssw
  (⟨resultStatus s.cfg code, (Config.burnReply code).2⟩, s)

/-- SET_UPG_CFG (rule R353); which failure status a refused one answers is log 30. -/
def handleSetCfg (payload : Bytes) (s : State) : Reply × State :=
  let (m, s1) := readModeCall payload s
  if m ∈ s1.cdi.initMode then (⟨0, []⟩, s1.withCdi { s1.cdi with mode := m, modeSet := true })
  else (⟨s1.cfg.rspFailed, []⟩, s1)

/-- SET_UPG_END (rule R349), whichever transport carries it (log 37). -/
def handleSetEnd (s : State) : Reply × State :=
  let (code, s1) := sswCloseOp s
  (⟨statusOfCode s1.cfg code, []⟩, s1)

/-- The handler of a command code, if it is a known one (rules R118, R349). The three commands whose payload the table gives as
none do not read one that comes with them (log 37). -/
def handlerOf (via : Transport) (cmd : Byte) (payload : Bytes) (s : State) : Option (Except Fault (Reply × State)) :=
  if cmd = s.cfg.cmdSetFwcMeta then some (.ok (handleSetMeta via payload s))
  else if cmd = s.cfg.cmdSendFwcData then some (handleSendData payload s)
  else if cmd = s.cfg.cmdGetFwcCrc then some (.ok (handleGetCrc s))
  else if cmd = s.cfg.cmdGetFwcBurnResult then some (.ok (handleGetResult s))
  else if cmd = s.cfg.cmdSetUpgCfg then some (.ok (handleSetCfg payload s))
  else if cmd = s.cfg.cmdSetUpgEnd then some (.ok (handleSetEnd s))
  else none

/-- Byte 6 of a received header as it stands (rule R344); a free value where there is none (log 21). -/
def echoOf (hb : Bytes) : Byte := if 7 ≤ hb.length then byteAt hb 6 else Config.absentEcho

/-- The dispatcher remembers whether the header that came over USB was rejected, for `DISP.STATUS` (rule R344; log 28). -/
def noteHeader (via : Transport) (rejected : Bool) (s : State) : State :=
  match via with
  | .uart => s
  | .usb => s.withCdi { s.cdi with usbRejected := rejected }

/-- `HANDLE_COMMAND(header_bytes, payload)` (rules R344, R346, R348, R351): header, declared length, command code. -/
def handleCommandOp (via : Transport) (hb payload : Bytes) (s : State) : Result :=
  match hdrDecode s.cfg Config.cmdMagic hb with
  | .error e =>
    .next ((noteHeader via true s).withRet (.rejected e (respondHeader s.cfg (echoOf hb) ⟨s.cfg.rspFailed, []⟩)))
  | .ok x =>
    let s0 := noteHeader via false s
    if payload.length ≠ x.dataLength.toNat then
      .next (s0.withRet (.response (respondHeader s.cfg x.command ⟨s.cfg.rspFailed, []⟩) []))
    else
      match handlerOf via x.command payload s0 with
      | none => .next (s0.withRet (.response (respondHeader s.cfg x.command ⟨s.cfg.rspInvalid, []⟩) []))
      | some e =>
        withVal e fun (r, s1) => .next (s1.withRet (.response (respondHeader s1.cfg x.command r) r.out))

/-- The mode that InitMode requires, if any (rule R354; log 20). -/
def requiredMode (init : List UpgradeMode) : Option UpgradeMode :=
  if .burnUserId ∈ init then
    if .burnImgForce ∈ init then some (if Config.userIdFirst then .burnUserId else .burnImgForce)
    else some .burnUserId
  else if .burnImgForce ∈ init then some .burnImgForce
  else none

/-- `T_MODE(m)` (rules R11, R354): only the two modes that can be required have one. -/
def tModeOf (c : Config) (m : UpgradeMode) : Nat := if m = .burnImgForce then c.tModeImgForce else c.tModeUserId

/-- `CHECK_UPG_MODE(now)` (rule R354). -/
def checkUpgModeOp (now : U64) (s : State) : State :=
  match requiredMode s.cdi.initMode with
  | none => s.withRet (.exitUpgrade false)
  | some m =>
    if s.cdi.mode = m ∧ s.cdi.modeSet = true then
      (s.withCdi { s.cdi with tStart := now, modeSet := false }).withRet (.exitUpgrade false)
    else s.withRet (.exitUpgrade (decide (tModeOf s.cfg m < now.toNat - s.cdi.tStart.toNat)))

end Sys2Proof.Machine
end

