-- ==== Sys2Proof/Machine/HeaderFormats.lean ====
section
/-! DEFINITION. The header rows (a header is decoded, rules R342, R343) and the six command rows (a command with its
payload is handled, rules R348, R349). -/

namespace Sys2Proof.Machine

/-- What decoding a header hands back. -/
def decodeRet (e : Except CdiErr HdrRecord) : Ret :=
  match e with
  | .ok x => .record x
  | .error e => .cdiErr e

/-- COMMAND_HEADER (rules R98, R342). -/
def execCommandHeader (command reserved : Byte) (r : HdrRest) (s : State) : Result :=
  .next (s.withRet (decodeRet (hdrDecode s.cfg Config.cmdMagic (headerBytes Config.cmdMagic command reserved r))))

/-- RESPONSE_HEADER (rules R99, R343). -/
def execResponseHeader (command status : Byte) (r : HdrRest) (s : State) : Result :=
  .next (s.withRet (decodeRet (hdrDecode s.cfg Config.rspMagic (headerBytes Config.rspMagic command status r))))

/-- CMD_SET_FWC_META (rules R349, R350). -/
def execCmdSetFwcMeta (via : Transport) (reserved : Byte) (r : HdrRest) (payload : Bytes) (s : State) : Result :=
  handleCommandOp via (headerBytes Config.cmdMagic s.cfg.cmdSetFwcMeta reserved r) payload s

/-- CMD_SEND_FWC_DATA (rule R349). -/
def execCmdSendFwcData (via : Transport) (reserved : Byte) (r : HdrRest) (payload : Bytes) (s : State) : Result :=
  handleCommandOp via (headerBytes Config.cmdMagic s.cfg.cmdSendFwcData reserved r) payload s

/-- CMD_GET_FWC_CRC (rule R349). -/
def execCmdGetFwcCrc (via : Transport) (reserved : Byte) (r : HdrRest) (payload : Bytes) (s : State) : Result :=
  handleCommandOp via (headerBytes Config.cmdMagic s.cfg.cmdGetFwcCrc reserved r) payload s

/-- CMD_GET_FWC_BURN_RESULT (rule R349). -/
def execCmdGetFwcBurnResult (via : Transport) (reserved : Byte) (r : HdrRest) (payload : Bytes) (s : State) : Result :=
  handleCommandOp via (headerBytes Config.cmdMagic s.cfg.cmdGetFwcBurnResult reserved r) payload s

/-- CMD_SET_UPG_CFG (rules R349, R353). -/
def execCmdSetUpgCfg (via : Transport) (reserved : Byte) (r : HdrRest) (payload : Bytes) (s : State) : Result :=
  handleCommandOp via (headerBytes Config.cmdMagic s.cfg.cmdSetUpgCfg reserved r) payload s

/-- CMD_SET_UPG_END (rule R349). -/
def execCmdSetUpgEnd (via : Transport) (reserved : Byte) (r : HdrRest) (payload : Bytes) (s : State) : Result :=
  handleCommandOp via (headerBytes Config.cmdMagic s.cfg.cmdSetUpgEnd reserved r) payload s

end Sys2Proof.Machine
end

