-- ==== Sys2Proof/Machine/Functions.lean ====
section
/-! DEFINITION. The function rows: a value is handed back and no state changes (rules R140 to R151, R341 to R354). -/

namespace Sys2Proof.Machine

/-- What a packing function hands back (rules R143 to R145). -/
def packRet (e : Except FcErr Bytes) : Ret :=
  match e with
  | .ok f => .bytes f
  | .error e => .fcErr e

/-- What UNPACK hands back (rule R147). -/
def unpackRet (e : Except FcErr (Byte × Bytes)) : Ret :=
  match e with
  | .ok (blk, data) => .unpacked blk data
  | .error e => .fcErr e

/-- CRC16 (rule R141). -/
def execCrc16 (data : Bytes) (s : State) : Result := .next (s.withRet (.u16 (crc16Of s.cfg.crc16 data)))

/-- PACK_SHORT (rule R143). -/
def execPackShort (blk : Byte) (data : Bytes) (s : State) : Result :=
  .next (s.withRet (packRet (packShortOf s.cfg blk data)))

/-- PACK_LONG (rule R144). -/
def execPackLong (blk : Byte) (data : Bytes) (s : State) : Result :=
  .next (s.withRet (packRet (packLongOf s.cfg blk data)))

/-- PACK_FRAME (rule R145). -/
def execPackFrame (blk : Byte) (data : Bytes) (s : State) : Result :=
  .next (s.withRet (packRet (packFrameOf s.cfg blk data)))

/-- What FRAME_TOTAL hands back (rule R146). -/
def frameTotalRet (t : FrameLen) : Ret :=
  match t with
  | .total n => .frameLen (.total n)
  | .unknown => .frameLen .unknown
  | .err e => .fcErr e

/-- FRAME_TOTAL (rule R146). The rule states no answer for no byte at all: a free value (log 35). -/
def execFrameTotal (pre : Bytes) (s : State) : Result :=
  .next (s.withRet (frameTotalRet (if pre.length = 0 then Config.freeFrameTotal else frameTotalOf s.cfg pre)))

/-- UNPACK (rule R147). The rule states no answer for bytes that are not of the length FRAME_TOTAL gives: a free value (log 35). -/
def execUnpack (frame : Bytes) (s : State) : Result :=
  .next (s.withRet (unpackRet
    (if frameTotalOf s.cfg frame = .total frame.length then unpackOf s.cfg frame else Config.freeUnpack frame)))

/-- SLICE (rule R150); `SLICE(0)` and `SPLIT` of no byte answer as the pseudocode says (log 35). -/
def execSlice (rem : U32) (s : State) : Result := .next (s.withRet (.num (sliceOf rem.toNat)))

/-- SPLIT (rule R151). -/
def execSplit (blk0 : Byte) (data : Bytes) (s : State) : Result := .next (s.withRet (.frames (splitOf s.cfg blk0 data)))

/-- HDR_ENCODE_CMD (rule R341). Byte 7 is written 0 whatever the record has there (rule R98, U1; log 33). -/
def execHdrEncodeCmd (protocol version command _reserved : Byte) (dataLength : U32) (s : State) : Result :=
  .next (s.withRet (.bytes (hdrEncode s.cfg Config.cmdMagic ⟨protocol, version, command, 0, dataLength⟩)))

/-- HDR_DECODE_CMD (rule R342). -/
def execHdrDecodeCmd (b : Bytes) (s : State) : Result :=
  .next (s.withRet (decodeRet (hdrDecode s.cfg Config.cmdMagic b)))

/-- HDR_ENCODE_RSP (rule R343). -/
def execHdrEncodeRsp (protocol version command status : Byte) (dataLength : U32) (s : State) : Result :=
  .next (s.withRet (.bytes (hdrEncode s.cfg Config.rspMagic ⟨protocol, version, command, status, dataLength⟩)))

/-- HDR_DECODE_RSP (rule R343). -/
def execHdrDecodeRsp (b : Bytes) (s : State) : Result :=
  .next (s.withRet (decodeRet (hdrDecode s.cfg Config.rspMagic b)))

/-- HANDLE_COMMAND (rule R348). -/
def execHandleCommand (via : Transport) (header payload : Bytes) (s : State) : Result :=
  handleCommandOp via header payload s

/-- CHECK_UPG_MODE (rule R354). -/
def execCheckUpgMode (now : U64) (s : State) : Result := .next (checkUpgModeOp now s)

end Sys2Proof.Machine
end

