-- ==== Sys2Proof/Machine/ImageFormats.lean ====
section
/-! DEFINITION. The sparse header and chunk header rows: the header's bytes are pushed to the writer, which takes them
by its phase (rules R119, R286). -/

namespace Sys2Proof.Machine

/-- A push, its code handed back (rule R286). -/
def pushBytes (b : Bytes) (s : State) : Result :=
  withVal (sswPushOp b s) fun (code, s1) => .next (s1.withRet (.code code))

/-- SPARSE_HEADER (rules R102, R287, R288). -/
def execSparseHeader (major minor : U16) (blkSz totalBlks totalChunks : U32) (rest : SparseRest) (s : State) : Result :=
  pushBytes (sparseHeaderBytes s.cfg major minor blkSz totalBlks totalChunks rest) s

/-- CHUNK_RAW (rules R103, R290). -/
def execChunkRaw (rest : ChunkRest) (chunkSz totalSz : U32) (s : State) : Result :=
  pushBytes (chunkHeaderBytes s.cfg.typeRaw rest chunkSz totalSz) s

/-- CHUNK_FILL (rules R103, R290). -/
def execChunkFill (rest : ChunkRest) (chunkSz totalSz : U32) (s : State) : Result :=
  pushBytes (chunkHeaderBytes s.cfg.typeFill rest chunkSz totalSz) s

/-- CHUNK_DONT_CARE (rules R103, R290, R298). -/
def execChunkDontCare (rest : ChunkRest) (chunkSz totalSz : U32) (s : State) : Result :=
  pushBytes (chunkHeaderBytes s.cfg.typeDontCare rest chunkSz totalSz) s

/-- CHUNK_CRC32 (rules R103, R290, R298). -/
def execChunkCrc32 (rest : ChunkRest) (chunkSz totalSz : U32) (s : State) : Result :=
  pushBytes (chunkHeaderBytes s.cfg.typeCrc32 rest chunkSz totalSz) s

/-- CHUNK_UNKNOWN (rules R126, R297). -/
def execChunkUnknown (chunkType : U16) (rest : ChunkRest) (chunkSz totalSz : U32) (s : State) : Result :=
  pushBytes (chunkHeaderBytes chunkType rest chunkSz totalSz) s

end Sys2Proof.Machine
end

