-- ==== Sys2Proof/Machine/SswEvents.lean ====
section
/-! DEFINITION. The port events SSW.* (rules R284 to R309). The rows SSW.PUSH@phase are the steps of the loop of rule
R286, each on the bytes at hand; the loop takes the step of the current phase only (log 15). -/

namespace Sys2Proof.Machine

/-- SSW.OPEN (rule R284). Who owns a session opened by this row, which names no transport, is log 19. -/
def execSswOpen (start size bs : U32) (s : State) : Result :=
  let (code, s1) := sswOpenOp ⟨start, size, bs⟩ s
  .next (s1.withRet (.code code))

/-- SSW.CLOSE (rule R285). -/
def execSswClose (s : State) : Result :=
  let (code, s1) := sswCloseOp s
  .next (s1.withRet (.code code))

/-- SSW.PUSH (rule R286). -/
def execSswPush (b : Bytes) (s : State) : Result := pushBytes b s

/-- One step of the loop, if it is the step of the current phase. -/
def stepIn (p : Phase) (f : State → PushStep) (s : State) : Result :=
  if s.ssw.phase = p then
    match f s with
    | .wait => .next s
    | .go s1 => .next s1
  else .next s

/-- SSW.PUSH@DETECT (rule R287). -/
def execPushDetect (s : State) : Result := stepIn .detect stepDetect s

/-- SSW.PUSH@SP_HDR (rule R288). -/
def execPushSpHdr (s : State) : Result := stepIn .spHdr stepSpHdr s

/-- SSW.PUSH@SP_CHUNK_HDR (rule R290). -/
def execPushSpChunkHdr (s : State) : Result := stepIn .spChunkHdr stepSpChunkHdr s

/-- SSW.PUSH@SP_RAW (rule R293). -/
def execPushSpRaw (s : State) : Result := stepIn .spRaw stepSpRaw s

/-- SSW.PUSH@SP_FILL (rule R294). -/
def execPushSpFill (s : State) : Result := stepIn .spFill stepSpFill s

/-- SSW.PUSH@SP_DONE (rule R299). -/
def execPushSpDone (s : State) : Result := stepIn .spDone stepSpDone s

/-- SSW.PUSH@RAW (rule R301). -/
def execPushRaw (s : State) : Result := stepIn .raw stepRaw s

/-- SSW.GET_RESULT (rule R306). -/
def execSswGetResult (s : State) : Result := .next (s.withRet (.code (sswResultOf s.ssw)))

/-- SSW.GET_CRC (rule R309). -/
def execSswGetCrc (s : State) : Result := .next (s.withRet (.crc (sswCrcOf s.ssw).1 (sswCrcOf s.ssw).2))

end Sys2Proof.Machine
end

