-- ==== Sys2Proof/Machine/UartBytes.lean ====
section
/-! DEFINITION. The control byte rows and the frame rows: bytes that arrive on the UART link. Each is decoded by the state
of UPE (rules R115, R172): inside a frame a control byte is data. -/

namespace Sys2Proof.Machine

/-- SIG_C (rules R172, R177). -/
def execSigC (s : State) : Result := uartRx s.cfg.sigC s

/-- DC1 (rules R172, R178). -/
def execDc1 (s : State) : Result := uartRx s.cfg.dc1 s

/-- DC2 (rules R172, R179). -/
def execDc2 (s : State) : Result := uartRx s.cfg.dc2 s

/-- ACK (rules R172, R191, R192). -/
def execAck (s : State) : Result := uartRx s.cfg.ack s

/-- NAK (rules R172, R191, R193). -/
def execNak (s : State) : Result := uartRx s.cfg.nak s

/-- CAN (rules R172, R191): dropped outside a frame. -/
def execCan (s : State) : Result := uartRx s.cfg.can s

/-- SOH (rules R172, R180, R191). -/
def execSoh (s : State) : Result := uartRx s.cfg.soh s

/-- STX (rules R172, R180, R191). -/
def execStx (s : State) : Result := uartRx s.cfg.stx s

/-- UART_DROPPED (rules R121, R172, R191). -/
def execUartDropped (b : Byte) (s : State) : Result := uartRx b s

/-- SHORT_FRAME: the bytes of rule R91 arrive one by one (rules R133, R180 to R185). -/
def execShortFrame (blk cblk : Byte) (data : Bytes) (crc : U16) (s : State) : Result :=
  uartRxs (shortFrameBytes s.cfg blk cblk data crc) s

/-- LONG_FRAME: the bytes of rule R92 arrive one by one (rules R133, R180 to R185). -/
def execLongFrame (blk cblk : Byte) (data : Bytes) (crc : U16) (s : State) : Result :=
  uartRxs (longFrameBytes s.cfg blk cblk data crc) s

end Sys2Proof.Machine
end

