-- ==== Sys2Proof/Machine/UpeEvents.lean ====
section
/-! DEFINITION. The port events RESET, TICK, UART.RX and UPE.* (rules R172 to R176, R195, R199, R200, R410). -/

namespace Sys2Proof.Machine

/-- RESET (rules R410 to R414): every register of the three units at its reset value, no output. The buffer bytes, STORE,
the dispatcher and the environment's queues stay as they are (log 10). -/
def execReset (s : State) : Result :=
  .next (((s.withUpe upeReset).withUte uteReset).withSsw (sswReset s.cfg))

/-- TICK (rules R195 to R198). -/
def execTick (s : State) : Result := tickOp s

/-- UART.RX (rule R172). -/
def execUartRx (b : Byte) (s : State) : Result := uartRx b s

/-- UPE.INIT (rule R175). -/
def execUpeInit (s : State) : Result := .next (upeInitOp s)

/-- UPE.DEINIT (rules R170, R176). -/
def execUpeDeinit (s : State) : Result :=
  if upeMasked s.upe then .next s else .next (s.withUpe { s.upe with run := false })

/-- UPE.START_READ (rule R173): the buffer's bytes are unspecified until they are received (log 7). -/
def execStartRead (len : U32) (s : State) : Result := startTask ⟨.recv, len, 0, []⟩ s

/-- UPE.START_WRITE (rule R174). -/
def execStartWrite (data : Bytes) (s : State) : Result :=
  startTask ⟨.send, BitVec.ofNat 32 data.length, 0, Memory.ofBytes data⟩ s

/-- UPE.GET_STATUS (rule R200): `ST_NONE` is 0. -/
def execGetStatus (s : State) : Result :=
  if s.upe.statusValid then
    .next ((s.withUpe { s.upe with statusValid := false, statusCode := 0 }).withRet (.code s.upe.statusCode))
  else .next (s.withRet (.code 0))

/-- UPE.SET_STATUS (rule R199). -/
def execSetStatus (code : Byte) (s : State) : Result := .next (postStatus code s)

end Sys2Proof.Machine
end

