-- ==== Sys2Proof/Machine/UsbFormats.lean ====
section
/-! DEFINITION. The CBW rows and the CSW row: a bulk-OUT transfer that delivers these bytes, a bulk-IN transfer that
carries them. The stage decides how a transfer is taken (rule R116). -/

namespace Sys2Proof.Machine

/-- CBW_WRITE (rules R100, R116, R236, R238). -/
def execCbwWrite (tag len : U32) (r : CbwRest) (s : State) : Result :=
  outDone (cbwBytes tag len false s.cfg.usbCmdWrite r) s

/-- CBW_READ (rules R100, R116, R236, R238). -/
def execCbwRead (tag len : U32) (r : CbwRest) (s : State) : Result :=
  outDone (cbwBytes tag len true s.cfg.usbCmdRead r) s

/-- CBW_MALFORMED (rules R123, R236, R237). -/
def execCbwMalformed (b : Bytes) (s : State) : Result := outDone b s

/-- CSW (rules R101, R246): the 13 bytes are stored in `UTE.CSW` and submitted; `send_csw` computes the fields.
The row has no event of rule R8, so the gate of rule R230 is not asked (log 16). -/
def execCsw (tag residue : U32) (status : Byte) (s : State) : Result := .next (submitCsw tag residue status s)

end Sys2Proof.Machine
end

