-- ==== Sys2Proof/Machine/UteEvents.lean ====
section
/-! DEFINITION. The port events UTE.* (rules R230 to R249). A completion is taken by the stage it finds (log 14). -/

namespace Sys2Proof.Machine

/-- UTE.INIT (rule R235). -/
def execUteInit (s : State) : Result := .next (uteInitOp s)

/-- UTE.USB_RESET (rules R230, R249). -/
def execUsbReset (s : State) : Result := .next (usbResetOp s)

/-- UTE.OUT_DONE@ReadCbw (rule R236). -/
def execOutDoneReadCbw (b : Bytes) (s : State) : Result := outDone b s

/-- UTE.OUT_DONE@DataOut (rule R240). -/
def execOutDoneDataOut (b : Bytes) (s : State) : Result := outDone b s

/-- UTE.IN_DONE@DataIn (rule R244). -/
def execInDoneDataIn (n : U32) (s : State) : Result := inDone n s

/-- UTE.IN_DONE@WaitCsw (rule R247). -/
def execInDoneWaitCsw (n : U32) (s : State) : Result := inDone n s

/-- UTE.DONE_IGNORED (rule R248). -/
def execDoneIgnored (c : Completion) (s : State) : Result :=
  match c with
  | .out b => outDone b s
  | .inn n => inDone n s

end Sys2Proof.Machine
end

