-- ==== Sys2Proof/Machine/Dispatch.lean ====
section
/-! DEFINITION. One arm for each instruction: a direct call of its meaning. -/

namespace Sys2Proof.Machine

/-- The meaning of an instruction. -/
def exec (i : Instr) (s : State) : Host.Outcome State Fault Refusal :=
  match i with
  | .sigC => Sys2Proof.Machine.execSigC s
  | .dc1 => Sys2Proof.Machine.execDc1 s
  | .dc2 => Sys2Proof.Machine.execDc2 s
  | .ack => Sys2Proof.Machine.execAck s
  | .nak => Sys2Proof.Machine.execNak s
  | .can => Sys2Proof.Machine.execCan s
  | .soh => Sys2Proof.Machine.execSoh s
  | .stx => Sys2Proof.Machine.execStx s
  | .uartDropped b => Sys2Proof.Machine.execUartDropped b s
  | .shortFrame blk cblk data crc => Sys2Proof.Machine.execShortFrame blk cblk data crc s
  | .longFrame blk cblk data crc => Sys2Proof.Machine.execLongFrame blk cblk data crc s
  | .cbwWrite tag len rest => Sys2Proof.Machine.execCbwWrite tag len rest s
  | .cbwRead tag len rest => Sys2Proof.Machine.execCbwRead tag len rest s
  | .cbwMalformed bytes => Sys2Proof.Machine.execCbwMalformed bytes s
  | .csw tag residue status => Sys2Proof.Machine.execCsw tag residue status s
  | .sparseHeader major minor blkSz totalBlks totalChunks rest => Sys2Proof.Machine.execSparseHeader major minor blkSz totalBlks totalChunks rest s
  | .chunkRaw rest chunkSz totalSz => Sys2Proof.Machine.execChunkRaw rest chunkSz totalSz s
  | .chunkFill rest chunkSz totalSz => Sys2Proof.Machine.execChunkFill rest chunkSz totalSz s
  | .chunkDontCare rest chunkSz totalSz => Sys2Proof.Machine.execChunkDontCare rest chunkSz totalSz s
  | .chunkCrc32 rest chunkSz totalSz => Sys2Proof.Machine.execChunkCrc32 rest chunkSz totalSz s
  | .chunkUnknown chunkType rest chunkSz totalSz => Sys2Proof.Machine.execChunkUnknown chunkType rest chunkSz totalSz s
  | .commandHeader command reserved rest => Sys2Proof.Machine.execCommandHeader command reserved rest s
  | .responseHeader command status rest => Sys2Proof.Machine.execResponseHeader command status rest s
  | .cmdSetFwcMeta via reserved rest payload => Sys2Proof.Machine.execCmdSetFwcMeta via reserved rest payload s
  | .cmdSendFwcData via reserved rest payload => Sys2Proof.Machine.execCmdSendFwcData via reserved rest payload s
  | .cmdGetFwcCrc via reserved rest payload => Sys2Proof.Machine.execCmdGetFwcCrc via reserved rest payload s
  | .cmdGetFwcBurnResult via reserved rest payload => Sys2Proof.Machine.execCmdGetFwcBurnResult via reserved rest payload s
  | .cmdSetUpgCfg via reserved rest payload => Sys2Proof.Machine.execCmdSetUpgCfg via reserved rest payload s
  | .cmdSetUpgEnd via reserved rest payload => Sys2Proof.Machine.execCmdSetUpgEnd via reserved rest payload s
  | .reset => Sys2Proof.Machine.execReset s
  | .tick => Sys2Proof.Machine.execTick s
  | .uartRx b => Sys2Proof.Machine.execUartRx b s
  | .upeInit => Sys2Proof.Machine.execUpeInit s
  | .upeDeinit => Sys2Proof.Machine.execUpeDeinit s
  | .startRead len => Sys2Proof.Machine.execStartRead len s
  | .startWrite data => Sys2Proof.Machine.execStartWrite data s
  | .getStatus => Sys2Proof.Machine.execGetStatus s
  | .setStatus code => Sys2Proof.Machine.execSetStatus code s
  | .uteInit => Sys2Proof.Machine.execUteInit s
  | .usbReset => Sys2Proof.Machine.execUsbReset s
  | .outDoneReadCbw bytes => Sys2Proof.Machine.execOutDoneReadCbw bytes s
  | .outDoneDataOut bytes => Sys2Proof.Machine.execOutDoneDataOut bytes s
  | .inDoneDataIn n => Sys2Proof.Machine.execInDoneDataIn n s
  | .inDoneWaitCsw n => Sys2Proof.Machine.execInDoneWaitCsw n s
  | .doneIgnored c => Sys2Proof.Machine.execDoneIgnored c s
  | .sswOpen start size bs => Sys2Proof.Machine.execSswOpen start size bs s
  | .sswClose => Sys2Proof.Machine.execSswClose s
  | .sswPush bytes => Sys2Proof.Machine.execSswPush bytes s
  | .pushDetect => Sys2Proof.Machine.execPushDetect s
  | .pushSpHdr => Sys2Proof.Machine.execPushSpHdr s
  | .pushSpChunkHdr => Sys2Proof.Machine.execPushSpChunkHdr s
  | .pushSpRaw => Sys2Proof.Machine.execPushSpRaw s
  | .pushSpFill => Sys2Proof.Machine.execPushSpFill s
  | .pushSpDone => Sys2Proof.Machine.execPushSpDone s
  | .pushRaw => Sys2Proof.Machine.execPushRaw s
  | .sswGetResult => Sys2Proof.Machine.execSswGetResult s
  | .sswGetCrc => Sys2Proof.Machine.execSswGetCrc s
  | .crc16 data => Sys2Proof.Machine.execCrc16 data s
  | .packShort blk data => Sys2Proof.Machine.execPackShort blk data s
  | .packLong blk data => Sys2Proof.Machine.execPackLong blk data s
  | .packFrame blk data => Sys2Proof.Machine.execPackFrame blk data s
  | .frameTotal pre => Sys2Proof.Machine.execFrameTotal pre s
  | .unpack frame => Sys2Proof.Machine.execUnpack frame s
  | .slice rem => Sys2Proof.Machine.execSlice rem s
  | .split blk0 data => Sys2Proof.Machine.execSplit blk0 data s
  | .hdrEncodeCmd protocol version command reserved dataLength => Sys2Proof.Machine.execHdrEncodeCmd protocol version command reserved dataLength s
  | .hdrDecodeCmd bytes => Sys2Proof.Machine.execHdrDecodeCmd bytes s
  | .hdrEncodeRsp protocol version command status dataLength => Sys2Proof.Machine.execHdrEncodeRsp protocol version command status dataLength s
  | .hdrDecodeRsp bytes => Sys2Proof.Machine.execHdrDecodeRsp bytes s
  | .handleCommand via header payload => Sys2Proof.Machine.execHandleCommand via header payload s
  | .checkUpgMode now => Sys2Proof.Machine.execCheckUpgMode now s
  | .uartTx bytes => Sys2Proof.Machine.execUartTx bytes s
  | .epRecv n => Sys2Proof.Machine.execEpRecv n s
  | .epSend bytes => Sys2Proof.Machine.execEpSend bytes s
  | .dispExpect cmd len => Sys2Proof.Machine.execDispExpect cmd len s
  | .dispOut bytes => Sys2Proof.Machine.execDispOut bytes s
  | .dispIn n => Sys2Proof.Machine.execDispIn n s
  | .dispStatus => Sys2Proof.Machine.execDispStatus s
  | .devWrite blk data => Sys2Proof.Machine.execDevWrite blk data s
  | .devRead blk n => Sys2Proof.Machine.execDevRead blk n s
  | .devErase blk n => Sys2Proof.Machine.execDevErase blk n s
  | .progress percent => Sys2Proof.Machine.execProgress percent s

end Sys2Proof.Machine
end

