-- ==== Sys2Proof/Machine/Fetch.lean ====
section
/-! DEFINITION. How the next event reaches the block: the pending packets, one a step (log 2), and what bytes do that stand
for no row (log 34). -/

namespace Sys2Proof.Machine

/-- The next pending packet, the instruction it stands for or why it stands for none, and the state without it; nothing when none
waits. -/
def fetch (s : State) : Option (Packet × Except DecodeErr Instr × State) :=
  match s.inbox with
  | [] => none
  | p :: rest => some (p, decode s.cfg p, s.withInbox rest)

/-- A packet that stands for no row. Bytes on the UART link and in the image stream arrive all the same (rules R8, R133, R172,
R286), a header is refused by its decoder (rules R342, R343), a command is rejected or answered RSP_INVALID (rules R344, R346).
On the other ports it is no event of rule R8, and between events nothing changes (rule R7; log 34). -/
def undecoded (p : Packet) (s : State) : Result :=
  match p.port with
  | .uartWire => uartRxs p.bytes s
  | .frameWire => uartRxs p.bytes s
  | .imageWire => pushBytes p.bytes s
  | .chunkWire => pushBytes p.bytes s
  | .headerWire => .next (s.withRet (decodeRet (hdrDecode s.cfg Config.cmdMagic p.bytes)))
  | .commandWire via => handleCommandOp via (p.bytes.take s.cfg.hdrLen) (p.bytes.drop s.cfg.hdrLen) s
  | _ => .next s

/-- The instruction of a table row's word as the next packet (log 2, log 11). -/
def placeWord (s : State) (nbits w : Nat) : State := s.withInbox (tablePacket s.cfg nbits w :: s.inbox)

end Sys2Proof.Machine
end

