-- ==== Sys2Proof/Machine/Step.lean ====
section
/-! DEFINITION. One step: the next pending event is fired and its operation performed to completion (rules R7, R72, R392). -/

namespace Sys2Proof.Machine

/-- With no event pending the block stays as it is (rule R7). -/
def step (s : State) : Host.Outcome State Fault Refusal :=
  match fetch s with
  | none => .next s
  | some (_, .ok i, s1) => exec i s1
  | some (p, .error _, s1) => undecoded p s1

/-- The state in which the next step runs the instruction of a table row's word (log 2). -/
def State.withFetchWord (s : State) (nbits w : Nat) : State := placeWord s nbits w

end Sys2Proof.Machine
end

