-- ==== Sys2Proof/Safety.lean ====
section
/-! DEFINITION. What statements speak of: the faults of 60_exceptions.md rule R372, the invariants that rule out the
states no run reaches, and what "nothing else changes" means for each unit. -/

namespace Sys2Proof.Machine

/-- A fault in the sense of rule R372: a condition after which a run counts as gone wrong (log 25). -/
abbrev State.goneWrong (s : State) : Prop :=
  s.upe.abort = true ∨ s.upe.statusOverrun = true ∨ s.ssw.phase = .failed

/-- UPE takes bytes and ticks: the gate of rule R170 is open. -/
abbrev State.listening (s : State) : Prop := s.upe.run = true ∧ s.upe.abort = false

/-- A received byte clears the two silence counters (rule R172). -/
def Upe.heard (u : Upe) : Upe := { u with tByte := 0, tSess := 0 }

/-- The rows that stand for the arrival of byte `b` on the UART link. -/
abbrev byteRow (c : Config) (b : Byte) (i : Instr) : Prop :=
  i = .uartRx b ∨ i = .uartDropped b ∨ (i = .sigC ∧ b = c.sigC) ∨ (i = .dc1 ∧ b = c.dc1) ∨ (i = .dc2 ∧ b = c.dc2) ∨
  (i = .ack ∧ b = c.ack) ∨ (i = .nak ∧ b = c.nak) ∨ (i = .can ∧ b = c.can) ∨ (i = .soh ∧ b = c.soh) ∨
  (i = .stx ∧ b = c.stx)

/-- The rows that stand for the completion of a bulk-OUT transfer with the bytes `b` (rule R116). -/
abbrev outRow (c : Config) (b : Bytes) (i : Instr) : Prop :=
  i = .outDoneReadCbw b ∨ i = .outDoneDataOut b ∨ i = .doneIgnored (.out b) ∨ i = .cbwMalformed b ∨
  (∃ tag len r, i = .cbwWrite tag len r ∧ b = cbwBytes tag len false c.usbCmdWrite r) ∨
  (∃ tag len r, i = .cbwRead tag len r ∧ b = cbwBytes tag len true c.usbCmdRead r)

/-- The rows that stand for the completion of a bulk-IN transfer of `n` bytes (rules R244, R247, R248). -/
abbrev inRow (n : U32) (i : Instr) : Prop := i = .inDoneDataIn n ∨ i = .inDoneWaitCsw n ∨ i = .doneIgnored (.inn n)

/-- `FNEED` once the bytes `f` of a frame are in FBUF (rules R146, R180): the whole length, as soon as it is known. -/
def frameNeed (c : Config) (f : Bytes) : Nat :=
  if byteAt f 0 = c.stx then 1029 else if f.length < 4 then 4 else 4 + (byteAt f 3).toNat + 2

/-- `sat` of rule R195. -/
def sat32 (n : Nat) : U32 := BitVec.ofNat 32 (min n 0xFFFFFFFF)

/-- The counters after a tick (rule R195). -/
def Upe.ticked (u : Upe) : Upe :=
  { u with
    tByte := sat32 (u.tByte.toNat + 1)
    tSess := sat32 (u.tSess.toNat + 1)
    tWait := if u.awaitAck = true then sat32 (u.tWait.toNat + 1) else u.tWait }

/-- The queue after the host has announced direction `d` (rule R187). -/
def announced (d : Dir) (q : List Task) : List Task :=
  match q with
  | [] => []
  | t :: r => if t.dir = d then t :: r else r

/-- Nothing is due to be sent (rules R186, R188). -/
abbrev State.quiet (s : State) : Prop := sendReady s.upe = false

/-- The frame in progress and the two counters of rule R180: none, or one whose lead byte is a lead byte and that
is not whole. -/
abbrev frameInv (c : Config) (u : Upe) (fbuf : Memory) : Prop :=
  (u.fcnt = 0 ∧ u.fneed = 0) ∨
  (u.st = .dataRecv ∧ 0 < u.fcnt.toNat ∧ u.fcnt.toNat < u.fneed.toNat ∧
    (frameTotalOf c (fbuf.readRun 0 u.fcnt.toNat) = .unknown ∧ u.fneed.toNat = 4 ∨
     frameTotalOf c (fbuf.readRun 0 u.fcnt.toNat) = .total u.fneed.toNat))

/-- While a frame is in flight the engine is in CMD_RECV and the head task is the one it was cut from (rules R192, R195). -/
abbrev flightInv (u : Upe) : Prop :=
  u.awaitAck = true → u.st = .cmdRecv ∧
    ∃ t ∈ u.q.head?, t.dir = .send ∧ u.slice.toNat = sliceOf (t.len - t.done).toNat

/-- What holds of UPE between events: rules R26, R180, R188, R192. -/
abbrev UpeInv (s : State) : Prop :=
  s.upe.q.length ≤ s.cfg.qCap ∧ (∀ t ∈ s.upe.q, t.done.toNat < t.len.toNat) ∧
  frameInv s.cfg s.upe s.fbuf ∧ flightInv s.upe ∧ sendReady s.upe = false

/-- What holds of UTE between events: rules R30, R231, R239, R250 (a). -/
abbrev UteInv (s : State) : Prop :=
  s.ute.stage ≠ .sendCsw ∧ s.ute.cbw.length = Config.cbwLen ∧ s.ute.csw.length = Config.cswLen ∧
  s.ute.moved.toNat ≤ s.ute.dlen.toNat ∧
  ((s.ute.stage = .dataOut ∨ s.ute.stage = .dataOutBuf) →
    s.ute.moved.toNat + s.ute.taskDone.toNat + s.ute.remain.toNat ≤ s.ute.dlen.toNat ∧
    s.ute.taskDone.toNat + s.ute.pktXfer.toNat ≤ s.ute.taskXfer.toNat ∧
    s.ute.taskXfer.toNat ≤ s.ute.taskDone.toNat + s.ute.remain.toNat ∧ s.ute.taskXfer.toNat ≤ s.cfg.pktBufSize) ∧
  ((s.ute.stage = .dataIn ∨ s.ute.stage = .dataInBuf) →
    s.ute.moved.toNat + s.ute.remain.toNat ≤ s.ute.dlen.toNat ∧
    s.ute.taskDone.toNat + s.ute.pktXfer.toNat ≤ s.ute.taskXfer.toNat ∧
    s.ute.taskXfer.toNat ≤ s.ute.taskDone.toNat + s.ute.remain.toNat ∧ s.ute.taskXfer.toNat ≤ s.cfg.pktBufSize)

/-- The phases of an open sparse session after its header (rule R281). -/
abbrev Phase.inSparse (p : Phase) : Prop := p = .spChunkHdr ∨ p = .spRaw ∨ p = .spFill ∨ p = .spDone

/-- What holds of SSW between events: rules R284, R288, R292, R300, R302. -/
abbrev SswInv (s : State) : Prop :=
  s.ssw.hand = [] ∧ s.ssw.curHdr.length = s.cfg.chunkHdrLen ∧ s.ssw.lastHdr.length = s.cfg.chunkHdrLen ∧
  s.ssw.cursor.toNat ≤ s.ssw.partSize.toNat ∧
  (s.ssw.phase ≠ .closed → 4 ≤ s.ssw.bs.toNat ∧ s.ssw.bs.toNat % 4 = 0 ∧
    s.ssw.partStart.toNat + s.ssw.partSize.toNat ≤ 2 ^ 32) ∧
  s.ssw.leftLen.toNat < leftCap s.cfg s.ssw ∧
  (s.ssw.phase = .spDone ∨ s.ssw.phase = .failed ∨ s.ssw.phase = .closed → s.ssw.leftLen = 0) ∧
  (s.ssw.phase.inSparse → 0 < s.ssw.sbs.toNat ∧ s.ssw.sbs.toNat % s.ssw.bs.toNat = 0) ∧
  (s.ssw.phase = .spRaw → 0 < s.ssw.chunkRem.toNat ∧ s.ssw.chunkRem.toNat % s.ssw.bs.toNat = 0 ∧
    s.ssw.cursor.toNat + s.ssw.chunkRem.toNat / s.ssw.bs.toNat ≤ s.ssw.partSize.toNat) ∧
  (s.ssw.phase = .spFill → s.ssw.cursor.toNat + chunkBlks (le32 s.ssw.curHdr 4) s.ssw ≤ s.ssw.partSize.toNat)

/-- Every memory of the machine has its canonical form. -/
abbrev MemInv (s : State) : Prop :=
  s.fbuf.wf ∧ s.pktbuf.wf ∧ s.left.wf ∧ s.store.wf ∧ (∀ t ∈ s.upe.q, t.buf.wf) ∧ ∀ t ∈ s.finished, t.buf.wf

/-- Every byte reads as before. -/
abbrev sameBytes (m n : Memory) : Prop := ∀ a, n.read a = m.read a

/-- The bytes of `v` have been written from address `a` on, and every other byte reads as before. -/
abbrev wrote (m n : Memory) (a : Nat) (v : Bytes) : Prop :=
  ∀ x, n.read x = if a ≤ x ∧ x < a + v.length then v.getD (x - a) 0 else m.read x

/-- Nothing outside UPE, FBUF, the tasks handed back, the actions, the pending events, the answers asked for and the port changes. -/
abbrev onlyUpe (s t : State) : Prop :=
  t.cfg = s.cfg ∧ t.ute = s.ute ∧ t.ssw = s.ssw ∧ t.cdi = s.cdi ∧
  sameBytes s.pktbuf t.pktbuf ∧ sameBytes s.left t.left ∧ sameBytes s.store t.store

/-- Nothing outside UTE, PKTBUF, the actions and the answers asked for changes, but for the dispatcher's note of a rejected header,
which its answer DISP.STATUS uses up. -/
abbrev onlyUte (s t : State) : Prop :=
  t.cfg = s.cfg ∧ t.upe = s.upe ∧ t.ssw = s.ssw ∧ (t.cdi = s.cdi ∨ t.cdi = { s.cdi with usbRejected := false }) ∧
  t.inbox = s.inbox ∧ t.finished = s.finished ∧ t.ret = s.ret ∧ sameBytes s.fbuf t.fbuf ∧ sameBytes s.left t.left ∧ sameBytes s.store t.store

/-- Nothing outside SSW, LEFT, STORE, the actions, the answers asked for and the port changes, but for the owner of the session. -/
abbrev onlySsw (s t : State) : Prop :=
  t.cfg = s.cfg ∧ t.upe = s.upe ∧ t.ute = s.ute ∧ (t.cdi = s.cdi ∨ t.cdi = { s.cdi with owner := none }) ∧
  t.inbox = s.inbox ∧ t.finished = s.finished ∧
  sameBytes s.fbuf t.fbuf ∧ sameBytes s.pktbuf t.pktbuf

/-- A device call names blocks of the session's partition only (rule R302); any other action names none. -/
def inPartition (w : Ssw) : Action → Prop
  | .devWrite blk data _ => w.partStart.toNat ≤ blk ∧ blk * w.bs.toNat + data.length ≤ (w.partStart.toNat + w.partSize.toNat) * w.bs.toNat
  | .devRead blk n _ => w.partStart.toNat ≤ blk ∧ blk + n ≤ w.partStart.toNat + w.partSize.toNat
  | .devErase blk n _ => w.partStart.toNat ≤ blk ∧ blk + n ≤ w.partStart.toNat + w.partSize.toNat
  | _ => True

/-- The rows that are device calls themselves. -/
abbrev isDeviceCall : Instr → Prop
  | .devWrite _ _ => True
  | .devRead _ _ => True
  | .devErase _ _ => True
  | _ => False

/-! ## Records that statements write out -/

/-- The dispatcher has had a header over a transport, and rejected it or not (rule R344; log 28). -/
def State.noted (s : State) (via : Transport) (rejected : Bool) : State :=
  { s with cdi := { s.cdi with usbRejected := if via = .usb then rejected else s.cdi.usbRejected } }

/-- What the dispatcher answers DISP.STATUS: what it is given, but never 0 for a header that it rejected on USB (rule R344). -/
def State.verdict (s : State) : Byte :=
  let a := (nextAnswer s.ans.status (Config.freeStatus s.asked)).1
  if s.cdi.usbRejected = true ∧ a = 0 then 1 else a

/-- The status phase of rule R246: with a phase error the status is 2 and the dispatcher is not asked, else its answer decides
between 0 and 1; the residue is what was declared and not moved. -/
def State.statusPhase (s : State) : State :=
  let a := nextAnswer s.ans.status (Config.freeStatus s.asked)
  let b := cswBytes s.ute.tag (s.ute.dlen - s.ute.moved)
    (if s.ute.phaseErr = true then 2 else if s.verdict = 0 then 0 else 1)
  { s with
    ute := { s.ute with stage := .waitCsw, csw := b }
    ans := if s.ute.phaseErr = true then s.ans else { s.ans with status := a.2 }
    asked := if s.ute.phaseErr = true then s.asked else s.asked + 1
    cdi := if s.ute.phaseErr = true then s.cdi else { s.cdi with usbRejected := false }
    log := s.log ++ (if s.ute.phaseErr = true then [.epSend b] else [.dispStatus s.verdict, .epSend b]) }

/-- The state once a packet of a data-out phase has been taken in (rule R240): PKTBUF is `m`. -/
def State.received (s : State) (m : Memory) (b : Bytes) : State :=
  { s with
    pktbuf := m
    ute := { s.ute with
      pktDone := BitVec.ofNat 32 b.length
      taskDone := s.ute.taskDone + BitVec.ofNat 32 b.length
      remain := s.ute.remain - BitVec.ofNat 32 b.length
      phaseErr := s.ute.phaseErr || decide (b.length < s.ute.pktXfer.toNat)
      err := if b.length < s.ute.pktXfer.toNat then 3 else s.ute.err } }

/-- The state once a task has been handed to the dispatcher, or thrown away (rule R241). -/
def State.forwarded (s : State) : State :=
  if s.ute.drain = true ∨ s.ute.taskDone = 0 then s
  else
    let a := nextAnswer s.ans.consumed (Config.freeConsumed s.asked)
    let c := min a.1 s.ute.taskDone.toNat
    { s with
      ute := { s.ute with
        moved := s.ute.moved + BitVec.ofNat 32 c
        phaseErr := s.ute.phaseErr || decide (c < s.ute.taskDone.toNat)
        drain := decide (c < s.ute.taskDone.toNat)
        err := if c < s.ute.taskDone.toNat then 2 else s.ute.err }
      ans := { s.ans with consumed := a.2 }
      asked := s.asked + 1
      log := s.log ++ [.dispOut (s.pktbuf.readRun 0 s.ute.taskDone.toNat) c] }

/-- The state once the next task of a data-in phase has been asked for and its first packet submitted (rules R242, R243):
the dispatcher's bytes are in PKTBUF, which is `m`; with none of them the status phase follows. -/
def State.supplied (s : State) (m : Memory) : State :=
  let want := min s.ute.remain.toNat s.cfg.pktBufSize
  let a := nextAnswer s.ans.supply (Config.freeSupply s.asked)
  let d := a.1.take want
  let s1 : State := { s with
    pktbuf := m
    ans := { s.ans with supply := a.2 }
    asked := s.asked + 1
    log := s.log ++ [.dispIn want d]
    ute := { s.ute with
      taskXfer := BitVec.ofNat 32 d.length
      taskDone := 0
      remain := if d.length < want then BitVec.ofNat 32 d.length else s.ute.remain
      phaseErr := s.ute.phaseErr || decide (d.length < want)
      err := if d.length < want then 2 else s.ute.err } }
  if d = [] then s1.statusPhase
  else { s1 with
    ute := { s1.ute with pktXfer := BitVec.ofNat 32 (min d.length s.cfg.epMps), pktDone := 0 }
    log := s1.log ++ [.epSend (d.take (min d.length s.cfg.epMps))] }

/-- The bytes that the dispatcher supplies for the next task (rule R242). -/
def State.nextChunk (s : State) : Bytes :=
  (nextAnswer s.ans.supply (Config.freeSupply s.asked)).1.take (min s.ute.remain.toNat s.cfg.pktBufSize)

/-- The registers after a chunk header has been consumed (rules R286, R290). -/
def Ssw.tookHeader (w : Ssw) (c : Config) (h : Bytes) : Ssw :=
  { w with
    transSize := w.transSize + BitVec.ofNat 64 c.chunkHdrLen
    crcTx := crc32Update c.crc32 w.crcTx h
    crcWr := crc32Update c.crc32 w.crcWr h
    curHdr := h
    lastHdr := h
    lastValid := true }

/-- The state after a chunk of `csz` sparse blocks has been done (rule R289). -/
def State.chunkEnded (s : State) (csz : U32) : State :=
  { s with
    ssw := { s.ssw with
      chunksDone := s.ssw.chunksDone + 1
      blocksDone := s.ssw.blocksDone + csz.setWidth 64
      phase := if s.ssw.chunksDone + 1 = s.ssw.totalChunks then .spDone else .spChunkHdr }
    log := s.log ++ [.progress (BitVec.ofNat 8 (if s.ssw.totalBlks.toNat = 0 then 100
      else min 100 (100 * (s.ssw.blocksDone + csz.setWidth 64).toNat / s.ssw.totalBlks.toNat)))] }

/-- The state after the session has failed with a code, which the port returns (rule R304). -/
def State.sessionFailed (s : State) (code : Byte) : State :=
  { s with
    ssw := { s.ssw with err := code, fail := code, phase := .failed, leftLen := 0 }
    ret := some (.code code) }

/-- The state after a step of a running PUSH has failed the session with a code (rule R304). -/
def State.stepFailed (s : State) (code : Byte) : State :=
  { s with ssw := { s.ssw with err := code, fail := code, phase := .failed, leftLen := 0 } }

/-- What a chunk header comes to that is handled as the header `eff` says (rules R290, R292, R298, R303): `t` is the state with the
header consumed; `taken u` says that the outcome is `u`, `refused code` that the session fails with the code. -/
abbrev chunkBegins (s t : State) (eff : Bytes) (taken : State → Prop) (refused : Byte → Prop) : Prop :=
  ∀ (csz : U32) (size raw blks : Nat), csz = le32 eff 4 → size = (le32 eff 8).toNat →
    raw = csz.toNat * s.ssw.sbs.toNat → blks = csz.toNat * (s.ssw.sbs.toNat / s.ssw.bs.toNat) →
    (∀ want, ((le16 eff 0 = s.cfg.typeRaw ∧ want = raw) ∨ (le16 eff 0 = s.cfg.typeFill ∧ want = 4) ∨
        ((le16 eff 0 = s.cfg.typeDontCare ∨ le16 eff 0 = s.cfg.typeCrc32) ∧ want = 0)) →
      (size ≠ s.cfg.chunkHdrLen + want → refused 5) ∧
      (size = s.cfg.chunkHdrLen + want → le16 eff 0 ≠ s.cfg.typeCrc32 →
        s.ssw.partSize.toNat < s.ssw.cursor.toNat + blks → refused 7)) ∧
    (le16 eff 0 = s.cfg.typeCrc32 → size = s.cfg.chunkHdrLen → taken (t.chunkEnded csz)) ∧
    (s.ssw.cursor.toNat + blks ≤ s.ssw.partSize.toNat →
      (le16 eff 0 = s.cfg.typeRaw → size = s.cfg.chunkHdrLen + raw →
        (raw = 0 → taken (State.chunkEnded { t with ssw := { t.ssw with chunkRem := 0 } } csz)) ∧
        (raw ≠ 0 → taken { t with ssw := { t.ssw with chunkRem := BitVec.ofNat 32 raw, phase := .spRaw } })) ∧
      (le16 eff 0 = s.cfg.typeFill → size = s.cfg.chunkHdrLen + 4 →
        taken { t with ssw := { t.ssw with chunkRem := 4, phase := .spFill } }) ∧
      (le16 eff 0 = s.cfg.typeDontCare → size = s.cfg.chunkHdrLen →
        taken (State.chunkEnded { t with ssw := { t.ssw with cursor := s.ssw.cursor + BitVec.ofNat 32 blks } } csz)))

/-- A device call that was answered ok; no other action is one. -/
def answeredOk : Action → Prop
  | .devWrite _ _ ok => ok = true
  | .devErase _ _ ok => ok = true
  | _ => False

/-- A report of progress. -/
def isProgress : Action → Bool
  | .progress _ => true
  | _ => false

/-- The device will answer its next `n` calls of each kind as the honest device of rule R310 does: ok, and what is stored. -/
abbrev State.faithful (s : State) (n : Nat) : Prop :=
  ((∀ x ∈ s.ans.writeOk, x = true) ∧ n ≤ s.ans.writeOk.length) ∧ ((∀ x ∈ s.ans.eraseOk, x = true) ∧ n ≤ s.ans.eraseOk.length) ∧
  (∀ x ∈ s.ans.read, x = some []) ∧ n ≤ s.ans.read.length

/-- The bytes of a list arrive on the UART link one after the other (rule R133). -/
def arrive : Bytes → State → Result
  | [], s => .next s
  | b :: r, s => andThen (exec (.uartRx b) s) (arrive r)

/-- The pieces of an image are pushed one after the other (rule R133, SSW.PUSH_SPLIT). -/
def pushInTurn : List Bytes → State → Result
  | [], s => .next s
  | b :: r, s => andThen (exec (.sswPush b) s) (pushInTurn r)

/-- The bytes of a running PUSH that have been consumed (rules R286, R307, R308). -/
def Ssw.ate (w : Ssw) (c : Config) (n : Nat) : Ssw :=
  { w with
    hand := w.hand.drop n
    transSize := w.transSize + BitVec.ofNat 64 n
    crcTx := crc32Update c.crc32 w.crcTx (w.hand.take n)
    crcWr := if w.phase = .raw then w.crcWr else crc32Update c.crc32 w.crcWr (w.hand.take n) }

/-- A running PUSH: zero or more steps of the loop of rule R286, none of them after a failure. -/
inductive PushRun : State → State → Prop where
  | here (s : State) : PushRun s s
  | more {s s1 t : State} (hp : s.ssw.phase ≠ .failed) (hs : pushStep s = .go s1) (hr : PushRun s1 t) : PushRun s t

/-- A header of command `cmd` whose checksum is right, with the payload it declares (rules R98, R342, R351). -/
abbrev goodCommand (c : Config) (cmd rsv : Byte) (r : HdrRest) (payload : Bytes) : Prop :=
  r.wf c ∧ r.checksum = hdrSumOf c.hdrSum ((headerBytes Config.cmdMagic cmd rsv r).take (12 + Config.padBytes c.hdrPad)) ∧
  payload.length = r.dataLength.toNat

/-- What `respond(cmd, status, out)` hands back (rule R348). -/
def answered (c : Config) (cmd status : Byte) (out : Bytes) : Option Ret :=
  some (.response (hdrEncode c Config.rspMagic ⟨1, 1, cmd, status, BitVec.ofNat 32 out.length⟩) out)

/-- The registers of SSW with no session (rules R34, R285, R412). -/
def closedSession (c : Config) : Ssw where
  phase := .closed
  partStart := 0
  partSize := 0
  bs := 0
  cursor := 0
  sbs := 0
  totalBlks := 0
  totalChunks := 0
  chunksDone := 0
  blocksDone := 0
  curHdr := List.replicate c.chunkHdrLen 0
  chunkRem := 0
  lastValid := false
  lastHdr := List.replicate c.chunkHdrLen 0
  leftLen := 0
  crcWr := crc32Init c.crc32
  crcTx := crc32Init c.crc32
  transSize := 0
  fail := 0
  err := 0
  hand := []

/-- The registers of SSW after SSW.OPEN of a valid descriptor (rules R34, R284). -/
def openedSession (c : Config) (start size bs : U32) : Ssw :=
  { closedSession c with phase := .detect, partStart := start, partSize := size, bs := bs }

end Sys2Proof.Machine
end

