-- ==== Sys2Proof/Certificates/Slice0/Obligations.lean ====
section
/-! DEFINITION. The statements about the model. -/

open Sys2Proof Sys2Proof.Machine

/-! ## UPE -/

/-- R177: a ping outside a frame is answered, and the next frame may be block 1 again. -/
def Obligations.PingAnswered : Prop :=
  ∀ (s : State) (i : Instr), s.listening → s.quiet → inFrame s.cfg s.upe s.cfg.sigC = false →
    (i = .sigC ∨ i = .uartRx s.cfg.sigC) →
    exec i s = .next { s with upe := { s.upe.heard with fresh := true }, log := s.log ++ [.uartTx [s.cfg.ack]] }

/-- R178, R179, R187: DC1 and DC2 outside a frame. The head task of the other direction leaves the queue, no status is
posted; DC2 with a send task at the head then sends its next slice (R186), else nothing is transmitted. Where a corner-case sentence
of R178 and its pseudocode differ (DC1 in DATA_RECV with a send task at the head), the pseudocode is followed (log 31). -/
def Obligations.DirectionSwitched : Prop :=
  ∀ s : State, s.cfg.ok → s.listening →
    (inFrame s.cfg s.upe s.cfg.dc1 = false → ∀ i, (i = .dc1 ∨ i = .uartRx s.cfg.dc1) →
      exec i s = .next { s with upe := { s.upe.heard with
        st := .dataRecv, awaitAck := false, fcnt := 0, fneed := 0, q := announced .recv s.upe.q } }) ∧
    (inFrame s.cfg s.upe s.cfg.dc2 = false → ∀ i, (i = .dc2 ∨ i = .uartRx s.cfg.dc2) →
      ((∀ t ∈ (announced .send s.upe.q).head?, t.dir = .recv) →
        exec i s = .next { s with upe := { s.upe.heard with
          st := .dataSend, awaitAck := false, fcnt := 0, fneed := 0, q := announced .send s.upe.q } }) ∧
      (∀ t r, announced .send s.upe.q = t :: r → t.dir = .send → t.done.toNat < t.len.toNat →
        ∃ f, packFrameOf s.cfg s.upe.sendBlk (t.buf.readRun t.done.toNat (sliceOf (t.len.toNat - t.done.toNat))) = .ok f ∧
          exec i s = .next { s with
            upe := { s.upe.heard with
              st := .cmdRecv, awaitAck := true, tWait := 0, fcnt := 0, fneed := 0, q := t :: r,
              slice := BitVec.ofNat 16 (sliceOf (t.len.toNat - t.done.toNat)) }
            log := s.log ++ [.uartTx f] }))

/-- R192, R193: ACK and NAK of the frame in flight. ACK: the task advances by the slice; when it is done it leaves the queue with
its status, else its next slice goes out at once (R186). NAK: the same block number and the same bytes again, and the wait starts
again. -/
def Obligations.AckAndNak : Prop :=
  ∀ (s : State) (t : Task) (r : List Task), s.cfg.ok → s.listening → UpeInv s → s.upe.awaitAck = true →
    s.upe.q = t :: r →
    (∀ i, (i = .ack ∨ i = .uartRx s.cfg.ack) →
      (t.done.toNat + s.upe.slice.toNat = t.len.toNat →
        exec i s = .next { s with
          upe := { s.upe.heard with
            q := r, sendBlk := s.upe.sendBlk + 1, awaitAck := false, statusCode := 2, statusValid := true,
            statusOverrun := s.upe.statusOverrun || s.upe.statusValid }
          finished := s.finished ++ [{ t with done := t.len }] }) ∧
      (t.done.toNat + s.upe.slice.toNat < t.len.toNat →
        ∃ (n : Nat) (f : Bytes), n = sliceOf (t.len.toNat - t.done.toNat - s.upe.slice.toNat) ∧
          packFrameOf s.cfg (s.upe.sendBlk + 1) (t.buf.readRun (t.done.toNat + s.upe.slice.toNat) n) = .ok f ∧
          exec i s = .next { s with
            upe := { s.upe.heard with
              q := { t with done := t.done + s.upe.slice.setWidth 32 } :: r, sendBlk := s.upe.sendBlk + 1,
              slice := BitVec.ofNat 16 n, tWait := 0 }
            log := s.log ++ [.uartTx f] })) ∧
    (∀ i, (i = .nak ∨ i = .uartRx s.cfg.nak) →
      ∃ f, packFrameOf s.cfg s.upe.sendBlk (t.buf.readRun t.done.toNat s.upe.slice.toNat) = .ok f ∧
        exec i s = .next { s with upe := { s.upe.heard with tWait := 0 }, log := s.log ++ [.uartTx f] })

/-- R191: a byte outside a frame that means nothing is dropped; only the silence counters notice it. -/
def Obligations.ByteDropped : Prop :=
  ∀ (s : State) (b : Byte) (i : Instr), s.listening → s.quiet → inFrame s.cfg s.upe b = false → byteRow s.cfg b i →
    b ∉ [s.cfg.sigC, s.cfg.dc1, s.cfg.dc2] →
    (s.upe.awaitAck = true → b ∉ [s.cfg.ack, s.cfg.nak]) →
    exec i s = .next { s with upe := s.upe.heard }

/-- R172, R180: the bytes of a frame that do not complete it, each an event of its own. In DATA_RECV at a frame boundary SOH and STX
start a frame: the byte goes to FBUF[0]. Inside a frame every byte is data, whichever row brings it, a control byte too: it goes to
FBUF[FCNT], FCNT counts it, and FNEED is 1029 after STX, 4 after SOH until the length byte is in, and then 4 + len + 2. Nothing is
transmitted. -/
def Obligations.FrameBytesGathered : Prop :=
  ∀ s : State, s.cfg.ok → s.listening → s.upe.st = .dataRecv →
    (s.upe.fcnt = 0 →
      (∀ i, (i = .soh ∨ i = .uartRx s.cfg.soh) →
        ∃ m, exec i s = .next { s with upe := { s.upe.heard with fcnt := 1, fneed := 4 }, fbuf := m } ∧
          wrote s.fbuf m 0 [s.cfg.soh]) ∧
      (∀ i, (i = .stx ∨ i = .uartRx s.cfg.stx) →
        ∃ m, exec i s = .next { s with upe := { s.upe.heard with fcnt := 1, fneed := 1029 }, fbuf := m } ∧
          wrote s.fbuf m 0 [s.cfg.stx])) ∧
    (∀ (b : Byte) (i : Instr) (f : Bytes), UpeInv s → 0 < s.upe.fcnt.toNat → byteRow s.cfg b i →
      f = s.fbuf.readRun 0 s.upe.fcnt.toNat ++ [b] → f.length < frameNeed s.cfg f →
      ∃ m, wrote s.fbuf m s.upe.fcnt.toNat [b] ∧ exec i s = .next { s with
        upe := { s.upe.heard with fcnt := s.upe.fcnt + 1, fneed := BitVec.ofNat 16 (frameNeed s.cfg f) }, fbuf := m })

/-- R181, R182, R183, R185, R201, R380: the byte that completes a frame, as an event of its own. A refused frame: the code of the first
check that fails (R375) is recorded, NAK goes out, the frame is forgotten. A duplicate of the last accepted frame: ACK goes out. Either
way the queue, the block numbers and the tasks' buffers are as before. A good new frame that the head task has room for: ACK goes out,
and its data is copied into the task, which leaves the queue with its status when it is full. -/
def Obligations.FrameCompleted : Prop :=
  ∀ (s : State) (b : Byte) (i : Instr) (f : Bytes), s.listening → UpeInv s → 0 < s.upe.fcnt.toNat → byteRow s.cfg b i →
    f = s.fbuf.readRun 0 s.upe.fcnt.toNat ++ [b] → frameTotalOf s.cfg f = .total f.length →
    ∃ m, wrote s.fbuf m s.upe.fcnt.toNat [b] ∧
      (∀ code : Byte,
        ((∃ e, unpackOf s.cfg f = .error e ∧ code = fcErrNum e) ∨
         (∃ blk data, unpackOf s.cfg f = .ok (blk, data) ∧
          ((code = 3 ∧ ¬ (s.upe.fresh = true ∧ blk = 1) ∧ blk ≠ s.upe.lastBlk + 1 ∧
              ¬ (s.upe.fresh = false ∧ blk = s.upe.lastBlk)) ∨
           (code = 4 ∧ ((s.upe.fresh = true ∧ blk = 1) ∨ blk = s.upe.lastBlk + 1) ∧
              ∀ t ∈ s.upe.q.head?, t.dir = .send) ∨
           (code = 5 ∧ ((s.upe.fresh = true ∧ blk = 1) ∨ blk = s.upe.lastBlk + 1) ∧
              ∃ t ∈ s.upe.q.head?, t.dir = .recv ∧ t.len.toNat - t.done.toNat < data.length)))) →
        exec i s = .next { s with
          upe := { s.upe.heard with fcnt := 0, fneed := 0, err := code }, fbuf := m,
          log := s.log ++ [.uartTx [s.cfg.nak]] }) ∧
      (∀ data, s.upe.fresh = false → unpackOf s.cfg f = .ok (s.upe.lastBlk, data) →
        exec i s = .next { s with
          upe := { s.upe.heard with fcnt := 0, fneed := 0 }, fbuf := m, log := s.log ++ [.uartTx [s.cfg.ack]] }) ∧
      (∀ blk data t r, unpackOf s.cfg f = .ok (blk, data) → ((s.upe.fresh = true ∧ blk = 1) ∨ blk = s.upe.lastBlk + 1) →
        s.upe.q = t :: r → t.dir = .recv → t.done.toNat + data.length ≤ t.len.toNat →
        ∃ buf, wrote t.buf buf t.done.toNat data ∧
          (t.done.toNat + data.length < t.len.toNat → exec i s = .next { s with
            upe := { s.upe.heard with
              fcnt := 0, fneed := 0, lastBlk := blk, fresh := false
              q := { t with buf := buf, done := t.done + BitVec.ofNat 32 data.length } :: r }
            fbuf := m, log := s.log ++ [.uartTx [s.cfg.ack]] }) ∧
          (t.done.toNat + data.length = t.len.toNat → exec i s = .next { s with
            upe := { s.upe.heard with
              fcnt := 0, fneed := 0, lastBlk := blk, fresh := false, q := r, statusCode := 1, statusValid := true
              statusOverrun := s.upe.statusOverrun || s.upe.statusValid }
            fbuf := m, log := s.log ++ [.uartTx [s.cfg.ack]]
            finished := s.finished ++ [{ t with buf := buf, done := t.len }] }))

/-- R91, R92, R133, R180 to R185: a whole good frame that arrives at a frame boundary in DATA_RECV. It is gathered byte by
byte in FBUF, acknowledged once, and its data is copied into the head task. -/
def Obligations.FramesAccepted : Prop :=
  ∀ (s : State) (i : Instr) (blk : Byte) (data frame : Bytes) (t : Task) (r : List Task),
    s.cfg.ok → s.listening → UpeInv s → s.upe.st = .dataRecv → s.upe.fcnt = 0 →
    ((data.length ≤ 61 ∧ i = .shortFrame blk (255 - blk) data (crc16Of s.cfg.crc16 data) ∧
        frame = shortFrameBytes s.cfg blk (255 - blk) data (crc16Of s.cfg.crc16 data)) ∨
     (data.length = 1024 ∧ i = .longFrame blk (255 - blk) data (crc16Of s.cfg.crc16 data) ∧
        frame = longFrameBytes s.cfg blk (255 - blk) data (crc16Of s.cfg.crc16 data))) →
    ((s.upe.fresh = true ∧ blk = 1) ∨ blk = s.upe.lastBlk + 1) →
    s.upe.q = t :: r → t.dir = .recv → t.done.toNat + data.length ≤ t.len.toNat →
    ∃ m buf, wrote s.fbuf m 0 frame ∧ wrote t.buf buf t.done.toNat data ∧
      (t.done.toNat + data.length < t.len.toNat →
        exec i s = .next { s with
          upe := { s.upe.heard with
            fneed := 0, lastBlk := blk, fresh := false
            q := { t with buf := buf, done := t.done + BitVec.ofNat 32 data.length } :: r }
          fbuf := m, log := s.log ++ [.uartTx [s.cfg.ack]] }) ∧
      (t.done.toNat + data.length = t.len.toNat →
        exec i s = .next { s with
          upe := { s.upe.heard with
            fneed := 0, lastBlk := blk, fresh := false, q := r, statusCode := 1, statusValid := true
            statusOverrun := s.upe.statusOverrun || s.upe.statusValid }
          fbuf := m, log := s.log ++ [.uartTx [s.cfg.ack]]
          finished := s.finished ++ [{ t with buf := buf, done := t.len }] })

/-- R122, R147, R181, R381: a whole damaged frame. A wrong complement, or a short frame of more than 61 bytes, is code 2, else
a wrong CRC is code 1; it is refused with one NAK and nothing of it is kept outside FBUF. -/
def Obligations.FramesRefused : Prop :=
  ∀ (s : State) (i : Instr) (blk cblk : Byte) (data frame : Bytes) (crc : U16) (short : Bool) (code : Byte),
    s.cfg.ok → s.listening → UpeInv s → s.upe.st = .dataRecv → s.upe.fcnt = 0 →
    ((short = true ∧ data.length ≤ 255 ∧ i = .shortFrame blk cblk data crc ∧
        frame = shortFrameBytes s.cfg blk cblk data crc) ∨
     (short = false ∧ data.length = 1024 ∧ i = .longFrame blk cblk data crc ∧
        frame = longFrameBytes s.cfg blk cblk data crc)) →
    ((code = 2 ∧ (blk.toNat + cblk.toNat ≠ 255 ∨ (short = true ∧ 61 < data.length))) ∨
     (code = 1 ∧ blk.toNat + cblk.toNat = 255 ∧ (short = true → data.length ≤ 61) ∧
        crc ≠ crc16Of s.cfg.crc16 data)) →
    ∃ m, wrote s.fbuf m 0 frame ∧
      exec i s = .next { s with
        upe := { s.upe.heard with fneed := 0, err := code }, fbuf := m, log := s.log ++ [.uartTx [s.cfg.nak]] }

/-- R376: a masked event is dropped with no state change. -/
def Obligations.MaskedDropped : Prop :=
  ∀ (s : State) (i : Instr),
    (¬ s.listening →
      ((∃ b, byteRow s.cfg b i) ∨ i = .tick ∨ (∃ blk cblk data crc, i = .shortFrame blk cblk data crc) ∨
        (∃ blk cblk data crc, i = .longFrame blk cblk data crc)) → exec i s = .next s) ∧
    (s.ute.run = false →
      ((∃ b, i = .outDoneReadCbw b) ∨ (∃ b, i = .outDoneDataOut b) ∨ (∃ n, i = .inDoneDataIn n) ∨
        (∃ n, i = .inDoneWaitCsw n) ∨ (∃ c, i = .doneIgnored c) ∨ (∃ tag len r, i = .cbwWrite tag len r) ∨
        (∃ tag len r, i = .cbwRead tag len r) ∨ (∃ b, i = .cbwMalformed b) ∨ i = .usbReset) → exec i s = .next s)

/-- R195 to R198, in the order of R375: a tick with no threshold passed only counts; total silence for more than T_SESSION ticks
aborts the engine, and the dispatcher, which sees it, makes SSW.CLOSE a pending event (R356), at any place among those that wait (R436;
log 28); a frame in progress that has been silent for more than T_FRAME ticks is given up with a NAK; a frame in
flight that has not been answered for more than T_ACK ticks goes out again. -/
def Obligations.TickTimers : Prop :=
  ∀ s : State, s.listening → UpeInv s →
    (s.upe.ticked.tSess.toNat ≤ s.cfg.tSession →
      (s.upe.st = .dataRecv → s.upe.fcnt ≠ 0 → s.upe.ticked.tByte.toNat ≤ s.cfg.tFrame) →
      (s.upe.awaitAck = true → s.upe.ticked.tWait.toNat ≤ s.cfg.tAck) →
      exec .tick s = .next { s with upe := s.upe.ticked }) ∧
    (s.cfg.tSession < s.upe.ticked.tSess.toNat →
      ∀ n rest, nextAnswer s.ans.close (Config.freeClose s.asked) = (n, rest) →
      exec .tick s = .next { s with
        upe := { s.upe.ticked with err := 8, abort := true }
        ans := { s.ans with close := rest }, asked := s.asked + 1
        inbox := s.inbox.take n ++ ⟨.sswClose, []⟩ :: s.inbox.drop n }) ∧
    (s.upe.ticked.tSess.toNat ≤ s.cfg.tSession → s.upe.st = .dataRecv → s.upe.fcnt ≠ 0 →
      s.cfg.tFrame < s.upe.ticked.tByte.toNat →
      exec .tick s = .next { s with
        upe := { s.upe.ticked with err := 6, fcnt := 0, fneed := 0, tByte := 0 }
        log := s.log ++ [.uartTx [s.cfg.nak]] }) ∧
    (∀ (t : Task) (r : List Task), s.upe.ticked.tSess.toNat ≤ s.cfg.tSession → s.upe.awaitAck = true → s.upe.q = t :: r →
      s.cfg.tAck < s.upe.ticked.tWait.toNat →
      ∃ f, packFrameOf s.cfg s.upe.sendBlk (t.buf.readRun t.done.toNat s.upe.slice.toNat) = .ok f ∧
        exec .tick s = .next { s with
          upe := { s.upe.ticked with err := 7, tWait := 0 }, log := s.log ++ [.uartTx f] })

/-- R175, R176, R170: UPE.INIT in any state; UPE.DEINIT of an engine that runs, and of one that does not run or has aborted, which
ignores it (log 31). -/
def Obligations.UpeStartsAndStops : Prop :=
  ∀ s : State,
    exec .upeInit s = .next { s with
      upe := { run := true, st := .cmdRecv, awaitAck := false, fresh := true, lastBlk := 0, sendBlk := 1, fcnt := 0,
               fneed := 0, slice := 0, tByte := 0, tWait := 0, tSess := 0, statusValid := false, statusCode := 0,
               statusOverrun := false, abort := false, err := 0, q := [] }
      log := s.log ++ [.uartTx [s.cfg.can]] } ∧
    (s.listening → exec .upeDeinit s = .next { s with upe := { s.upe with run := false } }) ∧
    (¬ s.listening → exec .upeDeinit s = .next s)

/-- R173, R174: UPE.START_READ and UPE.START_WRITE, their return codes in the order of R375, and the task each enqueues. A write task
whose turn it is in DATA_SEND sends its first frame at once (R186). -/
def Obligations.TasksEnqueued : Prop :=
  ∀ (s : State) (len : U32) (data : Bytes), data.length < 2 ^ 32 →
    (¬ s.listening → exec (.startRead len) s = .next { s with ret := some (.code 1) }) ∧
    (s.listening → len = 0 → exec (.startRead len) s = .next { s with ret := some (.code 2) }) ∧
    (s.listening → len ≠ 0 → s.upe.q.length = s.cfg.qCap →
      exec (.startRead len) s = .next { s with ret := some (.code 3) }) ∧
    (s.listening → len ≠ 0 → s.upe.q.length < s.cfg.qCap → s.quiet →
      ∃ buf, exec (.startRead len) s = .next { s with
        upe := { s.upe with q := s.upe.q ++ [{ dir := .recv, len := len, done := 0, buf := buf }] }
        ret := some (.code 0) }) ∧
    (¬ s.listening → exec (.startWrite data) s = .next { s with ret := some (.code 1) }) ∧
    (s.listening → data = [] → exec (.startWrite data) s = .next { s with ret := some (.code 2) }) ∧
    (s.listening → data ≠ [] → s.upe.q.length = s.cfg.qCap →
      exec (.startWrite data) s = .next { s with ret := some (.code 3) }) ∧
    (s.listening → data ≠ [] → s.upe.q.length < s.cfg.qCap → ∃ buf, wrote [] buf 0 data ∧
      (s.quiet → s.upe.st ≠ .dataSend ∨ s.upe.q ≠ [] →
        exec (.startWrite data) s = .next { s with
          upe := { s.upe with
            q := s.upe.q ++ [{ dir := .send, len := BitVec.ofNat 32 data.length, done := 0, buf := buf }] }
          ret := some (.code 0) }) ∧
      (s.upe.st = .dataSend → s.upe.q = [] →
        ∃ f, packFrameOf s.cfg s.upe.sendBlk (data.take (sliceOf data.length)) = .ok f ∧
          exec (.startWrite data) s = .next { s with
            upe := { s.upe with
              q := [{ dir := .send, len := BitVec.ofNat 32 data.length, done := 0, buf := buf }]
              st := .cmdRecv, awaitAck := true, tWait := 0, slice := BitVec.ofNat 16 (sliceOf data.length) }
            log := s.log ++ [.uartTx f], ret := some (.code 0) }))

/-- R199, R200: the status slot, in every state of the engine. -/
def Obligations.StatusSlot : Prop :=
  ∀ (s : State) (code : Byte),
    exec (.setStatus code) s = .next { s with
      upe := { s.upe with
        statusCode := code, statusValid := true, statusOverrun := s.upe.statusOverrun || s.upe.statusValid } } ∧
    (s.upe.statusValid = true → exec .getStatus s = .next { s with
      upe := { s.upe with statusValid := false, statusCode := 0 }, ret := some (.code s.upe.statusCode) }) ∧
    (s.upe.statusValid = false → exec .getStatus s = .next { s with ret := some (.code 0) })

/-! ## UTE -/

/-- R235, R249, R230: UTE.INIT in any state, and UTE.USB_RESET of an engine that runs, whatever its stage: every register is at its
reset value but RUN, and the CBW transfer is armed. -/
def Obligations.UteStarts : Prop :=
  ∀ (s : State) (i : Instr), (i = .uteInit ∨ (i = .usbReset ∧ s.ute.run = true)) →
    exec i s = .next { s with
      ute := { run := true, stage := .readCbw, cbw := List.replicate 31 0, csw := List.replicate 13 0, tag := 0, dlen := 0,
               dirIn := false, cmd := 0, remain := 0, moved := 0, taskXfer := 0, taskDone := 0, pktXfer := 0, pktDone := 0,
               phaseErr := false, drain := false, err := 0 }
      log := s.log ++ [.epRecv 31] }

/-- R236, R238, R239: a good CBW of the write command with a length, whichever row of a bulk-OUT completion brings it (R116). The dispatcher is asked what it expects; on a mismatch the data
is received and thrown away; the first packet is armed. -/
def Obligations.WriteDeclared : Prop :=
  ∀ (s : State) (tag len : U32) (r : CbwRest) (i : Instr) (e : U32) (rest : List U32),
    s.ute.run = true → s.ute.stage = .readCbw → r.reserved.length = 15 → len ≠ 0 →
    outRow s.cfg (cbwBytes tag len false s.cfg.usbCmdWrite r) i →
    nextAnswer s.ans.expect (Config.freeExpect s.asked) = (e, rest) →
    exec i s = .next { s with
      ute := { s.ute with
        stage := .dataOut, cbw := cbwBytes tag len false s.cfg.usbCmdWrite r, tag := tag, dlen := len, dirIn := false,
        cmd := s.cfg.usbCmdWrite, phaseErr := decide (e ≠ len), drain := decide (e ≠ len), moved := 0, remain := len,
        err := if e = len then s.ute.err else 2, taskXfer := BitVec.ofNat 32 (min len.toNat s.cfg.pktBufSize), taskDone := 0,
        pktXfer := BitVec.ofNat 32 (min (min len.toNat s.cfg.pktBufSize) s.cfg.epMps), pktDone := 0 }
      ans := { s.ans with expect := rest }
      asked := s.asked + 1
      log := s.log ++ [.dispExpect s.cfg.usbCmdWrite len e, .epRecv (min (min len.toNat s.cfg.pktBufSize) s.cfg.epMps)] }

/-- R236, R238, R242, R243: a good CBW of the read command with bytes to send, whichever row brings it (R116): as many as the host asked for and the command has. The
dispatcher is asked for the first task, whose first packet is submitted. -/
def Obligations.ReadDeclared : Prop :=
  ∀ (s : State) (tag len : U32) (r : CbwRest) (i : Instr) (e : U32) (rest : List U32),
    s.cfg.ok → s.ute.run = true → s.ute.stage = .readCbw → r.reserved.length = 15 → len ≠ 0 → e ≠ 0 →
    outRow s.cfg (cbwBytes tag len true s.cfg.usbCmdRead r) i →
    nextAnswer s.ans.expect (Config.freeExpect s.asked) = (e, rest) →
    ∀ s1 : State, s1 = { s with
      ute := { s.ute with
        stage := .dataIn, cbw := cbwBytes tag len true s.cfg.usbCmdRead r, tag := tag, dlen := len, dirIn := true,
        cmd := s.cfg.usbCmdRead, phaseErr := decide (e ≠ len), drain := false, moved := 0,
        remain := BitVec.ofNat 32 (min len.toNat e.toNat), err := if e = len then s.ute.err else 2, taskXfer := 0,
        taskDone := 0, pktXfer := 0, pktDone := 0 }
      ans := { s.ans with expect := rest }
      asked := s.asked + 1
      log := s.log ++ [.dispExpect s.cfg.usbCmdRead len e] } →
    ∃ m, wrote s.pktbuf m 0 s1.nextChunk ∧ exec i s = .next (s1.supplied m)

/-- R236, R238: a good CBW with nothing to move goes to the status phase without a data phase, whichever row brings it (R116): a declared
length of zero, or a read for which the command has nothing. That DISP.STATUS then does not answer 0 for a header rejected on USB
(R344), and uses the note of it up, is log 28. -/
def Obligations.NothingToMove : Prop :=
  ∀ (s : State) (tag len : U32) (r : CbwRest) (i : Instr) (read : Bool) (b : Bytes) (e : U32) (rest : List U32),
    s.ute.run = true → s.ute.stage = .readCbw → r.reserved.length = 15 → (len = 0 ∨ (read = true ∧ e = 0)) →
    b = cbwBytes tag len read (if read = true then s.cfg.usbCmdRead else s.cfg.usbCmdWrite) r →
    outRow s.cfg b i →
    nextAnswer s.ans.expect (Config.freeExpect s.asked) = (e, rest) →
    exec i s = .next (State.statusPhase { s with
      ute := { s.ute with
        cbw := b, tag := tag, dlen := len, dirIn := read,
        cmd := if read = true then s.cfg.usbCmdRead else s.cfg.usbCmdWrite, phaseErr := decide (e ≠ len),
        drain := if read = true then false else decide (e ≠ len), moved := 0, remain := 0,
        err := if e = len then s.ute.err else 2, taskXfer := 0, taskDone := 0, pktXfer := 0, pktDone := 0 }
      ans := { s.ans with expect := rest }
      asked := s.asked + 1
      log := s.log ++ [.dispExpect (if read = true then s.cfg.usbCmdRead else s.cfg.usbCmdWrite) len e] })

/-- R236, R237, R246: a malformed CBW, whichever row of a bulk-OUT completion brings it (R116). The dispatcher is not asked; a CSW with
status 2 goes out at once. A wrong length or signature keeps the old CBW and leaves the residue 0; a command that does not go with
the direction, or is unknown, has the declared length as its residue. -/
def Obligations.CbwMalformed : Prop :=
  ∀ (s : State) (b : Bytes) (i : Instr), s.ute.run = true → s.ute.stage = .readCbw →
    outRow s.cfg b i →
    ((b.length ≠ 31 ∨ le32 b 0 ≠ 0x43425355) → ∀ tag, tag = (if 8 ≤ b.length then le32 b 4 else 0) →
      exec i s = .next { s with
        ute := { s.ute with
          stage := .waitCsw, csw := cswBytes tag 0 2, tag := tag, dlen := 0, err := 1, phaseErr := true, drain := false,
          moved := 0, remain := 0, taskXfer := 0, taskDone := 0, pktXfer := 0, pktDone := 0 }
        log := s.log ++ [.epSend (cswBytes tag 0 2)] }) ∧
    (b.length = 31 → le32 b 0 = 0x43425355 →
      ¬ (byteAt b 15 = s.cfg.usbCmdWrite ∧ bit7 (byteAt b 12) = false) →
      ¬ (byteAt b 15 = s.cfg.usbCmdRead ∧ bit7 (byteAt b 12) = true) →
      exec i s = .next { s with
        ute := { s.ute with
          stage := .waitCsw, cbw := b, csw := cswBytes (le32 b 4) (le32 b 8) 2, tag := le32 b 4, dlen := le32 b 8,
          dirIn := bit7 (byteAt b 12), cmd := byteAt b 15, err := 1, phaseErr := true, drain := false,
          moved := 0, remain := 0, taskXfer := 0, taskDone := 0, pktXfer := 0, pktDone := 0 }
        log := s.log ++ [.epSend (cswBytes (le32 b 4) (le32 b 8) 2)] })

/-- R240, R241, R239: a packet of a data-out phase, whichever row of a bulk-OUT completion brings it (R116). It is stored behind the
task's earlier bytes; a task that is not full arms its next packet; a full one is forwarded and the next task begins; the last one, or
a short packet, ends in the status phase, whose DISP.STATUS is never 0 for a header rejected on USB (R344; log 28). A packet of more
bytes than were armed is refused (R372, U6; log 23). -/
def Obligations.DataOutTaken : Prop :=
  ∀ (s : State) (b : Bytes) (i : Instr), s.cfg.ok → s.ute.run = true → UteInv s →
    (s.ute.stage = .dataOut ∨ s.ute.stage = .dataOutBuf) → outRow s.cfg b i →
    (s.ute.pktXfer.toNat < b.length → exec i s = .refused .outTooLong) ∧
    (b.length ≤ s.ute.pktXfer.toNat →
    ∃ m, wrote s.pktbuf m s.ute.taskDone.toNat b ∧ ∀ f : State, f = (s.received m b).forwarded →
      (b.length = s.ute.pktXfer.toNat → s.ute.taskDone.toNat + b.length < s.ute.taskXfer.toNat →
        exec i s = .next { s.received m b with
          ute := { (s.received m b).ute with
            stage := .dataOutBuf
            pktXfer := BitVec.ofNat 32 (min (s.ute.taskXfer.toNat - (s.ute.taskDone.toNat + b.length)) s.cfg.epMps)
            pktDone := 0 }
          log := s.log ++ [.epRecv (min (s.ute.taskXfer.toNat - (s.ute.taskDone.toNat + b.length)) s.cfg.epMps)] }) ∧
      (b.length = s.ute.pktXfer.toNat → s.ute.taskDone.toNat + b.length = s.ute.taskXfer.toNat →
        b.length < s.ute.remain.toNat →
        exec i s = .next { f with
          ute := { f.ute with
            stage := .dataOutBuf
            taskXfer := BitVec.ofNat 32 (min (s.ute.remain.toNat - b.length) s.cfg.pktBufSize)
            taskDone := 0
            pktXfer := BitVec.ofNat 32 (min (min (s.ute.remain.toNat - b.length) s.cfg.pktBufSize) s.cfg.epMps)
            pktDone := 0 }
          log := f.log ++ [.epRecv (min (min (s.ute.remain.toNat - b.length) s.cfg.pktBufSize) s.cfg.epMps)] }) ∧
      ((b.length < s.ute.pktXfer.toNat ∨
          (s.ute.taskDone.toNat + b.length = s.ute.taskXfer.toNat ∧ b.length = s.ute.remain.toNat)) →
        exec i s = .next f.statusPhase))

/-- R244, R242, R243: a completion of a data-in phase, whichever row of a bulk-IN completion brings it. What the host has not had of the
task is submitted again; after the whole task the next one is asked for; after the last one the status phase follows, whose DISP.STATUS
is never 0 for a header rejected on USB (R344; log 28). A completion that reports more bytes than were submitted is refused (R372, U6;
log 23). -/
def Obligations.DataInSent : Prop :=
  ∀ (s : State) (n : U32) (i : Instr) (s1 : State), s.cfg.ok → s.ute.run = true → UteInv s →
    (s.ute.stage = .dataIn ∨ s.ute.stage = .dataInBuf) → inRow n i →
    (s.ute.pktXfer.toNat < n.toNat → exec i s = .refused .inTooLong) ∧
    (n.toNat ≤ s.ute.pktXfer.toNat → s1 = { s with ute := { s.ute with
      pktDone := n, taskDone := s.ute.taskDone + n, remain := s.ute.remain - n, moved := s.ute.moved + n } } →
    (s.ute.taskDone.toNat + n.toNat < s.ute.taskXfer.toNat →
      ∀ k, k = min (s.ute.taskXfer.toNat - (s.ute.taskDone.toNat + n.toNat)) s.cfg.epMps →
        exec i s = .next { s1 with
          ute := { s1.ute with stage := .dataInBuf, pktXfer := BitVec.ofNat 32 k, pktDone := 0 }
          log := s.log ++ [.epSend (s.pktbuf.readRun (s.ute.taskDone.toNat + n.toNat) k)] }) ∧
    (s.ute.taskDone.toNat + n.toNat = s.ute.taskXfer.toNat → n.toNat < s.ute.remain.toNat →
      ∃ m, wrote s.pktbuf m 0 s1.nextChunk ∧
        exec i s = .next (State.supplied { s1 with ute := { s1.ute with stage := .dataInBuf } } m)) ∧
    (s.ute.taskDone.toNat + n.toNat = s.ute.taskXfer.toNat → n.toNat = s.ute.remain.toNat →
      exec i s = .next s1.statusPhase))

/-- R247, R248: the CSW has gone and the engine waits for a CBW again; a completion that the stage does not expect is ignored, whatever
row it was written as, a CBW that arrives in another stage too (R116). -/
def Obligations.CswGone : Prop :=
  ∀ (s : State) (i : Instr), s.ute.run = true →
    (∀ n, inRow n i →
      (s.ute.stage = .waitCsw → exec i s = .next { s with
        ute := { s.ute with stage := .readCbw }, log := s.log ++ [.epRecv 31] }) ∧
      ((s.ute.stage = .readCbw ∨ s.ute.stage = .dataOut ∨ s.ute.stage = .dataOutBuf) → exec i s = .next s)) ∧
    (∀ b, outRow s.cfg b i →
      (s.ute.stage = .dataIn ∨ s.ute.stage = .dataInBuf ∨ s.ute.stage = .waitCsw) → exec i s = .next s)

/-! ## SSW -/

/-- R284, R285: SSW.OPEN, its return codes in the order of R375 and the session it opens; SSW.CLOSE, also of a failed session. No device
call is made and STORE keeps every byte. That the dispatcher forgets the owner of a session that is closed, and keeps the one it
remembers when this row opens one, is log 19. -/
def Obligations.SessionOpenedAndClosed : Prop :=
  ∀ (s : State) (start size bs : U32),
    (s.ssw.phase ≠ .closed → exec (.sswOpen start size bs) s = .next { s with ret := some (.code 2) }) ∧
    (s.ssw.phase = .closed → (bs.toNat < 4 ∨ bs.toNat % 4 ≠ 0 ∨ 2 ^ 32 < start.toNat + size.toNat) →
      exec (.sswOpen start size bs) s = .next { s with ret := some (.code 3) }) ∧
    (s.ssw.phase = .closed → 4 ≤ bs.toNat → bs.toNat % 4 = 0 → start.toNat + size.toNat ≤ 2 ^ 32 →
      exec (.sswOpen start size bs) s = .next { s with
        ssw := openedSession s.cfg start size bs, ret := some (.code 0) }) ∧
    (s.ssw.phase = .closed → exec .sswClose s = .next { s with ret := some (.code 1) }) ∧
    (s.ssw.phase ≠ .closed → exec .sswClose s = .next { s with
      ssw := closedSession s.cfg, cdi := { s.cdi with owner := none }, ret := some (.code 0) })

/-- R286, R300: SSW.PUSH, whose bytes at hand are the field `hand` (log 15). Without a session, on a failed session and of no bytes it changes nothing. Of bytes on an open session the steps
are taken, each by the rule of the phase it finds, on the leftover followed by the new bytes, until the session has failed or a step
waits; the tail, shorter than LEFT_CAP (log 32), is the new leftover. -/
def Obligations.PushRuns : Prop :=
  ∀ (s : State) (b : Bytes), s.cfg.ok → SswInv s →
    (s.ssw.phase = .closed → exec (.sswPush b) s = .next { s with ret := some (.code 1) }) ∧
    (s.ssw.phase = .failed → exec (.sswPush b) s = .next { s with ret := some (.code s.ssw.fail) }) ∧
    (s.ssw.phase ≠ .closed → s.ssw.phase ≠ .failed → b = [] →
      exec (.sswPush b) s = .next { s with ret := some (.code 0) }) ∧
    (s.ssw.phase ≠ .closed → s.ssw.phase ≠ .failed → b ≠ [] →
      ∃ w : State, PushRun { s with ssw := { s.ssw with hand := s.left.readRun 0 s.ssw.leftLen.toNat ++ b } } w ∧
        ((w.ssw.phase = .failed ∧
            exec (.sswPush b) s = .next { w with ssw := { w.ssw with hand := [] }, ret := some (.code w.ssw.fail) }) ∨
         (w.ssw.phase ≠ .failed ∧ (∀ w1, pushStep w ≠ .go w1) ∧ w.ssw.hand.length < leftCap w.cfg w.ssw ∧
            ∃ m, wrote w.left m 0 w.ssw.hand ∧ exec (.sswPush b) s = .next { w with
              left := m
              ssw := { w.ssw with leftLen := BitVec.ofNat 32 w.ssw.hand.length, hand := [] }
              ret := some (.code 0) })))

/-- R287, R288: a sparse header that arrives whole, as the first bytes of the image or in SP_HDR, with the two header sizes of the
instance (28 and 12 by default; log 32). -/
def Obligations.SparseHeaderTaken : Prop :=
  ∀ (s : State) (major minor : U16) (blkSz totalBlks totalChunks : U32) (r : SparseRest), s.cfg.ok →
    SswInv s → r.wf s.cfg →
    (s.ssw.phase = .detect ∨ s.ssw.phase = .spHdr) → s.ssw.leftLen = 0 →
    ∀ h : Bytes, h = sparseHeaderBytes s.cfg major minor blkSz totalBlks totalChunks r →
    ((blkSz = 0 ∨ blkSz.toNat % s.ssw.bs.toNat ≠ 0) →
      exec (.sparseHeader major minor blkSz totalBlks totalChunks r) s = .next (s.sessionFailed 4)) ∧
    (blkSz ≠ 0 → blkSz.toNat % s.ssw.bs.toNat = 0 → ∃ m, sameBytes s.left m ∧
      exec (.sparseHeader major minor blkSz totalBlks totalChunks r) s = .next { s with
        ssw := { s.ssw with
          phase := if totalChunks = 0 then .spDone else .spChunkHdr
          sbs := blkSz, totalBlks := totalBlks, totalChunks := totalChunks, transSize := s.ssw.transSize + BitVec.ofNat 64 s.cfg.sparseHdrLen
          crcTx := crc32Update s.cfg.crc32 s.ssw.crcTx h, crcWr := crc32Update s.cfg.crc32 s.ssw.crcWr h }
        left := m
        ret := some (.code 0) })

/-- R290, R298, R289: the header of a known chunk arrives whole in SP_CHUNK_HDR and is in order: `total_sz` is the header's length (12
by default; log 32) and the payload, and the chunk's blocks fit the partition. RAW and FILL wait for their payload; DONT_CARE moves
the cursor; DONT_CARE, CRC32 and an empty RAW chunk end at once. That `100 * BLOCKS_DONE` does not wrap is log 36. -/
def Obligations.ChunkTaken : Prop :=
  ∀ (s : State) (r : ChunkRest) (csz tsz : U32), s.cfg.ok → SswInv s → r.wf s.cfg → s.ssw.phase = .spChunkHdr → s.ssw.leftLen = 0 →
    ∃ m, sameBytes s.left m ∧ ∀ t : U16 → State,
      (∀ ty, t ty = { s with
        ssw := s.ssw.tookHeader s.cfg (chunkHeaderBytes ty r csz tsz), left := m, ret := some (.code 0) }) →
      (tsz.toNat = s.cfg.chunkHdrLen + csz.toNat * s.ssw.sbs.toNat →
        s.ssw.cursor.toNat + csz.toNat * (s.ssw.sbs.toNat / s.ssw.bs.toNat) ≤ s.ssw.partSize.toNat → csz ≠ 0 →
        exec (.chunkRaw r csz tsz) s = .next { t s.cfg.typeRaw with
          ssw := { (t s.cfg.typeRaw).ssw with
            chunkRem := BitVec.ofNat 32 (csz.toNat * s.ssw.sbs.toNat), phase := .spRaw } }) ∧
      (tsz.toNat = s.cfg.chunkHdrLen → csz = 0 → exec (.chunkRaw r csz tsz) s =
        .next (State.chunkEnded { t s.cfg.typeRaw with ssw := { (t s.cfg.typeRaw).ssw with chunkRem := 0 } } csz)) ∧
      (tsz.toNat = s.cfg.chunkHdrLen + 4 →
        s.ssw.cursor.toNat + csz.toNat * (s.ssw.sbs.toNat / s.ssw.bs.toNat) ≤ s.ssw.partSize.toNat →
        exec (.chunkFill r csz tsz) s = .next { t s.cfg.typeFill with
          ssw := { (t s.cfg.typeFill).ssw with chunkRem := 4, phase := .spFill } }) ∧
      (tsz.toNat = s.cfg.chunkHdrLen →
        s.ssw.cursor.toNat + csz.toNat * (s.ssw.sbs.toNat / s.ssw.bs.toNat) ≤ s.ssw.partSize.toNat →
        exec (.chunkDontCare r csz tsz) s = .next (State.chunkEnded { t s.cfg.typeDontCare with
          ssw := { (t s.cfg.typeDontCare).ssw with
            cursor := s.ssw.cursor + BitVec.ofNat 32 (csz.toNat * (s.ssw.sbs.toNat / s.ssw.bs.toNat)) } } csz)) ∧
      (tsz.toNat = s.cfg.chunkHdrLen → exec (.chunkCrc32 r csz tsz) s = .next (State.chunkEnded (t s.cfg.typeCrc32) csz))

/-- R290, R292, R303: the header of a known chunk that is refused before it is consumed: `total_sz` disagrees (first), or the chunk
would pass the end of the partition. The length of a header is the instance's (12 by default; log 32). -/
def Obligations.ChunkRefused : Prop :=
  ∀ (s : State) (r : ChunkRest) (csz tsz : U32) (i : Instr) (want : Nat), s.cfg.ok → SswInv s → r.wf s.cfg → s.ssw.phase = .spChunkHdr →
    s.ssw.leftLen = 0 →
    ((i = .chunkRaw r csz tsz ∧ want = csz.toNat * s.ssw.sbs.toNat) ∨ (i = .chunkFill r csz tsz ∧ want = 4) ∨
      (i = .chunkDontCare r csz tsz ∧ want = 0) ∨ (i = .chunkCrc32 r csz tsz ∧ want = 0)) →
    (tsz.toNat ≠ s.cfg.chunkHdrLen + want → exec i s = .next (s.sessionFailed 5)) ∧
    (tsz.toNat = s.cfg.chunkHdrLen + want → i ≠ .chunkCrc32 r csz tsz →
      s.ssw.partSize.toNat < s.ssw.cursor.toNat + csz.toNat * (s.ssw.sbs.toNat / s.ssw.bs.toNat) →
      exec i s = .next (s.sessionFailed 7))

/-- R297: the header of an unknown chunk type. It is always recorded; under hard_error, or with no valid header before it, the session
fails; else the chunk is handled exactly as the last valid header says, of whatever type it is: taken, or refused for its `total_sz` or
for an overrun. The length of a header is the instance's (log 32), and that `100 * BLOCKS_DONE` does not wrap is log 36. -/
def Obligations.UnknownChunk : Prop :=
  ∀ (s : State) (ty : U16) (r : ChunkRest) (csz tsz : U32), s.cfg.ok → SswInv s → r.wf s.cfg → s.ssw.phase = .spChunkHdr →
    s.ssw.leftLen = 0 → ty ∉ s.cfg.chunkTypes →
    ((s.cfg.unknownPolicy = .hardError ∨ s.ssw.lastValid = false) →
      exec (.chunkUnknown ty r csz tsz) s = .next (s.sessionFailed 6)) ∧
    (s.cfg.unknownPolicy = .reuseLast → s.ssw.lastValid = true →
      ∃ m, sameBytes s.left m ∧ chunkBegins s { s with
          ssw := { s.ssw.tookHeader s.cfg (chunkHeaderBytes ty r csz tsz) with
            curHdr := s.ssw.lastHdr, lastHdr := s.ssw.lastHdr, lastValid := true, err := 6 } } s.ssw.lastHdr
        (fun t => exec (.chunkUnknown ty r csz tsz) s = .next { t with left := m, ret := some (.code 0) })
        (fun code => exec (.chunkUnknown ty r csz tsz) s = .next (s.sessionFailed code)))

/-- R287, R288, R290, R297, R299: the steps of a running PUSH that make no device call, on the bytes at hand (log 15): each of them for a header
that is taken, for one that is refused, and for too few bytes. The lengths of the headers are the instance's (log 32), and that
`100 * BLOCKS_DONE` does not wrap is log 36. -/
def Obligations.HeaderSteps : Prop :=
  ∀ s : State, s.cfg.ok →
    (s.ssw.phase = .detect → 4 ≤ s.ssw.hand.length → exec .pushDetect s = .next { s with
      ssw := { s.ssw with phase := if le32 s.ssw.hand 0 = s.cfg.sparseMagic then .spHdr else .raw } }) ∧
    (s.ssw.phase = .detect → s.ssw.hand.length < 4 → exec .pushDetect s = .next s) ∧
    (s.ssw.phase = .spHdr → s.cfg.sparseHdrLen ≤ s.ssw.hand.length → (le16 s.ssw.hand 8).toNat = s.cfg.sparseHdrLen →
      (le16 s.ssw.hand 10).toNat = s.cfg.chunkHdrLen →
      le32 s.ssw.hand 12 ≠ 0 → (le32 s.ssw.hand 12).toNat % s.ssw.bs.toNat = 0 →
      exec .pushSpHdr s = .next { s with
        ssw := { s.ssw.ate s.cfg s.cfg.sparseHdrLen with
          sbs := le32 s.ssw.hand 12, totalBlks := le32 s.ssw.hand 16, totalChunks := le32 s.ssw.hand 20
          phase := if le32 s.ssw.hand 20 = 0 then .spDone else .spChunkHdr } }) ∧
    (s.ssw.phase = .spHdr → s.cfg.sparseHdrLen ≤ s.ssw.hand.length →
      ((le16 s.ssw.hand 8).toNat ≠ s.cfg.sparseHdrLen ∨ (le16 s.ssw.hand 10).toNat ≠ s.cfg.chunkHdrLen ∨
        le32 s.ssw.hand 12 = 0 ∨ (le32 s.ssw.hand 12).toNat % s.ssw.bs.toNat ≠ 0) →
      exec .pushSpHdr s = .next (s.stepFailed 4)) ∧
    (s.ssw.phase = .spHdr → s.ssw.hand.length < s.cfg.sparseHdrLen → exec .pushSpHdr s = .next s) ∧
    (s.ssw.phase = .spChunkHdr → s.cfg.chunkHdrLen ≤ s.ssw.hand.length → ∀ h, h = s.ssw.hand.take s.cfg.chunkHdrLen →
      (le16 h 0 ∈ s.cfg.chunkTypes → chunkBegins s { s with
          ssw := { s.ssw.ate s.cfg s.cfg.chunkHdrLen with curHdr := h, lastHdr := h, lastValid := true } } h
        (fun t => exec .pushSpChunkHdr s = .next t) (fun code => exec .pushSpChunkHdr s = .next (s.stepFailed code))) ∧
      (le16 h 0 ∉ s.cfg.chunkTypes → (s.cfg.unknownPolicy = .hardError ∨ s.ssw.lastValid = false) →
        exec .pushSpChunkHdr s = .next (s.stepFailed 6)) ∧
      (le16 h 0 ∉ s.cfg.chunkTypes → s.cfg.unknownPolicy = .reuseLast → s.ssw.lastValid = true →
        chunkBegins s { s with ssw := { s.ssw.ate s.cfg s.cfg.chunkHdrLen with curHdr := s.ssw.lastHdr, err := 6 } } s.ssw.lastHdr
          (fun t => exec .pushSpChunkHdr s = .next t) (fun code => exec .pushSpChunkHdr s = .next (s.stepFailed code)))) ∧
    (s.ssw.phase = .spChunkHdr → s.ssw.hand.length < s.cfg.chunkHdrLen → exec .pushSpChunkHdr s = .next s) ∧
    (s.ssw.phase = .spDone → s.ssw.hand ≠ [] → exec .pushSpDone s = .next (s.stepFailed 9)) ∧
    (s.ssw.phase = .spDone → s.ssw.hand = [] → exec .pushSpDone s = .next s)

/-- R293, R305: the step SP_RAW of a running PUSH. The whole blocks at hand, as many as the chunk still wants, are written at the cursor
by one device call; a chunk that is done counts; a device that fails ends the session, with anything in the blocks it was to write.
The bytes of STORE are numbered by log 8, the bytes at hand are those of log 15, and that `100 * BLOCKS_DONE` does not wrap is log 36. -/
def Obligations.RawChunkStep : Prop :=
  ∀ (s : State) (k a : Nat) (ok : Bool) (rest : List Bool), s.ssw.phase = .spRaw → 0 < s.ssw.bs.toNat →
    k = min s.ssw.hand.length s.ssw.chunkRem.toNat / s.ssw.bs.toNat →
    a = s.ssw.partStart.toNat + s.ssw.cursor.toNat →
    nextAnswer s.ans.writeOk (Config.freeWriteOk s.asked) = (ok, rest) →
    (k = 0 → exec .pushSpRaw s = .next s) ∧
    (k ≠ 0 → ∃ (m : Memory) (v : Bytes), wrote s.store m (a * s.ssw.bs.toNat) v ∧ v.length = k * s.ssw.bs.toNat ∧
      (ok = true → v = s.ssw.hand.take (k * s.ssw.bs.toNat)) ∧
      ∀ t : State, t = { s with
        store := m, ans := { s.ans with writeOk := rest }, asked := s.asked + 1
        log := s.log ++ [.devWrite a (s.ssw.hand.take (k * s.ssw.bs.toNat)) ok] } →
      ∀ u : State, u = { t with
        ssw := { s.ssw.ate s.cfg (k * s.ssw.bs.toNat) with
          cursor := s.ssw.cursor + BitVec.ofNat 32 k
          chunkRem := s.ssw.chunkRem - BitVec.ofNat 32 (k * s.ssw.bs.toNat) } } →
      (ok = false → exec .pushSpRaw s = .next { t with
        ssw := { s.ssw with err := 8, fail := 8, phase := .failed, leftLen := 0 } }) ∧
      (ok = true → k * s.ssw.bs.toNat < s.ssw.chunkRem.toNat → exec .pushSpRaw s = .next u) ∧
      (ok = true → k * s.ssw.bs.toNat = s.ssw.chunkRem.toNat →
        exec .pushSpRaw s = .next (u.chunkEnded (le32 s.ssw.curHdr 4))))

/-- R301, R305, in the order of R375: the step RAW of a running PUSH. An overrun fails before any write; the whole blocks at hand are
written by one device call and read back by another, and the read-back is folded into CRC_WR. The bytes of STORE are numbered by
log 8, the bytes at hand are those of log 15, and a read-back that is shorter than asked is completed by the stored bytes (log 3). -/
def Obligations.RawImageStep : Prop :=
  ∀ (s : State) (k a : Nat) (ok : Bool) (wrest : List Bool) (rb : Option Bytes) (rrest : List (Option Bytes)),
    s.ssw.phase = .raw → 0 < s.ssw.bs.toNat → k = s.ssw.hand.length / s.ssw.bs.toNat →
    a = s.ssw.partStart.toNat + s.ssw.cursor.toNat →
    nextAnswer s.ans.writeOk (Config.freeWriteOk s.asked) = (ok, wrest) →
    nextAnswer s.ans.read (Config.freeRead (s.asked + 1)) = (rb, rrest) →
    (k = 0 → exec .pushRaw s = .next s) ∧
    (k ≠ 0 → s.ssw.partSize.toNat < s.ssw.cursor.toNat + k → exec .pushRaw s = .next { s with
      ssw := { s.ssw with err := 7, fail := 7, phase := .failed, leftLen := 0 } }) ∧
    (k ≠ 0 → s.ssw.cursor.toNat + k ≤ s.ssw.partSize.toNat →
      ∃ (m : Memory) (v : Bytes), wrote s.store m (a * s.ssw.bs.toNat) v ∧ v.length = k * s.ssw.bs.toNat ∧
        (ok = true → v = s.ssw.hand.take (k * s.ssw.bs.toNat)) ∧
        (ok = false → exec .pushRaw s = .next { s with
          store := m, ans := { s.ans with writeOk := wrest }, asked := s.asked + 1
          log := s.log ++ [.devWrite a (s.ssw.hand.take (k * s.ssw.bs.toNat)) false]
          ssw := { s.ssw with err := 8, fail := 8, phase := .failed, leftLen := 0 } }) ∧
        (ok = true → rb = none → exec .pushRaw s = .next { s with
          store := m, ans := { s.ans with writeOk := wrest, read := rrest }, asked := s.asked + 2
          log := s.log ++ [.devWrite a (s.ssw.hand.take (k * s.ssw.bs.toNat)) true, .devRead a k none]
          ssw := { s.ssw with err := 8, fail := 8, phase := .failed, leftLen := 0 } }) ∧
        (∀ o d, ok = true → rb = some o → d = o.take (k * s.ssw.bs.toNat) ++ v.drop o.length →
          exec .pushRaw s = .next { s with
            store := m, ans := { s.ans with writeOk := wrest, read := rrest }, asked := s.asked + 2
            log := s.log ++ [.devWrite a (s.ssw.hand.take (k * s.ssw.bs.toNat)) true, .devRead a k (some d)]
            ssw := { s.ssw.ate s.cfg (k * s.ssw.bs.toNat) with
              crcWr := crc32Update s.cfg.crc32 s.ssw.crcWr d, cursor := s.ssw.cursor + BitVec.ofNat 32 k } }))

/-- R294, R295, R305: the step SP_FILL of a running PUSH, whatever the device answers and whatever the strategy, the erase group and the
sizes of the pieces. It waits for the four bytes of the word. If every call is answered ok, the chunk's blocks read as the word over
and over, the cursor has passed them and the chunk is done. If one is not, it is the last call, and it names the `m` blocks from the
`d`-th of the chunk on: the session has failed, the `d` blocks before them read as the word, the cursor has passed these and no
more, and the word has been consumed (log 38). But for the blocks that the failed call names, no other byte of STORE changes. A
device that is supposed to answer ok does so. Block `b` is the bytes from `b * BS` on (log 8); the bytes at hand are those of log 15; that `100 * BLOCKS_DONE` does not wrap is log 36. -/
def Obligations.FillContent : Prop :=
  ∀ (s : State) (n : Nat), s.cfg.ok → s.ssw.phase = .spFill → 4 ≤ s.ssw.bs.toNat → s.ssw.bs.toNat % 4 = 0 →
    n = (le32 s.ssw.curHdr 4).toNat * (s.ssw.sbs.toNat / s.ssw.bs.toNat) → s.ssw.cursor.toNat + n ≤ s.ssw.partSize.toNat →
    (s.ssw.hand.length < 4 → exec .pushSpFill s = .next s) ∧
    (4 ≤ s.ssw.hand.length → ∀ a, a = (s.ssw.partStart.toNat + s.ssw.cursor.toNat) * s.ssw.bs.toNat →
      ∃ (t : State) (l : List Action) (d m : Nat), exec .pushSpFill s = .next t ∧ d + m ≤ n ∧
        (∀ x, a ≤ x → x < a + d * s.ssw.bs.toNat → t.store.read x = byteAt s.ssw.hand ((x - a) % 4)) ∧
        (∀ x, (x < a ∨ a + (d + m) * s.ssw.bs.toNat ≤ x) → t.store.read x = s.store.read x) ∧
        ((∀ y ∈ l, answeredOk y) → d = n ∧ m = 0 ∧ ∀ c, c = State.chunkEnded { s with
            ssw := { s.ssw.ate s.cfg 4 with chunkRem := 0, cursor := s.ssw.cursor + BitVec.ofNat 32 n }
            log := s.log ++ l } (le32 s.ssw.curHdr 4) → t.ssw = c.ssw ∧ t.log = c.log) ∧
        (¬ (∀ y ∈ l, answeredOk y) → 0 < m ∧ (∀ y ∈ l.dropLast, answeredOk y) ∧ t.log = s.log ++ l ∧
          (∀ b, b = s.ssw.partStart.toNat + s.ssw.cursor.toNat + d →
            l.getLast? = some (.devErase b m false) ∨
            l.getLast? = some (.devWrite b
              ((List.range (m * s.ssw.bs.toNat)).map fun x => byteAt s.ssw.hand (x % 4)) false)) ∧
          t.ssw = { s.ssw.ate s.cfg 4 with
            chunkRem := 0, cursor := s.ssw.cursor + BitVec.ofNat 32 d, err := 8, fail := 8, phase := .failed, leftLen := 0 }) ∧
        ((∀ x ∈ s.ans.writeOk, x = true) → n ≤ s.ans.writeOk.length → (∃ r, s.ans.eraseOk = true :: r) →
          ∀ y ∈ l, answeredOk y) ∧
        t.upe = s.upe ∧ t.ute = s.ute ∧ t.cdi = s.cdi ∧ t.cfg = s.cfg ∧ t.ret = s.ret ∧ t.inbox = s.inbox ∧
        t.finished = s.finished ∧ sameBytes s.fbuf t.fbuf ∧ sameBytes s.pktbuf t.pktbuf ∧ sameBytes s.left t.left)

/-- R311: cut-independence. An image pushed to a session that has had no byte of it, at once or in pieces of whatever sizes, leaves the
same registers, the same leftover, the same content of STORE, the same progress reports and the same return code, on a device that
answers ok and gives back what is stored (log 3), and with no overrun on the raw path. The CRCs need the streaming law, which R11 asks
of every instance. -/
def Obligations.CutIndependence : Prop :=
  ∀ (s : State) (pieces : List Bytes) (img : Bytes), s.cfg.ok → SswInv s → s.ssw.phase = .detect → s.ssw.leftLen = 0 →
    pieces.flatten = img → img ≠ [] →
    s.faithful (img.length * (s.ssw.partSize.toNat + 1)) →
    (le32 img 0 ≠ s.cfg.sparseMagic → s.ssw.cursor.toNat + img.length / s.ssw.bs.toNat ≤ s.ssw.partSize.toNat) →
    ∃ t u, exec (.sswPush img) s = .next t ∧ pushInTurn pieces s = .next u ∧ u.ssw = t.ssw ∧ u.ret = t.ret ∧
      sameBytes t.store u.store ∧ u.left.readRun 0 t.ssw.leftLen.toNat = t.left.readRun 0 t.ssw.leftLen.toNat ∧
      u.log.filter isProgress = t.log.filter isProgress

/-- R306, R309: the result and the CRC of a session, in every phase; nothing else changes. -/
def Obligations.ResultReported : Prop :=
  ∀ (s : State) (code : Byte),
    ((s.ssw.phase = .closed ∧ code = 1) ∨ (s.ssw.phase = .failed ∧ code = s.ssw.fail) ∨
      ((s.ssw.phase = .spHdr ∨ s.ssw.phase = .spChunkHdr ∨ s.ssw.phase = .spRaw ∨ s.ssw.phase = .spFill) ∧ code = 10) ∨
      ((s.ssw.phase = .detect ∨ s.ssw.phase = .spDone ∨ s.ssw.phase = .raw) ∧ s.ssw.leftLen ≠ 0 ∧ code = 10) ∨
      (s.ssw.phase = .raw ∧ s.ssw.leftLen = 0 ∧ s.ssw.crcWr ≠ s.ssw.crcTx ∧ code = 11) ∨
      (s.ssw.phase = .raw ∧ s.ssw.leftLen = 0 ∧ s.ssw.crcWr = s.ssw.crcTx ∧ code = 0) ∨
      ((s.ssw.phase = .detect ∨ s.ssw.phase = .spDone) ∧ s.ssw.leftLen = 0 ∧ code = 0)) →
    exec .sswGetResult s = .next { s with ret := some (.code code) } ∧
    exec .sswGetCrc s = .next { s with
      ret := some (if s.ssw.phase = .closed then .crc 1 0 else .crc 0 s.ssw.crcWr) }

/-- R302: the writer never names a block outside its partition. For every row but the device calls themselves: the device calls it
makes name blocks of the partition only, the bytes of STORE outside it (numbered by log 8) read as before, and CURSOR ≤ PART_SIZE
after it. -/
def Obligations.PartitionSafe : Prop :=
  ∀ (s t : State) (i : Instr), SswInv s → ¬ isDeviceCall i → exec i s = .next t →
    (∃ l, t.log = s.log ++ l ∧ ∀ a ∈ l, inPartition s.ssw a) ∧
    (∀ x, (x < s.ssw.partStart.toNat * s.ssw.bs.toNat ∨
        (s.ssw.partStart.toNat + s.ssw.partSize.toNat) * s.ssw.bs.toNat ≤ x) → t.store.read x = s.store.read x) ∧
    t.ssw.cursor.toNat ≤ t.ssw.partSize.toNat

/-- R74: each unit's rows leave the other units alone, whenever they give a next state. What they share is the dispatcher: a TICK that
aborts the engine has it make SSW.CLOSE a pending event (R356, log 28); DISP.STATUS uses up its note of a rejected
header (R344, log 28); SSW.CLOSE has it forget the owner (R350, log 19). -/
def Obligations.UnitsApart : Prop :=
  ∀ (s t : State) (i : Instr), exec i s = .next t →
    (((∃ b, byteRow s.cfg b i) ∨ (∃ blk cblk data crc, i = .shortFrame blk cblk data crc) ∨
      (∃ blk cblk data crc, i = .longFrame blk cblk data crc) ∨ i = .tick ∨ i = .upeInit ∨ i = .upeDeinit ∨
      (∃ len, i = .startRead len) ∨ (∃ data, i = .startWrite data) ∨ i = .getStatus ∨ (∃ c, i = .setStatus c) ∨
      (∃ b, i = .uartTx b)) → onlyUpe s t ∧
        ((t.inbox = s.inbox ∧ t.ans = s.ans ∧ t.asked = s.asked) ∨
          (i = .tick ∧ s.upe.abort = false ∧ t.upe.abort = true ∧ t.asked = s.asked + 1 ∧
            ∃ n rest, nextAnswer s.ans.close (Config.freeClose s.asked) = (n, rest) ∧ t.ans = { s.ans with close := rest } ∧
              t.inbox = s.inbox.take n ++ ⟨.sswClose, []⟩ :: s.inbox.drop n))) ∧
    (((∃ tag len r, i = .cbwWrite tag len r) ∨ (∃ tag len r, i = .cbwRead tag len r) ∨ (∃ b, i = .cbwMalformed b) ∨
      (∃ tag res st, i = .csw tag res st) ∨ i = .uteInit ∨ i = .usbReset ∨ (∃ b, i = .outDoneReadCbw b) ∨
      (∃ b, i = .outDoneDataOut b) ∨ (∃ n, i = .inDoneDataIn n) ∨ (∃ n, i = .inDoneWaitCsw n) ∨
      (∃ c, i = .doneIgnored c) ∨ (∃ n, i = .epRecv n) ∨ (∃ b, i = .epSend b)) → onlyUte s t) ∧
    (((∃ a b c, i = .sswOpen a b c) ∨ i = .sswClose ∨ (∃ b, i = .sswPush b) ∨ i = .pushDetect ∨ i = .pushSpHdr ∨
      i = .pushSpChunkHdr ∨ i = .pushSpRaw ∨ i = .pushSpFill ∨ i = .pushSpDone ∨ i = .pushRaw ∨ i = .sswGetResult ∨
      i = .sswGetCrc ∨ (∃ a b c d e r, i = .sparseHeader a b c d e r) ∨ (∃ r a b, i = .chunkRaw r a b) ∨
      (∃ r a b, i = .chunkFill r a b) ∨ (∃ r a b, i = .chunkDontCare r a b) ∨ (∃ r a b, i = .chunkCrc32 r a b) ∨
      (∃ ty r a b, i = .chunkUnknown ty r a b) ∨ (∃ a b, i = .devWrite a b) ∨ (∃ a b, i = .devRead a b) ∨
      (∃ a b, i = .devErase a b) ∨ (∃ p, i = .progress p)) → onlySsw s t ∧ (i ≠ .sswClose → t.cdi = s.cdi))

/-! ## FC and the dispatcher interface -/

/-- R143, R144, R145: packing a frame, byte for byte, and the lengths that no frame carries. -/
def Obligations.FramesPacked : Prop :=
  ∀ (s : State) (blk : Byte) (data : Bytes) (short long : Ret),
    short = (if data.length ≤ 61 then
        .bytes ([s.cfg.soh, blk, 255 - blk, BitVec.ofNat 8 data.length] ++ data ++
          [BitVec.ofNat 8 ((crc16Of s.cfg.crc16 data).toNat / 256), BitVec.ofNat 8 (crc16Of s.cfg.crc16 data).toNat])
      else .fcErr .len) →
    long = (if data.length = 1024 then
        .bytes ([s.cfg.stx, blk, 255 - blk] ++ data ++
          [BitVec.ofNat 8 ((crc16Of s.cfg.crc16 data).toNat / 256), BitVec.ofNat 8 (crc16Of s.cfg.crc16 data).toNat])
      else .fcErr .len) →
    exec (.packShort blk data) s = .next { s with ret := some short } ∧
    exec (.packLong blk data) s = .next { s with ret := some long } ∧
    exec (.packFrame blk data) s = .next { s with
      ret := some (if data.length = 1024 then long else if data.length ≤ 61 then short else .fcErr .len) }

/-- R146, R147, R150, R141: FRAME_TOTAL of one byte or more, which is UART_ERR_FRAME for a byte that leads no frame; UNPACK of a whole
frame, its checks in the order of R375; SLICE; and CRC16, with the check value of the default instance. FRAME_TOTAL of no byte and
UNPACK of anything else hand back some value of theirs (log 35); SLICE(0) is 0 (log 35). -/
def Obligations.CodecValues : Prop :=
  ∀ s : State,
    (∀ (lead : Byte) (r : Bytes), exec (.frameTotal (lead :: r)) s = .next { s with
      ret := some (if lead = s.cfg.stx then .frameLen (.total 1029)
        else if lead = s.cfg.soh then
          .frameLen (if 3 ≤ r.length then .total (4 + (byteAt r 2).toNat + 2) else .unknown)
        else .fcErr .frame) }) ∧
    (∃ v, exec (.frameTotal []) s = .next { s with ret := some v }) ∧
    (∀ f, ∃ v, exec (.unpack f) s = .next { s with ret := some v }) ∧
    (s.cfg.ok → ∀ (blk cblk : Byte) (data f : Bytes) (crc : U16) (short : Bool),
      ((short = true ∧ data.length ≤ 255 ∧ f = shortFrameBytes s.cfg blk cblk data crc) ∨
        (short = false ∧ data.length = 1024 ∧ f = longFrameBytes s.cfg blk cblk data crc)) →
      exec (.unpack f) s = .next { s with
        ret := some (if blk.toNat + cblk.toNat ≠ 255 then .fcErr .frame
          else if short = true ∧ 61 < data.length then .fcErr .frame
          else if crc16Of s.cfg.crc16 data ≠ crc then .fcErr .data
          else .unpacked blk data) }) ∧
    (∀ rem : U32, exec (.slice rem) s = .next { s with
      ret := some (.num (if 1024 ≤ rem.toNat then 1024 else if 61 ≤ rem.toNat then 61 else rem.toNat)) }) ∧
    (∀ data, exec (.crc16 data) s = .next { s with ret := some (.u16 (crc16Of s.cfg.crc16 data)) }) ∧
    (s.cfg.crc16 = .xmodem → exec (.crc16 [0x31, 0x32, 0x33, 0x34, 0x35, 0x36, 0x37, 0x38, 0x39]) s =
      .next { s with ret := some (.u16 0x31C3) })

/-- R148: a frame that is packed and unpacked gives its block number and its data back, whatever the CRC function. -/
def Obligations.PackedUnpacks : Prop :=
  ∀ (s : State) (blk : Byte) (data : Bytes), s.cfg.ok → (data.length ≤ 61 ∨ data.length = 1024) →
    ∃ f, exec (.packFrame blk data) s = .next { s with ret := some (.bytes f) } ∧
      exec (.unpack f) s = .next { s with ret := some (.unpacked blk data) }

/-- R151: SPLIT. The frames pack one after the other pieces of the data, each as long as SLICE of what is left says and each with the
block number after its predecessor's; they unpack to these pieces, which put together are the data. -/
def Obligations.SplitReassembles : Prop :=
  ∀ (s : State) (blk0 : Byte) (data : Bytes), s.cfg.ok → data ≠ [] →
    ∃ (fs pieces : List Bytes), exec (.split blk0 data) s = .next { s with ret := some (.frames fs) } ∧
      fs.length = pieces.length ∧ pieces.flatten = data ∧
      ∀ i, i < fs.length →
        packFrameOf s.cfg (blk0 + BitVec.ofNat 8 i) (pieces.getD i []) = .ok (fs.getD i []) ∧
        unpackOf s.cfg (fs.getD i []) = .ok (blk0 + BitVec.ofNat 8 i, pieces.getD i []) ∧
        (pieces.getD i []).length = sliceOf (pieces.drop i).flatten.length

/-- R149, R142, R345: corruption. The default CRC and the sample header sum have the single-byte laws of R142 and R345. With the law of
its CRC, a frame changed in one byte of its data or its CRC is refused with UART_ERR_DATA, and one changed in its block number or its
complement with UART_ERR_FRAME. With the law of its sum, a header changed in one byte is refused: CDI_ERR_HDR inside the magic, else
CDI_ERR_CHECKSUM. -/
def Obligations.CorruptionDetected : Prop :=
  Crc16Alg.detects .xmodem ∧ (∀ pad, HdrSumAlg.detects .byteSum pad) ∧
  ∀ (s : State) (p : Nat) (b : Byte), s.cfg.ok →
    (∀ (blk : Byte) (data f : Bytes), s.cfg.crc16.detects → (data.length ≤ 61 ∨ data.length = 1024) →
      exec (.packFrame blk data) s = .next { s with ret := some (.bytes f) } → p < f.length → b ≠ f.getD p 0 →
      ((f.length - data.length - 2 ≤ p) →
        exec (.unpack (f.set p b)) s = .next { s with ret := some (.fcErr .data) }) ∧
      ((p = 1 ∨ p = 2) → exec (.unpack (f.set p b)) s = .next { s with ret := some (.fcErr .frame) })) ∧
    (∀ (pr v c b7 : Byte) (len : U32) (h : Bytes), s.cfg.hdrSum.detects s.cfg.hdrPad → p < h.length → b ≠ h.getD p 0 →
      (exec (.hdrEncodeCmd pr v c b7 len) s = .next { s with ret := some (.bytes h) } →
        exec (.hdrDecodeCmd (h.set p b)) s = .next { s with ret := some (.cdiErr (if p < 4 then .hdr else .checksum)) }) ∧
      (exec (.hdrEncodeRsp pr v c b7 len) s = .next { s with ret := some (.bytes h) } →
        exec (.hdrDecodeRsp (h.set p b)) s = .next { s with ret := some (.cdiErr (if p < 4 then .hdr else .checksum)) }))

/-- R341, R342, R343, R345: a header that is encoded and decoded gives its record back, whatever the checksum function; and decoding
makes its three tests in the order length, magic, checksum. The reserved byte of a command is written 0, so a record with 0 there comes
back (R98, U1; log 33). The rows of a header's own bytes are decoded the same way. -/
def Obligations.HeadersDecoded : Prop :=
  ∀ s : State,
    (∀ (p v c r : Byte) (len : U32), ∃ b,
      exec (.hdrEncodeCmd p v c r len) s = .next { s with ret := some (.bytes b) } ∧ b.length = s.cfg.hdrLen ∧
      exec (.hdrDecodeCmd b) s = .next { s with ret := some (.record ⟨p, v, c, 0, len⟩) }) ∧
    (∀ (p v c st : Byte) (len : U32), ∃ b,
      exec (.hdrEncodeRsp p v c st len) s = .next { s with ret := some (.bytes b) } ∧ b.length = s.cfg.hdrLen ∧
      exec (.hdrDecodeRsp b) s = .next { s with ret := some (.record ⟨p, v, c, st, len⟩) }) ∧
    (∀ b, b.length ≠ s.cfg.hdrLen →
      exec (.hdrDecodeCmd b) s = .next { s with ret := some (.cdiErr .hdr) } ∧
      exec (.hdrDecodeRsp b) s = .next { s with ret := some (.cdiErr .hdr) }) ∧
    (∀ b, b.length = s.cfg.hdrLen →
      (le32 b 0 ≠ 0x43475055 → exec (.hdrDecodeCmd b) s = .next { s with ret := some (.cdiErr .hdr) }) ∧
      (le32 b 0 ≠ 0x52475055 → exec (.hdrDecodeRsp b) s = .next { s with ret := some (.cdiErr .hdr) })) ∧
    (∀ (c b7 : Byte) (r : HdrRest), r.wf s.cfg →
      (∀ sum, sum = hdrSumOf s.cfg.hdrSum ((headerBytes Config.cmdMagic c b7 r).take (12 + Config.padBytes s.cfg.hdrPad)) →
        exec (.commandHeader c b7 r) s = .next { s with ret := some (if r.checksum = sum then
          .record ⟨r.protocol, r.version, c, b7, r.dataLength⟩ else .cdiErr .checksum) }) ∧
      (∀ sum, sum = hdrSumOf s.cfg.hdrSum ((headerBytes Config.rspMagic c b7 r).take (12 + Config.padBytes s.cfg.hdrPad)) →
        exec (.responseHeader c b7 r) s = .next { s with ret := some (if r.checksum = sum then
          .record ⟨r.protocol, r.version, c, b7, r.dataLength⟩ else .cdiErr .checksum) }))

/-- R344, R346, R351, R348: what HANDLE_COMMAND turns away. A header that does not decode is rejected before dispatch; a payload of
another length than declared is answered RSP_FAILED; an unknown command is answered RSP_INVALID; no handler runs. That a rejected
header is echoed at byte 6 and answered RSP_FAILED if it is fetched at all is R344; a header of fewer than 7 bytes has none (log 21). What
the dispatcher notes for DISP.STATUS is log 28. -/
def Obligations.CommandsRejected : Prop :=
  ∀ (s : State) (via : Transport) (hb payload : Bytes),
    (∀ e, hdrDecode s.cfg Config.cmdMagic hb = .error e → 7 ≤ hb.length →
      exec (.handleCommand via hb payload) s = .next { s.noted via true with
        ret := some (.rejected e (hdrEncode s.cfg Config.rspMagic ⟨1, 1, byteAt hb 6, s.cfg.rspFailed, 0⟩)) }) ∧
    (∀ x, hdrDecode s.cfg Config.cmdMagic hb = .ok x →
      (payload.length ≠ x.dataLength.toNat → exec (.handleCommand via hb payload) s = .next { s.noted via false with
        ret := answered s.cfg x.command s.cfg.rspFailed [] }) ∧
      (payload.length = x.dataLength.toNat →
        x.command ∉ [s.cfg.cmdSetFwcMeta, s.cfg.cmdSendFwcData, s.cfg.cmdGetFwcCrc, s.cfg.cmdGetFwcBurnResult,
          s.cfg.cmdSetUpgCfg, s.cfg.cmdSetUpgEnd] →
        exec (.handleCommand via hb payload) s = .next { s.noted via false with
          ret := answered s.cfg x.command s.cfg.rspInvalid [] }))

/-- R349: SEND_FWC_DATA with a good header does what SSW.PUSH of its payload does, and answers 0 or RSP_FAILED by the code returned,
whichever transport carries it (log 37). What the dispatcher notes of the header is log 28. -/
def Obligations.DataForwarded : Prop :=
  ∀ (s : State) (via : Transport) (rsv : Byte) (r : HdrRest) (payload : Bytes) (i : Instr), s.cfg.ok → SswInv s →
    goodCommand s.cfg s.cfg.cmdSendFwcData rsv r payload →
    (i = .cmdSendFwcData via rsv r payload ∨
      i = .handleCommand via (headerBytes Config.cmdMagic s.cfg.cmdSendFwcData rsv r) payload) →
    ∃ (t : State) (code : Byte), exec (.sswPush payload) s = .next { t with ret := some (.code code) } ∧
      exec i s = .next { t.noted via false with
        ret := answered s.cfg s.cfg.cmdSendFwcData (if code = 0 then 0 else s.cfg.rspFailed) [] }

/-- R349, R353: the other commands with a good header, but for SET_FWC_META. The payloads of GET_FWC_CRC and GET_FWC_BURN_RESULT are
open, and so are which failure status the latter has for an error other than SSW_ERR_NO_SESSION and the mode that a SET_UPG_CFG
payload names (log 18); by R385 and R347 an error is never answered with 0. That a refused SET_UPG_CFG answers RSP_FAILED is log 30;
that a session that is closed loses its owner is log 19; that the transport and a payload where none is called for do not matter is
log 37; what the dispatcher notes of the header is log 28. -/
def Obligations.CommandsHandled : Prop :=
  ∀ (s u : State) (via : Transport) (rsv : Byte) (r : HdrRest) (payload : Bytes), s.cfg.ok → u = s.noted via false →
    (goodCommand s.cfg s.cfg.cmdGetFwcCrc rsv r payload →
      exec (.cmdGetFwcCrc via rsv r payload) s = .next { u with
        ret := if s.ssw.phase = .closed then
            answered s.cfg s.cfg.cmdGetFwcCrc s.cfg.rspFailed (Config.crcPayload 1 0)
          else answered s.cfg s.cfg.cmdGetFwcCrc 0 (Config.crcPayload 0 s.ssw.crcWr) }) ∧
    (goodCommand s.cfg s.cfg.cmdGetFwcBurnResult rsv r payload → ∃ code status : Byte,
      (status = 0 ↔ code = 0) ∧
      status = (if code = 0 then 0 else if code = 1 ∨ (Config.burnReply code).1 = 0 then s.cfg.rspFailed
        else (Config.burnReply code).1) ∧
      exec .sswGetResult s = .next { s with ret := some (.code code) } ∧
      exec (.cmdGetFwcBurnResult via rsv r payload) s = .next { u with
        ret := answered s.cfg s.cfg.cmdGetFwcBurnResult status (Config.burnReply code).2 }) ∧
    (goodCommand s.cfg s.cfg.cmdSetUpgEnd rsv r payload →
      (s.ssw.phase = .closed → exec (.cmdSetUpgEnd via rsv r payload) s = .next { u with
        ret := answered s.cfg s.cfg.cmdSetUpgEnd s.cfg.rspFailed [] }) ∧
      (s.ssw.phase ≠ .closed → exec (.cmdSetUpgEnd via rsv r payload) s = .next { u with
        ssw := closedSession s.cfg, cdi := { u.cdi with owner := none }
        ret := answered s.cfg s.cfg.cmdSetUpgEnd 0 [] })) ∧
    (goodCommand s.cfg s.cfg.cmdSetUpgCfg rsv r payload → ∀ m rest,
      nextAnswer s.ans.mode (Config.freeMode s.asked) = (m, rest) →
      ∀ t : State, t = { u with
        ans := { s.ans with mode := rest }, asked := s.asked + 1, log := s.log ++ [.readMode payload m] } →
      (m ∈ s.cdi.initMode → exec (.cmdSetUpgCfg via rsv r payload) s = .next { t with
        cdi := { t.cdi with mode := m, modeSet := true }, ret := answered s.cfg s.cfg.cmdSetUpgCfg 0 [] }) ∧
      (m ∉ s.cdi.initMode → exec (.cmdSetUpgCfg via rsv r payload) s = .next { t with
        ret := answered s.cfg s.cfg.cmdSetUpgCfg s.cfg.rspFailed [] }))

/-- R349, R350: SET_FWC_META with a good header. A session that the other transport owns is left alone; else the partition is looked
up, the owner's own session is closed and the new one is opened on a valid descriptor. The order is the model's, and so is that a
session with no owner, which the row SSW.OPEN opened, is left alone too (log 19); the status RSP_FAILED where no code was returned is
log 30, and what the dispatcher notes of the header is log 28. -/
def Obligations.SessionRetargeted : Prop :=
  ∀ (s u : State) (via : Transport) (rsv : Byte) (r : HdrRest) (payload : Bytes) (d : Option Desc) (rest : List (Option Desc)),
    s.cfg.ok → u = s.noted via false → goodCommand s.cfg s.cfg.cmdSetFwcMeta rsv r payload →
    nextAnswer s.ans.lookup (Config.freeLookup s.asked) = (d, rest) →
    ∀ t : State, t = { u with
      ans := { s.ans with lookup := rest }, asked := s.asked + 1, log := s.log ++ [.lookup payload d] } →
    (s.ssw.phase ≠ .closed → s.cdi.owner ≠ some via → exec (.cmdSetFwcMeta via rsv r payload) s = .next { u with
      ret := answered s.cfg s.cfg.cmdSetFwcMeta s.cfg.rspFailed [] }) ∧
    ((s.ssw.phase = .closed ∨ s.cdi.owner = some via) →
      (d = none → exec (.cmdSetFwcMeta via rsv r payload) s = .next { t with
        ret := answered s.cfg s.cfg.cmdSetFwcMeta s.cfg.rspFailed [] }) ∧
      (∀ x, d = some x → 4 ≤ x.bs.toNat → x.bs.toNat % 4 = 0 → x.start.toNat + x.size.toNat ≤ 2 ^ 32 →
        exec (.cmdSetFwcMeta via rsv r payload) s = .next { t with
          ssw := openedSession s.cfg x.start x.size x.bs, cdi := { t.cdi with owner := some via }
          ret := answered s.cfg s.cfg.cmdSetFwcMeta 0 [] }) ∧
      (∀ x, d = some x → (x.bs.toNat < 4 ∨ x.bs.toNat % 4 ≠ 0 ∨ 2 ^ 32 < x.start.toNat + x.size.toNat) →
        (s.ssw.phase = .closed → exec (.cmdSetFwcMeta via rsv r payload) s = .next { t with
          ret := answered s.cfg s.cfg.cmdSetFwcMeta s.cfg.rspFailed [] }) ∧
        (s.ssw.phase ≠ .closed → exec (.cmdSetFwcMeta via rsv r payload) s = .next { t with
          ssw := closedSession s.cfg, cdi := { t.cdi with owner := none }
          ret := answered s.cfg s.cfg.cmdSetFwcMeta s.cfg.rspFailed [] })))

/-- R344, R356, R436: what the dispatcher makes of a header it has rejected on USB, and of an engine that has aborted. DISP.STATUS then
answers other than 0, so that without a phase error the CSW carries status 1. A TICK that aborts the engine makes SSW.CLOSE a pending
event, after any number of those that wait, and when its turn comes a session that is open is closed and its owner forgotten (log 19). How the two are brought about is log 28. -/
def Obligations.DispatcherReacts : Prop :=
  ∀ s : State,
    (∀ (hb payload : Bytes) (e : CdiErr), hdrDecode s.cfg Config.cmdMagic hb = .error e →
      ∃ t, exec (.handleCommand .usb hb payload) s = .next t ∧
        (∃ (st : Byte) (v : State), st ≠ 0 ∧ exec .dispStatus t = .next v ∧ v.log = s.log ++ [.dispStatus st] ∧
          v.ret = some (.answer (.dispStatus st))) ∧
        (t.ute.phaseErr = false →
          t.statusPhase.ute.csw = cswBytes s.ute.tag (s.ute.dlen - s.ute.moved) 1)) ∧
    (s.listening → s.cfg.tSession < s.upe.ticked.tSess.toNat → ∀ n rest,
      nextAnswer s.ans.close (Config.freeClose s.asked) = (n, rest) →
      ∃ t, exec .tick s = .next t ∧ t.upe.abort = true ∧ t.ssw = s.ssw ∧ t.cdi = s.cdi ∧
        t.inbox = s.inbox.take n ++ ⟨.sswClose, []⟩ :: s.inbox.drop n) ∧
    (∀ rest, s.ssw.phase ≠ .closed → s.inbox = ⟨.sswClose, []⟩ :: rest →
      step s = .next { s with
        ssw := closedSession s.cfg, cdi := { s.cdi with owner := none }, inbox := rest, ret := some (.code 0) })

/-- R354: CHECK_UPG_MODE. With both modes that can be required in InitMode, which of them is required is open (log 20); the time since
T_START is a natural number, 0 when `now` is earlier (log 20). -/
def Obligations.UpgradeModeChecked : Prop :=
  ∀ (s : State) (now : U64),
    (.burnUserId ∉ s.cdi.initMode → .burnImgForce ∉ s.cdi.initMode →
      exec (.checkUpgMode now) s = .next { s with ret := some (.exitUpgrade false) }) ∧
    (∀ m limit,
      ((m = .burnUserId ∧ limit = s.cfg.tModeUserId ∧ .burnUserId ∈ s.cdi.initMode ∧
          (.burnImgForce ∈ s.cdi.initMode → Config.userIdFirst = true)) ∨
        (m = .burnImgForce ∧ limit = s.cfg.tModeImgForce ∧ .burnImgForce ∈ s.cdi.initMode ∧
          (.burnUserId ∈ s.cdi.initMode → Config.userIdFirst = false))) →
      (s.cdi.mode = m → s.cdi.modeSet = true → exec (.checkUpgMode now) s = .next { s with
        cdi := { s.cdi with tStart := now, modeSet := false }, ret := some (.exitUpgrade false) }) ∧
      ((s.cdi.mode ≠ m ∨ s.cdi.modeSet = false) → limit < now.toNat - s.cdi.tStart.toNat →
        exec (.checkUpgMode now) s = .next { s with ret := some (.exitUpgrade true) }) ∧
      ((s.cdi.mode ≠ m ∨ s.cdi.modeSet = false) → now.toNat - s.cdi.tStart.toNat ≤ limit →
        exec (.checkUpgMode now) s = .next { s with ret := some (.exitUpgrade false) }))

/-! ## Output actions and oracle calls -/

/-- R8, R233, R101: the rows of the output actions and of the four oracle calls on the dispatcher. An answer is the next one supplied or
a free value, within its stated range (log 3), and never 0 from DISP.STATUS for a header rejected on USB (R344, log 28); the CSW row
submits the 13 bytes of its operands and waits for them to go (log 16). -/
def Obligations.ActionsPerformed : Prop :=
  ∀ s : State,
    (∀ b, exec (.uartTx b) s = .next { s with log := s.log ++ [.uartTx b] }) ∧
    (∀ n, exec (.epRecv n) s = .next { s with log := s.log ++ [.epRecv n.toNat] }) ∧
    (∀ b, exec (.epSend b) s = .next { s with log := s.log ++ [.epSend b] }) ∧
    (∀ p, exec (.progress p) s = .next { s with log := s.log ++ [.progress p] }) ∧
    (∀ tag res st b, b = [0x55, 0x53, 0x42, 0x53] ++ encLe32 tag ++ encLe32 res ++ [st] →
      exec (.csw tag res st) s = .next { s with
        ute := { s.ute with stage := .waitCsw, csw := b }, log := s.log ++ [.epSend b] }) ∧
    (∀ cmd len e rest, nextAnswer s.ans.expect (Config.freeExpect s.asked) = (e, rest) →
      exec (.dispExpect cmd len) s = .next { s with
        ans := { s.ans with expect := rest }, asked := s.asked + 1, log := s.log ++ [.dispExpect cmd len e]
        ret := some (.answer (.dispExpect cmd len e)) }) ∧
    (∀ b c rest, nextAnswer s.ans.consumed (Config.freeConsumed s.asked) = (c, rest) →
      exec (.dispOut b) s = .next { s with
        ans := { s.ans with consumed := rest }, asked := s.asked + 1, log := s.log ++ [.dispOut b (min c b.length)]
        ret := some (.answer (.dispOut b (min c b.length))) }) ∧
    (∀ n d rest, nextAnswer s.ans.supply (Config.freeSupply s.asked) = (d, rest) →
      exec (.dispIn n) s = .next { s with
        ans := { s.ans with supply := rest }, asked := s.asked + 1, log := s.log ++ [.dispIn n.toNat (d.take n.toNat)]
        ret := some (.answer (.dispIn n.toNat (d.take n.toNat))) }) ∧
    (∀ st rest, nextAnswer s.ans.status (Config.freeStatus s.asked) = (st, rest) →
      exec .dispStatus s = .next { s with
        ans := { s.ans with status := rest }, asked := s.asked + 1, cdi := { s.cdi with usbRejected := false }
        log := s.log ++ [.dispStatus (if s.cdi.usbRejected = true ∧ st = 0 then 1 else st)]
        ret := some (.answer (.dispStatus (if s.cdi.usbRejected = true ∧ st = 0 then 1 else st))) })

/-- R310, R67, R69, R305: the device calls and STORE. A write answered ok stores the data, an erase answered ok zeros; a call answered
fail leaves anything in the blocks it names; a read answers fail or as many bytes, of which those the device does not give are the
stored ones (log 3). A write of what is no positive number of whole blocks leaves anything in the blocks that it touches (log 35). No
other byte of STORE changes. Block `b` is the bytes from `b * BS` on (log 8). -/
def Obligations.DeviceCalled : Prop :=
  ∀ (s : State) (blk n : U32) (data : Bytes) (ok : Bool) (rest : List Bool) (a : Option Bytes) (rrest : List (Option Bytes)),
    (nextAnswer s.ans.writeOk (Config.freeWriteOk s.asked) = (ok, rest) →
      (data ≠ [] → s.ssw.bs ≠ 0 → data.length % s.ssw.bs.toNat = 0 →
        ∃ (m : Memory) (v : Bytes), wrote s.store m (blk.toNat * s.ssw.bs.toNat) v ∧ v.length = data.length ∧
          (ok = true → v = data) ∧
          exec (.devWrite blk data) s = .next { s with
            store := m, ans := { s.ans with writeOk := rest }, asked := s.asked + 1
            log := s.log ++ [.devWrite blk.toNat data ok], ret := some (.answer (.devWrite blk.toNat data ok)) }) ∧
      ((data = [] ∨ s.ssw.bs = 0 ∨ data.length % s.ssw.bs.toNat ≠ 0) →
        ∃ (m : Memory) (v : Bytes), wrote s.store m (blk.toNat * s.ssw.bs.toNat) v ∧
          v.length = (data.length + s.ssw.bs.toNat - 1) / s.ssw.bs.toNat * s.ssw.bs.toNat ∧
          exec (.devWrite blk data) s = .next { s with
            store := m, ans := { s.ans with writeOk := rest }, asked := s.asked + 1
            log := s.log ++ [.devWrite blk.toNat data ok], ret := some (.answer (.devWrite blk.toNat data ok)) })) ∧
    (nextAnswer s.ans.eraseOk (Config.freeEraseOk s.asked) = (ok, rest) →
      ∃ (m : Memory) (v : Bytes), wrote s.store m (blk.toNat * s.ssw.bs.toNat) v ∧
        v.length = n.toNat * s.ssw.bs.toNat ∧ (ok = true → v = List.replicate (n.toNat * s.ssw.bs.toNat) 0) ∧
        exec (.devErase blk n) s = .next { s with
          store := m, ans := { s.ans with eraseOk := rest }, asked := s.asked + 1
          log := s.log ++ [.devErase blk.toNat n.toNat ok], ret := some (.answer (.devErase blk.toNat n.toNat ok)) }) ∧
    (nextAnswer s.ans.read (Config.freeRead s.asked) = (a, rrest) →
      ∀ d, d = a.map (fun o => o.take (n.toNat * s.ssw.bs.toNat) ++
          (s.store.readRun (blk.toNat * s.ssw.bs.toNat) (n.toNat * s.ssw.bs.toNat)).drop o.length) →
        exec (.devRead blk n) s = .next { s with
          ans := { s.ans with read := rrest }, asked := s.asked + 1
          log := s.log ++ [.devRead blk.toNat n.toNat d], ret := some (.answer (.devRead blk.toNat n.toNat d)) })

/-! ## The machine -/

/-- R410, R411, R412, R413: RESET in any state puts every register of the three units at its reset value, empties UPE.Q and performs no
output action; STORE keeps its bytes. That FBUF, PKTBUF, LEFT, the dispatcher and the environment's lists stay as they are is the
model's choice (log 10). -/
def Obligations.ResetTaken : Prop :=
  ∀ s : State, exec .reset s = .next { s with
    upe := { run := false, st := .cmdRecv, awaitAck := false, fresh := true, lastBlk := 0, sendBlk := 1, fcnt := 0,
             fneed := 0, slice := 0, tByte := 0, tWait := 0, tSess := 0, statusValid := false, statusCode := 0,
             statusOverrun := false, abort := false, err := 0, q := [] }
    ute := { run := false, stage := .readCbw, cbw := List.replicate 31 0, csw := List.replicate 13 0, tag := 0, dlen := 0,
             dirIn := false, cmd := 0, remain := 0, moved := 0, taskXfer := 0, taskDone := 0, pktXfer := 0, pktDone := 0,
             phaseErr := false, drain := false, err := 0 }
    ssw := closedSession s.cfg }

/-- The reset state is a RESET state and meets every invariant. -/
def Obligations.ResetMeetsInvariants : Prop :=
  exec .reset State.reset = .next State.reset ∧ UpeInv State.reset ∧ UteInv State.reset ∧ SswInv State.reset ∧
    MemInv State.reset ∧ State.reset.cfg.ok ∧ State.reset.log = [] ∧ ¬ State.reset.goneWrong

/-- R7, R72: a step runs the decoded instruction: the next pending packet is taken off the list and the instruction it stands for is
executed; with none pending the state stays (log 2). A packet that stands for none is what its bytes are (log 34): bytes that arrive on
the UART link, a push to the writer, a header to decode, a command to handle; on any other port nothing happens. -/
def Obligations.StepRunsDecoded : Prop :=
  ∀ s : State,
    (∀ p rest i, s.inbox = p :: rest → decode s.cfg p = .ok i → step s = exec i { s with inbox := rest }) ∧
    (s.inbox = [] → step s = .next s) ∧
    (∀ p rest e t, s.inbox = p :: rest → decode s.cfg p = .error e → t = { s with inbox := rest } →
      ((p.port = .uartWire ∨ p.port = .frameWire) → step s = arrive p.bytes t) ∧
      ((p.port = .imageWire ∨ p.port = .chunkWire) → step s = exec (.sswPush p.bytes) t) ∧
      (p.port = .headerWire → step s = exec (.hdrDecodeCmd p.bytes) t) ∧
      (∀ via, p.port = .commandWire via →
        step s = exec (.handleCommand via (p.bytes.take s.cfg.hdrLen) (p.bytes.drop s.cfg.hdrLen)) t) ∧
      (p.port ∉ [.uartWire, .frameWire, .imageWire, .chunkWire, .headerWire, .commandWire .uart, .commandWire .usb] →
        step s = .next t))

/-- Words written out from 30_encoding.md decode to the rows they stand for: the control bytes of R93, a short frame of R91 (block 1, one
byte of data), a CBW of R100 in the sample configuration, a CSW of R101, a chunk header of R103, a sparse header of R102. -/
def Obligations.WordsDecode : Prop :=
  ∀ c : Config, c = Config.default →
    decode c ⟨.uartWire, [0x43]⟩ = .ok .sigC ∧ decode c ⟨.uartWire, [0x11]⟩ = .ok .dc1 ∧
    decode c ⟨.uartWire, [0x12]⟩ = .ok .dc2 ∧ decode c ⟨.uartWire, [0x06]⟩ = .ok .ack ∧
    decode c ⟨.uartWire, [0x15]⟩ = .ok .nak ∧ decode c ⟨.uartWire, [0x18]⟩ = .ok .can ∧
    decode c ⟨.frameWire, [0x01, 0x01, 0xFE, 0x01, 0x5A, 0xAB, 0xCD]⟩ = .ok (.shortFrame 0x01 0xFE [0x5A] 0xABCD) ∧
    decode c ⟨.outWire, [0x55, 0x53, 0x42, 0x43, 0x44, 0x33, 0x22, 0x11, 0x14, 0, 0, 0, 0x80, 0, 1, 0x02,
        0, 0, 0, 0, 0, 0, 0, 0, 0, 0, 0, 0, 0, 0, 0]⟩ =
      .ok (.cbwRead 0x11223344 20 ⟨0, 0, 1, List.replicate 15 0⟩) ∧
    decode c ⟨.inWire, [0x55, 0x53, 0x42, 0x53, 0x44, 0x33, 0x22, 0x11, 0x07, 0, 0, 0, 0x02]⟩ =
      .ok (.csw 0x11223344 7 2) ∧
    decode c ⟨.chunkWire, [0xC3, 0xCA, 0, 0, 0x64, 0, 0, 0, 0x0C, 0, 0, 0]⟩ = .ok (.chunkDontCare ⟨0, []⟩ 100 12) ∧
    decode c ⟨.imageWire, [0x3A, 0xFF, 0x26, 0xED, 1, 0, 0, 0, 0x1C, 0, 0x0C, 0, 0, 2, 0, 0, 0x6E, 0, 0, 0, 2, 0, 0, 0,
        0, 0, 0, 0]⟩ = .ok (.sparseHeader 1 0 512 110 2 ⟨0, []⟩)

/-- Decoding an encoded instruction gives it back: every row, every operand the encoding admits, every configuration. -/
def Obligations.DecodeEncode : Prop :=
  ∀ (c : Config) (i : Instr), c.ok → i.wf c → decode c (encode c i) = .ok i

/-- What decodes to an instruction is that instruction's encoding, and the instruction is well formed: no packet has two meanings and
no bit of one is dropped. -/
def Obligations.EncodeDecode : Prop :=
  ∀ (c : Config) (p : Packet) (i : Instr), c.ok → decode c p = .ok i → i.wf c ∧ encode c i = p

/-- Every memory of the machine keeps its canonical form, and the configuration never changes (R40). -/
def Obligations.StepKeepsMemory : Prop :=
  ∀ s t : State, MemInv s → step s = .next t → MemInv t ∧ t.cfg = s.cfg

/-- R26, R180, R188, R192: the invariant of UPE. At most Q_CAP tasks, each unfinished; a frame in progress is a beginning of a whole
frame and FNEED its length; a frame in flight was cut from the head task; nothing that could be sent waits. -/
def Obligations.StepKeepsUpe : Prop :=
  ∀ s t : State, UpeInv s → step s = .next t → UpeInv t

/-- R231, R239, R250: the invariant of UTE. STAGE is never SendCsw between events; MOVED never exceeds DLEN; the counters of the task and
the packet stay within the data phase and the packet buffer. -/
def Obligations.StepKeepsUte : Prop :=
  ∀ s t : State, UteInv s → step s = .next t → UteInv t

/-- R292, R300, R302: the invariant of SSW. CURSOR never passes PART_SIZE, a chunk that is being written fits what is left of the
partition, CHUNK_REM is whole blocks in SP_RAW, the leftover is shorter than LEFT_CAP. -/
def Obligations.StepKeepsSsw : Prop :=
  ∀ s t : State, s.cfg.ok → SswInv s → step s = .next t → SswInv t

/-- R60, R192, R180, R186: with the invariants no step faults: no access outside a buffer space, no ACK without its task, no frame
without its lead byte, no frame of a length that none carries. -/
def Obligations.StepNeverFaults : Prop :=
  ∀ (s : State) (f : Fault), s.cfg.ok → UpeInv s → UteInv s → SswInv s → step s ≠ .fault f
end

