-- ==== Sys2Proof/Laws/Codec.lean ====
section
/-! SUPPORT. Reading back what the encoders write: integers, and the two frame formats. -/

namespace Sys2Proof

theorem byteOf_toNat (v k : Nat) : (byteOf v k).toNat = v / 256 ^ k % 256 := by simp [byteOf]

@[simp] theorem length_encLe16 (v : U16) : (encLe16 v).length = 2 := rfl
@[simp] theorem length_encLe32 (v : U32) : (encLe32 v).length = 4 := rfl
@[simp] theorem length_encLe64 (v : U64) : (encLe64 v).length = 8 := rfl
@[simp] theorem length_encBe16 (v : U16) : (encBe16 v).length = 2 := rfl

theorem byteAt_append_left {a b : Bytes} {i : Nat} (h : i < a.length) : byteAt (a ++ b) i = byteAt a i := by
  simp [byteAt, List.getD_eq_getElem?_getD, List.getElem?_append_left h]

theorem byteAt_append_right {a b : Bytes} {i : Nat} (h : a.length ≤ i) : byteAt (a ++ b) i = byteAt b (i - a.length) := by
  simp [byteAt, List.getD_eq_getElem?_getD, List.getElem?_append_right h]

theorem byteAt_take {a : Bytes} {n i : Nat} (h : i < n) : byteAt (a.take n) i = byteAt a i := by
  simp [byteAt, List.getD_eq_getElem?_getD, List.getElem?_take, h]

theorem byteAt_drop (a : Bytes) (n i : Nat) : byteAt (a.drop n) i = byteAt a (n + i) := by
  simp [byteAt, List.getD_eq_getElem?_getD, List.getElem?_drop]

/-- `le16` reads what `enc_le16` writes (rule R13). -/
theorem le16_encLe16 (v : U16) (r : Bytes) : le16 (encLe16 v ++ r) 0 = v := by
  apply BitVec.eq_of_toNat_eq
  have := v.isLt
  simp [le16, encLe16, byteAt, byteOf]
  omega

/-- `le32` reads what `enc_le32` writes (rule R13). -/
theorem le32_encLe32 (v : U32) (r : Bytes) : le32 (encLe32 v ++ r) 0 = v := by
  apply BitVec.eq_of_toNat_eq
  have := v.isLt
  simp [le32, encLe32, byteAt, byteOf]
  omega

/-- The CRC field is read as it is written (rules R62, R95). -/
theorem be16_encBe16 (v : U16) (r : Bytes) : be16 (encBe16 v ++ r) 0 = v := by
  apply BitVec.eq_of_toNat_eq
  have := v.isLt
  simp [be16, encBe16, byteAt, byteOf]
  omega

theorem le16_drop (s : Bytes) (n i : Nat) : le16 (s.drop n) i = le16 s (n + i) := by
  simp [le16, byteAt_drop, Nat.add_assoc]

theorem le32_drop (s : Bytes) (n i : Nat) : le32 (s.drop n) i = le32 s (n + i) := by
  simp [le32, byteAt_drop, Nat.add_assoc]

theorem be16_drop (s : Bytes) (n i : Nat) : be16 (s.drop n) i = be16 s (n + i) := by
  simp [be16, byteAt_drop, Nat.add_assoc]

/-- A field after a prefix of known length. -/
theorem le16_at {a r : Bytes} {v : U16} {n : Nat} (h : a.length = n) : le16 (a ++ (encLe16 v ++ r)) n = v := by
  subst h
  have := le16_drop (a ++ (encLe16 v ++ r)) a.length 0
  rw [List.drop_left, le16_encLe16] at this
  simpa using this.symm

theorem le32_at {a r : Bytes} {v : U32} {n : Nat} (h : a.length = n) : le32 (a ++ (encLe32 v ++ r)) n = v := by
  subst h
  have := le32_drop (a ++ (encLe32 v ++ r)) a.length 0
  rw [List.drop_left, le32_encLe32] at this
  simpa using this.symm

theorem be16_at {a r : Bytes} {v : U16} {n : Nat} (h : a.length = n) : be16 (a ++ (encBe16 v ++ r)) n = v := by
  subst h
  have := be16_drop (a ++ (encBe16 v ++ r)) a.length 0
  rw [List.drop_left, be16_encBe16] at this
  simpa using this.symm

theorem length_shortFrameBytes (c : Config) (blk cblk : Byte) (data : Bytes) (crc : U16) :
    (shortFrameBytes c blk cblk data crc).length = 6 + data.length := by
  simp [shortFrameBytes]; omega

theorem length_longFrameBytes (c : Config) (blk cblk : Byte) (data : Bytes) (crc : U16) :
    (longFrameBytes c blk cblk data crc).length = 5 + data.length := by
  simp [longFrameBytes]; omega

/-- What the codec makes of a short frame, whatever its fields (rule R147). -/
theorem unpackOf_short (c : Config) (blk cblk : Byte) (data : Bytes) (crc : U16) (h : data.length ≤ 255) :
    unpackOf c (shortFrameBytes c blk cblk data crc) =
      if blk.toNat + cblk.toNat ≠ 255 then .error .frame
      else if 61 < data.length then .error .frame
      else if crc16Of c.crc16 data ≠ crc then .error .data
      else .ok (blk, data) := by
  have hn : ((byteAt (shortFrameBytes c blk cblk data crc) 3).toNat) = data.length := by
    simp [shortFrameBytes, byteAt]; omega
  have h0 : byteAt (shortFrameBytes c blk cblk data crc) 0 = c.soh := by simp [shortFrameBytes, byteAt]
  have h1 : byteAt (shortFrameBytes c blk cblk data crc) 1 = blk := by simp [shortFrameBytes, byteAt]
  have h2 : byteAt (shortFrameBytes c blk cblk data crc) 2 = cblk := by simp [shortFrameBytes, byteAt]
  have hd : bytesAt (shortFrameBytes c blk cblk data crc) 4 data.length = data := by
    simp [shortFrameBytes, bytesAt]
  have hc : be16 (shortFrameBytes c blk cblk data crc) (4 + data.length) = crc := by
    have := be16_at (a := c.soh :: blk :: cblk :: BitVec.ofNat 8 data.length :: data) (r := []) (v := crc)
      (n := 4 + data.length) (by simp; omega)
    simpa [shortFrameBytes] using this
  simp only [unpackOf, h0, if_true, hn, h1, h2, hd, hc, true_and, Config.shortMax]

/-- What the codec makes of a long frame, whatever its fields (rule R147). -/
theorem unpackOf_long (c : Config) (hne : c.soh ≠ c.stx) (blk cblk : Byte) (data : Bytes) (crc : U16)
    (h : data.length = 1024) :
    unpackOf c (longFrameBytes c blk cblk data crc) =
      if blk.toNat + cblk.toNat ≠ 255 then .error .frame
      else if crc16Of c.crc16 data ≠ crc then .error .data
      else .ok (blk, data) := by
  have h0 : byteAt (longFrameBytes c blk cblk data crc) 0 = c.stx := by simp [longFrameBytes, byteAt]
  have h1 : byteAt (longFrameBytes c blk cblk data crc) 1 = blk := by simp [longFrameBytes, byteAt]
  have h2 : byteAt (longFrameBytes c blk cblk data crc) 2 = cblk := by simp [longFrameBytes, byteAt]
  have hd : bytesAt (longFrameBytes c blk cblk data crc) 3 1024 = data := by
    simp [longFrameBytes, bytesAt, ← h]
  have hc : be16 (longFrameBytes c blk cblk data crc) (3 + 1024) = crc := by
    have := be16_at (a := c.stx :: blk :: cblk :: data) (r := []) (v := crc)
      (n := 3 + 1024) (by simp; omega)
    simpa [longFrameBytes] using this
  simp only [unpackOf, h0, Ne.symm hne, if_false, h1, h2, Config.longLen, hd, hc, false_and]

end Sys2Proof
end

