-- ==== Sys2Proof/Laws/Cdi.lean ====
section
/-! SUPPORT. Reading back a header, and what handling a command with a good header comes to. -/

namespace Sys2Proof.Machine

theorem length_headerBytes {c : Config} {m : U32} {a b : Byte} {r : HdrRest} (h : r.wf c) :
    (headerBytes m a b r).length = c.hdrLen := by
  simp [headerBytes, h, Config.hdrLen]; omega

theorem headerBytes_magic (m : U32) (a b : Byte) (r : HdrRest) : le32 (headerBytes m a b r) 0 = m := by
  simp only [headerBytes, List.append_assoc]; exact le32_encLe32 _ _

theorem headerBytes_len (m : U32) (a b : Byte) (r : HdrRest) : le32 (headerBytes m a b r) 8 = r.dataLength := by
  have : headerBytes m a b r = (encLe32 m ++ [r.protocol, r.version, a, b]) ++
      (encLe32 r.dataLength ++ (r.pad ++ encLe32 r.checksum)) := by simp [headerBytes]
  rw [this]; exact le32_at rfl

theorem headerBytes_sum {c : Config} (m : U32) (a b : Byte) (r : HdrRest) (h : r.wf c) :
    le32 (headerBytes m a b r) (12 + Config.padBytes c.hdrPad) = r.checksum := by
  have : headerBytes m a b r = (encLe32 m ++ [r.protocol, r.version, a, b] ++ encLe32 r.dataLength ++ r.pad) ++
      (encLe32 r.checksum ++ []) := by simp [headerBytes]
  rw [this]; exact le32_at (by simp [h]; omega)

/-- What decoding makes of a header with the right magic (rules R342, R343). -/
theorem hdrDecode_headerBytes {c : Config} (m : U32) (a b : Byte) (r : HdrRest) (h : r.wf c) :
    hdrDecode c m (headerBytes m a b r) =
      if r.checksum = hdrSumOf c.hdrSum ((headerBytes m a b r).take (12 + Config.padBytes c.hdrPad)) then
        .ok ⟨r.protocol, r.version, a, b, r.dataLength⟩ else .error .checksum := by
  simp only [hdrDecode, length_headerBytes h, headerBytes_magic, headerBytes_len, headerBytes_sum m a b r h, ne_eq,
    not_true, if_false, ite_not]
  rfl

/-- An encoded header as its fields (rules R341, R343). -/
theorem hdrEncode_eq (c : Config) (m : U32) (x : HdrRecord) :
    hdrEncode c m x = headerBytes m x.command x.b7 ⟨x.protocol, x.version, x.dataLength,
      List.replicate (Config.padBytes c.hdrPad) 0, hdrSumOf c.hdrSum (hdrBody c m x)⟩ := by
  simp [hdrEncode, hdrBody, headerBytes]

/-- What the dispatcher notes of a header (rule R344). -/
theorem noteHeader_eq (via : Transport) (rejected : Bool) (s : State) : noteHeader via rejected s = s.noted via rejected := by
  cases via <;> rfl

/-- A command with a good header goes to its handler (rules R348, R351). -/
theorem handleCommandOp_good {s : State} {cmd rsv : Byte} {r : HdrRest} {p : Bytes} (via : Transport)
    (h : goodCommand s.cfg cmd rsv r p) :
    handleCommandOp via (headerBytes Config.cmdMagic cmd rsv r) p s =
      match handlerOf via cmd p (s.noted via false) with
      | none => .next ((s.noted via false).withRet (.response (respondHeader s.cfg cmd ⟨s.cfg.rspInvalid, []⟩) []))
      | some e =>
        withVal e fun (r, s1) => .next (s1.withRet (.response (respondHeader s1.cfg cmd r) r.out)) := by
  obtain ⟨h1, h2, h3⟩ := h
  simp only [handleCommandOp, hdrDecode_headerBytes _ _ _ _ h1, noteHeader_eq]
  rw [if_pos h2]; simp only
  rw [if_neg (by simpa using h3)]
  all_goals rfl

/-- The six command codes are pairwise distinct (rule R11). -/
theorem commands_distinct {c : Config} (h : c.ok) :
    c.cmdSetFwcMeta ≠ c.cmdSendFwcData ∧ c.cmdSetFwcMeta ≠ c.cmdGetFwcCrc ∧ c.cmdSetFwcMeta ≠ c.cmdGetFwcBurnResult ∧
    c.cmdSetFwcMeta ≠ c.cmdSetUpgCfg ∧ c.cmdSetFwcMeta ≠ c.cmdSetUpgEnd ∧ c.cmdSendFwcData ≠ c.cmdGetFwcCrc ∧
    c.cmdSendFwcData ≠ c.cmdGetFwcBurnResult ∧ c.cmdSendFwcData ≠ c.cmdSetUpgCfg ∧ c.cmdSendFwcData ≠ c.cmdSetUpgEnd ∧
    c.cmdGetFwcCrc ≠ c.cmdGetFwcBurnResult ∧ c.cmdGetFwcCrc ≠ c.cmdSetUpgCfg ∧ c.cmdGetFwcCrc ≠ c.cmdSetUpgEnd ∧
    c.cmdGetFwcBurnResult ≠ c.cmdSetUpgCfg ∧ c.cmdGetFwcBurnResult ≠ c.cmdSetUpgEnd ∧ c.cmdSetUpgCfg ≠ c.cmdSetUpgEnd := by
  have hn := h.1.2.2.2.2.2.2.2.2.2.2.2.2.1
  simp only [List.nodup_cons, List.mem_cons, List.not_mem_nil, or_false, not_or] at hn
  tauto

end Sys2Proof.Machine
end

