-- ==== Sys2Proof/Laws/Crc.lean ====
section
/-! SUPPORT. The laws that the check functions must have: streaming of the CRC over an image (43_sparse_writer.md rule R283), a
changed byte changes the CRC of a frame (40_frame_codec.md rule R142) and the sum of a header (44_command_interface.md rule R345). -/

namespace Sys2Proof

/-- zlib's CRC-32 has the streaming law that rule R283 asks of a `P_CRC32`. -/
theorem crc32Zlib_streams : Streams crc32Zlib :=
  ⟨fun c a b => by simp [crc32Zlib], fun c => by simp [crc32Zlib]⟩

/-- Every `P_CRC32` that rule R11 admits has the streaming law. -/
theorem crc32_streams {alg : Crc32Alg} (h : alg.lawful) : Streams (crc32Update alg) := by
  cases alg with
  | zlib => exact crc32Zlib_streams
  | other k => exact h

/-- A round of CRC-16/XMODEM loses nothing: its lowest bit is the bit that left at the top. -/
theorem crc16Round_inj {x y : U16} (h : crc16Round x = crc16Round y) : x = y := by
  have hb : ∀ z : U16, (crc16Round z).getLsbD 0 = z.msb := by
    intro z; unfold crc16Round
    cases hz : z.msb <;> simp
  have hm : x.msb = y.msb := by rw [← hb x, ← hb y, h]
  have hs : x <<< 1 = y <<< 1 := by
    unfold crc16Round at h
    rw [hm] at h
    cases hy : y.msb <;> simp only [hy, Bool.false_eq_true, if_true, if_false] at h
    · exact h
    · exact (BitVec.xor_left_inj _).1 h
  apply BitVec.eq_of_getLsbD_eq
  intro i hi
  by_cases h15 : i = 15
  · subst h15; simpa [BitVec.msb_eq_getLsbD_last] using hm
  · have := congrArg (fun v => v.getLsbD (i + 1)) hs
    simpa [show i + 1 < 16 by omega, BitVec.getLsbD_eq_getElem hi] using this

theorem crc16Rounds_inj (l : List Nat) {x y : U16}
    (h : l.foldl (fun r _ => crc16Round r) x = l.foldl (fun r _ => crc16Round r) y) : x = y := by
  induction l generalizing x y with
  | nil => exact h
  | cons a r ih => exact crc16Round_inj (ih h)

/-- A byte folded into two different values leaves two different values; so do two different bytes folded into one. -/
theorem crc16Byte_inj {x y : U16} {b : Byte} (h : crc16Byte x b = crc16Byte y b) : x = y :=
  (BitVec.xor_left_inj _).1 (crc16Rounds_inj _ h)

theorem crc16Byte_inj_byte {x : U16} {a b : Byte} (h : crc16Byte x a = crc16Byte x b) : a = b := by
  have h1 := (BitVec.xor_right_inj _).1 (crc16Rounds_inj _ h)
  apply BitVec.eq_of_getLsbD_eq
  intro i hi
  have := congrArg (fun v => v.getLsbD (i + 8)) h1
  simpa [show i + 8 < 16 by omega, hi] using this

theorem foldl_crc16Byte_inj (l : Bytes) {x y : U16} (h : l.foldl crc16Byte x = l.foldl crc16Byte y) : x = y := by
  induction l generalizing x y with
  | nil => exact h
  | cons b r ih => exact crc16Byte_inj (ih h)

/-- A list with a byte set is what stands before it, the byte, and what stands behind it. -/
theorem set_split {d : Bytes} {p : Nat} (hp : p < d.length) (b : Byte) :
    d = d.take p ++ (d.getD p 0 :: d.drop (p + 1)) ∧ d.set p b = d.take p ++ (b :: d.drop (p + 1)) := by
  refine ⟨?_, List.set_eq_take_append_cons_drop.trans (if_pos hp)⟩
  have : d.getD p 0 = d[p] := by simp [hp]
  rw [this, List.cons_getElem_drop_succ, List.take_append_drop]

/-- CRC-16/XMODEM has the law that rule R142 asks of a `P_CRC16`. -/
theorem crc16Xmodem_detects : Crc16Alg.detects .xmodem := by
  rintro d d' - ⟨p, b, hp, hb, rfl⟩ h
  obtain ⟨h1, h2⟩ := set_split hp b
  have h : (d.take p ++ (d.getD p 0 :: d.drop (p + 1))).foldl crc16Byte 0 = (d.take p ++ (b :: d.drop (p + 1))).foldl crc16Byte 0 := by
    rw [← h1, ← h2]; exact h
  simp only [List.foldl_append, List.foldl_cons] at h
  exact hb (crc16Byte_inj_byte (foldl_crc16Byte_inj _ h)).symm

/-- The byte sum has the law that rule R345 asks of a `P_HDRSUM`. -/
theorem byteSum_detects (pad : HdrPad) : HdrSumAlg.detects .byteSum pad := by
  rintro d d' hl ⟨p, b, hp, hb, rfl⟩ h
  have hbound : ∀ l : Bytes, (l.map BitVec.toNat).sum ≤ 255 * l.length := by
    intro l
    induction l with
    | nil => simp
    | cons a r ih => have := a.isLt; simp; omega
  have hpad : Config.padBytes pad ≤ 4 := by cases pad <;> decide
  have b1 := hbound d
  have b2 := hbound (d.set p b)
  rw [List.length_set] at b2
  have h' := congrArg BitVec.toNat h
  simp only [hdrSumOf, BitVec.toNat_ofNat] at h'
  rw [Nat.mod_eq_of_lt (by omega), Nat.mod_eq_of_lt (by omega)] at h'
  obtain ⟨h1, h2⟩ := set_split hp b
  have h3 : ((d.take p ++ (d.getD p 0 :: d.drop (p + 1))).map BitVec.toNat).sum =
      ((d.take p ++ (b :: d.drop (p + 1))).map BitVec.toNat).sum := by
    rw [← h1, ← h2]; exact h'
  simp only [List.map_append, List.map_cons, List.sum_append, List.sum_cons] at h3
  exact hb (BitVec.eq_of_toNat_eq (by omega))

end Sys2Proof
end

