-- ==== Sys2Proof/Laws/Memory.lean ====
section
/-! SUPPORT. The laws of the buffer memories: what a write leaves at each address, and that it keeps the canonical form. -/

namespace Sys2Proof.Machine

theorem Memory.read_append (m n : Memory) (a : Nat) :
    Memory.read (m ++ n) a = if a ∈ m.map Prod.fst then m.read a else n.read a := by
  induction m with
  | nil => simp
  | cons c r ih =>
    obtain ⟨k, b⟩ := c
    by_cases h : k = a <;> simp [Memory.read, h, ih, eq_comm (a := a)]

theorem Memory.read_of_not_mem {m : Memory} {a : Nat} (h : a ∉ m.map Prod.fst) : m.read a = unwritten := by
  induction m with
  | nil => rfl
  | cons c r ih =>
    obtain ⟨k, b⟩ := c
    simp only [List.map_cons, List.mem_cons, not_or] at h
    simp [Memory.read, Ne.symm h.1, ih h.2]

theorem Memory.read_filter (m : Memory) (p : Nat → Bool) (a : Nat) :
    Memory.read (m.filter (fun c => p c.1)) a = if p a then m.read a else unwritten := by
  induction m with
  | nil => simp [Memory.read]
  | cons c r ih =>
    obtain ⟨k, b⟩ := c
    by_cases hk : k = a
    · subst hk; by_cases hp : p k <;> simp [List.filter_cons, hp, Memory.read, ih]
    · by_cases hp : p k <;> simp [List.filter_cons, hp, Memory.read, ih, hk]

theorem mem_keys_cellsFrom (v : Bytes) : ∀ a x, x ∈ (cellsFrom a v).map Prod.fst ↔ a ≤ x ∧ x < a + v.length := by
  induction v with
  | nil => intro a x; simp [cellsFrom]
  | cons b r ih => intro a x; simp [cellsFrom, ih]; omega

theorem read_cells_nonzero (v : Bytes) : ∀ a x,
    Memory.read ((cellsFrom a v).filter (fun c => c.2 ≠ unwritten)) x =
      if a ≤ x ∧ x < a + v.length then v.getD (x - a) 0 else unwritten := by
  induction v with
  | nil => intro a x; simp [cellsFrom, Memory.read]
  | cons b r ih =>
    intro a x
    have hx := ih (a + 1) x
    by_cases hb : b = unwritten
    · simp only [cellsFrom, List.filter_cons, hb, ne_eq, not_true_eq_false, decide_false, Bool.false_eq_true, if_false]
      rw [hx]
      by_cases hax : a = x
      · subst hax; simp [unwritten]
      · by_cases h1 : a + 1 ≤ x ∧ x < a + 1 + r.length
        · rw [if_pos h1, if_pos (by simp; omega)]
          have : x - a = (x - (a + 1)) + 1 := by omega
          simp [this]
        · rw [if_neg h1, if_neg (by simp; omega)]
    · simp only [cellsFrom, List.filter_cons, hb, ne_eq, not_false_eq_true, decide_true, if_true, Memory.read]
      rw [hx]
      by_cases hax : a = x
      · subst hax; simp
      · rw [if_neg hax]
        by_cases h1 : a + 1 ≤ x ∧ x < a + 1 + r.length
        · rw [if_pos h1, if_pos (by simp; omega)]
          have : x - a = (x - (a + 1)) + 1 := by omega
          simp [this]
        · rw [if_neg h1, if_neg (by simp; omega)]

/-- What each address reads after a write. -/
theorem Memory.read_writeRun (m : Memory) (a : Nat) (v : Bytes) (x : Nat) :
    (m.writeRun a v).read x = if a ≤ x ∧ x < a + v.length then v.getD (x - a) 0 else m.read x := by
  have hkey : ∀ p : Nat → Bool, x ∈ (m.filter (fun c => p c.1)).map Prod.fst → p x = true := by
    intro p h
    simp only [List.mem_map, List.mem_filter] at h
    obtain ⟨c, ⟨_, hp⟩, rfl⟩ := h
    exact hp
  unfold Memory.writeRun
  rw [Memory.read_append, Memory.read_append, Memory.read_filter m (fun k => decide (k < a)),
    Memory.read_filter m (fun k => decide (a + v.length ≤ k)), read_cells_nonzero]
  by_cases h1 : x < a
  · have hne : ¬ (a ≤ x ∧ x < a + v.length) := by omega
    rw [if_neg hne]
    by_cases hm : x ∈ (m.filter (fun c => decide (c.1 < a))).map Prod.fst
    · rw [if_pos hm]; simp [h1]
    · rw [if_neg hm]
      have h0 : m.read x = unwritten := by
        apply Memory.read_of_not_mem
        intro hx
        apply hm
        simp only [List.mem_map, List.mem_filter] at hx ⊢
        obtain ⟨c, hc, rfl⟩ := hx
        exact ⟨c, ⟨hc, by simpa using h1⟩, rfl⟩
      have h2 : ¬ (a + v.length ≤ x) := by omega
      simp [h0, h2, hne]
  · rw [if_neg (fun h => h1 (by simpa using hkey (fun k => decide (k < a)) h))]
    by_cases h2 : a ≤ x ∧ x < a + v.length
    · have h3 : ¬ (a + v.length ≤ x) := by omega
      rw [if_pos h2, if_pos h2]
      split
      · rfl
      · rename_i hn
        rw [if_neg (by simpa using h3)]
        rw [← read_cells_nonzero v a x |>.trans (if_pos h2)]
        exact (Memory.read_of_not_mem hn).symm
    · have h3 : a + v.length ≤ x := by omega
      rw [if_neg h2, if_neg h2]
      rw [if_neg (by
        intro h
        have : x ∈ (cellsFrom a v).map Prod.fst := by
          simp only [List.mem_map, List.mem_filter] at h ⊢
          obtain ⟨c, ⟨hc, _⟩, rfl⟩ := h
          exact ⟨c, hc, rfl⟩
        rw [mem_keys_cellsFrom] at this
        omega)]
      simp [h3]

@[simp] theorem Memory.length_readRun (m : Memory) (a n : Nat) : (m.readRun a n).length = n := by
  simp [Memory.readRun]

theorem Memory.getD_readRun (m : Memory) (a n i : Nat) (h : i < n) : (m.readRun a n).getD i 0 = m.read (a + i) := by
  simp [Memory.readRun, List.getD_eq_getElem?_getD, h]

/-- Reading back what was just written. -/
theorem Memory.readRun_writeRun (m : Memory) (a : Nat) (v : Bytes) : (m.writeRun a v).readRun a v.length = v := by
  apply List.ext_getElem (by simp)
  intro i h1 h2
  simp [Memory.readRun, Memory.read_writeRun, h2]

/-- A run that a write does not touch. -/
theorem Memory.readRun_writeRun_disjoint (m : Memory) (a b n : Nat) (v : Bytes) (h : b + n ≤ a ∨ a + v.length ≤ b) :
    (m.writeRun a v).readRun b n = m.readRun b n := by
  apply List.ext_getElem (by simp)
  intro i h1 h2
  simp only [Memory.length_readRun] at h1
  simp only [Memory.readRun, List.getElem_map, List.getElem_range', Memory.read_writeRun]
  rw [if_neg (by omega)]

theorem Memory.readRun_add (m : Memory) (a n k : Nat) : m.readRun a (n + k) = m.readRun a n ++ m.readRun (a + n) k := by
  simp only [Memory.readRun, ← List.map_append]
  rw [List.range'_append_1]

/-- The prefix of a frame after one more byte (rule R180). -/
theorem Memory.readRun_snoc (m : Memory) (n : Nat) (b : Byte) :
    (m.writeRun n [b]).readRun 0 (n + 1) = m.readRun 0 n ++ [b] := by
  rw [Memory.readRun_add, Memory.readRun_writeRun_disjoint _ _ _ _ _ (by simp), Nat.zero_add]
  exact congrArg _ (Memory.readRun_writeRun m n [b])

/-- A run that starts inside a write and stays inside it. -/
theorem Memory.readRun_writeRun_sub (m : Memory) (a : Nat) (v : Bytes) (i n : Nat) (h : i + n ≤ v.length) :
    (m.writeRun a v).readRun (a + i) n = (v.drop i).take n := by
  apply List.ext_getElem (by simp; omega)
  intro j h1 h2
  simp only [Memory.length_readRun] at h1
  simp only [Memory.readRun, List.getElem_map, List.getElem_range', Memory.read_writeRun, List.getElem_take,
    List.getElem_drop]
  rw [if_pos (by omega)]
  have : a + i + 1 * j - a = i + j := by omega
  rw [this, List.getD_eq_getElem?_getD, List.getElem?_eq_getElem (by omega)]
  rfl

theorem Memory.filter_eq_self_of_all {m : Memory} {p : Host.Cell → Bool} (h : ∀ c ∈ m, p c = true) : m.filter p = m :=
  List.filter_eq_self.mpr h

/-- Writing nothing changes nothing. -/
theorem Memory.writeRun_nil {m : Memory} (h : m.wf) (a : Nat) : m.writeRun a [] = m := by
  obtain ⟨h, -⟩ := h
  simp only [Memory.writeRun, cellsFrom, List.filter_nil, List.nil_append, List.length_nil, Nat.add_zero]
  induction m with
  | nil => rfl
  | cons c r ih =>
    rw [List.pairwise_cons] at h
    by_cases hc : c.1 < a
    · have hc2 : ¬ a ≤ c.1 := by omega
      simp [List.filter_cons, hc, hc2]
      simpa using ih h.2
    · have h1 : r.filter (fun c => decide (c.1 < a)) = [] :=
        List.filter_eq_nil_iff.mpr (fun d hd => by have := h.1 d hd; simp; omega)
      have h2 : r.filter (fun c => decide (a ≤ c.1)) = r :=
        List.filter_eq_self.mpr (fun d hd => by have := h.1 d hd; simp; omega)
      have hc2 : a ≤ c.1 := by omega
      simp [List.filter_cons, hc, hc2, h1, h2]

theorem cellsFrom_sorted (v : Bytes) : ∀ a, (cellsFrom a v).Pairwise (fun x y => x.1 < y.1) := by
  induction v with
  | nil => intro a; simp [cellsFrom]
  | cons b r ih =>
    intro a
    simp only [cellsFrom, List.pairwise_cons]
    refine ⟨fun c hc => ?_, ih (a + 1)⟩
    have : c.1 ∈ (cellsFrom (a + 1) r).map Prod.fst := List.mem_map_of_mem hc
    rw [mem_keys_cellsFrom] at this
    omega

/-- A write keeps the canonical form. -/
theorem Memory.wf_writeRun {m : Memory} (h : m.wf) (a : Nat) (v : Bytes) : (m.writeRun a v).wf := by
  obtain ⟨hs, hz⟩ := h
  have hk : ∀ c ∈ cellsFrom a v, a ≤ c.1 ∧ c.1 < a + v.length := fun c hc =>
    (mem_keys_cellsFrom v a c.1).mp (List.mem_map_of_mem hc)
  refine ⟨?_, ?_⟩
  · unfold Memory.writeRun
    rw [List.pairwise_append, List.pairwise_append]
    refine ⟨hs.sublist List.filter_sublist, ⟨(cellsFrom_sorted v a).sublist List.filter_sublist,
      hs.sublist List.filter_sublist, ?_⟩, ?_⟩
    · intro c hc d hd
      have h1 := hk c (List.mem_of_mem_filter hc)
      have h2 := (List.mem_filter.mp hd).2
      simp at h2; omega
    · intro c hc d hd
      have h1 := (List.mem_filter.mp hc).2
      simp only [decide_eq_true_eq] at h1
      rcases List.mem_append.mp hd with hd | hd
      · have := hk d (List.mem_of_mem_filter hd); omega
      · have h2 := (List.mem_filter.mp hd).2
        simp at h2; omega
  · intro c hc
    unfold Memory.writeRun at hc
    rcases List.mem_append.mp hc with hc | hc
    · exact hz c (List.mem_of_mem_filter hc)
    · rcases List.mem_append.mp hc with hc | hc
      · simpa using (List.mem_filter.mp hc).2
      · exact hz c (List.mem_of_mem_filter hc)

theorem Memory.wf_nil : Memory.wf [] := ⟨List.Pairwise.nil, by simp⟩

theorem Memory.wf_ofBytes (v : Bytes) : (Memory.ofBytes v).wf := Memory.wf_writeRun Memory.wf_nil 0 v

/-- A memory made of a byte string holds it. -/
theorem Memory.readRun_ofBytes (v : Bytes) (i n : Nat) (h : i + n ≤ v.length) :
    (Memory.ofBytes v).readRun i n = (v.drop i).take n := by
  simpa [Memory.ofBytes] using Memory.readRun_writeRun_sub [] 0 v i n h

end Sys2Proof.Machine
end

