-- ==== Sys2Proof/Laws/State.lean ====
section
/-! SUPPORT. What each update of the state does to each field. -/

namespace Sys2Proof.Machine

@[simp] theorem State.withUpe_cfg (s : State) (v : Upe) : (s.withUpe v).cfg = s.cfg := rfl
@[simp] theorem State.withUpe_upe (s : State) (v : Upe) : (s.withUpe v).upe = v := rfl
@[simp] theorem State.withUpe_fbuf (s : State) (v : Upe) : (s.withUpe v).fbuf = s.fbuf := rfl
@[simp] theorem State.withUpe_ute (s : State) (v : Upe) : (s.withUpe v).ute = s.ute := rfl
@[simp] theorem State.withUpe_pktbuf (s : State) (v : Upe) : (s.withUpe v).pktbuf = s.pktbuf := rfl
@[simp] theorem State.withUpe_ssw (s : State) (v : Upe) : (s.withUpe v).ssw = s.ssw := rfl
@[simp] theorem State.withUpe_left (s : State) (v : Upe) : (s.withUpe v).left = s.left := rfl
@[simp] theorem State.withUpe_store (s : State) (v : Upe) : (s.withUpe v).store = s.store := rfl
@[simp] theorem State.withUpe_cdi (s : State) (v : Upe) : (s.withUpe v).cdi = s.cdi := rfl
@[simp] theorem State.withUpe_inbox (s : State) (v : Upe) : (s.withUpe v).inbox = s.inbox := rfl
@[simp] theorem State.withUpe_ans (s : State) (v : Upe) : (s.withUpe v).ans = s.ans := rfl
@[simp] theorem State.withUpe_asked (s : State) (v : Upe) : (s.withUpe v).asked = s.asked := rfl
@[simp] theorem State.withUpe_log (s : State) (v : Upe) : (s.withUpe v).log = s.log := rfl
@[simp] theorem State.withUpe_ret (s : State) (v : Upe) : (s.withUpe v).ret = s.ret := rfl
@[simp] theorem State.withUpe_finished (s : State) (v : Upe) : (s.withUpe v).finished = s.finished := rfl

@[simp] theorem State.withUte_cfg (s : State) (v : Ute) : (s.withUte v).cfg = s.cfg := rfl
@[simp] theorem State.withUte_upe (s : State) (v : Ute) : (s.withUte v).upe = s.upe := rfl
@[simp] theorem State.withUte_fbuf (s : State) (v : Ute) : (s.withUte v).fbuf = s.fbuf := rfl
@[simp] theorem State.withUte_ute (s : State) (v : Ute) : (s.withUte v).ute = v := rfl
@[simp] theorem State.withUte_pktbuf (s : State) (v : Ute) : (s.withUte v).pktbuf = s.pktbuf := rfl
@[simp] theorem State.withUte_ssw (s : State) (v : Ute) : (s.withUte v).ssw = s.ssw := rfl
@[simp] theorem State.withUte_left (s : State) (v : Ute) : (s.withUte v).left = s.left := rfl
@[simp] theorem State.withUte_store (s : State) (v : Ute) : (s.withUte v).store = s.store := rfl
@[simp] theorem State.withUte_cdi (s : State) (v : Ute) : (s.withUte v).cdi = s.cdi := rfl
@[simp] theorem State.withUte_inbox (s : State) (v : Ute) : (s.withUte v).inbox = s.inbox := rfl
@[simp] theorem State.withUte_ans (s : State) (v : Ute) : (s.withUte v).ans = s.ans := rfl
@[simp] theorem State.withUte_asked (s : State) (v : Ute) : (s.withUte v).asked = s.asked := rfl
@[simp] theorem State.withUte_log (s : State) (v : Ute) : (s.withUte v).log = s.log := rfl
@[simp] theorem State.withUte_ret (s : State) (v : Ute) : (s.withUte v).ret = s.ret := rfl
@[simp] theorem State.withUte_finished (s : State) (v : Ute) : (s.withUte v).finished = s.finished := rfl

@[simp] theorem State.withSsw_cfg (s : State) (v : Ssw) : (s.withSsw v).cfg = s.cfg := rfl
@[simp] theorem State.withSsw_upe (s : State) (v : Ssw) : (s.withSsw v).upe = s.upe := rfl
@[simp] theorem State.withSsw_fbuf (s : State) (v : Ssw) : (s.withSsw v).fbuf = s.fbuf := rfl
@[simp] theorem State.withSsw_ute (s : State) (v : Ssw) : (s.withSsw v).ute = s.ute := rfl
@[simp] theorem State.withSsw_pktbuf (s : State) (v : Ssw) : (s.withSsw v).pktbuf = s.pktbuf := rfl
@[simp] theorem State.withSsw_ssw (s : State) (v : Ssw) : (s.withSsw v).ssw = v := rfl
@[simp] theorem State.withSsw_left (s : State) (v : Ssw) : (s.withSsw v).left = s.left := rfl
@[simp] theorem State.withSsw_store (s : State) (v : Ssw) : (s.withSsw v).store = s.store := rfl
@[simp] theorem State.withSsw_cdi (s : State) (v : Ssw) : (s.withSsw v).cdi = s.cdi := rfl
@[simp] theorem State.withSsw_inbox (s : State) (v : Ssw) : (s.withSsw v).inbox = s.inbox := rfl
@[simp] theorem State.withSsw_ans (s : State) (v : Ssw) : (s.withSsw v).ans = s.ans := rfl
@[simp] theorem State.withSsw_asked (s : State) (v : Ssw) : (s.withSsw v).asked = s.asked := rfl
@[simp] theorem State.withSsw_log (s : State) (v : Ssw) : (s.withSsw v).log = s.log := rfl
@[simp] theorem State.withSsw_ret (s : State) (v : Ssw) : (s.withSsw v).ret = s.ret := rfl
@[simp] theorem State.withSsw_finished (s : State) (v : Ssw) : (s.withSsw v).finished = s.finished := rfl

@[simp] theorem State.withCdi_cfg (s : State) (v : Cdi) : (s.withCdi v).cfg = s.cfg := rfl
@[simp] theorem State.withCdi_upe (s : State) (v : Cdi) : (s.withCdi v).upe = s.upe := rfl
@[simp] theorem State.withCdi_fbuf (s : State) (v : Cdi) : (s.withCdi v).fbuf = s.fbuf := rfl
@[simp] theorem State.withCdi_ute (s : State) (v : Cdi) : (s.withCdi v).ute = s.ute := rfl
@[simp] theorem State.withCdi_pktbuf (s : State) (v : Cdi) : (s.withCdi v).pktbuf = s.pktbuf := rfl
@[simp] theorem State.withCdi_ssw (s : State) (v : Cdi) : (s.withCdi v).ssw = s.ssw := rfl
@[simp] theorem State.withCdi_left (s : State) (v : Cdi) : (s.withCdi v).left = s.left := rfl
@[simp] theorem State.withCdi_store (s : State) (v : Cdi) : (s.withCdi v).store = s.store := rfl
@[simp] theorem State.withCdi_cdi (s : State) (v : Cdi) : (s.withCdi v).cdi = v := rfl
@[simp] theorem State.withCdi_inbox (s : State) (v : Cdi) : (s.withCdi v).inbox = s.inbox := rfl
@[simp] theorem State.withCdi_ans (s : State) (v : Cdi) : (s.withCdi v).ans = s.ans := rfl
@[simp] theorem State.withCdi_asked (s : State) (v : Cdi) : (s.withCdi v).asked = s.asked := rfl
@[simp] theorem State.withCdi_log (s : State) (v : Cdi) : (s.withCdi v).log = s.log := rfl
@[simp] theorem State.withCdi_ret (s : State) (v : Cdi) : (s.withCdi v).ret = s.ret := rfl
@[simp] theorem State.withCdi_finished (s : State) (v : Cdi) : (s.withCdi v).finished = s.finished := rfl

@[simp] theorem State.withFbuf_cfg (s : State) (v : Memory) : (s.withFbuf v).cfg = s.cfg := rfl
@[simp] theorem State.withFbuf_upe (s : State) (v : Memory) : (s.withFbuf v).upe = s.upe := rfl
@[simp] theorem State.withFbuf_fbuf (s : State) (v : Memory) : (s.withFbuf v).fbuf = v := rfl
@[simp] theorem State.withFbuf_ute (s : State) (v : Memory) : (s.withFbuf v).ute = s.ute := rfl
@[simp] theorem State.withFbuf_pktbuf (s : State) (v : Memory) : (s.withFbuf v).pktbuf = s.pktbuf := rfl
@[simp] theorem State.withFbuf_ssw (s : State) (v : Memory) : (s.withFbuf v).ssw = s.ssw := rfl
@[simp] theorem State.withFbuf_left (s : State) (v : Memory) : (s.withFbuf v).left = s.left := rfl
@[simp] theorem State.withFbuf_store (s : State) (v : Memory) : (s.withFbuf v).store = s.store := rfl
@[simp] theorem State.withFbuf_cdi (s : State) (v : Memory) : (s.withFbuf v).cdi = s.cdi := rfl
@[simp] theorem State.withFbuf_inbox (s : State) (v : Memory) : (s.withFbuf v).inbox = s.inbox := rfl
@[simp] theorem State.withFbuf_ans (s : State) (v : Memory) : (s.withFbuf v).ans = s.ans := rfl
@[simp] theorem State.withFbuf_asked (s : State) (v : Memory) : (s.withFbuf v).asked = s.asked := rfl
@[simp] theorem State.withFbuf_log (s : State) (v : Memory) : (s.withFbuf v).log = s.log := rfl
@[simp] theorem State.withFbuf_ret (s : State) (v : Memory) : (s.withFbuf v).ret = s.ret := rfl
@[simp] theorem State.withFbuf_finished (s : State) (v : Memory) : (s.withFbuf v).finished = s.finished := rfl

@[simp] theorem State.withPktbuf_cfg (s : State) (v : Memory) : (s.withPktbuf v).cfg = s.cfg := rfl
@[simp] theorem State.withPktbuf_upe (s : State) (v : Memory) : (s.withPktbuf v).upe = s.upe := rfl
@[simp] theorem State.withPktbuf_fbuf (s : State) (v : Memory) : (s.withPktbuf v).fbuf = s.fbuf := rfl
@[simp] theorem State.withPktbuf_ute (s : State) (v : Memory) : (s.withPktbuf v).ute = s.ute := rfl
@[simp] theorem State.withPktbuf_pktbuf (s : State) (v : Memory) : (s.withPktbuf v).pktbuf = v := rfl
@[simp] theorem State.withPktbuf_ssw (s : State) (v : Memory) : (s.withPktbuf v).ssw = s.ssw := rfl
@[simp] theorem State.withPktbuf_left (s : State) (v : Memory) : (s.withPktbuf v).left = s.left := rfl
@[simp] theorem State.withPktbuf_store (s : State) (v : Memory) : (s.withPktbuf v).store = s.store := rfl
@[simp] theorem State.withPktbuf_cdi (s : State) (v : Memory) : (s.withPktbuf v).cdi = s.cdi := rfl
@[simp] theorem State.withPktbuf_inbox (s : State) (v : Memory) : (s.withPktbuf v).inbox = s.inbox := rfl
@[simp] theorem State.withPktbuf_ans (s : State) (v : Memory) : (s.withPktbuf v).ans = s.ans := rfl
@[simp] theorem State.withPktbuf_asked (s : State) (v : Memory) : (s.withPktbuf v).asked = s.asked := rfl
@[simp] theorem State.withPktbuf_log (s : State) (v : Memory) : (s.withPktbuf v).log = s.log := rfl
@[simp] theorem State.withPktbuf_ret (s : State) (v : Memory) : (s.withPktbuf v).ret = s.ret := rfl
@[simp] theorem State.withPktbuf_finished (s : State) (v : Memory) : (s.withPktbuf v).finished = s.finished := rfl

@[simp] theorem State.withLeft_cfg (s : State) (v : Memory) : (s.withLeft v).cfg = s.cfg := rfl
@[simp] theorem State.withLeft_upe (s : State) (v : Memory) : (s.withLeft v).upe = s.upe := rfl
@[simp] theorem State.withLeft_fbuf (s : State) (v : Memory) : (s.withLeft v).fbuf = s.fbuf := rfl
@[simp] theorem State.withLeft_ute (s : State) (v : Memory) : (s.withLeft v).ute = s.ute := rfl
@[simp] theorem State.withLeft_pktbuf (s : State) (v : Memory) : (s.withLeft v).pktbuf = s.pktbuf := rfl
@[simp] theorem State.withLeft_ssw (s : State) (v : Memory) : (s.withLeft v).ssw = s.ssw := rfl
@[simp] theorem State.withLeft_left (s : State) (v : Memory) : (s.withLeft v).left = v := rfl
@[simp] theorem State.withLeft_store (s : State) (v : Memory) : (s.withLeft v).store = s.store := rfl
@[simp] theorem State.withLeft_cdi (s : State) (v : Memory) : (s.withLeft v).cdi = s.cdi := rfl
@[simp] theorem State.withLeft_inbox (s : State) (v : Memory) : (s.withLeft v).inbox = s.inbox := rfl
@[simp] theorem State.withLeft_ans (s : State) (v : Memory) : (s.withLeft v).ans = s.ans := rfl
@[simp] theorem State.withLeft_asked (s : State) (v : Memory) : (s.withLeft v).asked = s.asked := rfl
@[simp] theorem State.withLeft_log (s : State) (v : Memory) : (s.withLeft v).log = s.log := rfl
@[simp] theorem State.withLeft_ret (s : State) (v : Memory) : (s.withLeft v).ret = s.ret := rfl
@[simp] theorem State.withLeft_finished (s : State) (v : Memory) : (s.withLeft v).finished = s.finished := rfl

@[simp] theorem State.withStore_cfg (s : State) (v : Memory) : (s.withStore v).cfg = s.cfg := rfl
@[simp] theorem State.withStore_upe (s : State) (v : Memory) : (s.withStore v).upe = s.upe := rfl
@[simp] theorem State.withStore_fbuf (s : State) (v : Memory) : (s.withStore v).fbuf = s.fbuf := rfl
@[simp] theorem State.withStore_ute (s : State) (v : Memory) : (s.withStore v).ute = s.ute := rfl
@[simp] theorem State.withStore_pktbuf (s : State) (v : Memory) : (s.withStore v).pktbuf = s.pktbuf := rfl
@[simp] theorem State.withStore_ssw (s : State) (v : Memory) : (s.withStore v).ssw = s.ssw := rfl
@[simp] theorem State.withStore_left (s : State) (v : Memory) : (s.withStore v).left = s.left := rfl
@[simp] theorem State.withStore_store (s : State) (v : Memory) : (s.withStore v).store = v := rfl
@[simp] theorem State.withStore_cdi (s : State) (v : Memory) : (s.withStore v).cdi = s.cdi := rfl
@[simp] theorem State.withStore_inbox (s : State) (v : Memory) : (s.withStore v).inbox = s.inbox := rfl
@[simp] theorem State.withStore_ans (s : State) (v : Memory) : (s.withStore v).ans = s.ans := rfl
@[simp] theorem State.withStore_asked (s : State) (v : Memory) : (s.withStore v).asked = s.asked := rfl
@[simp] theorem State.withStore_log (s : State) (v : Memory) : (s.withStore v).log = s.log := rfl
@[simp] theorem State.withStore_ret (s : State) (v : Memory) : (s.withStore v).ret = s.ret := rfl
@[simp] theorem State.withStore_finished (s : State) (v : Memory) : (s.withStore v).finished = s.finished := rfl

@[simp] theorem State.withInbox_cfg (s : State) (v : List Packet) : (s.withInbox v).cfg = s.cfg := rfl
@[simp] theorem State.withInbox_upe (s : State) (v : List Packet) : (s.withInbox v).upe = s.upe := rfl
@[simp] theorem State.withInbox_fbuf (s : State) (v : List Packet) : (s.withInbox v).fbuf = s.fbuf := rfl
@[simp] theorem State.withInbox_ute (s : State) (v : List Packet) : (s.withInbox v).ute = s.ute := rfl
@[simp] theorem State.withInbox_pktbuf (s : State) (v : List Packet) : (s.withInbox v).pktbuf = s.pktbuf := rfl
@[simp] theorem State.withInbox_ssw (s : State) (v : List Packet) : (s.withInbox v).ssw = s.ssw := rfl
@[simp] theorem State.withInbox_left (s : State) (v : List Packet) : (s.withInbox v).left = s.left := rfl
@[simp] theorem State.withInbox_store (s : State) (v : List Packet) : (s.withInbox v).store = s.store := rfl
@[simp] theorem State.withInbox_cdi (s : State) (v : List Packet) : (s.withInbox v).cdi = s.cdi := rfl
@[simp] theorem State.withInbox_inbox (s : State) (v : List Packet) : (s.withInbox v).inbox = v := rfl
@[simp] theorem State.withInbox_ans (s : State) (v : List Packet) : (s.withInbox v).ans = s.ans := rfl
@[simp] theorem State.withInbox_asked (s : State) (v : List Packet) : (s.withInbox v).asked = s.asked := rfl
@[simp] theorem State.withInbox_log (s : State) (v : List Packet) : (s.withInbox v).log = s.log := rfl
@[simp] theorem State.withInbox_ret (s : State) (v : List Packet) : (s.withInbox v).ret = s.ret := rfl
@[simp] theorem State.withInbox_finished (s : State) (v : List Packet) : (s.withInbox v).finished = s.finished := rfl

@[simp] theorem State.withFinished_cfg (s : State) (v : List Task) : (s.withFinished v).cfg = s.cfg := rfl
@[simp] theorem State.withFinished_upe (s : State) (v : List Task) : (s.withFinished v).upe = s.upe := rfl
@[simp] theorem State.withFinished_fbuf (s : State) (v : List Task) : (s.withFinished v).fbuf = s.fbuf := rfl
@[simp] theorem State.withFinished_ute (s : State) (v : List Task) : (s.withFinished v).ute = s.ute := rfl
@[simp] theorem State.withFinished_pktbuf (s : State) (v : List Task) : (s.withFinished v).pktbuf = s.pktbuf := rfl
@[simp] theorem State.withFinished_ssw (s : State) (v : List Task) : (s.withFinished v).ssw = s.ssw := rfl
@[simp] theorem State.withFinished_left (s : State) (v : List Task) : (s.withFinished v).left = s.left := rfl
@[simp] theorem State.withFinished_store (s : State) (v : List Task) : (s.withFinished v).store = s.store := rfl
@[simp] theorem State.withFinished_cdi (s : State) (v : List Task) : (s.withFinished v).cdi = s.cdi := rfl
@[simp] theorem State.withFinished_inbox (s : State) (v : List Task) : (s.withFinished v).inbox = s.inbox := rfl
@[simp] theorem State.withFinished_ans (s : State) (v : List Task) : (s.withFinished v).ans = s.ans := rfl
@[simp] theorem State.withFinished_asked (s : State) (v : List Task) : (s.withFinished v).asked = s.asked := rfl
@[simp] theorem State.withFinished_log (s : State) (v : List Task) : (s.withFinished v).log = s.log := rfl
@[simp] theorem State.withFinished_ret (s : State) (v : List Task) : (s.withFinished v).ret = s.ret := rfl
@[simp] theorem State.withFinished_finished (s : State) (v : List Task) : (s.withFinished v).finished = v := rfl

@[simp] theorem State.withAns_cfg (s : State) (v : Answers) : (s.withAns v).cfg = s.cfg := rfl
@[simp] theorem State.withAns_upe (s : State) (v : Answers) : (s.withAns v).upe = s.upe := rfl
@[simp] theorem State.withAns_fbuf (s : State) (v : Answers) : (s.withAns v).fbuf = s.fbuf := rfl
@[simp] theorem State.withAns_ute (s : State) (v : Answers) : (s.withAns v).ute = s.ute := rfl
@[simp] theorem State.withAns_pktbuf (s : State) (v : Answers) : (s.withAns v).pktbuf = s.pktbuf := rfl
@[simp] theorem State.withAns_ssw (s : State) (v : Answers) : (s.withAns v).ssw = s.ssw := rfl
@[simp] theorem State.withAns_left (s : State) (v : Answers) : (s.withAns v).left = s.left := rfl
@[simp] theorem State.withAns_store (s : State) (v : Answers) : (s.withAns v).store = s.store := rfl
@[simp] theorem State.withAns_cdi (s : State) (v : Answers) : (s.withAns v).cdi = s.cdi := rfl
@[simp] theorem State.withAns_inbox (s : State) (v : Answers) : (s.withAns v).inbox = s.inbox := rfl
@[simp] theorem State.withAns_ans (s : State) (v : Answers) : (s.withAns v).ans = v := rfl
@[simp] theorem State.withAns_asked (s : State) (v : Answers) : (s.withAns v).asked = s.asked + 1 := rfl
@[simp] theorem State.withAns_log (s : State) (v : Answers) : (s.withAns v).log = s.log := rfl
@[simp] theorem State.withAns_ret (s : State) (v : Answers) : (s.withAns v).ret = s.ret := rfl
@[simp] theorem State.withAns_finished (s : State) (v : Answers) : (s.withAns v).finished = s.finished := rfl

@[simp] theorem State.act_cfg (s : State) (v : Action) : (s.act v).cfg = s.cfg := rfl
@[simp] theorem State.act_upe (s : State) (v : Action) : (s.act v).upe = s.upe := rfl
@[simp] theorem State.act_fbuf (s : State) (v : Action) : (s.act v).fbuf = s.fbuf := rfl
@[simp] theorem State.act_ute (s : State) (v : Action) : (s.act v).ute = s.ute := rfl
@[simp] theorem State.act_pktbuf (s : State) (v : Action) : (s.act v).pktbuf = s.pktbuf := rfl
@[simp] theorem State.act_ssw (s : State) (v : Action) : (s.act v).ssw = s.ssw := rfl
@[simp] theorem State.act_left (s : State) (v : Action) : (s.act v).left = s.left := rfl
@[simp] theorem State.act_store (s : State) (v : Action) : (s.act v).store = s.store := rfl
@[simp] theorem State.act_cdi (s : State) (v : Action) : (s.act v).cdi = s.cdi := rfl
@[simp] theorem State.act_inbox (s : State) (v : Action) : (s.act v).inbox = s.inbox := rfl
@[simp] theorem State.act_ans (s : State) (v : Action) : (s.act v).ans = s.ans := rfl
@[simp] theorem State.act_asked (s : State) (v : Action) : (s.act v).asked = s.asked := rfl
@[simp] theorem State.act_log (s : State) (v : Action) : (s.act v).log = s.log ++ [v] := rfl
@[simp] theorem State.act_ret (s : State) (v : Action) : (s.act v).ret = s.ret := rfl
@[simp] theorem State.act_finished (s : State) (v : Action) : (s.act v).finished = s.finished := rfl

@[simp] theorem State.withRet_cfg (s : State) (v : Ret) : (s.withRet v).cfg = s.cfg := rfl
@[simp] theorem State.withRet_upe (s : State) (v : Ret) : (s.withRet v).upe = s.upe := rfl
@[simp] theorem State.withRet_fbuf (s : State) (v : Ret) : (s.withRet v).fbuf = s.fbuf := rfl
@[simp] theorem State.withRet_ute (s : State) (v : Ret) : (s.withRet v).ute = s.ute := rfl
@[simp] theorem State.withRet_pktbuf (s : State) (v : Ret) : (s.withRet v).pktbuf = s.pktbuf := rfl
@[simp] theorem State.withRet_ssw (s : State) (v : Ret) : (s.withRet v).ssw = s.ssw := rfl
@[simp] theorem State.withRet_left (s : State) (v : Ret) : (s.withRet v).left = s.left := rfl
@[simp] theorem State.withRet_store (s : State) (v : Ret) : (s.withRet v).store = s.store := rfl
@[simp] theorem State.withRet_cdi (s : State) (v : Ret) : (s.withRet v).cdi = s.cdi := rfl
@[simp] theorem State.withRet_inbox (s : State) (v : Ret) : (s.withRet v).inbox = s.inbox := rfl
@[simp] theorem State.withRet_ans (s : State) (v : Ret) : (s.withRet v).ans = s.ans := rfl
@[simp] theorem State.withRet_asked (s : State) (v : Ret) : (s.withRet v).asked = s.asked := rfl
@[simp] theorem State.withRet_log (s : State) (v : Ret) : (s.withRet v).log = s.log := rfl
@[simp] theorem State.withRet_ret (s : State) (v : Ret) : (s.withRet v).ret = some v := rfl
@[simp] theorem State.withRet_finished (s : State) (v : Ret) : (s.withRet v).finished = s.finished := rfl

end Sys2Proof.Machine
end

