-- ==== Sys2Proof/Laws/Upe.lean ====
section
/-! SUPPORT. What the operations of UPE do, one lemma for each outcome. -/

namespace Sys2Proof.Machine

theorem sub_toNat {a b : U32} (h : b.toNat ≤ a.toNat) : (a - b).toNat = a.toNat - b.toNat := by
  rw [BitVec.toNat_sub]; have := a.isLt; have := b.isLt; omega

theorem sliceOf_le (n : Nat) : sliceOf n ≤ n := by
  unfold sliceOf Config.longLen Config.shortMax; split <;> [skip; split] <;> omega

theorem sliceOf_carried (n : Nat) : sliceOf n = 1024 ∨ sliceOf n ≤ 61 := by
  unfold sliceOf Config.longLen Config.shortMax; split <;> [skip; split] <;> omega

theorem sliceOf_pos {n : Nat} (h : 0 < n) : 0 < sliceOf n := by
  unfold sliceOf Config.longLen Config.shortMax; split <;> [skip; split] <;> omega

/-- A frame carries 1024 bytes or at most 61 (rules R143 to R145). -/
theorem packFrameOf_ok (c : Config) (blk : Byte) (d : Bytes) (h : d.length = 1024 ∨ d.length ≤ 61) :
    ∃ f, packFrameOf c blk d = .ok f := by
  unfold packFrameOf packLongOf packShortOf Config.longLen Config.shortMax
  split
  · simp_all
  · have : d.length ≤ 61 := by omega
    simp [this]

/-- The length of a frame (rules R90, R146). -/
theorem frameTotalOf_bounds {c : Config} {p : Bytes} {n : Nat} (h : frameTotalOf c p = .total n) : 6 ≤ n ∧ n ≤ 1029 := by
  unfold frameTotalOf at h
  split at h
  · simp at h
  · rename_i lead tail
    have hb := (byteAt (lead :: tail) 3).isLt
    split at h
    · simp [Config.longFrameLen, Config.longLen] at h; omega
    · split at h
      · split at h
        · simp only [FrameLen.total.injEq] at h; omega
        · simp at h
      · simp at h

/-- The row of a byte is the byte's arrival. -/
theorem exec_byteRow {s : State} {b : Byte} {i : Instr} (h : byteRow s.cfg b i) : exec i s = uartRx b s := by
  unfold byteRow at h
  casesm* _ ∨ _
  · subst h; rfl
  · subst h; rfl
  all_goals
    obtain ⟨hi, hb⟩ := h
    subst hi hb
    rfl

theorem upeMasked_of_listening {s : State} (h : s.listening) : upeMasked s.upe = false := by simp [upeMasked, h.1, h.2]

theorem upeMasked_of_deaf {s : State} (h : ¬ s.listening) : upeMasked s.upe = true := by
  simp only [State.listening, not_and_or, Bool.not_eq_true, Bool.not_eq_false] at h
  rcases h with h | h <;> simp [upeMasked, h]

theorem uartRx_masked {s : State} (b : Byte) (h : upeMasked s.upe = true) : uartRx b s = .next s := by
  simp [uartRx, h]

theorem uartRxs_masked {s : State} (h : upeMasked s.upe = true) (b : Bytes) : uartRxs b s = .next s := by
  induction b with
  | nil => rfl
  | cons x r ih => simp [uartRxs, uartRx_masked x h, andThen, ih]

/-- A byte outside a frame (rule R172). -/
theorem uartRx_out {s : State} {b : Byte} (h : s.listening) (hf : inFrame s.cfg s.upe b = false) :
    uartRx b s = andThen (commandByte b (s.withUpe s.upe.heard)) trySend := by
  have hf' : inFrame (s.withUpe s.upe.heard).cfg (s.withUpe s.upe.heard).upe b = false := hf
  simp only [uartRx, upeMasked_of_listening h, Bool.false_eq_true, if_false]
  show andThen (if inFrame (s.withUpe s.upe.heard).cfg (s.withUpe s.upe.heard).upe b = true then _ else _) trySend = _
  rw [if_neg (by rw [hf']; simp)]; rfl

/-- A byte of a frame (rule R172). -/
theorem uartRx_in {s : State} {b : Byte} (h : s.listening) (hf : inFrame s.cfg s.upe b = true) :
    uartRx b s = andThen (frameByte b (s.withUpe s.upe.heard)) trySend := by
  have hf' : inFrame (s.withUpe s.upe.heard).cfg (s.withUpe s.upe.heard).upe b = true := hf
  simp only [uartRx, upeMasked_of_listening h, Bool.false_eq_true, if_false]
  show andThen (if inFrame (s.withUpe s.upe.heard).cfg (s.withUpe s.upe.heard).upe b = true then _ else _) trySend = _
  rw [if_pos hf']; rfl

theorem trySend_quiet {s : State} (h : s.quiet) : trySend s = .next s := by simp [trySend, h]

theorem quiet_of_st {s : State} (h : s.upe.st ≠ .dataSend) : s.quiet := by
  show sendReady s.upe = false
  simp [sendReady, h]

/-- `try_send` with a send task at the head (rule R186). -/
theorem trySend_sends {s : State} {t : Task} {r : List Task} (hs : s.upe.st = .dataSend) (hq : s.upe.q = t :: r)
    (hd : t.dir = .send) (hl : t.done.toNat < t.len.toNat) :
    ∃ f, packFrameOf s.cfg s.upe.sendBlk (t.buf.readRun t.done.toNat (sliceOf (t.len.toNat - t.done.toNat))) = .ok f ∧
      trySend s = .next { s with
        upe := { s.upe with
          st := .cmdRecv, awaitAck := true, tWait := 0
          slice := BitVec.ofNat 16 (sliceOf (t.len.toNat - t.done.toNat)) }
        log := s.log ++ [.uartTx f] } := by
  have hsub := sub_toNat (Nat.le_of_lt hl)
  obtain ⟨f, hf⟩ := packFrameOf_ok s.cfg s.upe.sendBlk
    (t.buf.readRun t.done.toNat (sliceOf (t.len.toNat - t.done.toNat))) (by simpa using sliceOf_carried _)
  refine ⟨f, hf, ?_⟩
  have hle := sliceOf_le (t.len.toNat - t.done.toNat)
  have hr : sendReady s.upe = true := by simp [sendReady, hs, hq, hd]
  simp only [trySend, hr, if_true, hq, hsub, sendSlice, readBuf]
  rw [if_pos (by omega)]
  simp only [withVal, State.withUpe_cfg, State.withUpe_upe, hf]
  rfl

/-- `retransmit` with a frame in flight (rule R193). -/
theorem retransmit_sends {s : State} {t : Task} {r : List Task} (hq : s.upe.q = t :: r)
    (hl : t.done.toNat + s.upe.slice.toNat ≤ t.len.toNat) (hn : s.upe.slice.toNat = 1024 ∨ s.upe.slice.toNat ≤ 61) :
    ∃ f, packFrameOf s.cfg s.upe.sendBlk (t.buf.readRun t.done.toNat s.upe.slice.toNat) = .ok f ∧
      retransmit s = .next { s with upe := { s.upe with tWait := 0 }, log := s.log ++ [.uartTx f] } := by
  obtain ⟨f, hf⟩ := packFrameOf_ok s.cfg s.upe.sendBlk (t.buf.readRun t.done.toNat s.upe.slice.toNat) (by simpa using hn)
  refine ⟨f, hf, ?_⟩
  simp only [retransmit, hq, sendSlice, readBuf]
  rw [if_pos hl]
  simp only [withVal, hf]
  rw [← hq]
  rfl

/-- What a direction switch leaves (rules R178, R179, R187). -/
theorem cmdSwitch_eq (d : Dir) (st : UpeSt) (s : State) : cmdSwitch d st s = { s with
    upe := { s.upe with st := st, awaitAck := false, fcnt := 0, fneed := 0, q := announced d s.upe.q } } := by
  unfold cmdSwitch frameReset switchDir announced
  rcases h : s.upe.q with _ | ⟨t, r⟩
  · simp [State.withUpe, h]
  · by_cases ht : t.dir = d <;> simp [ht, dropHead, State.withUpe, h]

/-- The class of a block number (rule R183). -/
theorem blkClass_new {u : Upe} {blk : Byte} (h : (u.fresh = true ∧ blk = 1) ∨ blk = u.lastBlk + 1) :
    blkClass u blk = .new := by unfold blkClass; rw [if_pos h]

theorem blkClass_dup {u : Upe} {blk : Byte} (h1 : ¬ ((u.fresh = true ∧ blk = 1) ∨ blk = u.lastBlk + 1))
    (h : u.fresh = false ∧ blk = u.lastBlk) : blkClass u blk = .dup := by unfold blkClass; rw [if_neg h1, if_pos h]

theorem blkClass_bad {u : Upe} {blk : Byte} (h1 : ¬ ((u.fresh = true ∧ blk = 1) ∨ blk = u.lastBlk + 1))
    (h : ¬ (u.fresh = false ∧ blk = u.lastBlk)) : blkClass u blk = .bad := by
  unfold blkClass; rw [if_neg h1, if_neg h]

theorem nakFrame_eq (e : UpeErr) (s : State) : nakFrame e s = { s with
    upe := { s.upe with err := upeErrNum e, fcnt := 0, fneed := 0 }, log := s.log ++ [.uartTx [s.cfg.nak]] } := rfl

/-- A frame that the codec refuses (rule R181). -/
theorem completeFrame_damaged {s : State} {f : Bytes} {e : FcErr} (h : unpackOf s.cfg f = .error e) :
    completeFrame f s = .next (nakFrame (.fc e) s) := by simp [completeFrame, h]

/-- A frame out of sequence (rule R183). -/
theorem completeFrame_bad {s : State} {f data : Bytes} {blk : Byte} (h : unpackOf s.cfg f = .ok (blk, data))
    (hc : blkClass s.upe blk = .bad) : completeFrame f s = .next (nakFrame .seq s) := by simp [completeFrame, h, hc]

/-- A duplicate (rule R183). -/
theorem completeFrame_dup {s : State} {f data : Bytes} {blk : Byte} (h : unpackOf s.cfg f = .ok (blk, data))
    (hc : blkClass s.upe blk = .dup) : completeFrame f s = .next { s with
      upe := { s.upe with fcnt := 0, fneed := 0 }, log := s.log ++ [.uartTx [s.cfg.ack]] } := by
  simp only [completeFrame, h, hc]; rfl

/-- A new frame with no receive task at the head (rule R182). -/
theorem completeFrame_noTask {s : State} {f data : Bytes} {blk : Byte} (h : unpackOf s.cfg f = .ok (blk, data))
    (hc : blkClass s.upe blk = .new) (hq : ∀ t ∈ s.upe.q.head?, t.dir = .send) :
    completeFrame f s = .next (nakFrame .noTask s) := by
  simp only [completeFrame, h, hc, acceptFrame]
  rcases hq' : s.upe.q with _ | ⟨t, r⟩
  · rfl
  · have := hq t (by simp [hq'])
    simp [this]

/-- A new frame with more bytes than the head task still wants (rule R182). -/
theorem completeFrame_overflow {s : State} {f data : Bytes} {blk : Byte} {t : Task} {r : List Task}
    (h : unpackOf s.cfg f = .ok (blk, data)) (hc : blkClass s.upe blk = .new) (hq : s.upe.q = t :: r)
    (hd : t.dir = .recv) (hle : t.done.toNat ≤ t.len.toNat) (hl : t.len.toNat - t.done.toNat < data.length) :
    completeFrame f s = .next (nakFrame .overflow s) := by
  simp only [completeFrame, h, hc, acceptFrame, hq, hd]
  rw [if_neg (by simp), if_pos (by rw [sub_toNat hle]; exact hl)]

/-- A new frame that the head task takes and still wants more (rule R185). -/
theorem completeFrame_more {s : State} {f data : Bytes} {blk : Byte} {t : Task} {r : List Task}
    (h : unpackOf s.cfg f = .ok (blk, data)) (hc : blkClass s.upe blk = .new) (hq : s.upe.q = t :: r)
    (hd : t.dir = .recv) (hl : t.done.toNat + data.length < t.len.toNat) :
    completeFrame f s = .next { s with
      upe := { s.upe with
        fcnt := 0, fneed := 0, lastBlk := blk, fresh := false
        q := { t with buf := t.buf.writeRun t.done.toNat data, done := t.done + BitVec.ofNat 32 data.length } :: r }
      log := s.log ++ [.uartTx [s.cfg.ack]] } := by
  have hadd : (t.done + BitVec.ofNat 32 data.length).toNat = t.done.toNat + data.length := by
    rw [BitVec.toNat_add, BitVec.toNat_ofNat]; have := t.len.isLt; omega
  simp only [completeFrame, h, hc, acceptFrame, hq, hd]
  rw [if_neg (by simp), if_neg (by rw [sub_toNat (by omega)]; omega)]
  simp only [writeBuf]
  rw [if_pos (by omega)]
  simp only [withVal]
  rw [if_neg (by intro h'; rw [← BitVec.toNat_inj, hadd] at h'; omega)]
  rfl

/-- A new frame that completes the head task (rule R185). -/
theorem completeFrame_done {s : State} {f data : Bytes} {blk : Byte} {t : Task} {r : List Task}
    (h : unpackOf s.cfg f = .ok (blk, data)) (hc : blkClass s.upe blk = .new) (hq : s.upe.q = t :: r)
    (hd : t.dir = .recv) (hl : t.done.toNat + data.length = t.len.toNat) :
    completeFrame f s = .next { s with
      upe := { s.upe with
        fcnt := 0, fneed := 0, lastBlk := blk, fresh := false, q := r, statusCode := 1, statusValid := true
        statusOverrun := s.upe.statusOverrun || s.upe.statusValid }
      log := s.log ++ [.uartTx [s.cfg.ack]]
      finished := s.finished ++ [{ t with buf := t.buf.writeRun t.done.toNat data, done := t.len }] } := by
  have hadd : (t.done + BitVec.ofNat 32 data.length).toNat = t.done.toNat + data.length := by
    rw [BitVec.toNat_add, BitVec.toNat_ofNat]; have := t.len.isLt; omega
  have hdl : t.done + BitVec.ofNat 32 data.length = t.len := by apply BitVec.eq_of_toNat_eq; omega
  simp only [completeFrame, h, hc, acceptFrame, hq, hd]
  rw [if_neg (by simp), if_neg (by rw [sub_toNat (by omega)]; omega)]
  simp only [writeBuf]
  rw [if_pos (by omega)]
  simp only [withVal, hdl]
  rfl

/-- A byte that goes to FBUF (rule R180), at any point of a frame. -/
theorem frameByte_eq {s : State} (b : Byte) (hc : s.upe.fcnt.toNat < 1029) :
    frameByte b s =
      match frameTotalOf s.cfg (s.fbuf.readRun 0 s.upe.fcnt.toNat ++ [b]) with
      | .err _ => .fault .noLead
      | .unknown => .next { s with
          upe := { s.upe with fcnt := s.upe.fcnt + 1, fneed := 4 }, fbuf := s.fbuf.writeRun s.upe.fcnt.toNat [b] }
      | .total t =>
        if s.upe.fcnt.toNat + 1 = t then
          completeFrame (s.fbuf.readRun 0 s.upe.fcnt.toNat ++ [b]) { s with
            upe := { s.upe with fcnt := s.upe.fcnt + 1, fneed := BitVec.ofNat 16 t }
            fbuf := s.fbuf.writeRun s.upe.fcnt.toNat [b] }
        else .next { s with
          upe := { s.upe with fcnt := s.upe.fcnt + 1, fneed := BitVec.ofNat 16 t }
          fbuf := s.fbuf.writeRun s.upe.fcnt.toNat [b] } := by
  unfold frameByte writeBuf
  rw [if_pos (by simp [Config.longFrameLen, Config.longLen]; omega)]
  simp only [withVal, Memory.readRun_snoc]
  have hn : BitVec.ofNat 16 (s.upe.fcnt.toNat + 1) = s.upe.fcnt + 1 := by
    apply BitVec.eq_of_toNat_eq; rw [BitVec.toNat_ofNat, BitVec.toNat_add]; simp
  rw [hn]
  cases frameTotalOf s.cfg (s.fbuf.readRun 0 s.upe.fcnt.toNat ++ [b]) <;> rfl

/-- What the invariant says of a frame in progress. -/
theorem UpeInv.frame {s : State} (h : UpeInv s) (hc : 0 < s.upe.fcnt.toNat) :
    s.upe.st = .dataRecv ∧ s.upe.fcnt.toNat < s.upe.fneed.toNat ∧ s.upe.fneed.toNat ≤ 1029 := by
  obtain ⟨-, -, h3, -, -⟩ := h
  rcases h3 with h3 | ⟨h4, -, h5, h6⟩
  · simp [h3.1] at hc
  · refine ⟨h4, h5, ?_⟩
    rcases h6 with h6 | h6
    · omega
    · exact (frameTotalOf_bounds h6).2

/-- What the invariant says of a frame in flight. -/
theorem UpeInv.flight {s : State} {t : Task} {r : List Task} (h : UpeInv s) (ha : s.upe.awaitAck = true)
    (hq : s.upe.q = t :: r) : s.upe.st = .cmdRecv ∧ t.dir = .send ∧ t.done.toNat < t.len.toNat ∧
      s.upe.slice.toNat = sliceOf (t.len.toNat - t.done.toNat) := by
  obtain ⟨-, h2, -, h4, -⟩ := h
  obtain ⟨h5, t', ht', h6, h7⟩ := h4 ha
  simp [hq] at ht'; subst ht'
  have := h2 t (by simp [hq])
  exact ⟨h5, h6, this, by rw [h7, sub_toNat (by omega)]⟩

/-- A byte inside a frame, whichever row brings it. -/
theorem exec_inFrame {s : State} {b : Byte} {i : Instr} (hl : s.listening) (hinv : UpeInv s) (hc : 0 < s.upe.fcnt.toNat)
    (hb : byteRow s.cfg b i) : exec i s = andThen (frameByte b (s.withUpe s.upe.heard)) trySend := by
  rw [exec_byteRow hb, uartRx_in hl]
  have : s.upe.fcnt ≠ 0 := by intro h; simp [h] at hc
  have h2 : (s.upe.fcnt != 0) = true := by simpa [bne] using this
  simp only [inFrame, hinv.frame hc |>.1, h2]
  rfl

theorem andThen_next (o : Result) : andThen o .next = o := by cases o <;> rfl

/-- The first byte of a frame (rules R172, R180). -/
theorem uartRx_lead {s : State} {b : Byte} {w : Nat} (hl : s.listening) (hst : s.upe.st = .dataRecv) (hc : s.upe.fcnt = 0)
    (hb : b = s.cfg.soh ∨ b = s.cfg.stx)
    (hw : (frameTotalOf s.cfg [b] = .unknown ∧ w = 4) ∨ (frameTotalOf s.cfg [b] = .total w)) :
    uartRx b s = .next { s with
      upe := { s.upe.heard with fcnt := 1, fneed := BitVec.ofNat 16 w }, fbuf := s.fbuf.writeRun 0 [b] } := by
  rw [uartRx_in hl (by rcases hb with rfl | rfl <;> simp [inFrame, hst])]
  have hq' : (s.withUpe s.upe.heard).upe.fcnt = 0 := hc
  have h0 : s.fbuf.readRun 0 0 = [] := rfl
  have := frameByte_eq (s := s.withUpe s.upe.heard) b (by rw [hq']; simp)
  rw [this, hq']
  show andThen (match frameTotalOf s.cfg ([] ++ [b]) with | .err _ => _ | .unknown => _ | .total t => _) trySend = _
  rw [List.nil_append]
  rcases hw with ⟨h, rfl⟩ | h
  · rw [h]; simp only [andThen]
    rw [trySend_quiet (quiet_of_st (by simp [Upe.heard, hst]))]
    rfl
  · have := (frameTotalOf_bounds h).1
    rw [h]; simp only []
    rw [if_neg (by simp; omega)]; simp only [andThen]
    rw [trySend_quiet (quiet_of_st (by simp [Upe.heard, hst]))]
    rfl

theorem wrote_trans {m n o : Memory} {a : Nat} {u v : Bytes} (h1 : wrote m n a u) (h2 : wrote n o (a + u.length) v) :
    wrote m o a (u ++ v) := by
  intro x
  rw [h2 x, h1 x]
  simp only [List.length_append, List.getD_eq_getElem?_getD]
  by_cases hx : a + u.length ≤ x ∧ x < a + u.length + v.length
  · rw [if_pos hx, if_pos (by omega), List.getElem?_append_right (by omega)]
    congr 2; omega
  · rw [if_neg hx]
    by_cases hy : a ≤ x ∧ x < a + u.length
    · rw [if_pos hy, if_pos (by omega), List.getElem?_append_left (by omega)]
    · rw [if_neg hy, if_neg (by omega)]

theorem byteAt_append {a b : Bytes} {i : Nat} (h : i < a.length) : byteAt (a ++ b) i = byteAt a i := by
  unfold byteAt; simp [List.getD_eq_getElem?_getD, List.getElem?_append_left h]

/-- FRAME_TOTAL of the bytes of a frame, and FNEED (rules R146, R180). -/
theorem frameTotalOf_need {c : Config} {f : Bytes} (h : 0 < f.length) (hl : byteAt f 0 = c.stx ∨ byteAt f 0 = c.soh) :
    (frameTotalOf c f = .unknown ∧ frameNeed c f = 4) ∨ frameTotalOf c f = .total (frameNeed c f) := by
  rcases f with _ | ⟨l, r⟩
  · simp at h
  change l = c.stx ∨ l = c.soh at hl
  change (_ ∧ (if l = c.stx then _ else _) = 4) ∨ _ = FrameLen.total (if l = c.stx then _ else _)
  simp only [frameTotalOf]
  by_cases hs : l = c.stx
  · simp only [if_pos hs]; exact .inr rfl
  · simp only [if_neg hs, if_pos (hl.resolve_left hs)]
    by_cases h4 : 4 ≤ (l :: r).length
    · rw [if_pos h4, if_neg (by omega)]; exact .inr rfl
    · rw [if_neg h4, if_pos (by omega)]; exact .inl ⟨rfl, rfl⟩

/-- What the invariant says of the first byte of a frame in progress. -/
theorem UpeInv.lead {s : State} (h : UpeInv s) (h0 : 0 < s.upe.fcnt.toNat) :
    byteAt (s.fbuf.readRun 0 s.upe.fcnt.toNat) 0 = s.cfg.stx ∨ byteAt (s.fbuf.readRun 0 s.upe.fcnt.toNat) 0 = s.cfg.soh := by
  obtain ⟨-, -, h3, -, -⟩ := h
  rcases h3 with h3 | ⟨-, -, -, h6⟩
  · simp [h3.1] at h0
  have hlen : (s.fbuf.readRun 0 s.upe.fcnt.toNat).length = s.upe.fcnt.toNat := by simp
  generalize s.fbuf.readRun 0 s.upe.fcnt.toNat = p at h6 hlen
  rcases p with _ | ⟨l, r⟩
  · simp at hlen; omega
  change l = _ ∨ l = _
  by_cases ha : l = s.cfg.stx
  · exact .inl ha
  by_cases hc : l = s.cfg.soh
  · exact .inr hc
  · simp [frameTotalOf, ha, hc] at h6

/-- A byte of a frame that is not whole with it is stored, and FNEED says how long the frame is, as soon as that is known (rule R180). -/
theorem uartRx_middle {s : State} {b : Byte} {w : Nat} (hl : s.listening) (hst : s.upe.st = .dataRecv) (h0 : 0 < s.upe.fcnt.toNat)
    (hc : s.upe.fcnt.toNat < 1029)
    (h : (frameTotalOf s.cfg (s.fbuf.readRun 0 s.upe.fcnt.toNat ++ [b]) = .unknown ∧ w = 4) ∨
      (frameTotalOf s.cfg (s.fbuf.readRun 0 s.upe.fcnt.toNat ++ [b]) = .total w ∧ s.upe.fcnt.toNat + 1 < w)) :
    uartRx b s = .next { s with
      upe := { s.upe.heard with fcnt := s.upe.fcnt + 1, fneed := BitVec.ofNat 16 w }
      fbuf := s.fbuf.writeRun s.upe.fcnt.toNat [b] } := by
  have hin : inFrame s.cfg s.upe b = true := by
    have : s.upe.fcnt ≠ 0 := by intro h; simp [h] at h0
    have h2 : (s.upe.fcnt != 0) = true := by simpa [bne] using this
    simp only [inFrame, hst, h2]; rfl
  rw [uartRx_in hl hin, frameByte_eq (s := s.withUpe s.upe.heard) b hc]
  show andThen (match frameTotalOf s.cfg (s.fbuf.readRun 0 s.upe.fcnt.toNat ++ [b]) with
    | .err _ => _ | .unknown => _ | .total t => if s.upe.fcnt.toNat + 1 = t then _ else _) trySend = _
  rcases h with ⟨h, rfl⟩ | ⟨h, hn⟩
  · rw [h]; simp only [andThen]
    rw [trySend_quiet (quiet_of_st (by simp [Upe.heard, hst]))]; rfl
  · rw [h]; simp only []
    rw [if_neg (by omega)]; simp only [andThen]
    rw [trySend_quiet (quiet_of_st (by simp [Upe.heard, hst]))]; rfl

/-- The same, whatever FNEED becomes. -/
theorem uartRx_more {s : State} {b : Byte} (hl : s.listening) (hst : s.upe.st = .dataRecv) (h0 : 0 < s.upe.fcnt.toNat)
    (hc : s.upe.fcnt.toNat < 1029)
    (h : frameTotalOf s.cfg (s.fbuf.readRun 0 s.upe.fcnt.toNat ++ [b]) = .unknown ∨
      ∃ n, frameTotalOf s.cfg (s.fbuf.readRun 0 s.upe.fcnt.toNat ++ [b]) = .total n ∧ s.upe.fcnt.toNat + 1 < n) :
    ∃ w : U16, uartRx b s = .next { s with
      upe := { s.upe.heard with fcnt := s.upe.fcnt + 1, fneed := w }
      fbuf := s.fbuf.writeRun s.upe.fcnt.toNat [b] } := by
  rcases h with h | ⟨n, h⟩
  · exact ⟨_, uartRx_middle hl hst h0 hc (.inl ⟨h, rfl⟩)⟩
  · exact ⟨_, uartRx_middle hl hst h0 hc (.inr h)⟩

/-- The rest of a frame arrives byte by byte (rules R133, R180): FBUF holds the frame and it is completed once. -/
theorem uartRxs_gather (rest : Bytes) : ∀ (s : State) (p : Bytes), s.listening → s.upe.st = .dataRecv →
    s.upe.fcnt.toNat = p.length → s.fbuf.readRun 0 p.length = p → 1 ≤ p.length → rest ≠ [] →
    (p ++ rest).length ≤ 1029 →
    (∀ k, 1 ≤ k → k < (p ++ rest).length → frameTotalOf s.cfg ((p ++ rest).take k) = .unknown ∨
      ∃ n, frameTotalOf s.cfg ((p ++ rest).take k) = .total n ∧ k < n) →
    frameTotalOf s.cfg (p ++ rest) = .total (p ++ rest).length →
    ∃ m, wrote s.fbuf m p.length rest ∧
      uartRxs rest s = andThen (completeFrame (p ++ rest) { s with
        upe := { s.upe.heard with
          fcnt := BitVec.ofNat 16 (p ++ rest).length, fneed := BitVec.ofNat 16 (p ++ rest).length }
        fbuf := m }) trySend := by
  induction rest with
  | nil => intro s p _ _ _ _ _ h; exact absurd rfl h
  | cons b r ih =>
    intro s p hl hst hfc hp h1 _ hlen hpre htot
    have hin : inFrame s.cfg s.upe b = true := by
      have : s.upe.fcnt ≠ 0 := by intro h; simp [h] at hfc; omega
      have h2 : (s.upe.fcnt != 0) = true := by simpa [bne] using this
      simp only [inFrame, hst, h2]; rfl
    simp only [List.length_append, List.length_cons] at hlen
    have hadd : s.upe.fcnt + 1 = BitVec.ofNat 16 (p.length + 1) := by
      apply BitVec.eq_of_toNat_eq; rw [BitVec.toNat_add, hfc, BitVec.toNat_ofNat]; simp
    rcases r with _ | ⟨b2, r⟩
    · have hfb := frameByte_eq (s := s.withUpe s.upe.heard) b (by show s.upe.fcnt.toNat < _; omega)
      have hfc' : (s.withUpe s.upe.heard).upe.fcnt.toNat = p.length := hfc
      rw [uartRxs, uartRx_in hl hin, hfb, hfc']
      have hpf : (s.withUpe s.upe.heard).fbuf = s.fbuf := rfl
      have hcf : (s.withUpe s.upe.heard).cfg = s.cfg := rfl
      rw [hpf, hcf, hp]
      refine ⟨s.fbuf.writeRun p.length [b], fun x => Memory.read_writeRun _ _ _ _, ?_⟩
      rw [htot]
      simp only [List.length_append, List.length_cons, List.length_nil, Nat.zero_add, if_true]
      rw [show (uartRxs []) = Host.Outcome.next from rfl, andThen_next]
      simp only [← hadd]
      rfl
    · have hk := hpre (p.length + 1) (by omega) (by simp)
      have htk : (p ++ b :: b2 :: r).take (p.length + 1) = p ++ [b] := by
        rw [List.take_append]; simp
      rw [htk] at hk
      obtain ⟨w, hgo⟩ := uartRx_more (b := b) hl hst (by omega) (by omega) (by rwa [hfc, hp])
      rw [hfc] at hgo
      rw [uartRxs, hgo]
      simp only [andThen]
      obtain ⟨m, hm, he⟩ := ih { s with
          upe := { s.upe.heard with fcnt := s.upe.fcnt + 1, fneed := w }, fbuf := s.fbuf.writeRun p.length [b] }
        (p ++ [b]) hl hst (by show (s.upe.fcnt + 1).toNat = _; rw [hadd]; simp; omega)
        (by show (s.fbuf.writeRun p.length [b]).readRun 0 (p ++ [b]).length = _
            rw [List.length_append, List.length_singleton, Memory.readRun_snoc, hp])
        (by simp) (by simp) (by simpa using hlen) (by simpa using hpre) (by simpa using htot)
      refine ⟨m, ?_, ?_⟩
      · have hw : wrote s.fbuf (s.fbuf.writeRun p.length [b]) p.length [b] := fun x => Memory.read_writeRun _ _ _ _
        exact wrote_trans hw (by simpa using hm)
      · rw [he]
        simp only [List.append_assoc, List.singleton_append]
        rfl

/-- `FRAME_TOTAL` of every beginning of a whole frame (rule R146). -/
theorem frameTotalOf_take {c : Config} {f : Bytes} {k : Nat} (hf : frameTotalOf c f = .total f.length) (h1 : 1 ≤ k)
    (hk : k < f.length) : frameTotalOf c (f.take k) = .unknown ∨
      ∃ n, frameTotalOf c (f.take k) = .total n ∧ k < n := by
  rcases f with _ | ⟨lead, r⟩
  · simp at hk
  · obtain ⟨j, rfl⟩ : ∃ j, k = j + 1 := ⟨k - 1, by omega⟩
    rw [List.take_succ_cons]
    by_cases hs : lead = c.stx
    · simp only [frameTotalOf, hs, if_true, FrameLen.total.injEq] at hf ⊢
      exact .inr ⟨_, rfl, by rw [hf]; simp at hk ⊢; omega⟩
    · by_cases ho : lead = c.soh
      · simp only [frameTotalOf, hs, ho, if_false, if_true] at hf ⊢
        by_cases hcs : c.soh = c.stx
        · exact absurd (ho.trans hcs) hs
        · rw [if_neg hcs] at hf ⊢
          by_cases h4 : 4 ≤ (c.soh :: r.take j).length
          · rw [if_pos h4]
            have hb : byteAt (c.soh :: r.take j) 3 = byteAt (c.soh :: r) 3 := by
              have := byteAt_take (a := c.soh :: r) (n := j + 1) (i := 3) (by simp at h4; omega)
              rwa [List.take_succ_cons] at this
            split at hf
            · simp only [FrameLen.total.injEq] at hf
              exact .inr ⟨_, rfl, by rw [hb]; simp at hk; simp at hf; omega⟩
            · simp at hf
          · rw [if_neg h4]; exact .inl rfl
      · simp [frameTotalOf, hs, ho] at hf

/-- A whole frame arrives at a frame boundary (rules R133, R180). -/
theorem uartRxs_frame {s : State} {f : Bytes} (hl : s.listening) (hst : s.upe.st = .dataRecv) (hc : s.upe.fcnt = 0)
    (hf : frameTotalOf s.cfg f = .total f.length) :
    ∃ m, wrote s.fbuf m 0 f ∧ uartRxs f s = andThen (completeFrame f { s with
      upe := { s.upe.heard with fcnt := BitVec.ofNat 16 f.length, fneed := BitVec.ofNat 16 f.length }, fbuf := m })
      trySend := by
  have hb := frameTotalOf_bounds hf
  rcases f with _ | ⟨lead, r⟩
  · simp at hb
  · have hlead : lead = s.cfg.soh ∨ lead = s.cfg.stx := by
      by_contra hn
      rw [not_or] at hn
      simp [frameTotalOf, hn.1, hn.2] at hf
    have h1 := frameTotalOf_take hf (Nat.le_refl 1) (by omega)
    simp only [List.take_succ_cons, List.take_zero] at h1
    obtain ⟨w, hw⟩ : ∃ w, (frameTotalOf s.cfg [lead] = .unknown ∧ w = 4) ∨ (frameTotalOf s.cfg [lead] = .total w) := by
      rcases h1 with h | ⟨n, h, _⟩
      · exact ⟨4, .inl ⟨h, rfl⟩⟩
      · exact ⟨n, .inr h⟩
    rw [uartRxs, uartRx_lead hl hst hc hlead hw]
    simp only [andThen]
    have hr : r ≠ [] := by rintro rfl; simp at hb
    obtain ⟨m, hm, he⟩ := uartRxs_gather r { s with
        upe := { s.upe.heard with fcnt := 1, fneed := BitVec.ofNat 16 w }, fbuf := s.fbuf.writeRun 0 [lead] }
      [lead] hl hst rfl (by
        have := Memory.readRun_snoc s.fbuf 0 lead
        simpa [Memory.readRun] using this) (by simp) hr (by simpa using hb.2)
      (fun k h1 hk => frameTotalOf_take hf h1 hk) hf
    refine ⟨m, ?_, ?_⟩
    · have hw : wrote s.fbuf (s.fbuf.writeRun 0 [lead]) 0 [lead] := fun x => Memory.read_writeRun _ _ _ _
      simpa using wrote_trans hw (by simpa using hm)
    · rw [he]; rfl

/-- A short frame is whole (rules R90, R146). -/
theorem frameTotalOf_short (c : Config) (hne : c.soh ≠ c.stx) (blk cblk : Byte) (data : Bytes) (crc : U16)
    (h : data.length ≤ 255) : frameTotalOf c (shortFrameBytes c blk cblk data crc) =
      .total (shortFrameBytes c blk cblk data crc).length := by
  rw [length_shortFrameBytes]
  have h4 : 4 ≤ (shortFrameBytes c blk cblk data crc).length := by rw [length_shortFrameBytes]; omega
  have hb : (byteAt (shortFrameBytes c blk cblk data crc) 3).toNat = data.length := by
    simp [shortFrameBytes, byteAt]; omega
  unfold shortFrameBytes at h4 hb ⊢
  simp only [frameTotalOf, if_neg hne, if_true]
  rw [if_pos h4, hb]
  simp only [FrameLen.total.injEq]
  omega

/-- A long frame is whole (rules R90, R146). -/
theorem frameTotalOf_long (c : Config) (blk cblk : Byte) (data : Bytes) (crc : U16) (h : data.length = 1024) :
    frameTotalOf c (longFrameBytes c blk cblk data crc) = .total (longFrameBytes c blk cblk data crc).length := by
  rw [length_longFrameBytes, h]
  simp [longFrameBytes, frameTotalOf, Config.longFrameLen, Config.longLen]

/-- The counters of a tick (rule R195). -/
theorem tickCounters_eq (u : Upe) : tickCounters u = u.ticked := by
  have h : ∀ x : U32, satInc x = sat32 (x.toNat + 1) := by
    intro x
    have := x.isLt
    unfold satInc sat32
    split
    · rename_i hx; subst hx; rfl
    · have hx : x.toNat ≠ 4294967295 := fun hx => by rename_i hn; exact hn (BitVec.eq_of_toNat_eq hx)
      rw [Nat.min_eq_left (by omega)]; apply BitVec.eq_of_toNat_eq; simp
  simp only [tickCounters, Upe.ticked, h]

/-- What the dispatcher does on an abort (rules R356, R436). -/
theorem releaseWriter_eq {s : State} {n : Nat} {r : List Nat} (h : nextAnswer s.ans.close (Config.freeClose s.asked) = (n, r)) :
    releaseWriter s = { s with
      ans := { s.ans with close := r }, asked := s.asked + 1
      inbox := s.inbox.take n ++ ⟨.sswClose, []⟩ :: s.inbox.drop n } := by
  simp only [releaseWriter, h]; rfl

end Sys2Proof.Machine
end

