-- ==== Sys2Proof/Laws/Ute.lean ====
section
/-! SUPPORT. What the operations of UTE do, one lemma for each. -/

namespace Sys2Proof.Machine

/-- The row of a bulk-OUT completion is the completion. -/
theorem exec_outRow {s : State} {b : Bytes} {i : Instr} (h : outRow s.cfg b i) : exec i s = outDone b s := by
  unfold outRow at h
  obtain rfl | rfl | rfl | rfl | ⟨tag, len, r, rfl, rfl⟩ | ⟨tag, len, r, rfl, rfl⟩ := h <;> rfl

/-- The row of a bulk-IN completion is the completion. -/
theorem exec_inRow {s : State} {n : U32} {i : Instr} (h : inRow n i) : exec i s = inDone n s := by
  unfold inRow at h
  obtain rfl | rfl | rfl := h <;> rfl

/-- `DISP.STATUS` (rules R233, R344). -/
theorem dispStatusCall_eq (s : State) : dispStatusCall s = (s.verdict, { s with
    ans := { s.ans with status := (nextAnswer s.ans.status (Config.freeStatus s.asked)).2 }, asked := s.asked + 1
    cdi := { s.cdi with usbRejected := false }, log := s.log ++ [.dispStatus s.verdict] }) := rfl

/-- For a rejected header the answer is not 0 (rule R344). -/
theorem verdict_ne_zero {s : State} (h : s.cdi.usbRejected = true) : s.verdict ≠ 0 := by
  unfold State.verdict; simp only [h, true_and]; split <;> simp_all

/-- `send_csw` (rule R246). -/
theorem sendCsw_eq (s : State) : sendCsw s = s.statusPhase := by
  unfold sendCsw State.statusPhase
  by_cases h : s.ute.phaseErr = true
  · simp [h, submitCsw, epSendAct, State.act, State.withUte]
  · simp [h, submitCsw, epSendAct, State.act, State.withUte, dispStatusCall_eq, cswStatusOf]
    rfl

/-! The fields of a CBW (rule R100). -/

theorem length_cbwBytes {tag len : U32} {d : Bool} {cmd : Byte} {r : CbwRest} (h : r.reserved.length = 15) :
    (cbwBytes tag len d cmd r).length = 31 := by simp [cbwBytes, h]

theorem cbwBytes_sig (tag len : U32) (d : Bool) (cmd : Byte) (r : CbwRest) :
    le32 (cbwBytes tag len d cmd r) 0 = Config.cbwSig := by
  simp only [cbwBytes, List.append_assoc]; exact le32_encLe32 _ _

theorem cbwBytes_tag (tag len : U32) (d : Bool) (cmd : Byte) (r : CbwRest) : le32 (cbwBytes tag len d cmd r) 4 = tag := by
  simp only [cbwBytes, List.append_assoc]; exact le32_at rfl

theorem cbwBytes_len (tag len : U32) (d : Bool) (cmd : Byte) (r : CbwRest) : le32 (cbwBytes tag len d cmd r) 8 = len := by
  have : cbwBytes tag len d cmd r = (encLe32 Config.cbwSig ++ encLe32 tag) ++
      (encLe32 len ++ ([flagsByte d r.flags, r.lun, r.cbLen, cmd] ++ r.reserved)) := by simp [cbwBytes]
  rw [this]; exact le32_at rfl

theorem cbwBytes_flags (tag len : U32) (d : Bool) (cmd : Byte) (r : CbwRest) :
    byteAt (cbwBytes tag len d cmd r) 12 = flagsByte d r.flags := rfl

theorem cbwBytes_cmd (tag len : U32) (d : Bool) (cmd : Byte) (r : CbwRest) :
    byteAt (cbwBytes tag len d cmd r) 15 = cmd := rfl

theorem bit7_flagsByte (d : Bool) (l : BitVec 7) : bit7 (flagsByte d l) = d := by
  unfold bit7 flagsByte
  have := l.isLt
  cases d <;> simp [BitVec.msb_eq_decide] <;> omega

/-- A good CBW is taken in and its data phase begins (rule R236). -/
theorem outReadCbw_good (s : State) (tag len : U32) (d : Bool) (cmd : Byte) (r : CbwRest)
    (h : r.reserved.length = 15) (hp : cbwPaired s.cfg cmd d = true) :
    outReadCbw (cbwBytes tag len d cmd r) s = beginData { s with ute := { s.ute with
      cbw := cbwBytes tag len d cmd r, tag := tag, dlen := len, dirIn := d, cmd := cmd, phaseErr := false,
      drain := false, moved := 0, remain := 0, taskXfer := 0, taskDone := 0, pktXfer := 0, pktDone := 0 } } := by
  unfold outReadCbw
  simp only [cbwBytes_sig, length_cbwBytes h]
  rw [if_neg (by simp [Config.cbwLen])]
  simp only [State.withUte_ute, cbwFields, cbwStart, cbwBytes_flags, cbwBytes_cmd, cbwBytes_len, bit7_flagsByte,
    State.withUte_cfg, hp, if_true, length_cbwBytes h, cbwBytes_tag]
  simp [State.withUte]

theorem ofNat_ne_zero {n : Nat} (h0 : n ≠ 0) (h : n < 2 ^ 32) : BitVec.ofNat 32 n ≠ 0 := by
  intro h'
  have h2 := congrArg BitVec.toNat h'
  rw [BitVec.toNat_ofNat, Nat.mod_eq_of_lt h] at h2
  exact h0 h2

theorem length_nextChunk (s : State) : s.nextChunk.length ≤ min s.ute.remain.toNat s.cfg.pktBufSize := by
  simp only [State.nextChunk, List.length_take]; omega

/-- `start_in_task` (rules R242, R243). -/
theorem startInTask_eq (s : State) : startInTask s = .next (s.supplied (s.pktbuf.writeRun 0 s.nextChunk)) := by
  have hle := length_nextChunk s
  have hrl := s.ute.remain.isLt
  have hm : (BitVec.ofNat 32 (min s.ute.remain.toNat s.cfg.pktBufSize)).toNat = min s.ute.remain.toNat s.cfg.pktBufSize := by
    rw [BitVec.toNat_ofNat]; exact Nat.mod_eq_of_lt (by omega)
  obtain ⟨d, hd⟩ : ∃ d, d = s.nextChunk := ⟨_, rfl⟩
  have hd' : (nextAnswer s.ans.supply (Config.freeSupply s.asked)).1.take (min s.ute.remain.toNat s.cfg.pktBufSize) = d := hd.symm
  rw [← hd] at hle ⊢
  have hdm : (BitVec.ofNat 32 d.length).toNat = d.length := by rw [BitVec.toNat_ofNat]; exact Nat.mod_eq_of_lt (by omega)
  have hmm : (BitVec.ofNat 32 (min d.length s.cfg.epMps)).toNat = min d.length s.cfg.epMps := by
    rw [BitVec.toNat_ofNat]; exact Nat.mod_eq_of_lt (by omega)
  have hread := Memory.readRun_writeRun_sub s.pktbuf 0 d 0 (min d.length s.cfg.epMps) (by omega)
  simp only [Nat.zero_add, List.drop_zero] at hread
  have hsend : ∀ (x : U32) (s4 : State), s4.ute.taskXfer = x → s4.cfg = s.cfg → s4.pktbuf = s.pktbuf.writeRun 0 d →
      s4.ute.taskXfer = BitVec.ofNat 32 d.length → s4.ute.taskDone = 0 → (if x = 0 then Host.Outcome.next (sendCsw s4) else submitInPacket s4) =
        (.next (if d = [] then s4.statusPhase else { s4 with
          ute := { s4.ute with pktXfer := BitVec.ofNat 32 (min d.length s.cfg.epMps), pktDone := 0 }
          log := s4.log ++ [.epSend (d.take (min d.length s.cfg.epMps))] }) : Result) := by
    rintro x s4 rfl hc hp hx h0
    by_cases he : d = []
    · rw [if_pos he, if_pos (by rw [hx, he]; rfl), sendCsw_eq]
    · have : d.length ≠ 0 := by simpa using he
      have hn : nextPacket s4.cfg s4.ute = BitVec.ofNat 32 (min d.length s.cfg.epMps) := by
        simp only [nextPacket, hc, hx, h0]
        rw [show BitVec.ofNat 32 d.length - 0 = BitVec.ofNat 32 d.length from BitVec.sub_zero _, hdm]
      rw [if_neg he, if_neg (by rw [hx]; exact ofNat_ne_zero this (by omega))]
      simp only [submitInPacket, readBuf, hn, hmm, h0]
      rw [show BitVec.toNat (0 : U32) = 0 from rfl, if_pos (by rw [hc]; omega)]
      simp only [withVal, epSendAct, State.act, State.withUte, hp, hread]
  unfold startInTask State.supplied
  simp only [nextTask, dispInCall, State.withUte, State.withAns, State.act, hm, hd']
  by_cases hlt : d.length < min s.ute.remain.toNat s.cfg.pktBufSize
  · simp only [hlt, if_true, writeBuf, Nat.zero_add]
    rw [if_pos (by simp only [raiseUte, State.withUte]; omega)]
    simp only [withVal, State.withPktbuf]
    refine (hsend _ _ ?_ ?_ ?_ ?_ ?_).trans ?_ <;> simp [raiseUte, State.withUte, uteErrNum]
  · have heq : min s.ute.remain.toNat s.cfg.pktBufSize = d.length := by omega
    simp only [hlt, if_false, writeBuf, Nat.zero_add]
    rw [if_pos (by omega)]
    simp only [withVal, State.withPktbuf]
    refine (hsend _ _ ?_ ?_ ?_ ?_ ?_).trans ?_ <;> simp [heq]

/-- `forward_task` (rule R241). -/
theorem forwardTask_eq (s : State) (h : s.ute.taskDone.toNat ≤ s.cfg.pktBufSize) : forwardTask s = .ok s.forwarded := by
  unfold forwardTask State.forwarded
  by_cases hd : s.ute.drain = true
  · rw [if_neg (by simp [hd]), if_pos (.inl hd)]
  · by_cases h0 : s.ute.taskDone = 0
    · rw [if_neg (by rintro ⟨-, h⟩; exact h h0), if_pos (.inr h0)]
    · have hd' : s.ute.drain = false := by simpa using hd
      rw [if_pos ⟨hd', h0⟩, if_neg (by rintro (h | h); exact hd h; exact h0 h)]
      simp only [readBuf, Nat.zero_add]
      rw [if_pos h]
      have hl : (s.pktbuf.readRun 0 s.ute.taskDone.toNat).length = s.ute.taskDone.toNat := by simp
      simp only [dispOutCall, hl]
      by_cases hc : min (nextAnswer s.ans.consumed (Config.freeConsumed s.asked)).1 s.ute.taskDone.toNat < s.ute.taskDone.toNat
      · simp [State.withAns, State.act, State.withUte, hc, raiseUte, uteErrNum]
      · simp [State.withAns, State.act, State.withUte, hc, hd']

/-- A packet of a data-out phase that fits (rule R240). -/
theorem outData_eq {s : State} {b : Bytes} (hb : b.length ≤ s.ute.pktXfer.toNat)
    (hp : s.ute.taskDone.toNat + b.length ≤ s.cfg.pktBufSize) :
    outData b s =
      if (s.received (s.pktbuf.writeRun s.ute.taskDone.toNat b) b).ute.taskDone = s.ute.taskXfer ∨
          b.length < s.ute.pktXfer.toNat then
        withVal (forwardTask (s.received (s.pktbuf.writeRun s.ute.taskDone.toNat b) b)) fun s3 =>
          if s3.ute.remain = 0 ∨ b.length < s.ute.pktXfer.toNat then .next s3.statusPhase
          else .next (startOutTask (s3.withUte { s3.ute with stage := .dataOutBuf }))
      else .next (armOutPacket ((s.received (s.pktbuf.writeRun s.ute.taskDone.toNat b) b).withUte
        { (s.received (s.pktbuf.writeRun s.ute.taskDone.toNat b) b).ute with stage := .dataOutBuf })) := by
  unfold outData
  rw [if_neg (by omega)]
  simp only [writeBuf]
  rw [if_pos hp]
  simp only [withVal, sendCsw_eq, decide_eq_true_eq]
  by_cases hs : b.length < s.ute.pktXfer.toNat <;>
    simp [hs, State.received, raiseUte, uteErrNum, State.withUte, State.withPktbuf]

end Sys2Proof.Machine
end

