-- ==== Sys2Proof/Laws/Ssw.lean ====
section
/-! SUPPORT. What the operations of SSW do, one lemma for each outcome. -/

namespace Sys2Proof.Machine

/-- `consume` (rule R286). -/
theorem consume_eq (n : Nat) (s : State) : consume n s = { s with ssw := s.ssw.ate s.cfg n } := rfl

theorem eatWord_eq (s : State) : eatWord s = { s with ssw := { s.ssw.ate s.cfg 4 with chunkRem := 0 } } := rfl

/-- `chunk_done` (rule R289). -/
theorem chunkDone_eq (s : State) : chunkDone s = s.chunkEnded (le32 s.ssw.curHdr 4) := by
  have h : ∀ t : U32, (t = 0) = (t.toNat = 0) := fun t => propext ⟨fun h => by rw [h]; rfl, fun h => BitVec.eq_of_toNat_eq h⟩
  simp only [chunkDone, State.chunkEnded, progressAct, State.act, State.withSsw, progressOf, h]

theorem advance_eq (n : Nat) (s : State) :
    advance n s = { s with ssw := { s.ssw with cursor := s.ssw.cursor + BitVec.ofNat 32 n } } := rfl

theorem failSsw_eq (e : SswCode) (s : State) : failSsw e s = { s with
    ssw := { s.ssw with err := sswNum e, fail := sswNum e, phase := .failed, leftLen := 0 } } := rfl

/-- `SSW.CLOSE` (rules R285, R350). -/
theorem sswCloseOp_eq (s : State) : sswCloseOp s =
    if s.ssw.phase = .closed then (1, s)
    else (0, { s with ssw := closedSession s.cfg, cdi := { s.cdi with owner := none } }) := rfl

@[simp] theorem length_failedBytes (c a n : Nat) : (failedBytes c a n).length = n := by simp [failedBytes]

/-- What stands in the blocks that a write or an erase names (rules R305, R310). -/
def stored (ok : Bool) (v : Bytes) (call a : Nat) : Bytes := if ok then v else failedBytes call a v.length

@[simp] theorem length_stored (ok : Bool) (v : Bytes) (c a : Nat) : (stored ok v c a).length = v.length := by
  unfold stored; split <;> simp

/-- `DEV.WRITE` (rules R305, R310). -/
theorem devWriteCall_eq {s : State} {ok : Bool} {rest : List Bool} (blk : Nat) (data : Bytes)
    (h : nextAnswer s.ans.writeOk (Config.freeWriteOk s.asked) = (ok, rest)) :
    devWriteCall blk data s = (ok, { s with
      store := s.store.writeRun (blk * s.ssw.bs.toNat) (stored ok data s.asked (blk * s.ssw.bs.toNat))
      ans := { s.ans with writeOk := rest }, asked := s.asked + 1, log := s.log ++ [.devWrite blk data ok] }) := by
  simp only [devWriteCall, h, stored]; rfl

/-- `DEV.WRITE` of what is no whole blocks (log 35): the blocks that the data touches hold anything. -/
theorem devWriteOdd_eq {s : State} {ok : Bool} {rest : List Bool} (blk : Nat) (data : Bytes)
    (h : nextAnswer s.ans.writeOk (Config.freeWriteOk s.asked) = (ok, rest)) :
    ∃ v : Bytes, v.length = touched data.length s.ssw.bs.toNat ∧ devWriteOdd blk data s = (ok, { s with
      store := s.store.writeRun (blk * s.ssw.bs.toNat) v
      ans := { s.ans with writeOk := rest }, asked := s.asked + 1, log := s.log ++ [.devWrite blk data ok] }) := by
  refine ⟨(List.range' (blk * s.ssw.bs.toNat) (touched data.length s.ssw.bs.toNat)).map (Config.freeOddByte s.asked), by simp, ?_⟩
  simp only [devWriteOdd, h]; rfl

/-- `DEV.ERASE` (rules R305, R310). -/
theorem devEraseCall_eq {s : State} {ok : Bool} {rest : List Bool} (blk n : Nat)
    (h : nextAnswer s.ans.eraseOk (Config.freeEraseOk s.asked) = (ok, rest)) :
    devEraseCall blk n s = (ok, { s with
      store := s.store.writeRun (blk * s.ssw.bs.toNat)
        (stored ok (List.replicate (n * s.ssw.bs.toNat) 0) s.asked (blk * s.ssw.bs.toNat))
      ans := { s.ans with eraseOk := rest }, asked := s.asked + 1, log := s.log ++ [.devErase blk n ok] }) := by
  simp only [devEraseCall, h, stored, List.length_replicate]; rfl

/-- The type of a header with a known type (rule R104). -/
theorem chunkKind_of {c : Config} (hok : c.ok) (ty : U16) (h : Bytes) (ht : le16 h 0 = ty) :
    (ty = c.typeRaw → chunkKind c h = some .raw) ∧ (ty = c.typeFill → chunkKind c h = some .fill) ∧
    (ty = c.typeDontCare → chunkKind c h = some .dontCare) ∧ (ty = c.typeCrc32 → chunkKind c h = some .crc32) ∧
    (ty ∉ c.chunkTypes → chunkKind c h = none) := by
  obtain ⟨⟨-, -, -, -, -, -, -, -, hn, -⟩, -⟩ := hok
  simp only [List.nodup_cons, List.mem_cons, List.not_mem_nil, or_false, not_or] at hn
  obtain ⟨⟨h1, h2, h3⟩, ⟨h4, h5⟩, h6, -⟩ := hn
  unfold chunkKind
  rw [ht]
  refine ⟨?_, ?_, ?_, ?_, ?_⟩
  · intro h; rw [if_pos h]
  · intro h; rw [if_neg (by rw [h]; exact Ne.symm h1), if_pos h]
  · intro h; rw [if_neg (by rw [h]; exact Ne.symm h2), if_neg (by rw [h]; exact Ne.symm h4), if_pos h]
  · intro h
    rw [if_neg (by rw [h]; exact Ne.symm h3), if_neg (by rw [h]; exact Ne.symm h5), if_neg (by rw [h]; exact Ne.symm h6), if_pos h]
  · intro h
    simp only [Config.chunkTypes, List.mem_cons, List.not_mem_nil, or_false, not_or] at h
    rw [if_neg h.1, if_neg h.2.1, if_neg h.2.2.1, if_neg h.2.2.2]

theorem length_chunkHeaderBytes {c : Config} {r : ChunkRest} {ty : U16} {csz tsz : U32} (h : r.wf c) :
    (chunkHeaderBytes ty r csz tsz).length = c.chunkHdrLen := by
  simp [chunkHeaderBytes]; omega

theorem length_sparseHeaderBytes {c : Config} {r : SparseRest} {major minor : U16}
    {blkSz totalBlks totalChunks : U32} (h : r.wf c) :
    (sparseHeaderBytes c major minor blkSz totalBlks totalChunks r).length = c.sparseHdrLen := by
  simp [sparseHeaderBytes]; omega

theorem chunkHeaderBytes_type (ty : U16) (r : ChunkRest) (csz tsz : U32) : le16 (chunkHeaderBytes ty r csz tsz) 0 = ty := by
  simp only [chunkHeaderBytes, List.append_assoc]; exact le16_encLe16 _ _

theorem chunkHeaderBytes_csz (ty : U16) (r : ChunkRest) (csz tsz : U32) : le32 (chunkHeaderBytes ty r csz tsz) 4 = csz := by
  have : chunkHeaderBytes ty r csz tsz = (encLe16 ty ++ encLe16 r.reserved) ++ (encLe32 csz ++ (encLe32 tsz ++ r.extra)) := by
    simp [chunkHeaderBytes]
  rw [this]; exact le32_at rfl

theorem chunkHeaderBytes_tsz (ty : U16) (r : ChunkRest) (csz tsz : U32) : le32 (chunkHeaderBytes ty r csz tsz) 8 = tsz := by
  have : chunkHeaderBytes ty r csz tsz = (encLe16 ty ++ encLe16 r.reserved ++ encLe32 csz) ++ (encLe32 tsz ++ r.extra) := by
    simp [chunkHeaderBytes]
  rw [this]; exact le32_at rfl

/-- What comes of a chunk header, whatever is made of the outcomes. -/
theorem chunkBegins.imp {s t : State} {eff : Bytes} {p p' : State → Prop} {q q' : Byte → Prop} (h : chunkBegins s t eff p q)
    (hp : ∀ u, p u → p' u) (hq : ∀ c, q c → q' c) : chunkBegins s t eff p' q' := by
  intro csz size raw blks h1 h2 h3 h4
  obtain ⟨ha, hb, hc⟩ := h csz size raw blks h1 h2 h3 h4
  refine ⟨fun w hw => ⟨fun x => hq _ ((ha w hw).1 x), fun x y z => hq _ ((ha w hw).2 x y z)⟩, fun x y => hp _ (hb x y), fun hf => ?_⟩
  exact ⟨fun x y => ⟨fun z => hp _ (((hc hf).1 x y).1 z), fun z => hp _ (((hc hf).1 x y).2 z)⟩,
    fun x y => hp _ ((hc hf).2.1 x y), fun x y => hp _ ((hc hf).2.2 x y)⟩

/-- A chunk header `h` handled as `eff` says, whose type is known (rules R290, R292, R298, R303): all that can come of it. -/
theorem takeChunk_begins {s t : State} {h eff : Bytes} {k : ChunkKind} (hok : s.cfg.ok)
    (hk : chunkKind s.cfg eff = some k)
    (ht : t = { s with ssw := { s.ssw.ate s.cfg s.cfg.chunkHdrLen with
      curHdr := eff, lastHdr := if eff = h then h else s.ssw.lastHdr
      lastValid := if eff = h then true else s.ssw.lastValid } }) :
    chunkBegins s t eff (fun u => takeChunk h eff k s = u) (fun code => takeChunk h eff k s = s.stepFailed code) := by
  obtain ⟨hr, hf, hd, hc, -⟩ := chunkKind_of hok _ eff rfl
  have hinj : ∀ {a : ChunkKind}, chunkKind s.cfg eff = some a → k = a := fun h2 => Option.some.inj (hk.symm.trans h2)
  rintro csz size raw blks rfl rfl rfl rfl
  have hlt : (le32 eff 8).toNat < 2 ^ 32 := (le32 eff 8).isLt
  refine ⟨?_, ?_, ?_⟩
  · rintro want hw
    have hw' : want = chunkWant k (le32 eff 4) s.ssw.sbs := by
      rcases hw with ⟨hty, rfl⟩ | ⟨hty, rfl⟩ | ⟨hty | hty, rfl⟩
      · rw [hinj (hr hty)]; rfl
      · rw [hinj (hf hty)]; rfl
      · rw [hinj (hd hty)]; rfl
      · rw [hinj (hc hty)]; rfl
    subst hw'
    refine ⟨fun hsz => (if_pos hsz).trans rfl, fun hsz hn hov => (if_neg (not_not.2 hsz)).trans ((if_pos ⟨?_, hov⟩).trans rfl)⟩
    rintro rfl
    rcases hw with ⟨hty, -⟩ | ⟨hty, -⟩ | ⟨hty | hty, -⟩
    · cases hinj (hr hty)
    · cases hinj (hf hty)
    · cases hinj (hd hty)
    · exact hn hty
  · intro hty hsz
    obtain rfl := hinj (hc hty)
    refine (if_neg (not_not.2 hsz)).trans ((if_neg (fun h => h.1 rfl)).trans ?_)
    rw [ht]; exact chunkDone_eq _
  · intro hfit
    refine ⟨fun hty hsz => ?_, fun hty hsz => ?_, fun hty hsz => ?_⟩
    · obtain rfl := hinj (hr hty)
      have hov : ¬ (ChunkKind.raw ≠ .crc32 ∧ _) := fun h => absurd h.2 (not_lt.2 hfit)
      refine ⟨fun h0 => ?_, fun h0 => ?_⟩
      · refine (if_neg (not_not.2 hsz)).trans ((if_neg hov).trans ((if_pos ?_).trans ?_))
        · change BitVec.ofNat 32 ((le32 eff 4).toNat * s.ssw.sbs.toNat) = 0
          rw [h0]; rfl
        · refine (chunkDone_eq _).trans ?_
          rw [ht]
          change State.chunkEnded { s with ssw := { s.ssw.ate s.cfg s.cfg.chunkHdrLen with
            curHdr := eff, lastHdr := if eff = h then h else s.ssw.lastHdr, lastValid := if eff = h then true else s.ssw.lastValid
            chunkRem := BitVec.ofNat 32 ((le32 eff 4).toNat * s.ssw.sbs.toNat) } } (le32 eff 4) = _
          rw [h0]; rfl
      · refine (if_neg (not_not.2 hsz)).trans ((if_neg hov).trans ((if_neg ?_).trans ?_))
        · change ¬ BitVec.ofNat 32 ((le32 eff 4).toNat * s.ssw.sbs.toNat) = 0
          exact ofNat_ne_zero h0 (by omega)
        · rw [ht]; rfl
    · obtain rfl := hinj (hf hty)
      refine (if_neg (not_not.2 hsz)).trans ((if_neg (fun h => absurd h.2 (not_lt.2 hfit))).trans ?_)
      rw [ht]; rfl
    · obtain rfl := hinj (hd hty)
      refine (if_neg (not_not.2 hsz)).trans ((if_neg (fun h => absurd h.2 (not_lt.2 hfit))).trans ?_)
      rw [ht]; exact chunkDone_eq _

/-- A row that is one step of the loop, in the phase it is for (rule R286). -/
theorem stepIn_go {p : Phase} {f : State → PushStep} {s u : State} (hp : s.ssw.phase = p) (h : f s = .go u) : stepIn p f s = .next u := by
  simp [stepIn, hp, h]

theorem stepIn_wait {p : Phase} {f : State → PushStep} {s : State} (h : f s = .wait) : stepIn p f s = .next s := by
  simp [stepIn, h]

/-- With nothing at hand every step waits, if a block has a byte (rule R286). -/
theorem pushStep_empty {s : State} (hok : s.cfg.ok) (h : s.ssw.hand = []) (hb : 0 < s.ssw.bs.toNat) : pushStep s = .wait := by
  obtain ⟨⟨-, -, -, -, -, -, -, -, -, -, -, -, -, -, h1, -, h2, -⟩, -⟩ := hok
  unfold pushStep
  cases s.ssw.phase <;>
    simp [stepDetect, stepSpHdr, stepSpChunkHdr, stepSpRaw, stepSpFill, stepSpDone, stepRaw, h] <;> omega

theorem pushLoop_wait {s : State} (n : Nat) (h : pushStep s = .wait) : pushLoop n s = s := by
  cases n <;> simp [pushLoop, h]

theorem pushLoop_go {s s1 : State} (n : Nat) (h : pushStep s = .go s1) :
    pushLoop (n + 1) s = if s1.ssw.phase = .failed then s1 else pushLoop n s1 := by simp [pushLoop, h]

/-- A push whose steps consume all it brings (rule R286). -/
theorem pushEnd_empty {s : State} (hp : s.ssw.phase ≠ .failed) (h : s.ssw.hand = []) :
    pushEnd s = .ok (0, { s with
      left := s.left.writeRun 0 [], ssw := { s.ssw with leftLen := 0, hand := [] } }) := by
  simp only [pushEnd, hp, if_false, writeBuf, h]
  rw [if_pos (by simp)]
  rfl

theorem pushEnd_failed {s : State} (hp : s.ssw.phase = .failed) :
    pushEnd s = .ok (s.ssw.fail, { s with ssw := { s.ssw with hand := [] } }) := by
  simp only [pushEnd, hp, if_true]; rfl

/-- A push with no leftover before it (rule R286). -/
theorem sswPushOp_fresh {s : State} {b : Bytes} (h1 : s.ssw.phase ≠ .closed) (h2 : s.ssw.phase ≠ .failed) (hb : b ≠ [])
    (hl : s.ssw.leftLen = 0) :
    sswPushOp b s = pushEnd (pushLoop (b.length + 2) { s with ssw := { s.ssw with hand := b } }) := by
  simp only [sswPushOp, h1, h2, if_false, readBuf, hl]
  rw [if_neg (by simpa using hb)]
  simp [pushFuel, Memory.readRun, State.withSsw]

end Sys2Proof.Machine
end

