-- ==== Sys2Proof/Laws/PerInstr.lean ====
section
/-! SUPPORT. Laws stated for each instruction: how many bytes its encoding takes (30_encoding.md rules R90 to R104, log 12). -/

namespace Sys2Proof.Laws.EncodedLength

open Sys2Proof.Machine

/-- Bytes of a completion's packet (log 12). -/
def completionLen : Completion → Nat
  | .out bytes => bytes.length
  | .inn _ => 4

/-- Bytes of an instruction's packet: of its wire format, or of its operands. -/
def size (c : Config) : Instr → Nat
  | .sigC => 1
  | .dc1 => 1
  | .dc2 => 1
  | .ack => 1
  | .nak => 1
  | .can => 1
  | .soh => 1
  | .stx => 1
  | .uartDropped _ => 1
  | .shortFrame _ _ data _ => 6 + data.length
  | .longFrame _ _ _ _ => 1029
  | .cbwWrite _ _ _ => 31
  | .cbwRead _ _ _ => 31
  | .cbwMalformed bytes => bytes.length
  | .csw _ _ _ => 13
  | .sparseHeader _ _ _ _ _ _ => c.sparseHdrLen
  | .chunkRaw _ _ _ => c.chunkHdrLen
  | .chunkFill _ _ _ => c.chunkHdrLen
  | .chunkDontCare _ _ _ => c.chunkHdrLen
  | .chunkCrc32 _ _ _ => c.chunkHdrLen
  | .chunkUnknown _ _ _ _ => c.chunkHdrLen
  | .commandHeader _ _ _ => c.hdrLen
  | .responseHeader _ _ _ => c.hdrLen
  | .cmdSetFwcMeta _ _ _ payload => c.hdrLen + payload.length
  | .cmdSendFwcData _ _ _ payload => c.hdrLen + payload.length
  | .cmdGetFwcCrc _ _ _ payload => c.hdrLen + payload.length
  | .cmdGetFwcBurnResult _ _ _ payload => c.hdrLen + payload.length
  | .cmdSetUpgCfg _ _ _ payload => c.hdrLen + payload.length
  | .cmdSetUpgEnd _ _ _ payload => c.hdrLen + payload.length
  | .reset => 0
  | .tick => 0
  | .uartRx _ => 1
  | .upeInit => 0
  | .upeDeinit => 0
  | .startRead _ => 4
  | .startWrite data => data.length
  | .getStatus => 0
  | .setStatus _ => 1
  | .uteInit => 0
  | .usbReset => 0
  | .outDoneReadCbw bytes => bytes.length
  | .outDoneDataOut bytes => bytes.length
  | .inDoneDataIn _ => 4
  | .inDoneWaitCsw _ => 4
  | .doneIgnored c1 => completionLen c1
  | .sswOpen _ _ _ => 12
  | .sswClose => 0
  | .sswPush bytes => bytes.length
  | .pushDetect => 0
  | .pushSpHdr => 0
  | .pushSpChunkHdr => 0
  | .pushSpRaw => 0
  | .pushSpFill => 0
  | .pushSpDone => 0
  | .pushRaw => 0
  | .sswGetResult => 0
  | .sswGetCrc => 0
  | .crc16 data => data.length
  | .packShort _ data => 1 + data.length
  | .packLong _ data => 1 + data.length
  | .packFrame _ data => 1 + data.length
  | .frameTotal pre => pre.length
  | .unpack frame => frame.length
  | .slice _ => 4
  | .split _ data => 1 + data.length
  | .hdrEncodeCmd _ _ _ _ _ => 8
  | .hdrDecodeCmd bytes => bytes.length
  | .hdrEncodeRsp _ _ _ _ _ => 8
  | .hdrDecodeRsp bytes => bytes.length
  | .handleCommand _ header payload => 4 + header.length + payload.length
  | .checkUpgMode _ => 8
  | .uartTx bytes => bytes.length
  | .epRecv _ => 4
  | .epSend bytes => bytes.length
  | .dispExpect _ _ => 5
  | .dispOut bytes => bytes.length
  | .dispIn _ => 4
  | .dispStatus => 0
  | .devWrite _ data => 4 + data.length
  | .devRead _ _ => 8
  | .devErase _ _ => 8
  | .progress _ => 1

/-- The packet of a well-formed instruction has the size its row gives it. -/
def Statement (i : Instr) : Prop := ∀ c : Config, i.wf c → (encode c i).bytes.length = size c i

theorem sigC : Statement .sigC := fun _ _ => rfl

theorem dc1 : Statement .dc1 := fun _ _ => rfl

theorem dc2 : Statement .dc2 := fun _ _ => rfl

theorem ack : Statement .ack := fun _ _ => rfl

theorem nak : Statement .nak := fun _ _ => rfl

theorem can : Statement .can := fun _ _ => rfl

theorem soh : Statement .soh := fun _ _ => rfl

theorem stx : Statement .stx := fun _ _ => rfl

theorem uartDropped (b : Byte) : Statement (.uartDropped b) := fun _ _ => rfl

theorem shortFrame (blk cblk : Byte) (data : Bytes) (crc : U16) : Statement (.shortFrame blk cblk data crc) := fun c _ => length_shortFrameBytes c _ _ _ _

theorem longFrame (blk cblk : Byte) (data : Bytes) (crc : U16) : Statement (.longFrame blk cblk data crc) := fun c h => by
  have h : data.length = 1024 := h
  have := length_longFrameBytes c blk cblk data crc
  simp only [encode, size]; omega

theorem cbwWrite (tag len : U32) (rest : CbwRest) : Statement (.cbwWrite tag len rest) := fun _ h => length_cbwBytes h

theorem cbwRead (tag len : U32) (rest : CbwRest) : Statement (.cbwRead tag len rest) := fun _ h => length_cbwBytes h

theorem cbwMalformed (bytes : Bytes) : Statement (.cbwMalformed bytes) := fun _ _ => rfl

theorem csw (tag residue : U32) (status : Byte) : Statement (.csw tag residue status) := fun _ _ => rfl

theorem sparseHeader (major minor : U16) (blkSz totalBlks totalChunks : U32) (rest : SparseRest) : Statement (.sparseHeader major minor blkSz totalBlks totalChunks rest) := fun _ h => length_sparseHeaderBytes h

theorem chunkRaw (rest : ChunkRest) (chunkSz totalSz : U32) : Statement (.chunkRaw rest chunkSz totalSz) := fun _ h => length_chunkHeaderBytes h

theorem chunkFill (rest : ChunkRest) (chunkSz totalSz : U32) : Statement (.chunkFill rest chunkSz totalSz) := fun _ h => length_chunkHeaderBytes h

theorem chunkDontCare (rest : ChunkRest) (chunkSz totalSz : U32) : Statement (.chunkDontCare rest chunkSz totalSz) := fun _ h => length_chunkHeaderBytes h

theorem chunkCrc32 (rest : ChunkRest) (chunkSz totalSz : U32) : Statement (.chunkCrc32 rest chunkSz totalSz) := fun _ h => length_chunkHeaderBytes h

theorem chunkUnknown (chunkType : U16) (rest : ChunkRest) (chunkSz totalSz : U32) : Statement (.chunkUnknown chunkType rest chunkSz totalSz) := fun _ h => length_chunkHeaderBytes h.2

theorem commandHeader (command reserved : Byte) (rest : HdrRest) : Statement (.commandHeader command reserved rest) := fun _ h => length_headerBytes h

theorem responseHeader (command status : Byte) (rest : HdrRest) : Statement (.responseHeader command status rest) := fun _ h => length_headerBytes h

theorem cmdSetFwcMeta (via : Transport) (reserved : Byte) (rest : HdrRest) (payload : Bytes) : Statement (.cmdSetFwcMeta via reserved rest payload) := fun c h => by
  simp only [encode, size, List.length_append, length_headerBytes (c := c) h]

theorem cmdSendFwcData (via : Transport) (reserved : Byte) (rest : HdrRest) (payload : Bytes) : Statement (.cmdSendFwcData via reserved rest payload) := fun c h => by
  simp only [encode, size, List.length_append, length_headerBytes (c := c) h]

theorem cmdGetFwcCrc (via : Transport) (reserved : Byte) (rest : HdrRest) (payload : Bytes) : Statement (.cmdGetFwcCrc via reserved rest payload) := fun c h => by
  simp only [encode, size, List.length_append, length_headerBytes (c := c) h]

theorem cmdGetFwcBurnResult (via : Transport) (reserved : Byte) (rest : HdrRest) (payload : Bytes) : Statement (.cmdGetFwcBurnResult via reserved rest payload) := fun c h => by
  simp only [encode, size, List.length_append, length_headerBytes (c := c) h]

theorem cmdSetUpgCfg (via : Transport) (reserved : Byte) (rest : HdrRest) (payload : Bytes) : Statement (.cmdSetUpgCfg via reserved rest payload) := fun c h => by
  simp only [encode, size, List.length_append, length_headerBytes (c := c) h]

theorem cmdSetUpgEnd (via : Transport) (reserved : Byte) (rest : HdrRest) (payload : Bytes) : Statement (.cmdSetUpgEnd via reserved rest payload) := fun c h => by
  simp only [encode, size, List.length_append, length_headerBytes (c := c) h]

theorem reset : Statement .reset := fun _ _ => rfl

theorem tick : Statement .tick := fun _ _ => rfl

theorem uartRx (b : Byte) : Statement (.uartRx b) := fun _ _ => rfl

theorem upeInit : Statement .upeInit := fun _ _ => rfl

theorem upeDeinit : Statement .upeDeinit := fun _ _ => rfl

theorem startRead (len : U32) : Statement (.startRead len) := fun _ _ => rfl

theorem startWrite (data : Bytes) : Statement (.startWrite data) := fun _ _ => rfl

theorem getStatus : Statement .getStatus := fun _ _ => rfl

theorem setStatus (code : Byte) : Statement (.setStatus code) := fun _ _ => rfl

theorem uteInit : Statement .uteInit := fun _ _ => rfl

theorem usbReset : Statement .usbReset := fun _ _ => rfl

theorem outDoneReadCbw (bytes : Bytes) : Statement (.outDoneReadCbw bytes) := fun _ _ => rfl

theorem outDoneDataOut (bytes : Bytes) : Statement (.outDoneDataOut bytes) := fun _ _ => rfl

theorem inDoneDataIn (n : U32) : Statement (.inDoneDataIn n) := fun _ _ => rfl

theorem inDoneWaitCsw (n : U32) : Statement (.inDoneWaitCsw n) := fun _ _ => rfl

theorem doneIgnored (c1 : Completion) : Statement (.doneIgnored c1) := fun _ _ => by cases c1 <;> rfl

theorem sswOpen (start size bs : U32) : Statement (.sswOpen start size bs) := fun _ _ => rfl

theorem sswClose : Statement .sswClose := fun _ _ => rfl

theorem sswPush (bytes : Bytes) : Statement (.sswPush bytes) := fun _ _ => rfl

theorem pushDetect : Statement .pushDetect := fun _ _ => rfl

theorem pushSpHdr : Statement .pushSpHdr := fun _ _ => rfl

theorem pushSpChunkHdr : Statement .pushSpChunkHdr := fun _ _ => rfl

theorem pushSpRaw : Statement .pushSpRaw := fun _ _ => rfl

theorem pushSpFill : Statement .pushSpFill := fun _ _ => rfl

theorem pushSpDone : Statement .pushSpDone := fun _ _ => rfl

theorem pushRaw : Statement .pushRaw := fun _ _ => rfl

theorem sswGetResult : Statement .sswGetResult := fun _ _ => rfl

theorem sswGetCrc : Statement .sswGetCrc := fun _ _ => rfl

theorem crc16 (data : Bytes) : Statement (.crc16 data) := fun _ _ => rfl

theorem packShort (blk : Byte) (data : Bytes) : Statement (.packShort blk data) := fun _ _ => by simp [encode, size]; omega

theorem packLong (blk : Byte) (data : Bytes) : Statement (.packLong blk data) := fun _ _ => by simp [encode, size]; omega

theorem packFrame (blk : Byte) (data : Bytes) : Statement (.packFrame blk data) := fun _ _ => by simp [encode, size]; omega

theorem frameTotal (pre : Bytes) : Statement (.frameTotal pre) := fun _ _ => rfl

theorem unpack (frame : Bytes) : Statement (.unpack frame) := fun _ _ => rfl

theorem slice (rem : U32) : Statement (.slice rem) := fun _ _ => rfl

theorem split (blk0 : Byte) (data : Bytes) : Statement (.split blk0 data) := fun _ _ => by simp [encode, size]; omega

theorem hdrEncodeCmd (protocol version command reserved : Byte) (dataLength : U32) : Statement (.hdrEncodeCmd protocol version command reserved dataLength) := fun _ _ => rfl

theorem hdrDecodeCmd (bytes : Bytes) : Statement (.hdrDecodeCmd bytes) := fun _ _ => rfl

theorem hdrEncodeRsp (protocol version command status : Byte) (dataLength : U32) : Statement (.hdrEncodeRsp protocol version command status dataLength) := fun _ _ => rfl

theorem hdrDecodeRsp (bytes : Bytes) : Statement (.hdrDecodeRsp bytes) := fun _ _ => rfl

theorem handleCommand (via : Transport) (header payload : Bytes) : Statement (.handleCommand via header payload) := fun _ _ => by simp [encode, size]; omega

theorem checkUpgMode (now : U64) : Statement (.checkUpgMode now) := fun _ _ => rfl

theorem uartTx (bytes : Bytes) : Statement (.uartTx bytes) := fun _ _ => rfl

theorem epRecv (n : U32) : Statement (.epRecv n) := fun _ _ => rfl

theorem epSend (bytes : Bytes) : Statement (.epSend bytes) := fun _ _ => rfl

theorem dispExpect (cmd : Byte) (len : U32) : Statement (.dispExpect cmd len) := fun _ _ => rfl

theorem dispOut (bytes : Bytes) : Statement (.dispOut bytes) := fun _ _ => rfl

theorem dispIn (n : U32) : Statement (.dispIn n) := fun _ _ => rfl

theorem dispStatus : Statement .dispStatus := fun _ _ => rfl

theorem devWrite (blk : U32) (data : Bytes) : Statement (.devWrite blk data) := fun _ _ => by simp [encode, size]

theorem devRead (blk n : U32) : Statement (.devRead blk n) := fun _ _ => rfl

theorem devErase (blk n : U32) : Statement (.devErase blk n) := fun _ _ => rfl

theorem progress (percent : Byte) : Statement (.progress percent) := fun _ _ => rfl

end Sys2Proof.Laws.EncodedLength
end

