-- ==== Sys2Proof/Tests/Slice0.lean ====
section
/-! SUPPORT. Tests: ill-formed terms that are refused, words written out from 30_encoding.md, one step of each unit with the results
of 95_test_vectors.md, and for each statement with hypotheses concrete operands and states that meet them. -/

namespace Sys2Proof.Tests

set_option Elab.async false

open Sys2Proof Sys2Proof.Machine

/-- The sample configuration of 95_test_vectors.md, with its sample header checksum. -/
def cfg : Config := { Config.default with hdrSum := .byteSum }

theorem cfg_ok : cfg.ok := ⟨by decide, trivial⟩

def s0 : State := { State.reset with cfg := cfg }

/-! ## Well-formedness: one ill-formed term for each check -/

theorem test_wf_uart : ¬ (Instr.uartDropped 0x43).wf cfg ∧ ¬ (Instr.shortFrame 1 0xFE (List.replicate 256 0) 0).wf cfg ∧
    ¬ (Instr.longFrame 1 0xFE [0] 0).wf cfg := by decide +kernel

theorem test_wf_usb : ¬ (Instr.cbwWrite 1 2 ⟨0, 0, 1, []⟩).wf cfg ∧ ¬ (Instr.cbwRead 1 2 ⟨0, 0, 1, []⟩).wf cfg ∧
    ¬ (Instr.cbwMalformed ([0x55, 0x53, 0x42, 0x43] ++ List.replicate 8 0 ++ [0, 0, 0, 1] ++ List.replicate 15 0)).wf cfg := by
  decide

theorem test_wf_headers : ¬ (Instr.chunkUnknown 0xCAC1 ⟨0, []⟩ 0 0).wf cfg ∧
    ¬ (Instr.commandHeader 0x10 0 ⟨1, 1, 0, [0], 0⟩).wf cfg ∧ ¬ (Instr.responseHeader 0x10 0 ⟨1, 1, 0, [0], 0⟩).wf cfg := by decide

theorem test_wf_commands : ∀ r : HdrRest, r = ⟨1, 1, 0, [0], 0⟩ → ¬ (Instr.cmdSetFwcMeta .usb 0 r []).wf cfg ∧
    ¬ (Instr.cmdSendFwcData .usb 0 r []).wf cfg ∧ ¬ (Instr.cmdGetFwcCrc .usb 0 r []).wf cfg ∧
    ¬ (Instr.cmdGetFwcBurnResult .usb 0 r []).wf cfg ∧ ¬ (Instr.cmdSetUpgCfg .usb 0 r []).wf cfg ∧
    ¬ (Instr.cmdSetUpgEnd .usb 0 r []).wf cfg := by
  rintro r rfl; decide

/-- A chunk header of 13 bytes and a sparse header of 29, where the instance has 12 and 28. -/
theorem test_wf_image : ∀ r : ChunkRest, r = ⟨0, [0]⟩ → ¬ (Instr.sparseHeader 1 0 512 110 2 ⟨0, [0]⟩).wf cfg ∧
    ¬ (Instr.chunkRaw r 1 12).wf cfg ∧ ¬ (Instr.chunkFill r 1 12).wf cfg ∧ ¬ (Instr.chunkDontCare r 1 12).wf cfg ∧
    ¬ (Instr.chunkCrc32 r 1 12).wf cfg ∧ ¬ (Instr.chunkUnknown 0xFFFF r 1 12).wf cfg := by
  rintro r rfl; decide

theorem test_wf_sizes : ¬ (Instr.startWrite (List.replicate (2 ^ 32) 0)).wf cfg ∧
    ¬ (Instr.handleCommand .usb (List.replicate (2 ^ 32) 0) []).wf cfg := by
  simp only [Instr.wf, List.length_replicate]; omega

/-! ## Words written out from the spec's encodings -/

/-- R93, with the values of rule R11, as table words. -/
theorem test_decode_control : decodeTableWord 8 0x43 = some .sigC ∧ decodeTableWord 8 0x11 = some .dc1 ∧
    decodeTableWord 8 0x12 = some .dc2 ∧ decodeTableWord 8 0x06 = some .ack ∧ decodeTableWord 8 0x15 = some .nak ∧
    decodeTableWord 8 0x18 = some .can ∧ decodeTableWord 8 0x01 = some .soh ∧ decodeTableWord 8 0x02 = some .stx ∧
    decodeTableWord 8 0x99 = some (.uartDropped 0x99) := by decide

/-- R91: SOH, block 1, its complement, 2 bytes of data, the CRC with its high byte first. -/
theorem test_decode_short : decode cfg ⟨.frameWire, [0x01, 0x01, 0xFE, 0x02, 0x68, 0x69, 0x7F, 0x0C]⟩ =
    .ok (.shortFrame 1 0xFE [0x68, 0x69] 0x7F0C) := by decide

/-- R92: STX, block 3, its complement, 1024 bytes, the CRC. -/
theorem test_decode_long : decode cfg ⟨.frameWire, [0x02, 0x03, 0xFC] ++ List.replicate 1024 0 ++ [0xAB, 0xCD]⟩ =
    .ok (.longFrame 3 0xFC (List.replicate 1024 0) 0xABCD) := by decide +kernel

/-- R100: signature, tag, length 20, flags, lun, CB length, command byte, 15 bytes. -/
theorem test_decode_cbw :
    decode cfg ⟨.outWire, [0x55, 0x53, 0x42, 0x43, 0x44, 0x33, 0x22, 0x11, 0x14, 0, 0, 0, 0, 0, 1, 1] ++ List.replicate 15 0⟩ =
      .ok (.cbwWrite 0x11223344 20 ⟨0, 0, 1, List.replicate 15 0⟩) ∧
    decode cfg ⟨.outWire, [0x55, 0x53, 0x42, 0x43, 0x44, 0x33, 0x22, 0x11, 0x14, 0, 0, 0, 0x81, 0, 1, 2] ++ List.replicate 15 7⟩ =
      .ok (.cbwRead 0x11223344 20 ⟨1, 0, 1, List.replicate 15 7⟩) ∧
    decode cfg ⟨.outWire, [0x55, 0x53]⟩ = .ok (.cbwMalformed [0x55, 0x53]) := by decide

/-- R101. -/
theorem test_decode_csw : decodeTableWord 104 0x020000000711223344_53425355 =
    some (.csw 0x11223344 7 2) := by decide

/-- R102, R103, R104: the header of the sample image of 95_test_vectors.md, and the five chunk headers. -/
theorem test_decode_sparse :
    decode cfg ⟨.imageWire, [0x3A, 0xFF, 0x26, 0xED, 1, 0, 0, 0, 0x1C, 0, 0x0C, 0, 0, 2, 0, 0, 0x6E, 0, 0, 0, 2, 0, 0, 0, 0, 0, 0, 0]⟩ =
      .ok (.sparseHeader 1 0 512 110 2 ⟨0, []⟩) ∧
    decode cfg ⟨.chunkWire, [0xC1, 0xCA, 0, 0, 0x0A, 0, 0, 0, 0x0C, 0x14, 0, 0]⟩ = .ok (.chunkRaw ⟨0, []⟩ 10 5132) ∧
    decode cfg ⟨.chunkWire, [0xC2, 0xCA, 0, 0, 2, 0, 0, 0, 0x10, 0, 0, 0]⟩ = .ok (.chunkFill ⟨0, []⟩ 2 16) ∧
    decode cfg ⟨.chunkWire, [0xC3, 0xCA, 0, 0, 0x64, 0, 0, 0, 0x0C, 0, 0, 0]⟩ = .ok (.chunkDontCare ⟨0, []⟩ 100 12) ∧
    decode cfg ⟨.chunkWire, [0xC4, 0xCA, 1, 0, 0, 0, 0, 0, 0x0C, 0, 0, 0]⟩ = .ok (.chunkCrc32 ⟨1, []⟩ 0 12) ∧
    decode cfg ⟨.chunkWire, [0xFF, 0xFF, 0, 0, 1, 0, 0, 0, 0x0C, 0, 0, 0]⟩ = .ok (.chunkUnknown 0xFFFF ⟨0, []⟩ 1 12) := by decide

/-- R98, R99: the headers of V5.1 and V5.3. -/
theorem test_decode_header :
    decode cfg ⟨.headerWire, [0x55, 0x50, 0x47, 0x43, 1, 1, 0x10, 0, 0, 2, 0, 0, 0x43, 1, 0, 0]⟩ =
      .ok (.commandHeader 0x10 0 ⟨1, 1, 512, [], 0x143⟩) ∧
    decode cfg ⟨.headerWire, [0x55, 0x50, 0x47, 0x52, 1, 1, 0x10, 0, 0, 0, 0, 0, 0x50, 1, 0, 0]⟩ =
      .ok (.responseHeader 0x10 0 ⟨1, 1, 0, [], 0x150⟩) := by decide

/-- A command header of rule R98 with command byte `c` and one byte of payload. -/
def command (c : Byte) : Packet := ⟨.commandWire .usb, [0x55, 0x50, 0x47, 0x43, 1, 1, c, 0, 1, 0, 0, 0, 0x43, 1, 0, 0, 9]⟩

theorem test_decode_command : ∀ r : HdrRest, r = ⟨1, 1, 1, [], 0x143⟩ →
    decode cfg (command 0x11) = .ok (.cmdSetFwcMeta .usb 0 r [9]) ∧ decode cfg (command 0x10) = .ok (.cmdSendFwcData .usb 0 r [9]) ∧
    decode cfg (command 0x12) = .ok (.cmdGetFwcCrc .usb 0 r [9]) ∧
    decode cfg (command 0x13) = .ok (.cmdGetFwcBurnResult .usb 0 r [9]) ∧
    decode cfg (command 0x14) = .ok (.cmdSetUpgCfg .usb 0 r [9]) ∧ decode cfg (command 0x15) = .ok (.cmdSetUpgEnd .usb 0 r [9]) ∧
    decode cfg (command 0x7E) = .error .command := by
  rintro r rfl; decide

/-- The operands of the events, calls and actions (log 12). -/
theorem test_decode_events : decode cfg ⟨.reset, []⟩ = .ok .reset ∧ decode cfg ⟨.tick, []⟩ = .ok .tick ∧
    decode cfg ⟨.uartRx, [0x43]⟩ = .ok (.uartRx 0x43) ∧ decode cfg ⟨.upeInit, []⟩ = .ok .upeInit ∧
    decode cfg ⟨.upeDeinit, []⟩ = .ok .upeDeinit ∧ decode cfg ⟨.startRead, [5, 1, 0, 0]⟩ = .ok (.startRead 261) ∧
    decode cfg ⟨.startWrite, [0x68]⟩ = .ok (.startWrite [0x68]) ∧ decode cfg ⟨.getStatus, []⟩ = .ok .getStatus ∧
    decode cfg ⟨.setStatus, [3]⟩ = .ok (.setStatus 3) ∧ decode cfg ⟨.uteInit, []⟩ = .ok .uteInit ∧
    decode cfg ⟨.usbReset, []⟩ = .ok .usbReset ∧ decode cfg ⟨.outDoneReadCbw, [1]⟩ = .ok (.outDoneReadCbw [1]) ∧
    decode cfg ⟨.outDoneDataOut, [1]⟩ = .ok (.outDoneDataOut [1]) ∧
    decode cfg ⟨.inDoneDataIn, [13, 0, 0, 0]⟩ = .ok (.inDoneDataIn 13) ∧
    decode cfg ⟨.inDoneWaitCsw, [13, 0, 0, 0]⟩ = .ok (.inDoneWaitCsw 13) ∧
    decode cfg ⟨.ignoredOut, [7]⟩ = .ok (.doneIgnored (.out [7])) ∧
    decode cfg ⟨.ignoredIn, [4, 0, 0, 0]⟩ = .ok (.doneIgnored (.inn 4)) := by decide

theorem test_decode_ssw :
    decode cfg ⟨.sswOpen, [1, 0, 0, 0, 4, 0, 0, 0, 0, 2, 0, 0]⟩ = .ok (.sswOpen 1 4 512) ∧
    decode cfg ⟨.sswClose, []⟩ = .ok .sswClose ∧ decode cfg ⟨.sswPush, [0x61]⟩ = .ok (.sswPush [0x61]) ∧
    decode cfg ⟨.pushDetect, []⟩ = .ok .pushDetect ∧ decode cfg ⟨.pushSpHdr, []⟩ = .ok .pushSpHdr ∧
    decode cfg ⟨.pushSpChunkHdr, []⟩ = .ok .pushSpChunkHdr ∧ decode cfg ⟨.pushSpRaw, []⟩ = .ok .pushSpRaw ∧
    decode cfg ⟨.pushSpFill, []⟩ = .ok .pushSpFill ∧ decode cfg ⟨.pushSpDone, []⟩ = .ok .pushSpDone ∧
    decode cfg ⟨.pushRaw, []⟩ = .ok .pushRaw ∧ decode cfg ⟨.sswGetResult, []⟩ = .ok .sswGetResult ∧
    decode cfg ⟨.sswGetCrc, []⟩ = .ok .sswGetCrc := by decide

theorem test_decode_functions : decode cfg ⟨.crc16, [1]⟩ = .ok (.crc16 [1]) ∧
    decode cfg ⟨.packShort, [1, 0x68]⟩ = .ok (.packShort 1 [0x68]) ∧ decode cfg ⟨.packLong, [1, 0x68]⟩ = .ok (.packLong 1 [0x68]) ∧
    decode cfg ⟨.packFrame, [1]⟩ = .ok (.packFrame 1 []) ∧ decode cfg ⟨.frameTotal, [2]⟩ = .ok (.frameTotal [2]) ∧
    decode cfg ⟨.unpack, [1, 1, 0xFE, 0, 0, 0]⟩ = .ok (.unpack [1, 1, 0xFE, 0, 0, 0]) ∧
    decode cfg ⟨.slice, [62, 0, 0, 0]⟩ = .ok (.slice 62) ∧ decode cfg ⟨.split, [255, 1, 2]⟩ = .ok (.split 255 [1, 2]) ∧
    decode cfg ⟨.hdrEncodeCmd, [1, 1, 0x10, 0, 0, 2, 0, 0]⟩ = .ok (.hdrEncodeCmd 1 1 0x10 0 512) ∧
    decode cfg ⟨.hdrDecodeCmd, [1]⟩ = .ok (.hdrDecodeCmd [1]) ∧
    decode cfg ⟨.hdrEncodeRsp, [1, 1, 0x10, 3, 0, 2, 0, 0]⟩ = .ok (.hdrEncodeRsp 1 1 0x10 3 512) ∧
    decode cfg ⟨.hdrDecodeRsp, [1]⟩ = .ok (.hdrDecodeRsp [1]) ∧
    decode cfg ⟨.handleCommand .uart, [2, 0, 0, 0, 8, 9, 7]⟩ = .ok (.handleCommand .uart [8, 9] [7]) ∧
    decode cfg ⟨.checkUpgMode, [1, 0, 0, 0, 2, 0, 0, 0]⟩ = .ok (.checkUpgMode 0x200000001) := by decide

theorem test_decode_actions : decode cfg ⟨.uartTx, [6]⟩ = .ok (.uartTx [6]) ∧
    decode cfg ⟨.epRecv, [31, 0, 0, 0]⟩ = .ok (.epRecv 31) ∧ decode cfg ⟨.epSend, [6]⟩ = .ok (.epSend [6]) ∧
    decode cfg ⟨.dispExpect, [1, 20, 0, 0, 0]⟩ = .ok (.dispExpect 1 20) ∧ decode cfg ⟨.dispOut, [6]⟩ = .ok (.dispOut [6]) ∧
    decode cfg ⟨.dispIn, [13, 0, 0, 0]⟩ = .ok (.dispIn 13) ∧ decode cfg ⟨.dispStatus, []⟩ = .ok .dispStatus ∧
    decode cfg ⟨.devWrite, [100, 0, 0, 0, 6]⟩ = .ok (.devWrite 100 [6]) ∧
    decode cfg ⟨.devRead, [100, 0, 0, 0, 2, 0, 0, 0]⟩ = .ok (.devRead 100 2) ∧
    decode cfg ⟨.devErase, [100, 0, 0, 0, 2, 0, 0, 0]⟩ = .ok (.devErase 100 2) ∧
    decode cfg ⟨.progress, [90]⟩ = .ok (.progress 90) := by decide

/-- A table row's word is what the next step runs (log 2). -/
theorem test_withFetchWord : step (State.reset.withFetchWord 8 0x43) = exec .sigC State.reset := rfl

/-! ## One step: the results of 95_test_vectors.md -/

/-- A field of the next state. -/
def field {α : Type} (o : Result) (f : State → α) : Option α :=
  match o with
  | .next s => some (f s)
  | .fault _ => none
  | .refused _ => none

/-- What the port of a function row hands back. -/
def ret (i : Instr) : Option (Option Ret) := field (exec i s0) State.ret

/-- UPE running, in a state and with a queue. -/
def upeS (st : UpeSt) (q : List Task) : State := { s0 with upe := { upeReset with run := true, st := st, q := q } }

def recvTask (len : U32) : Task := ⟨.recv, len, 0, []⟩
def sendTask (v : Bytes) : Task := ⟨.send, BitVec.ofNat 32 v.length, 0, Memory.ofBytes v⟩

/-- UPE with the first slice of a send task in flight. -/
def flight (v : Bytes) : State :=
  { upeS .cmdRecv [sendTask v] with
    upe := { (upeS .cmdRecv [sendTask v]).upe with awaitAck := true, slice := BitVec.ofNat 16 (sliceOf v.length) } }

/-- V2.1, V2.2, V2.4. -/
theorem test_upe_bytes : field (exec .sigC (upeS .cmdRecv [])) State.log = some [.uartTx [6]] ∧
    field (exec .dc1 (upeS .cmdRecv [])) (fun s => (s.upe.st, s.log)) = some (.dataRecv, []) ∧
    field (exec .can (upeS .cmdRecv [])) State.log = some [] ∧
    field (exec (.uartDropped 0x99) (upeS .cmdRecv [])) State.log = some [] := by decide +kernel

/-- V2.15: a send task whose turn comes with DC2 goes out. -/
theorem test_upe_dc2 : field (exec .dc2 (upeS .cmdRecv [sendTask [0x68, 0x69]])) (fun s => (s.upe.st, s.upe.awaitAck, s.log)) =
    some (.cmdRecv, true, [.uartTx [0x01, 0x01, 0xFE, 0x02, 0x68, 0x69, 0x7F, 0x0C]]) := by decide +kernel

/-- R192, R193 (program P2): ACK finishes the task, NAK sends the frame again. -/
theorem test_upe_ack : field (exec .ack (flight [0x68, 0x69])) (fun s => (s.upe.q, s.upe.statusCode, s.upe.sendBlk, s.log)) =
      some ([], 2, 2, []) ∧
    field (exec .nak (flight [0x68, 0x69])) (fun s => (s.upe.sendBlk, s.log)) =
      some (1, [.uartTx [0x01, 0x01, 0xFE, 0x02, 0x68, 0x69, 0x7F, 0x0C]]) := by decide +kernel

/-- V2.10: control byte values inside a frame are data; the task is done. -/
theorem test_upe_short : field (exec (.shortFrame 1 0xFE [0x11, 0x12, 0x43] 0x69E5) (upeS .dataRecv [recvTask 3]))
    (fun s => (s.log, s.upe.statusCode, s.finished.map (fun t => t.buf.readRun 0 3))) =
    some ([.uartTx [6]], 1, [[0x11, 0x12, 0x43]]) := by decide +kernel

/-- V2.5: a wrong CRC is refused with NAK. -/
theorem test_upe_short_bad :
    field (exec (.shortFrame 1 0xFE [0x68, 0x65, 0x6C, 0x6C, 0x6E] 0xC362) (upeS .dataRecv [recvTask 5]))
      (fun s => (s.log, s.upe.err, s.upe.lastBlk, s.upe.fresh)) = some ([.uartTx [0x15]], 1, 0, true) := by decide +kernel

set_option maxRecDepth 100000 in
/-- R180, R181, V1.29: the last byte of a long frame of zeros, block 1; with block 3 (here a sequence error) the CRC is as good. -/
theorem test_upe_long : field (exec (.uartRx 0) { upeS .dataRecv [] with
    upe := { (upeS .dataRecv []).upe with fcnt := 1028, fneed := 1029 }, fbuf := [(0, 2), (1, 3), (2, 0xFC)] })
    (fun s => (s.log, s.upe.err, s.upe.fcnt)) = some ([.uartTx [0x15]], 3, 0) := by decide +kernel

/-- V2.4 and R180: SOH and STX outside a frame in CMD_RECV are dropped, in DATA_RECV they start one. -/
theorem test_upe_lead : field (exec .soh (upeS .cmdRecv [])) (fun s => s.upe.fcnt) = some 0 ∧
    field (exec .soh (upeS .dataRecv [])) (fun s => (s.upe.fcnt, s.upe.fneed)) = some (1, 4) ∧
    field (exec .stx (upeS .dataRecv [])) (fun s => (s.upe.fcnt, s.upe.fneed)) = some (1, 1029) := by decide +kernel

/-- V2.17: the return codes of the two ports. -/
theorem test_upe_ports : field (exec (.startRead 5) (upeS .cmdRecv [])) State.ret = some (some (.code 0)) ∧
    field (exec (.startRead 0) (upeS .cmdRecv [])) State.ret = some (some (.code 2)) ∧
    field (exec (.startWrite []) (upeS .cmdRecv [])) State.ret = some (some (.code 2)) ∧
    field (exec (.startRead 5) s0) State.ret = some (some (.code 1)) := by decide +kernel

/-- V2.3, second event. -/
theorem test_upe_write : field (exec (.startWrite [0x68, 0x69]) (upeS .dataSend [])) (fun s => (s.upe.st, s.upe.slice, s.log)) =
    some (.cmdRecv, 2, [.uartTx [0x01, 0x01, 0xFE, 0x02, 0x68, 0x69, 0x7F, 0x0C]]) := by decide +kernel

/-- V2.18: the status slot after two posts. -/
theorem test_upe_status : field (andThen (exec (.setStatus 1) s0) fun s => andThen (exec (.setStatus 2) s) (exec .getStatus))
    (fun s => (s.ret, s.upe.statusOverrun, s.upe.statusValid)) = some (some (.code 2), true, false) := by decide +kernel

/-- V2.19, V2.20: a deaf engine, INIT, the session timeout (here `T_SESSION` is 50). -/
theorem test_upe_life : field (exec .upeInit s0) (fun s => (s.upe.run, s.log)) = some (true, [.uartTx [0x18]]) ∧
    field (exec .upeDeinit (upeS .cmdRecv [])) (fun s => s.upe.run) = some false ∧
    field (exec (.uartRx 0x43) s0) State.log = some [] ∧ field (exec .tick s0) (fun s => s.upe.tSess) = some 0 ∧
    field (exec .tick { s0 with upe := { (upeS .cmdRecv []).upe with tSess := 50 } }) (fun s => (s.upe.abort, s.upe.err)) =
      some (true, 8) := by decide +kernel

/-- The CBW of 95_test_vectors.md: tag, length, flags and command as given, zeros in the ignored bytes but CB length 1. -/
def rest0 : CbwRest := ⟨0, 0, 1, List.replicate 15 0⟩

/-- UTE running in a stage, with answers. -/
def uteS (a : Answers) : State := { s0 with ute := { uteReset with run := true }, ans := a }

/-- V3.1, first event. -/
theorem test_ute_write : field (exec (.cbwWrite 0x11223344 20 rest0) (uteS { noAnswers with expect := [20] }))
    (fun s => (s.ute.stage, s.log)) = some (.dataOut, [.dispExpect 1 20 20, .epRecv 20]) := by decide +kernel

/-- V3.2, first event. -/
theorem test_ute_read :
    field (exec (.cbwRead 0x11223345 3 rest0) (uteS { noAnswers with expect := [3], supply := [[1, 8, 0x0F]] }))
      (fun s => (s.ute.stage, s.log)) = some (.dataIn, [.dispExpect 2 3 3, .dispIn 3 [1, 8, 0x0F], .epSend [1, 8, 0x0F]]) := by
  decide +kernel

/-- V3.10, V3.11: malformed command blocks. -/
theorem test_ute_malformed : field (exec (.cbwMalformed (List.replicate 31 0)) (uteS noAnswers)) (fun s => (s.ute.err, s.log)) =
      some (1, [.epSend [0x55, 0x53, 0x42, 0x53, 0, 0, 0, 0, 0, 0, 0, 0, 2]]) ∧
    field (exec (.outDoneReadCbw ([0x54, 0x53, 0x42, 0x43, 0x88, 0x77, 0x66, 0x55, 0x14, 0, 0, 0, 0, 0, 1, 1] ++ List.replicate 15 0))
      (uteS noAnswers)) State.log = some [.epSend [0x55, 0x53, 0x42, 0x53, 0x88, 0x77, 0x66, 0x55, 0, 0, 0, 0, 2]] := by decide +kernel

/-- UTE in the data-out phase of V3.7: 20 bytes declared and armed. -/
def outS : State :=
  { uteS { noAnswers with consumed := [7] } with
    ute := { uteReset with
      run := true, stage := .dataOut, tag := 0x0D, dlen := 20, cmd := 1, remain := 20, taskXfer := 20, pktXfer := 20 } }

/-- V3.7: a short packet ends the data phase with a phase error. -/
theorem test_ute_short : field (exec (.outDoneDataOut [0x30, 0x31, 0x32, 0x33, 0x34, 0x35, 0x36]) outS)
    (fun s => (s.ute.err, s.ute.remain, s.log)) =
    some (3, 13, [.dispOut [0x30, 0x31, 0x32, 0x33, 0x34, 0x35, 0x36] 7,
      .epSend [0x55, 0x53, 0x42, 0x53, 0x0D, 0, 0, 0, 0x0D, 0, 0, 0, 2]]) := by decide +kernel

/-- UTE in the data-in phase of V3.9: 20 bytes declared, 5 supplied. -/
def inS : State :=
  { uteS { noAnswers with status := [0] } with
    ute := { uteReset with
      run := true, stage := .dataIn, tag := 2, dlen := 20, dirIn := true, cmd := 2, remain := 5, taskXfer := 5
      pktXfer := 5, phaseErr := true, err := 2 } }

/-- V3.9, V3.17, V3.18. -/
theorem test_ute_done : field (exec (.inDoneDataIn 5) inS) State.log =
      some [.epSend [0x55, 0x53, 0x42, 0x53, 2, 0, 0, 0, 0x0F, 0, 0, 0, 2]] ∧
    field (exec (.doneIgnored (.inn 5)) (uteS noAnswers)) id = some (uteS noAnswers) ∧
    field (exec .usbReset outS) (fun s => (s.ute.stage, s.ute.remain, s.log)) = some (.readCbw, 0, [.epRecv 31]) ∧
    field (exec .uteInit s0) (fun s => (s.ute.run, s.log)) = some (true, [.epRecv 31]) := by decide +kernel

/-- A session as SSW.OPEN leaves it, in a phase, with bytes at hand. -/
def sswS (p : Phase) (size bs : U32) (hand : Bytes) : State :=
  { s0 with
    ssw := { sswReset cfg with phase := p, partStart := 0, partSize := size, bs := bs, sbs := bs, totalBlks := 4, totalChunks := 2, hand := hand }
    ans := { noAnswers with writeOk := [true], read := [some []], eraseOk := [true] } }

/-- V4.26. -/
theorem test_ssw_open : field (exec (.sswOpen 0 4 6) s0) State.ret = some (some (.code 3)) ∧
    field (exec (.sswOpen 4294967295 2 512) s0) State.ret = some (some (.code 3)) ∧
    field (exec (.sswOpen 4294967292 4 512) s0) State.ret = some (some (.code 0)) := by decide +kernel

/-- V4.25, V4.4. -/
theorem test_ssw_push : field (exec (.sswPush [0x61]) s0) State.ret = some (some (.code 1)) ∧ ret .sswGetResult = some (some (.code 1)) ∧
    ret .sswGetCrc = some (some (.crc 1 0)) ∧ ret .sswClose = some (some (.code 1)) ∧
    field (exec (.sswPush [0x3A, 0xFF]) (sswS .detect 200 512 [])) (fun s => (s.ret, s.ssw.phase, s.ssw.leftLen)) =
      some (some (.code 0), .detect, 2) := by decide +kernel

/-- V4.4, V4.13, V4.18: a sparse header; one with no chunks; one whose block size is no multiple of 512. -/
theorem test_ssw_header : field (exec (.sparseHeader 1 0 512 110 2 ⟨0, []⟩) (sswS .detect 200 512 []))
      (fun s => (s.ssw.phase, s.ssw.transSize, s.ssw.crcWr)) = some (.spChunkHdr, 28, 0x8CF8C20B) ∧
    field (exec (.sparseHeader 1 0 512 0 0 ⟨0, []⟩) (sswS .detect 4 512 [])) (fun s => s.ssw.phase) = some .spDone ∧
    field (exec (.sparseHeader 1 0 768 0 0 ⟨0, []⟩) (sswS .detect 4 512 [])) (fun s => (s.ret, s.ssw.transSize)) = some (some (.code 4), 0) := by
  decide +kernel

/-- R290, R298: the chunk headers; V4.17: a CRC32 chunk with `total_sz` 16. -/
theorem test_ssw_chunks : field (exec (.chunkDontCare ⟨0, []⟩ 2 12) (sswS .spChunkHdr 4 512 [])) (fun s => (s.ssw.cursor, s.log)) =
      some (2, [.progress 50]) ∧
    field (exec (.chunkRaw ⟨0, []⟩ 2 1036) (sswS .spChunkHdr 4 512 [])) (fun s => (s.ssw.phase, s.ssw.chunkRem)) = some (.spRaw, 1024) ∧
    field (exec (.chunkFill ⟨0, []⟩ 2 16) (sswS .spChunkHdr 4 512 [])) (fun s => (s.ssw.phase, s.ssw.chunkRem)) = some (.spFill, 4) ∧
    field (exec (.chunkCrc32 ⟨0, []⟩ 0 12) (sswS .spChunkHdr 4 512 [])) (fun s => (s.ssw.phase, s.log)) = some (.spChunkHdr, [.progress 0]) ∧
    field (exec (.chunkCrc32 ⟨0, []⟩ 0 16) (sswS .spChunkHdr 4 512 [])) State.ret = some (some (.code 5)) ∧
    field (exec (.chunkUnknown 0xFFFF ⟨0, []⟩ 1 12) (sswS .spChunkHdr 4 512 [])) State.ret = some (some (.code 6)) := by decide +kernel

/-- R293, R294, R299, R301: the steps of a running PUSH. -/
theorem test_ssw_steps : field (exec .pushDetect (sswS .detect 4 4 [0x3A, 0xFF, 0x26, 0xED])) (fun s => s.ssw.phase) = some .spHdr ∧
    field (exec .pushSpHdr (sswS .spHdr 4 4 [1])) id = some (sswS .spHdr 4 4 [1]) ∧
    field (exec .pushSpChunkHdr (sswS .spChunkHdr 4 4 [1])) id = some (sswS .spChunkHdr 4 4 [1]) ∧
    field (exec .pushSpDone (sswS .spDone 4 4 [1])) (fun s => s.ssw.fail) = some 9 ∧
    field (exec .pushRaw (sswS .raw 4 4 [1, 2, 3, 4, 5])) (fun s => (s.ssw.cursor, s.ssw.hand, s.store.readRun 0 5, s.log)) =
      some (1, [5], [1, 2, 3, 4, 0], [.devWrite 0 [1, 2, 3, 4] true, .devRead 0 1 (some [1, 2, 3, 4])]) := by decide +kernel

theorem test_ssw_payload :
    field (exec .pushSpRaw { sswS .spRaw 4 4 [1, 2, 3, 4, 5] with ssw := { (sswS .spRaw 4 4 [1, 2, 3, 4, 5]).ssw with chunkRem := 4 } })
      (fun s => (s.ssw.phase, s.ssw.cursor, s.ssw.hand, s.store.readRun 0 5)) = some (.spChunkHdr, 1, [5], [1, 2, 3, 4, 0]) ∧
    field (exec .pushSpFill { sswS .spFill 4 8 [0xDE, 0xAD, 0xBE, 0xEF] with
        ssw := { (sswS .spFill 4 8 [0xDE, 0xAD, 0xBE, 0xEF]).ssw with curHdr := [0xC2, 0xCA, 0, 0, 1, 0, 0, 0, 16, 0, 0, 0] } })
      (fun s => (s.ssw.cursor, s.store.readRun 0 9)) = some (1, [0xDE, 0xAD, 0xBE, 0xEF, 0xDE, 0xAD, 0xBE, 0xEF, 0]) := by decide +kernel

set_option maxRecDepth 100000 in
/-- V1.5, V1.9, V1.18. -/
theorem test_fc_crc16 : ret (.crc16 [0xFF]) = some (some (.u16 0x1EF0)) ∧
    ret (.crc16 [0x31, 0x32, 0x33, 0x34, 0x35, 0x36, 0x37, 0x38, 0x39]) = some (some (.u16 0x31C3)) ∧
    ret (.crc16 (List.replicate 1024 0xFF)) = some (some (.u16 0xC084)) := by decide +kernel

/-- The check value of zlib's CRC-32 over "123456789" (rule R283). -/
theorem test_crc32 : crc32Update .zlib 0 [0x31, 0x32, 0x33, 0x34, 0x35, 0x36, 0x37, 0x38, 0x39] = 0xCBF43926 := by decide +kernel

set_option maxRecDepth 100000 in
/-- V1.20, V1.21, V1.28, V1.30, V1.31. -/
theorem test_fc_pack : ret (.packShort 1 []) = some (some (.bytes [1, 1, 0xFE, 0, 0, 0])) ∧
    ret (.packShort 0 [0x41]) = some (some (.bytes [1, 0, 0xFF, 1, 0x41, 0x58, 0xE5])) ∧
    ret (.packLong 0x80 (List.replicate 1024 0xFF)) = some (some (.bytes ([2, 0x80, 0x7F] ++ List.replicate 1024 0xFF ++ [0xC0, 0x84]))) ∧
    ret (.packFrame 1 (List.replicate 62 0)) = some (some (.fcErr .len)) := by decide +kernel

/-- V1.32, V1.33, V1.35, V1.39. -/
theorem test_fc_total : ret (.frameTotal [2]) = some (some (.frameLen (.total 1029))) ∧
    ret (.frameTotal [1, 1, 0xFE]) = some (some (.frameLen .unknown)) ∧ ret (.frameTotal [1, 1, 0xFE, 5]) = some (some (.frameLen (.total 11))) ∧
    ret (.frameTotal [6]) = some (some (.fcErr .frame)) := by decide +kernel

/-- V1.40 to V1.45. -/
theorem test_fc_unpack : ret (.unpack [1, 1, 0xFE, 5, 0x68, 0x65, 0x6C, 0x6C, 0x6F, 0xC3, 0x62]) =
      some (some (.unpacked 1 [0x68, 0x65, 0x6C, 0x6C, 0x6F])) ∧
    ret (.unpack [1, 1, 0xFE, 5, 0x68, 0x65, 0x6C, 0x6C, 0x6E, 0xC3, 0x62]) = some (some (.fcErr .data)) ∧
    ret (.unpack [1, 2, 0xFE, 0, 0, 0]) = some (some (.fcErr .frame)) ∧
    ret (.unpack ([1, 1, 0xFE, 0x3E] ++ List.replicate 64 0)) = some (some (.fcErr .frame)) := by decide +kernel

/-- V1.50 to V1.52. -/
theorem test_fc_slice : [1, 60, 61, 62, 122, 1023, 1024, 2109].map sliceOf = [1, 60, 61, 61, 61, 61, 1024, 1024] := by decide +kernel

/-- V1.55. -/
theorem test_fc_split : splitOf cfg 255 ((List.range 100).map (BitVec.ofNat 8)) =
    [[1, 0xFF, 0, 0x3D] ++ (List.range 61).map (BitVec.ofNat 8) ++ [0xE5, 0x20],
     [1, 0, 0xFF, 0x27] ++ (List.range' 61 39).map (BitVec.ofNat 8) ++ [0x27, 0x7E]] := by decide +kernel

/-- V5.1 to V5.6. -/
theorem test_cdi_header : ret (.hdrEncodeCmd 1 1 0x10 0 512) =
      some (some (.bytes [0x55, 0x50, 0x47, 0x43, 1, 1, 0x10, 0, 0, 2, 0, 0, 0x43, 1, 0, 0])) ∧
    ret (.hdrEncodeRsp 1 1 0x10 0 0) = some (some (.bytes [0x55, 0x50, 0x47, 0x52, 1, 1, 0x10, 0, 0, 0, 0, 0, 0x50, 1, 0, 0])) ∧
    ret (.hdrDecodeCmd [0x55, 0x50, 0x47, 0x43, 1, 1, 0x11, 0, 0, 2, 0, 0, 0x43, 1, 0, 0]) = some (some (.cdiErr .checksum)) ∧
    ret (.hdrDecodeCmd [0x54, 0x50, 0x47, 0x43, 1, 1, 0x10, 0, 0, 2, 0, 0, 0x43, 1, 0, 0]) = some (some (.cdiErr .hdr)) ∧
    ret (.commandHeader 0x10 0 ⟨1, 1, 512, [], 0x143⟩) = some (some (.record ⟨1, 1, 0x10, 0, 512⟩)) := by decide +kernel

/-- The header rest of a command with a good byte sum and `n` payload bytes. -/
def hdrRest (sum n : U32) : HdrRest := ⟨1, 1, n, [], sum⟩

/-- V5.10: a payload that the writer takes; R348: an unknown command. -/
theorem test_cdi_command : field (exec (.cmdSendFwcData .usb 0 (hdrRest 0x142 1) [0x61]) (sswS .detect 4 512 [])) State.ret =
      some (some (.response [0x55, 0x50, 0x47, 0x52, 1, 1, 0x10, 0, 0, 0, 0, 0, 0x50, 1, 0, 0] [])) ∧
    field (exec (.handleCommand .usb [0x55, 0x50, 0x47, 0x43, 1, 1, 0x7E, 0, 0, 0, 0, 0, 0xAF, 1, 0, 0] []) s0) State.ret =
      some (some (.response [0x55, 0x50, 0x47, 0x52, 1, 1, 0x7E, 1, 0, 0, 0, 0, 0xBF, 1, 0, 0] [])) := by decide +kernel

/-- The dispatcher with BurnUserId in InitMode (V5.20). -/
def cdiS (mode : UpgradeMode) (set : Bool) : State := { s0 with cdi := { cdiReset with initMode := [.burnUserId], mode := mode, modeSet := set } }

/-- V5.20: inside the window, past it, and with the mode set. -/
theorem test_cdi_mode : field (exec (.checkUpgMode 400) (cdiS .invalid false)) State.ret = some (some (.exitUpgrade false)) ∧
    field (exec (.checkUpgMode 1001) (cdiS .invalid false)) State.ret = some (some (.exitUpgrade true)) ∧
    field (exec (.checkUpgMode 1500) (cdiS .burnUserId true)) (fun s => (s.ret, s.cdi.tStart, s.cdi.modeSet)) =
      some (some (.exitUpgrade false), 1500, false) := by decide +kernel

/-- R8, R310: actions and device calls. -/
theorem test_actions : field (exec (.epSend [1]) s0) State.log = some [.epSend [1]] ∧
    field (exec (.devWrite 2 [1, 2, 3, 4]) (sswS .raw 4 4 [])) (fun s => (s.store, s.log)) =
      some ([(8, 1), (9, 2), (10, 3), (11, 4)], [.devWrite 2 [1, 2, 3, 4] true]) ∧
    field (exec (.devErase 2 1) { sswS .raw 4 4 [] with store := [(8, 1), (12, 9)] }) State.store = some [(12, 9)] := by decide +kernel

/-- R67, log 35: DEV.WRITE of three bytes where a block has four runs; it touches one block. -/
theorem test_dev_write_odd : field (exec (.devWrite 2 [1, 2, 3]) (sswS .raw 4 4 [])) State.log = some [.devWrite 2 [1, 2, 3] true] ∧
    touched 3 4 = 4 ∧ touched 5 4 = 8 ∧ touched 0 4 = 0 ∧ touched 3 0 = 0 := ⟨rfl, by decide⟩

/-- R146, R147, log 35: FRAME_TOTAL of no byte and UNPACK of half a frame hand something back. -/
theorem test_fc_free : (ret (.frameTotal [])).isSome = true ∧ (ret (.unpack [1, 1])).isSome = true := ⟨rfl, rfl⟩

/-- R344: after a rejected header on USB an answer 0 of DISP.STATUS is raised to 1, once. -/
theorem test_cdi_rejected : field (andThen (exec (.handleCommand .usb [] []) { s0 with ans := { noAnswers with status := [0, 0] } })
    fun s => andThen (exec .dispStatus s) (exec .dispStatus)) State.log = some [.dispStatus 1, .dispStatus 0] := by decide +kernel

/-- R356, R436: the abort of the engine makes SSW.CLOSE a pending event, here after one that waits; when its turn comes the session is
closed. -/
theorem test_cdi_abort : ∀ s, s = { sswS .detect 4 4 [] with
      upe := { (upeS .cmdRecv []).upe with tSess := 50 }, cdi := { cdiReset with owner := some .uart }
      inbox := [⟨.getStatus, []⟩], ans := { noAnswers with close := [1] } } →
    field (exec .tick s) (fun t => (t.upe.abort, t.ssw.phase, t.inbox)) =
      some (true, .detect, [⟨.getStatus, []⟩, ⟨.sswClose, []⟩]) ∧
    field (andThen (exec .tick s) fun t => andThen (step t) step) (fun t => (t.ssw.phase, t.cdi.owner, t.inbox)) =
      some (.closed, none, []) := by
  rintro s rfl; decide +kernel

/-- R411 to R414: RESET keeps STORE. -/
theorem test_reset : field (exec .reset { outS with store := [(8, 1)] }) id = some { s0 with ans := outS.ans, store := [(8, 1)] } := by decide +kernel

/-! ## Witnesses: operands and states that meet the hypotheses of each statement -/

theorem test_witness_PingAnswered : (upeS .cmdRecv []).listening ∧ (upeS .cmdRecv []).quiet ∧
    inFrame cfg (upeS .cmdRecv []).upe cfg.sigC = false ∧ (upeS .dataRecv [recvTask 5]).listening ∧
    (upeS .dataRecv [recvTask 5]).quiet ∧ inFrame cfg (upeS .dataRecv [recvTask 5]).upe cfg.sigC = false := by decide

theorem test_witness_DirectionSwitched : cfg.ok ∧ (upeS .cmdRecv [sendTask [1]]).listening ∧
    inFrame cfg (upeS .cmdRecv [sendTask [1]]).upe cfg.dc1 = false ∧ inFrame cfg (upeS .cmdRecv [recvTask 1]).upe cfg.dc2 = false ∧
    (∀ t ∈ (announced .send [recvTask 1]).head?, t.dir = .recv) ∧
    (∀ t ∈ (announced .send [recvTask 1, recvTask 2]).head?, t.dir = .recv) ∧
    announced .send [recvTask 1, sendTask [1]] = [sendTask [1]] ∧ announced .send [sendTask [1]] = [sendTask [1]] ∧
    (sendTask [1]).dir = .send ∧ (sendTask [1]).done.toNat < (sendTask [1]).len.toNat := ⟨cfg_ok, by decide⟩

theorem test_witness_AckAndNak : cfg.ok ∧ (flight [1, 2]).listening ∧ UpeInv (flight [1, 2]) ∧ (flight [1, 2]).upe.awaitAck = true ∧
    (flight [1, 2]).upe.q = [sendTask [1, 2]] ∧ (sendTask [1, 2]).done.toNat + (flight [1, 2]).upe.slice.toNat = (sendTask [1, 2]).len.toNat ∧
    UpeInv (flight (List.replicate 62 1)) ∧ (flight (List.replicate 62 1)).upe.q = [sendTask (List.replicate 62 1)] ∧
    (sendTask (List.replicate 62 1)).done.toNat + (flight (List.replicate 62 1)).upe.slice.toNat <
      (sendTask (List.replicate 62 1)).len.toNat := ⟨cfg_ok, by decide +kernel⟩

theorem test_witness_ByteDropped : (upeS .cmdRecv []).listening ∧ (upeS .cmdRecv []).quiet ∧
    (∀ b ∈ [cfg.can, 0x99, cfg.ack, cfg.soh], inFrame cfg (upeS .cmdRecv []).upe b = false ∧ b ∉ [cfg.sigC, cfg.dc1, cfg.dc2]) ∧
    byteRow cfg cfg.can .can ∧ byteRow cfg 0x99 (.uartDropped 0x99) ∧ (flight [1]).upe.awaitAck = true ∧ cfg.can ∉ [cfg.ack, cfg.nak] := by
  decide

/-- UPE inside a frame, with the bytes and the FNEED given. -/
def inside (p : Bytes) (need : U16) : State :=
  { upeS .dataRecv [] with
    upe := { (upeS .dataRecv []).upe with fcnt := BitVec.ofNat 16 p.length, fneed := need }, fbuf := Memory.ofBytes p }

/-- A frame boundary; inside a frame: after the lead byte, before the length byte, before the last byte but one, and in a long frame. -/
theorem test_witness_FrameBytesGathered : cfg.ok ∧ (upeS .dataRecv []).listening ∧ (upeS .dataRecv []).upe.st = .dataRecv ∧
    (upeS .dataRecv []).upe.fcnt = 0 ∧ byteRow cfg cfg.sigC .sigC ∧
    (∀ p ∈ [([0x01], 4), ([0x01, 0x01, 0xFE], 4), ([0x01, 0x01, 0xFE, 0x01, 0x61], 7), ([0x02], 1029)],
      (inside p.1 p.2).listening ∧ UpeInv (inside p.1 p.2) ∧ (inside p.1 p.2).upe.st = .dataRecv ∧ 0 < (inside p.1 p.2).upe.fcnt.toNat ∧
      (inside p.1 p.2).fbuf.readRun 0 p.1.length = p.1 ∧ (p.1 ++ [cfg.sigC]).length < frameNeed cfg (p.1 ++ [cfg.sigC])) :=
  ⟨cfg_ok, by decide +kernel⟩

/-- R172, R180: SIG_C inside a frame is data: as the length byte it makes FNEED 4 + 67 + 2. -/
theorem test_upe_inside : field (exec .sigC (inside [0x01, 0x01, 0xFE] 4)) (fun s => (s.upe.fcnt, s.upe.fneed, s.fbuf.read 3, s.log)) =
    some (4, 73, 0x43, []) := by decide +kernel

/-- UPE one byte short of the short frame `p ++ [b]`, with the block numbers and the queue given. -/
def lastByte (p : Bytes) (fresh : Bool) (lastBlk : Byte) (q : List Task) : State :=
  { upeS .dataRecv q with
    upe := { (upeS .dataRecv q).upe with
      fcnt := BitVec.ofNat 16 p.length, fneed := BitVec.ofNat 16 (p.length + 1), fresh := fresh, lastBlk := lastBlk }
    fbuf := Memory.ofBytes p }

/-- The frame of V2.8 without its last byte, and that byte. -/
def frameA : Bytes := [0x01, 0x01, 0xFE, 0x01, 0x61, 0x7C]

theorem test_witness_FrameCompleted : (lastByte frameA true 0 []).listening ∧ UpeInv (lastByte frameA true 0 []) ∧
    0 < (lastByte frameA true 0 []).upe.fcnt.toNat ∧ byteRow cfg 0x87 (.uartDropped 0x87) ∧
    frameTotalOf cfg ((lastByte frameA true 0 []).fbuf.readRun 0 6 ++ [0x87]) = .total 7 ∧
    unpackOf cfg (frameA ++ [0x88]) = .error .data ∧ unpackOf cfg (frameA ++ [0x87]) = .ok (1, [0x61]) ∧
    (∀ t ∈ ([] : List Task).head?, t.dir = .send) := by
  refine ⟨by decide +kernel, by decide +kernel, by decide, by decide, by decide +kernel, by rfl, by rfl, by decide⟩

/-- A frame that its task has room for, to spare and to the last byte. -/
theorem test_witness_FrameCompleted_kept : UpeInv (lastByte frameA true 0 [recvTask 2]) ∧ UpeInv (lastByte frameA true 0 [recvTask 1]) ∧
    (recvTask 2).dir = .recv ∧ (recvTask 2).done.toNat + 1 < (recvTask 2).len.toNat ∧ (recvTask 1).done.toNat + 1 = (recvTask 1).len.toNat := by
  refine ⟨by decide +kernel, by decide +kernel, rfl, by decide, by decide⟩

/-- Codes 3 and the duplicate: block 1 after block 5, and after block 1. -/
theorem test_witness_FrameCompleted_seq : UpeInv (lastByte frameA false 5 []) ∧ (1 : Byte) ≠ 5 + 1 ∧
    ¬ (false = false ∧ (1 : Byte) = 5) ∧ UpeInv (lastByte frameA false 1 []) := by
  refine ⟨by decide +kernel, by decide, by decide, by decide +kernel⟩

/-- Code 5 with the invariant: two bytes of data for a task that wants one. -/
theorem test_witness_FrameCompleted_overflow : UpeInv (lastByte [0x01, 0x01, 0xFE, 0x02, 0x68, 0x69, 0x7F] true 0 [recvTask 1]) ∧
    unpackOf cfg [0x01, 0x01, 0xFE, 0x02, 0x68, 0x69, 0x7F, 0x0C] = .ok (1, [0x68, 0x69]) ∧
    (∃ t ∈ [recvTask 1].head?, t.dir = .recv ∧ t.len.toNat - t.done.toNat < 2) := by
  refine ⟨by decide +kernel, by decide +kernel, by decide⟩

theorem test_witness_FramesAccepted : cfg.ok ∧ (upeS .dataRecv [recvTask 61]).listening ∧ UpeInv (upeS .dataRecv [recvTask 61]) ∧
    (upeS .dataRecv [recvTask 61]).upe.st = .dataRecv ∧ (upeS .dataRecv [recvTask 61]).upe.fcnt = 0 ∧
    ((upeS .dataRecv [recvTask 61]).upe.fresh = true ∧ (1 : Byte) = 1) ∧ (List.replicate 61 (7 : Byte)).length ≤ 61 ∧
    (recvTask 61).done.toNat + (List.replicate 61 (7 : Byte)).length = (recvTask 61).len.toNat ∧ (recvTask 61).dir = .recv ∧
    (recvTask 61).done.toNat + ([] : Bytes).length < (recvTask 61).len.toNat ∧ UpeInv (upeS .dataRecv [recvTask 1024]) := ⟨cfg_ok, by decide⟩

/-- A long frame that fills its task. -/
theorem test_witness_FramesAccepted_long : (List.replicate 1024 (7 : Byte)).length = 1024 ∧
    (recvTask 1024).done.toNat + (List.replicate 1024 (7 : Byte)).length = (recvTask 1024).len.toNat :=
  ⟨List.length_replicate, by rw [List.length_replicate]; decide⟩

theorem test_witness_FramesRefused : cfg.ok ∧ (upeS .dataRecv []).listening ∧ UpeInv (upeS .dataRecv []) ∧
    (upeS .dataRecv []).upe.st = .dataRecv ∧ (upeS .dataRecv []).upe.fcnt = 0 ∧
    (61 < (List.replicate 62 (0 : Byte)).length ∧ (List.replicate 255 (0 : Byte)).length ≤ 255) ∧
    (1 : Byte).toNat + (0xFF : Byte).toNat ≠ 255 ∧ ((1 : Byte).toNat + (0xFE : Byte).toNat = 255 ∧ (1 : U16) ≠ crc16Of cfg.crc16 []) := ⟨cfg_ok, by decide +kernel⟩

theorem test_witness_MaskedDropped : ¬ s0.listening ∧ byteRow cfg 0x43 .sigC ∧ s0.ute.run = false ∧
    ¬ { upeS .cmdRecv [] with upe := { (upeS .cmdRecv []).upe with abort := true } }.listening := by decide

/-- UPE with its counters set. -/
def ticking (u : Upe) (tByte tWait tSess : U32) : State := { s0 with upe := { u with tByte := tByte, tWait := tWait, tSess := tSess }, fbuf := [(0, 1)] }

/-- The sample thresholds are 3, 5 and 50 ticks: each at its boundary. -/
theorem test_witness_TickTimers :
    (∀ s ∈ [ticking (flight [1]).upe 0 4 49, ticking (flight [1]).upe 0 5 49,
        ticking { (upeS .dataRecv []).upe with fcnt := 1, fneed := 4 } 3 0 49,
        ticking { (upeS .dataRecv []).upe with fcnt := 1, fneed := 4 } 2 0 49, ticking (flight [1]).upe 0 5 50], s.listening ∧ UpeInv s) ∧
    ((ticking (flight [1]).upe 0 4 49).upe.ticked.tSess.toNat ≤ cfg.tSession ∧ (ticking (flight [1]).upe 0 4 49).upe.ticked.tWait.toNat ≤ cfg.tAck) ∧
    cfg.tAck < (ticking (flight [1]).upe 0 5 49).upe.ticked.tWait.toNat ∧ cfg.tSession < (ticking (flight [1]).upe 0 5 50).upe.ticked.tSess.toNat ∧
    cfg.tFrame < (ticking (upeS .dataRecv []).upe 3 0 49).upe.ticked.tByte.toNat ∧
    (ticking (upeS .dataRecv []).upe 2 0 49).upe.ticked.tByte.toNat ≤ cfg.tFrame := by decide +kernel

theorem test_witness_UpeStartsAndStops : (upeS .dataSend []).listening ∧ ¬ s0.listening ∧
    ¬ { upeS .dataSend [] with upe := { (upeS .dataSend []).upe with abort := true } }.listening := by decide

theorem test_witness_TasksEnqueued : ([7] : Bytes).length < 2 ^ 32 ∧ ¬ s0.listening ∧ (upeS .cmdRecv []).listening ∧
    (upeS .cmdRecv (List.replicate 4 (recvTask 1))).upe.q.length = cfg.qCap ∧ (upeS .cmdRecv []).upe.q.length < cfg.qCap ∧
    (upeS .cmdRecv []).quiet ∧ (upeS .cmdRecv []).upe.st ≠ .dataSend ∧ (upeS .dataSend []).listening ∧ (upeS .dataSend []).upe.st = .dataSend ∧
    (upeS .dataSend []).upe.q = [] ∧ (upeS .dataSend [recvTask 1]).quiet ∧ (upeS .dataSend [recvTask 1]).upe.q ≠ [] := by decide

theorem test_witness_StatusSlot : s0.upe.statusValid = false ∧ { s0 with upe := { s0.upe with statusValid := true } }.upe.statusValid = true := by
  decide

theorem test_witness_UteStarts : (uteS noAnswers).ute.run = true := by decide

theorem test_witness_WriteDeclared : (uteS noAnswers).ute.run = true ∧ (uteS noAnswers).ute.stage = .readCbw ∧ rest0.reserved.length = 15 ∧
    (1 : U32) ≠ 0 ∧ nextAnswer (uteS { noAnswers with expect := [1] }).ans.expect (Config.freeExpect 0) = (1, []) := by decide

theorem test_witness_ReadDeclared : cfg.ok ∧ (uteS noAnswers).ute.run = true ∧ (uteS noAnswers).ute.stage = .readCbw ∧
    rest0.reserved.length = 15 ∧ (1 : U32) ≠ 0 ∧ (2 : U32) ≠ 0 ∧
    nextAnswer (uteS { noAnswers with expect := [2] }).ans.expect (Config.freeExpect 0) = (2, []) := ⟨cfg_ok, by decide⟩

theorem test_witness_NothingToMove : (uteS noAnswers).ute.run = true ∧ (uteS noAnswers).ute.stage = .readCbw ∧ rest0.reserved.length = 15 ∧
    ((0 : U32) = 0 ∨ (false = true ∧ (7 : U32) = 0)) ∧ ((9 : U32) = 0 ∨ (true = true ∧ (0 : U32) = 0)) ∧
    nextAnswer (uteS { noAnswers with expect := [0] }).ans.expect (Config.freeExpect 0) = (0, []) := by decide

theorem test_witness_CbwMalformed : (uteS noAnswers).ute.run = true ∧ (uteS noAnswers).ute.stage = .readCbw ∧
    (List.replicate 8 (0 : Byte)).length ≠ 31 ∧ le32 (List.replicate 31 0) 0 ≠ 0x43425355 ∧
    (∀ b ∈ [cbwBytes 9 20 true 1 rest0, cbwBytes 9 20 false 0x7F rest0], b.length = 31 ∧ le32 b 0 = 0x43425355 ∧
      ¬ (byteAt b 15 = cfg.usbCmdWrite ∧ bit7 (byteAt b 12) = false) ∧ ¬ (byteAt b 15 = cfg.usbCmdRead ∧ bit7 (byteAt b 12) = true)) := by
  decide

/-- UTE in a data phase with the counters given. -/
def dataS (stage : Stage) (dlen remain taskXfer taskDone pktXfer : U32) : State :=
  { outS with
    ute := { outS.ute with
      stage := stage, dlen := dlen, remain := remain, taskXfer := taskXfer, taskDone := taskDone, pktXfer := pktXfer } }

/-- More packets of a task, the last packet of a task, of the phase, and a short packet. -/
theorem test_witness_DataOutTaken : cfg.ok ∧
    (∀ s ∈ [dataS .dataOut 1024 1024 1024 0 512, dataS .dataOutBuf 2048 1536 1024 512 512, dataS .dataOutBuf 1024 512 1024 512 512],
      s.ute.run = true ∧ UteInv s ∧ (s.ute.stage = .dataOut ∨ s.ute.stage = .dataOutBuf)) ∧
    (List.replicate 512 (7 : Byte)).length = (dataS .dataOut 1024 1024 1024 0 512).ute.pktXfer.toNat ∧
    (dataS .dataOut 1024 1024 1024 0 512).ute.taskDone.toNat + 512 < (dataS .dataOut 1024 1024 1024 0 512).ute.taskXfer.toNat ∧
    ((dataS .dataOutBuf 2048 1536 1024 512 512).ute.taskDone.toNat + 512 = (dataS .dataOutBuf 2048 1536 1024 512 512).ute.taskXfer.toNat ∧
      512 < (dataS .dataOutBuf 2048 1536 1024 512 512).ute.remain.toNat) ∧
    512 = (dataS .dataOutBuf 1024 512 1024 512 512).ute.remain.toNat ∧
    ([] : Bytes).length < (dataS .dataOut 1024 1024 1024 0 512).ute.pktXfer.toNat ∧
    (dataS .dataOut 1024 1024 1024 0 512).ute.pktXfer.toNat < (List.replicate 513 (7 : Byte)).length := ⟨cfg_ok, by decide +kernel⟩

theorem test_witness_DataInSent : cfg.ok ∧
    (∀ s ∈ [dataS .dataIn 1024 1024 1024 0 512, dataS .dataInBuf 2048 1536 1024 512 512, dataS .dataInBuf 1024 512 1024 512 512],
      s.ute.run = true ∧ UteInv s ∧ (s.ute.stage = .dataIn ∨ s.ute.stage = .dataInBuf) ∧ (512 : U32).toNat ≤ s.ute.pktXfer.toNat) ∧
    (dataS .dataIn 1024 1024 1024 0 512).ute.taskDone.toNat + (512 : U32).toNat < (dataS .dataIn 1024 1024 1024 0 512).ute.taskXfer.toNat ∧
    ((dataS .dataInBuf 2048 1536 1024 512 512).ute.taskDone.toNat + (512 : U32).toNat = (dataS .dataInBuf 2048 1536 1024 512 512).ute.taskXfer.toNat ∧
      (512 : U32).toNat < (dataS .dataInBuf 2048 1536 1024 512 512).ute.remain.toNat) ∧
    (512 : U32).toNat = (dataS .dataInBuf 1024 512 1024 512 512).ute.remain.toNat ∧
    (dataS .dataIn 1024 1024 1024 0 512).ute.pktXfer.toNat < (513 : U32).toNat := ⟨cfg_ok, by decide +kernel⟩

/-- The stages, and the rows of a CBW among those of a completion. -/
theorem test_witness_CswGone : (∀ g ∈ [Stage.waitCsw, .dataIn, .readCbw, .dataOut],
      (dataS g 0 0 0 0 0).ute.run = true ∧ (dataS g 0 0 0 0 0).ute.stage = g) ∧
    (∀ b, outRow cfg b (.outDoneReadCbw b) ∧ outRow cfg b (.outDoneDataOut b) ∧ outRow cfg b (.doneIgnored (.out b)) ∧
      outRow cfg b (.cbwMalformed b)) ∧
    outRow cfg (cbwBytes 9 20 false cfg.usbCmdWrite rest0) (.cbwWrite 9 20 rest0) ∧
    outRow cfg (cbwBytes 9 20 true cfg.usbCmdRead rest0) (.cbwRead 9 20 rest0) ∧
    (∀ n, inRow n (.inDoneDataIn n) ∧ inRow n (.inDoneWaitCsw n) ∧ inRow n (.doneIgnored (.inn n))) := by
  refine ⟨by decide, fun b => ?_, ?_, ?_, fun n => ?_⟩
  · simp [outRow]
  · exact .inr (.inr (.inr (.inr (.inl ⟨_, _, _, rfl, rfl⟩))))
  · exact .inr (.inr (.inr (.inr (.inr ⟨_, _, _, rfl, rfl⟩))))
  · simp [inRow]

theorem test_witness_SessionOpenedAndClosed : (sswS .detect 4 4 []).ssw.phase ≠ .closed ∧ s0.ssw.phase = .closed ∧
    ((2 : U32).toNat < 4 ∧ (6 : U32).toNat % 4 ≠ 0 ∧ 2 ^ 32 < (4294967295 : U32).toNat + (2 : U32).toNat) ∧
    (4 ≤ (4 : U32).toNat ∧ (4 : U32).toNat % 4 = 0 ∧ (4294967292 : U32).toNat + (4 : U32).toNat ≤ 2 ^ 32) := by decide

theorem test_witness_PushRuns : cfg.ok ∧ SswInv s0 ∧ s0.ssw.phase = .closed ∧ SswInv (sswS .failed 4 4 []) ∧ (sswS .failed 4 4 []).ssw.phase = .failed ∧
    SswInv (sswS .detect 4 4 []) ∧ (sswS .detect 4 4 []).ssw.phase ≠ .closed ∧ (sswS .detect 4 4 []).ssw.phase ≠ .failed ∧
    ([7] : Bytes) ≠ [] := by
  refine ⟨cfg_ok, by decide, rfl, by decide, rfl, by decide, by decide, by decide, by decide⟩

theorem test_witness_SparseHeaderTaken : cfg.ok ∧ SparseRest.wf cfg ⟨0, []⟩ ∧ (∀ s ∈ [sswS .detect 4 512 [], sswS .spHdr 4 512 []],
      SswInv s ∧ (s.ssw.phase = .detect ∨ s.ssw.phase = .spHdr) ∧ s.ssw.leftLen = 0) ∧
    (768 : U32).toNat % (sswS .detect 4 512 []).ssw.bs.toNat ≠ 0 ∧ (512 : U32) ≠ 0 ∧
    (512 : U32).toNat % (sswS .detect 4 512 []).ssw.bs.toNat = 0 := ⟨cfg_ok, by decide⟩

/-- An instance with longer headers: 16 bytes and 32. -/
theorem test_witness_longHeaders : ∀ c : Config, c = { cfg with sparseHdrLen := 32, chunkHdrLen := 16 } → c.ok ∧
    ChunkRest.wf c ⟨0, [1, 2, 3, 4]⟩ ∧ SparseRest.wf c ⟨0, [1, 2, 3, 4]⟩ := by
  rintro c rfl; exact ⟨⟨by decide, trivial⟩, by decide⟩

/-- Four blocks of four bytes: chunks that fill the partition to its last block. -/
theorem test_witness_ChunkTaken : cfg.ok ∧ SswInv (sswS .spChunkHdr 4 4 []) ∧ (sswS .spChunkHdr 4 4 []).ssw.phase = .spChunkHdr ∧
    (sswS .spChunkHdr 4 4 []).ssw.leftLen = 0 ∧ (28 : U32).toNat = 12 + (4 : U32).toNat * (sswS .spChunkHdr 4 4 []).ssw.sbs.toNat ∧
    (sswS .spChunkHdr 4 4 []).ssw.cursor.toNat + (4 : U32).toNat * ((sswS .spChunkHdr 4 4 []).ssw.sbs.toNat / (sswS .spChunkHdr 4 4 []).ssw.bs.toNat) ≤
      (sswS .spChunkHdr 4 4 []).ssw.partSize.toNat ∧ (4 : U32) ≠ 0 := ⟨cfg_ok, by decide⟩

theorem test_witness_ChunkRefused : cfg.ok ∧ SswInv (sswS .spChunkHdr 4 4 []) ∧ (sswS .spChunkHdr 4 4 []).ssw.leftLen = 0 ∧
    (12 : U32).toNat ≠ 12 + 4 ∧ (12 : U32).toNat = 12 + 0 ∧
    (sswS .spChunkHdr 4 4 []).ssw.partSize.toNat < (sswS .spChunkHdr 4 4 []).ssw.cursor.toNat +
      (5 : U32).toNat * ((sswS .spChunkHdr 4 4 []).ssw.sbs.toNat / (sswS .spChunkHdr 4 4 []).ssw.bs.toNat) ∧
    Instr.chunkDontCare ⟨0, []⟩ 5 12 ≠ .chunkCrc32 ⟨0, []⟩ 5 12 := ⟨cfg_ok, by decide⟩

/-- reuse_last, with a last valid header of a type, a size in blocks of four bytes and a `total_sz`. -/
def reuseS (ty : U16) (csz tsz : U32) : State :=
  { sswS .spChunkHdr 4 4 (chunkHeaderBytes 0xFFFF ⟨0, []⟩ 0 0) with
    cfg := { cfg with unknownPolicy := .reuseLast }
    ssw := { (sswS .spChunkHdr 4 4 []).ssw with lastValid := true, lastHdr := chunkHeaderBytes ty ⟨0, []⟩ csz tsz } }

/-- The four types, taken, and RAW with a wrong `total_sz` and with one block too many. -/
theorem test_witness_UnknownChunk : cfg.ok ∧ SswInv (sswS .spChunkHdr 4 4 []) ∧ (0xFFFF : U16) ∉ cfg.chunkTypes ∧
    cfg.unknownPolicy = .hardError ∧ ChunkRest.wf cfg ⟨0, []⟩ ∧
    ∀ s ∈ [reuseS cfg.typeRaw 4 28, reuseS cfg.typeFill 4 16, reuseS cfg.typeDontCare 4 12, reuseS cfg.typeCrc32 4 12,
        reuseS cfg.typeRaw 4 12, reuseS cfg.typeRaw 5 32],
      s.cfg.ok ∧ SswInv s ∧ s.ssw.leftLen = 0 ∧ s.cfg.unknownPolicy = .reuseLast ∧ s.ssw.lastValid = true := by
  refine ⟨cfg_ok, by decide, by decide, rfl, by decide, ?_⟩
  simp only [List.forall_mem_cons, List.not_mem_nil, false_imp_iff, implies_true, and_true]
  refine ⟨?_, ?_, ?_, ?_, ?_, ?_⟩ <;> exact ⟨⟨by decide, trivial⟩, by decide, rfl, rfl, rfl⟩

/-- What a reused header comes to: the phase, the code and the cursor. -/
theorem test_reuse :
    [reuseS cfg.typeRaw 4 28, reuseS cfg.typeFill 4 16, reuseS cfg.typeDontCare 4 12, reuseS cfg.typeCrc32 4 12, reuseS cfg.typeRaw 4 12,
      reuseS cfg.typeRaw 5 32].map
        (fun s => field (exec (.chunkUnknown 0xFFFF ⟨0, []⟩ 0 0) s) (fun t => (t.ssw.phase, t.ssw.err, t.ssw.cursor, t.ret))) =
      [some (.spRaw, 6, 0, some (.code 0)), some (.spFill, 6, 0, some (.code 0)), some (.spChunkHdr, 6, 4, some (.code 0)),
        some (.spChunkHdr, 6, 0, some (.code 0)), some (.failed, 5, 0, some (.code 5)), some (.failed, 7, 0, some (.code 7))] := by
  decide +kernel

/-- Each kind of chunk header at hand, in order; a wrong `total_sz` and an overrun are those of test_witness_ChunkRefused. -/
theorem test_witness_HeaderSteps : cfg.ok ∧ 4 ≤ (sswS .detect 4 4 [1, 2, 3, 4]).ssw.hand.length ∧ (sswS .detect 4 4 [1, 2, 3]).ssw.hand.length < 4 ∧
    (∀ h, h = sparseHeaderBytes cfg 1 0 512 1 1 ⟨0, []⟩ → cfg.sparseHdrLen ≤ h.length ∧ (le16 h 8).toNat = cfg.sparseHdrLen ∧
      (le16 h 10).toNat = cfg.chunkHdrLen ∧ le32 h 12 ≠ 0 ∧ (le32 h 12).toNat % (sswS .spHdr 4 512 h).ssw.bs.toNat = 0) ∧
    (le16 (List.replicate 28 0) 8).toNat ≠ cfg.sparseHdrLen ∧
    (∀ x ∈ [(cfg.typeRaw, (28 : U32)), (cfg.typeFill, 16), (cfg.typeDontCare, 12), (cfg.typeCrc32, 12)],
      ∀ h, h = chunkHeaderBytes x.1 ⟨0, []⟩ 4 x.2 → cfg.chunkHdrLen ≤ h.length ∧ le16 h 0 ∈ cfg.chunkTypes ∧
        (le32 h 8).toNat = cfg.chunkHdrLen + (if x.1 = cfg.typeRaw then 16 else if x.1 = cfg.typeFill then 4 else 0) ∧
        (sswS .spChunkHdr 4 4 h).ssw.cursor.toNat + (le32 h 4).toNat *
          ((sswS .spChunkHdr 4 4 h).ssw.sbs.toNat / (sswS .spChunkHdr 4 4 h).ssw.bs.toNat) ≤ (sswS .spChunkHdr 4 4 h).ssw.partSize.toNat) ∧
    le16 (chunkHeaderBytes 0xFFFF ⟨0, []⟩ 4 12) 0 ∉ cfg.chunkTypes ∧ (reuseS cfg.typeRaw 4 28).ssw.lastValid = true ∧
    (sswS .spDone 4 4 [1]).ssw.hand ≠ [] ∧ (sswS .spDone 4 4 []).ssw.hand = [] := by
  refine ⟨cfg_ok, by decide, by decide, ?_, by decide, ?_, by decide, by decide, by decide, by decide⟩
  · rintro h rfl; decide
  · simp only [List.forall_mem_cons, forall_eq, List.not_mem_nil, false_imp_iff, implies_true, and_true]
    decide

/-- SP_RAW with a number of payload bytes to come and an answer of the device. -/
def rawS (rem : U32) (hand : Bytes) (ok : Bool) : State :=
  { sswS .spRaw 4 4 hand with ssw := { (sswS .spRaw 4 4 hand).ssw with chunkRem := rem }, ans := { noAnswers with writeOk := [ok] } }

theorem test_witness_RawChunkStep : (∀ ok ∈ [true, false],
      nextAnswer (rawS 8 [1, 2, 3, 4, 5] ok).ans.writeOk (Config.freeWriteOk 0) = (ok, [])) ∧ (rawS 8 [] true).ssw.phase = .spRaw ∧
    0 < (rawS 8 [] true).ssw.bs.toNat ∧ min (rawS 8 [1, 2, 3] true).ssw.hand.length 8 / 4 = 0 ∧
    min (rawS 8 [1, 2, 3, 4, 5] true).ssw.hand.length 8 / 4 = 1 ∧ 1 * 4 < (rawS 8 [1, 2, 3, 4, 5] true).ssw.chunkRem.toNat ∧
    1 * 4 = (rawS 4 [1, 2, 3, 4, 5] true).ssw.chunkRem.toNat := by decide

theorem test_witness_RawImageStep : (sswS .raw 1 4 [1, 2, 3, 4]).ssw.phase = .raw ∧ 0 < (sswS .raw 1 4 []).ssw.bs.toNat ∧
    (sswS .raw 1 4 [1, 2, 3]).ssw.hand.length / 4 = 0 ∧ (sswS .raw 1 4 [1, 2, 3, 4]).ssw.hand.length / 4 = 1 ∧
    (sswS .raw 1 4 []).ssw.cursor.toNat + 1 ≤ (sswS .raw 1 4 []).ssw.partSize.toNat ∧
    (sswS .raw 0 4 []).ssw.partSize.toNat < (sswS .raw 0 4 []).ssw.cursor.toNat + 1 ∧
    (∀ ok ∈ [true, false], nextAnswer [ok] (Config.freeWriteOk 0) = (ok, [])) ∧
    (∀ a ∈ [none, some [9]], nextAnswer [a] (Config.freeRead 1) = (a, [])) := by decide

/-- A FILL chunk of the whole partition of two blocks, under both strategies, and the device's answers. -/
def fillS (g : FillStrategy) (w : Bytes) (wr er : List Bool) : State :=
  { sswS .spFill 2 8 w with
    cfg := { cfg with fillStrategy := g, eraseThreshBlks := 1, eraseGroupBlks := 1, fillBufBlks := 1 }
    ssw := { (sswS .spFill 2 8 w).ssw with curHdr := chunkHeaderBytes cfg.typeFill ⟨0, []⟩ 2 16 }
    ans := { noAnswers with writeOk := wr, eraseOk := er } }

theorem test_witness_FillContent : (fillS .eraseOpt [] [] []).cfg.ok ∧
    ∀ s ∈ [fillS .alwaysFill [1, 2, 3, 4] [true, true] [true], fillS .eraseOpt [0, 0, 0, 0] [true, true] [true],
        fillS .alwaysFill [1, 2, 3, 4] [true, false] [], fillS .eraseOpt [0, 0, 0, 0] [] [false], fillS .alwaysFill [1, 2, 3] [] []],
      s.cfg.okValues ∧ s.ssw.phase = .spFill ∧ 4 ≤ s.ssw.bs.toNat ∧ s.ssw.bs.toNat % 4 = 0 ∧
      2 = (le32 s.ssw.curHdr 4).toNat * (s.ssw.sbs.toNat / s.ssw.bs.toNat) ∧ s.ssw.cursor.toNat + 2 ≤ s.ssw.partSize.toNat :=
  ⟨⟨by decide, trivial⟩, by decide⟩

/-- R305: a fill whose second write fails has done its first block and no more; one whose erase fails has done none. -/
theorem test_ssw_fill_fails :
    field (exec .pushSpFill (fillS .alwaysFill [1, 2, 3, 4] [true, false] []))
        (fun s => (s.ssw.phase, s.ssw.fail, s.ssw.cursor, s.store.readRun 0 8, s.log.length)) =
      some (.failed, 8, 1, [1, 2, 3, 4, 1, 2, 3, 4], 2) ∧
    field (exec .pushSpFill (fillS .eraseOpt [0, 0, 0, 0] [] [false])) (fun s => (s.ssw.phase, s.ssw.fail, s.ssw.cursor, s.log)) =
      some (.failed, 8, 0, [.devErase 0 2 false]) := by decide +kernel

/-- R294: the word is consumed before the device calls, and so counted in TRANS_SIZE, whether one of them fails or not. -/
theorem test_ssw_fill_word :
    ([[true, false], [true, true]].map fun w =>
      field (exec .pushSpFill { fillS .alwaysFill [1, 2, 3, 4, 5] w [] with
          ssw := { (fillS .alwaysFill [1, 2, 3, 4, 5] w []).ssw with chunkRem := 4 } })
        (fun s => (s.ssw.transSize, s.ssw.chunkRem, s.ssw.hand))) =
      [some (4, 0, [5]), some (4, 0, [5])] := by decide +kernel

/-- A session in DETECT on a device that answers every call ok and gives back what is stored. -/
def freshS (n : Nat) : State :=
  { sswS .detect 2 4 [] with ans := { noAnswers with
      writeOk := List.replicate n true, eraseOk := List.replicate n true, read := List.replicate n (some []) } }

theorem test_witness_CutIndependence : cfg.ok ∧ SswInv (freshS 15) ∧ (freshS 15).ssw.phase = .detect ∧ (freshS 15).ssw.leftLen = 0 ∧
    ([[1, 2], [], [3, 4, 5]] : List Bytes).flatten = [1, 2, 3, 4, 5] ∧ (freshS 15).faithful (([1, 2, 3, 4, 5] : Bytes).length * (2 + 1)) ∧
    le32 [1, 2, 3, 4, 5] 0 ≠ cfg.sparseMagic ∧ (freshS 15).ssw.cursor.toNat + 5 / 4 ≤ (freshS 15).ssw.partSize.toNat ∧
    le32 [0x3A, 0xFF, 0x26, 0xED] 0 = cfg.sparseMagic := ⟨cfg_ok, by decide⟩

theorem test_witness_ResultReported : s0.ssw.phase = .closed ∧ (∀ p ∈ [Phase.failed, .spHdr, .spChunkHdr, .spRaw, .spFill, .detect, .spDone, .raw],
      (sswS p 4 4 []).ssw.phase = p ∧ (sswS p 4 4 []).ssw.leftLen = 0 ∧ (sswS p 4 4 []).ssw.crcWr = (sswS p 4 4 []).ssw.crcTx) ∧
    { (sswS .raw 4 4 []).ssw with leftLen := 1 }.leftLen ≠ 0 ∧
    { (sswS .raw 4 4 []).ssw with crcWr := 1 }.crcWr ≠ { (sswS .raw 4 4 []).ssw with crcWr := 1 }.crcTx := by decide

theorem test_witness_UnitsApart : (∃ t, exec .tick (upeS .cmdRecv []) = .next t) ∧ (∃ t, exec .uteInit s0 = .next t) ∧
    ∃ t, exec (.sswPush [0x61]) (sswS .detect 4 4 []) = .next t := ⟨⟨_, rfl⟩, ⟨_, rfl⟩, ⟨_, rfl⟩⟩

theorem test_witness_PartitionSafe : SswInv (sswS .detect 4 4 []) ∧ ¬ isDeviceCall (.sswPush [1, 2, 3, 4, 5]) ∧
    field (exec (.sswPush [1, 2, 3, 4, 5]) (sswS .detect 4 4 [])) (fun t => t.log.length) = some 2 := by
  refine ⟨by decide, id, by decide +kernel⟩

theorem test_witness_CodecValues : cfg.ok ∧ cfg.crc16 = .xmodem ∧ (List.replicate 255 (0 : Byte)).length ≤ 255 ∧
    (List.replicate 1024 (0 : Byte)).length = 1024 := by
  refine ⟨cfg_ok, rfl, ?_, ?_⟩ <;> rw [List.length_replicate]

theorem test_witness_PackedUnpacks : cfg.ok ∧ ([] : Bytes).length ≤ 61 ∧ (List.replicate 61 (0 : Byte)).length ≤ 61 := ⟨cfg_ok, by decide⟩

theorem test_witness_SplitReassembles : cfg.ok ∧ ([7] : Bytes) ≠ [] := ⟨cfg_ok, by decide⟩

theorem test_witness_CorruptionDetected : cfg.ok ∧ s0.cfg.crc16.detects ∧ s0.cfg.hdrSum.detects s0.cfg.hdrPad ∧ ([0x41] : Bytes).length ≤ 61 ∧
    field (exec (.packFrame 0 [0x41]) s0) id = some { s0 with ret := some (.bytes [1, 0, 0xFF, 1, 0x41, 0x58, 0xE5]) } ∧
    (∀ p ∈ [1, 2, 4, 5, 6], p < 7 ∧ (0x77 : Byte) ≠ ([1, 0, 0xFF, 1, 0x41, 0x58, 0xE5] : Bytes).getD p 0) ∧ 7 - 1 - 2 ≤ 4 ∧
    field (exec (.hdrEncodeCmd 1 1 0x10 9 512) s0) id =
      some { s0 with ret := some (.bytes [0x55, 0x50, 0x47, 0x43, 1, 1, 0x10, 0, 0, 2, 0, 0, 0x43, 1, 0, 0]) } ∧
    field (exec (.hdrEncodeRsp 1 1 0x10 0 0) s0) id =
      some { s0 with ret := some (.bytes [0x55, 0x50, 0x47, 0x52, 1, 1, 0x10, 0, 0, 0, 0, 0, 0x50, 1, 0, 0]) } :=
  ⟨cfg_ok, crc16Xmodem_detects, byteSum_detects _, by decide +kernel⟩

theorem test_witness_HeadersDecoded : ([1] : Bytes).length ≠ cfg.hdrLen ∧ (List.replicate 16 (0 : Byte)).length = cfg.hdrLen ∧
    le32 (List.replicate 16 0) 0 ≠ 0x43475055 ∧ le32 (List.replicate 16 0) 0 ≠ 0x52475055 ∧ (hdrRest 0x143 512).wf cfg := by decide

theorem test_witness_CommandsRejected : hdrDecode cfg Config.cmdMagic (List.replicate 7 0) = .error .hdr ∧
    hdrDecode cfg Config.cmdMagic (headerBytes Config.cmdMagic 0x7E 0 (hdrRest 0x1AF 0)) = .ok ⟨1, 1, 0x7E, 0, 0⟩ ∧
    ([1] : Bytes).length ≠ (0 : U32).toNat ∧
    (0x7E : Byte) ∉ [cfg.cmdSetFwcMeta, cfg.cmdSendFwcData, cfg.cmdGetFwcCrc, cfg.cmdGetFwcBurnResult, cfg.cmdSetUpgCfg, cfg.cmdSetUpgEnd] := by
  decide +kernel

theorem test_witness_DataForwarded : cfg.ok ∧ SswInv (sswS .detect 4 4 []) ∧ goodCommand cfg cfg.cmdSendFwcData 0 (hdrRest 0x142 1) [0x61] := ⟨cfg_ok, by decide +kernel⟩

theorem test_witness_CommandsHandled : cfg.ok ∧ goodCommand cfg cfg.cmdGetFwcCrc 0 (hdrRest 0x143 0) [] ∧
    goodCommand cfg cfg.cmdGetFwcBurnResult 0 (hdrRest 0x144 0) [] ∧ goodCommand cfg cfg.cmdSetUpgEnd 0 (hdrRest 0x146 0) [] ∧
    goodCommand cfg cfg.cmdSetUpgCfg 0 (hdrRest 0x145 0) [] ∧ s0.ssw.phase = .closed ∧ (sswS .detect 4 4 []).ssw.phase ≠ .closed ∧
    nextAnswer [UpgradeMode.burnUserId] (Config.freeMode 0) = (.burnUserId, []) ∧ .burnUserId ∈ (cdiS .invalid false).cdi.initMode ∧
    .burnUserId ∉ s0.cdi.initMode := ⟨cfg_ok, by decide +kernel⟩

theorem test_witness_SessionRetargeted : cfg.ok ∧ goodCommand cfg cfg.cmdSetFwcMeta 0 (hdrRest 0x142 0) [] ∧
    (∀ d ∈ [none, some (⟨0, 4, 4⟩ : Desc), some ⟨0, 4, 6⟩], nextAnswer [d] (Config.freeLookup 0) = (d, [])) ∧
    ((sswS .detect 4 4 []).ssw.phase ≠ .closed ∧ (sswS .detect 4 4 []).cdi.owner ≠ some .usb) ∧ s0.ssw.phase = .closed ∧
    { cdiReset with owner := some Transport.usb }.owner = some .usb ∧
    (4 ≤ (4 : U32).toNat ∧ (4 : U32).toNat % 4 = 0 ∧ (4294967292 : U32).toNat + (4 : U32).toNat ≤ 2 ^ 32) ∧ (6 : U32).toNat % 4 ≠ 0 := ⟨cfg_ok, by decide +kernel⟩

/-- A header that is rejected on USB; a session on a writer whose engine is about to abort; a place for SSW.CLOSE, and its turn. -/
theorem test_witness_DispatcherReacts : hdrDecode cfg Config.cmdMagic [] = .error .hdr ∧
    (field (exec (.handleCommand .usb [] []) s0) (fun t => t.ute.phaseErr) = some false) ∧
    (ticking (flight [1]).upe 0 5 50).listening ∧ (sswS .detect 4 4 []).ssw.phase ≠ .closed ∧
    cfg.tSession < (ticking (flight [1]).upe 0 5 50).upe.ticked.tSess.toNat ∧
    nextAnswer [3] (Config.freeClose 0) = (3, []) ∧
    { sswS .detect 4 4 [] with inbox := [⟨.sswClose, []⟩] }.inbox = [⟨.sswClose, []⟩] := by decide +kernel

theorem test_witness_UpgradeModeChecked : .burnUserId ∉ s0.cdi.initMode ∧ .burnImgForce ∉ s0.cdi.initMode ∧
    .burnUserId ∈ (cdiS .invalid false).cdi.initMode ∧ .burnImgForce ∉ (cdiS .invalid false).cdi.initMode ∧
    (cdiS .burnUserId true).cdi.mode = .burnUserId ∧ (cdiS .burnUserId true).cdi.modeSet = true ∧ (cdiS .invalid false).cdi.mode ≠ .burnUserId ∧
    cfg.tModeUserId < (1001 : U64).toNat - (cdiS .invalid false).cdi.tStart.toNat ∧
    (1000 : U64).toNat - (cdiS .invalid false).cdi.tStart.toNat ≤ cfg.tModeUserId := by decide

theorem test_witness_ActionsPerformed : nextAnswer [(20 : U32)] (Config.freeExpect 0) = (20, []) ∧
    nextAnswer [3] (Config.freeConsumed 0) = (3, []) ∧ nextAnswer [([1] : Bytes)] (Config.freeSupply 0) = ([1], []) ∧
    nextAnswer [(0 : Byte)] (Config.freeStatus 0) = (0, []) := by decide

theorem test_witness_DeviceCalled : nextAnswer (sswS .raw 4 4 []).ans.writeOk (Config.freeWriteOk 0) = (true, []) ∧
    nextAnswer (sswS .raw 4 4 []).ans.eraseOk (Config.freeEraseOk 0) = (true, []) ∧
    nextAnswer (sswS .raw 4 4 []).ans.read (Config.freeRead 0) = (some [], []) ∧ ([1, 2, 3, 4] : Bytes) ≠ [] ∧ (sswS .raw 4 4 []).ssw.bs ≠ 0 ∧
    ([1, 2, 3, 4] : Bytes).length % (sswS .raw 4 4 []).ssw.bs.toNat = 0 ∧ ([1, 2, 3] : Bytes).length % (sswS .raw 4 4 []).ssw.bs.toNat ≠ 0 := by
  decide

/-- A state whose next packet is a TICK. -/
def tickS (s : State) : State := { s with inbox := [⟨.tick, []⟩] }

/-- A packet that is a row, none, and packets that are none on each kind of port. -/
theorem test_witness_StepRunsDecoded : (tickS s0).inbox = [⟨.tick, []⟩] ∧ decode cfg ⟨.tick, []⟩ = .ok .tick ∧ s0.inbox = [] ∧
    decode cfg ⟨.tick, [1]⟩ = .error .length ∧
    [Port.uartWire, .frameWire, .imageWire, .chunkWire, .headerWire, .commandWire .uart, .commandWire .usb].map
      (fun p => (decode cfg ⟨p, [1, 2]⟩).toOption) = List.replicate 7 none ∧
    Port.tick ∉ [.uartWire, .frameWire, .imageWire, .chunkWire, .headerWire, .commandWire .uart, .commandWire .usb] := by decide +kernel

/-- Two bytes that stand for no row arrive all the same on the UART link and in the image stream; on another port nothing happens. -/
theorem test_step_undecoded :
    field (step { upeS .cmdRecv [] with inbox := [⟨.uartWire, [0x43, 0x11]⟩] }) (fun s => (s.log, s.upe.st, s.inbox)) =
      some ([.uartTx [6]], .dataRecv, []) ∧
    field (step { sswS .detect 4 4 [] with inbox := [⟨.imageWire, [1, 2]⟩] }) (fun s => s.ssw.leftLen) = some 2 ∧
    field (step { s0 with inbox := [⟨.tick, [1]⟩] }) id = some s0 := by decide +kernel

theorem test_witness_DecodeEncode : cfg.ok ∧ (Instr.shortFrame 1 0xFE (List.replicate 255 0) 0).wf cfg ∧ (Instr.uartDropped 0x99).wf cfg ∧
    (Instr.frameTotal []).wf cfg ∧ (Instr.chunkRaw ⟨0, []⟩ 0 12).wf cfg := ⟨cfg_ok, by decide +kernel⟩

theorem test_witness_EncodeDecode : cfg.ok ∧ decode cfg ⟨.uartWire, [0x43]⟩ = .ok .sigC := ⟨cfg_ok, by decide⟩

theorem test_witness_StepKeeps : MemInv (tickS (flight [1])) ∧ UpeInv (tickS (flight [1])) ∧ UteInv (tickS (flight [1])) ∧
    SswInv (tickS (flight [1])) ∧ (tickS (flight [1])).cfg.ok ∧
    field (step (tickS (flight [1]))) (fun t => t.upe.tWait) = some 1 := by
  refine ⟨by decide +kernel, by decide +kernel, by decide +kernel, by decide +kernel, cfg_ok, by decide +kernel⟩

end Sys2Proof.Tests
end

section
/-! PROOFS. The rows of the output actions and oracle calls, and what one step does with the next pending packet. -/

namespace Sys2Proof.Machine

/-! ## Oracle calls, with the answer `nextAnswer` gives (rule R233, log 3) -/

/-- The answer handed back is the last action of the log. -/
theorem retLast_of_log {s : State} {l : List Action} {a : Action} (h : s.log = l ++ [a]) :
    retLast s = s.withRet (.answer a) := by
  simp [retLast, h]

theorem retLast_act (s : State) (a : Action) : retLast (s.act a) = (s.act a).withRet (.answer a) :=
  retLast_of_log (s.act_log a)

theorem dispExpectCall_eq {s : State} {e : U32} {rest : List U32}
    (h : nextAnswer s.ans.expect (Config.freeExpect s.asked) = (e, rest)) (cmd : Byte) (len : U32) :
    dispExpectCall cmd len s = (e, (s.withAns { s.ans with expect := rest }).act (.dispExpect cmd len e)) := by
  simp only [dispExpectCall, h]

theorem dispOutCall_eq {s : State} {c : Nat} {rest : List Nat}
    (h : nextAnswer s.ans.consumed (Config.freeConsumed s.asked) = (c, rest)) (b : Bytes) :
    dispOutCall b s =
      (min c b.length, (s.withAns { s.ans with consumed := rest }).act (.dispOut b (min c b.length))) := by
  simp only [dispOutCall, h]

theorem dispInCall_eq {s : State} {d : Bytes} {rest : List Bytes}
    (h : nextAnswer s.ans.supply (Config.freeSupply s.asked) = (d, rest)) (n : Nat) :
    dispInCall n s = (d.take n, (s.withAns { s.ans with supply := rest }).act (.dispIn n (d.take n))) := by
  simp only [dispInCall, h]

/-- What `DISP.STATUS` answers, from the answer supplied (rule R344). -/
theorem verdict_of_nextAnswer {s : State} {st : Byte} {rest : List Byte}
    (h : nextAnswer s.ans.status (Config.freeStatus s.asked) = (st, rest)) :
    s.verdict = if s.cdi.usbRejected = true ∧ st = 0 then 1 else st := by
  simp only [State.verdict, h]

/-! ## The action rows (rule R8) -/

/-- The first four bytes of a CSW (rule R101). -/
theorem encLe32_cswSig : encLe32 Config.cswSig = [0x55, 0x53, 0x42, 0x53] := by decide

/-- The stage `SendCsw` is left before the row ends (rules R231, R246). -/
theorem exec_csw (tag res : U32) (st : Byte) (s : State) :
    exec (.csw tag res st) s = .next { s with
      ute := { s.ute with stage := .waitCsw, csw := cswBytes tag res st }
      log := s.log ++ [.epSend (cswBytes tag res st)] } := rfl

theorem exec_dispExpect {s : State} {e : U32} {rest : List U32}
    (h : nextAnswer s.ans.expect (Config.freeExpect s.asked) = (e, rest)) (cmd : Byte) (len : U32) :
    exec (.dispExpect cmd len) s = .next { s with
      ans := { s.ans with expect := rest }, asked := s.asked + 1, log := s.log ++ [.dispExpect cmd len e]
      ret := some (.answer (.dispExpect cmd len e)) } := by
  have hrow : exec (.dispExpect cmd len) s = .next (retLast (dispExpectCall cmd len s).2) := rfl
  rw [hrow, dispExpectCall_eq h, retLast_act]
  rfl

theorem exec_dispOut {s : State} {c : Nat} {rest : List Nat}
    (h : nextAnswer s.ans.consumed (Config.freeConsumed s.asked) = (c, rest)) (b : Bytes) :
    exec (.dispOut b) s = .next { s with
      ans := { s.ans with consumed := rest }, asked := s.asked + 1, log := s.log ++ [.dispOut b (min c b.length)]
      ret := some (.answer (.dispOut b (min c b.length))) } := by
  have hrow : exec (.dispOut b) s = .next (retLast (dispOutCall b s).2) := rfl
  rw [hrow, dispOutCall_eq h, retLast_act]
  rfl

theorem exec_dispIn {s : State} {d : Bytes} {rest : List Bytes}
    (h : nextAnswer s.ans.supply (Config.freeSupply s.asked) = (d, rest)) (n : U32) :
    exec (.dispIn n) s = .next { s with
      ans := { s.ans with supply := rest }, asked := s.asked + 1, log := s.log ++ [.dispIn n.toNat (d.take n.toNat)]
      ret := some (.answer (.dispIn n.toNat (d.take n.toNat))) } := by
  have hrow : exec (.dispIn n) s = .next (retLast (dispInCall n.toNat s).2) := rfl
  rw [hrow, dispInCall_eq h, retLast_act]
  rfl

theorem exec_dispStatus {s : State} {st : Byte} {rest : List Byte}
    (h : nextAnswer s.ans.status (Config.freeStatus s.asked) = (st, rest)) :
    exec .dispStatus s = .next { s with
      ans := { s.ans with status := rest }, asked := s.asked + 1, cdi := { s.cdi with usbRejected := false }
      log := s.log ++ [.dispStatus s.verdict], ret := some (.answer (.dispStatus s.verdict)) } := by
  have hrow : exec .dispStatus s = .next (retLast (dispStatusCall s).2) := rfl
  rw [hrow, dispStatusCall_eq, retLast_of_log rfl, h]
  rfl

/-- Settles O48: the four plain actions only append to the log; the other rows go by the lemma of each. -/
theorem actionsPerformed : Obligations.ActionsPerformed := by
  intro s
  refine ⟨fun _ => rfl, fun _ => rfl, fun _ => rfl, fun _ => rfl, ?csw, ?expect, ?out, ?inn, ?status⟩
  case csw =>
    rintro tag res st b rfl
    rw [← encLe32_cswSig]
    exact exec_csw tag res st s
  case expect => exact fun cmd len _ _ h => exec_dispExpect h cmd len
  case out => exact fun b _ _ h => exec_dispOut h b
  case inn => exact fun n _ _ h => exec_dispIn h n
  case status =>
    intro st rest h
    rw [exec_dispStatus h, verdict_of_nextAnswer h]

/-! ## One step (rules R7, R72) -/

theorem step_of_inbox_nil {s : State} (h : s.inbox = []) : step s = .next s := by
  simp only [step, fetch, h]

theorem step_of_decode_ok {s : State} {p : Packet} {rest : List Packet} {i : Instr} (h : s.inbox = p :: rest)
    (hd : decode s.cfg p = .ok i) : step s = exec i (s.withInbox rest) := by
  simp only [step, fetch, h, hd]

theorem step_of_decode_error {s : State} {p : Packet} {rest : List Packet} {e : DecodeErr} (h : s.inbox = p :: rest)
    (hd : decode s.cfg p = .error e) : step s = undecoded p (s.withInbox rest) := by
  simp only [step, fetch, h, hd]

/-! ## A packet that stands for no row (log 34) -/

/-- Bytes that arrive in turn are the arrivals of UART.RX in turn (rule R133). -/
theorem uartRxs_eq_arrive (b : Bytes) : uartRxs b = arrive b := by
  induction b with
  | nil => rfl
  | cons x r ih =>
    funext s
    rw [uartRxs, arrive, ih]
    rfl

theorem undecoded_uart {p : Packet} (h : p.port = .uartWire ∨ p.port = .frameWire) (s : State) :
    undecoded p s = arrive p.bytes s := by
  rw [← uartRxs_eq_arrive]
  rcases h with h | h <;> simp only [undecoded, h]

theorem undecoded_image {p : Packet} (h : p.port = .imageWire ∨ p.port = .chunkWire) (s : State) :
    undecoded p s = exec (.sswPush p.bytes) s := by
  have hrow : exec (.sswPush p.bytes) s = pushBytes p.bytes s := rfl
  rw [hrow]
  rcases h with h | h <;> simp only [undecoded, h]

theorem undecoded_header {p : Packet} (h : p.port = .headerWire) (s : State) :
    undecoded p s = exec (.hdrDecodeCmd p.bytes) s := by
  simp only [undecoded, h]
  rfl

theorem undecoded_command {p : Packet} {via : Transport} (h : p.port = .commandWire via) (s : State) :
    undecoded p s =
      exec (.handleCommand via (p.bytes.take s.cfg.hdrLen) (p.bytes.drop s.cfg.hdrLen)) s := by
  simp only [undecoded, h]
  rfl

theorem undecoded_other {p : Packet}
    (h : p.port ∉ [.uartWire, .frameWire, .imageWire, .chunkWire, .headerWire, .commandWire .uart, .commandWire .usb])
    (s : State) : undecoded p s = .next s := by
  unfold undecoded
  split
  case h_7 => rfl
  case h_6 via hp => cases via <;> simp [hp] at h
  -- the five other ports that have a meaning of their own stand in the list
  all_goals next hp => simp [hp] at h

/-- Settles O52: the step is read off from the pending list and the decoder's answer; an undecoded packet goes by its port. -/
theorem stepRunsDecoded : Obligations.StepRunsDecoded := by
  intro s
  refine ⟨fun _ _ _ => step_of_decode_ok, step_of_inbox_nil, ?undecoded⟩
  rintro p rest e t h hd rfl
  rw [step_of_decode_error h hd]
  exact ⟨fun hp => undecoded_uart hp _, fun hp => undecoded_image hp _, fun hp => undecoded_header hp _,
    fun _ hp => undecoded_command hp _, fun hp => undecoded_other hp _⟩

end Sys2Proof.Machine
end

section
/-! PROOFS. Every step keeps the canonical form of the memories (rule R60) and the configuration (rule R40): one lemma for each
operation, in the order of the model's files. -/

namespace Sys2Proof.Machine

/-- What every step keeps: every memory has its canonical form, and the configuration is `c`. -/
def MemKept (c : Config) (s : State) : Prop := MemInv s ∧ s.cfg = c

/-- An outcome keeps it if its next state has it; a fault or a refusal has no next state. -/
def NextKept (c : Config) : Result → Prop
  | .next t => MemKept c t
  | .fault _ => True
  | .refused _ => True

/-- A step of the PUSH loop keeps it if the state that it goes on with has it (rule R286). -/
def GoKept (c : Config) : PushStep → Prop
  | .wait => True
  | .go t => MemKept c t

/-! ## Updates of the state -/

section
variable {c : Config} {s : State}

theorem MemKept.fbuf : MemKept c s → s.fbuf.wf := fun ⟨⟨hf, _⟩, _⟩ => hf

theorem MemKept.pktbuf : MemKept c s → s.pktbuf.wf := fun ⟨⟨_, hp, _⟩, _⟩ => hp

theorem MemKept.left : MemKept c s → s.left.wf := fun ⟨⟨_, _, hl, _⟩, _⟩ => hl

theorem MemKept.store : MemKept c s → s.store.wf := fun ⟨⟨_, _, _, hs, _⟩, _⟩ => hs

theorem MemKept.queue : MemKept c s → ∀ t ∈ s.upe.q, t.buf.wf := fun ⟨⟨_, _, _, _, hq, _⟩, _⟩ => hq

theorem MemKept.finished : MemKept c s → ∀ t ∈ s.finished, t.buf.wf := fun ⟨⟨_, _, _, _, _, hd⟩, _⟩ => hd

theorem MemKept.cfg : MemKept c s → s.cfg = c := fun ⟨_, hc⟩ => hc

theorem MemKept.withUte (h : MemKept c s) (u : Ute) : MemKept c (s.withUte u) := h

theorem MemKept.withSsw (h : MemKept c s) (w : Ssw) : MemKept c (s.withSsw w) := h

theorem MemKept.withCdi (h : MemKept c s) (d : Cdi) : MemKept c (s.withCdi d) := h

theorem MemKept.withInbox (h : MemKept c s) (q : List Packet) : MemKept c (s.withInbox q) := h

theorem MemKept.withAns (h : MemKept c s) (a : Answers) : MemKept c (s.withAns a) := h

theorem MemKept.act (h : MemKept c s) (a : Action) : MemKept c (s.act a) := h

theorem MemKept.withRet (h : MemKept c s) (r : Ret) : MemKept c (s.withRet r) := h

theorem MemKept.withFbuf (h : MemKept c s) {m : Memory} (hm : m.wf) : MemKept c (s.withFbuf m) :=
  ⟨⟨hm, h.pktbuf, h.left, h.store, h.queue, h.finished⟩, h.cfg⟩

theorem MemKept.withPktbuf (h : MemKept c s) {m : Memory} (hm : m.wf) : MemKept c (s.withPktbuf m) :=
  ⟨⟨h.fbuf, hm, h.left, h.store, h.queue, h.finished⟩, h.cfg⟩

theorem MemKept.withLeft (h : MemKept c s) {m : Memory} (hm : m.wf) : MemKept c (s.withLeft m) :=
  ⟨⟨h.fbuf, h.pktbuf, hm, h.store, h.queue, h.finished⟩, h.cfg⟩

theorem MemKept.withStore (h : MemKept c s) {m : Memory} (hm : m.wf) : MemKept c (s.withStore m) :=
  ⟨⟨h.fbuf, h.pktbuf, h.left, hm, h.queue, h.finished⟩, h.cfg⟩

/-- UPE's registers and queue are replaced; every task that is then queued has to be canonical. -/
theorem MemKept.withQueue (h : MemKept c s) {u : Upe} (hq : ∀ t ∈ u.q, t.buf.wf) : MemKept c (s.withUpe u) :=
  ⟨⟨h.fbuf, h.pktbuf, h.left, h.store, hq, h.finished⟩, h.cfg⟩

/-- UPE's registers are replaced, but for the queue. -/
theorem MemKept.withUpe (h : MemKept c s) (u : Upe) (hq : u.q = s.upe.q := by rfl) : MemKept c (s.withUpe u) :=
  h.withQueue (hq ▸ h.queue)

/-- UPE's registers are replaced, and the head task by one whose buffer is canonical. -/
theorem MemKept.withHead (h : MemKept c s) {t t1 : Task} {rest : List Task} (u : Upe) (hq : s.upe.q = t :: rest)
    (ht : t1.buf.wf) (hu : u.q = t1 :: rest := by rfl) : MemKept c (s.withUpe u) := by
  have hrest := (List.forall_mem_cons.1 (hq ▸ h.queue)).2
  exact h.withQueue (hu ▸ List.forall_mem_cons.2 ⟨ht, hrest⟩)

theorem MemKept.withFinished (h : MemKept c s) {f : List Task} (hf : ∀ t ∈ f, t.buf.wf) : MemKept c (s.withFinished f) :=
  ⟨⟨h.fbuf, h.pktbuf, h.left, h.store, h.queue, hf⟩, h.cfg⟩

end

theorem MemKept.ite {c : Config} {p : Prop} [Decidable p] {s t : State} (hs : MemKept c s) (ht : MemKept c t) :
    MemKept c (if p then s else t) := by
  split
  · exact hs
  · exact ht

/-- A bounded write keeps the canonical form. -/
theorem writeBuf_wf {sp : Space} {size a : Nat} {m n : Memory} {v : Bytes} (hm : m.wf)
    (h : writeBuf sp size m a v = .ok n) : n.wf := by
  unfold writeBuf at h
  split at h
  · cases h
    exact Memory.wf_writeRun hm a v
  · cases h

/-! ## Outcomes -/

section
variable {c : Config} {s : State}

theorem MemKept.next (h : MemKept c s) : NextKept c (.next s) := h

theorem NextKept.fault (f : Fault) : NextKept c (.fault f) := trivial

theorem NextKept.refused (r : Refusal) : NextKept c (.refused r) := trivial

theorem MemKept.go (h : MemKept c s) : GoKept c (.go s) := h

theorem GoKept.wait : GoKept c .wait := trivial

theorem NextKept.andThen {o : Result} {k : State → Result} (ho : NextKept c o)
    (hk : ∀ t, MemKept c t → NextKept c (k t)) : NextKept c (Machine.andThen o k) := by
  cases o with
  | next t => exact hk t ho
  | fault f => exact .fault f
  | refused r => exact .refused r

theorem NextKept.withVal {α : Type} {e : Except Fault α} {k : α → Result} (hk : ∀ a, e = .ok a → NextKept c (k a)) :
    NextKept c (Machine.withVal e k) := by
  cases e with
  | ok a => exact hk a rfl
  | error f => exact .fault f

end

/-! ## Oracle calls (rules R8, R233, R305) -/

section
variable {c : Config} {s : State} (h : MemKept c s)
include h

theorem dispExpectCall_keeps (cmd : Byte) (len : U32) : MemKept c (dispExpectCall cmd len s).2 := (h.withAns _).act _

theorem dispOutCall_keeps (b : Bytes) : MemKept c (dispOutCall b s).2 := (h.withAns _).act _

theorem dispInCall_keeps (n : Nat) : MemKept c (dispInCall n s).2 := (h.withAns _).act _

theorem dispStatusCall_keeps : MemKept c (dispStatusCall s).2 := ((h.withAns _).withCdi _).act _

theorem devReadCall_keeps (blk n : Nat) : MemKept c (devReadCall blk n s).2 := (h.withAns _).act _

theorem lookupCall_keeps (p : Bytes) : MemKept c (lookupCall p s).2 := (h.withAns _).act _

theorem readModeCall_keeps (p : Bytes) : MemKept c (readModeCall p s).2 := (h.withAns _).act _

theorem devWriteCall_keeps (blk : Nat) (data : Bytes) : MemKept c (devWriteCall blk data s).2 :=
  ((h.withAns _).withStore (Memory.wf_writeRun h.store _ _)).act _

theorem devWriteOdd_keeps (blk : Nat) (data : Bytes) : MemKept c (devWriteOdd blk data s).2 :=
  ((h.withAns _).withStore (Memory.wf_writeRun h.store _ _)).act _

theorem devEraseCall_keeps (blk n : Nat) : MemKept c (devEraseCall blk n s).2 :=
  ((h.withAns _).withStore (Memory.wf_writeRun h.store _ _)).act _

end

/-! ## SSW (43_sparse_writer.md) -/

section
variable {c : Config} {s : State} (h : MemKept c s)
include h

theorem consume_keeps (n : Nat) : MemKept c (consume n s) := h.withSsw _

theorem advance_keeps (n : Nat) : MemKept c (advance n s) := h.withSsw _

theorem raiseSsw_keeps (e : SswCode) : MemKept c (raiseSsw e s) := h.withSsw _

theorem failSsw_keeps (e : SswCode) : MemKept c (failSsw e s) := h.withSsw _

theorem eatWord_keeps : MemKept c (eatWord s) := (consume_keeps h 4).withSsw _

theorem chunkDone_keeps : MemKept c (chunkDone s) := ((h.withSsw _).act _).withSsw _

theorem stepDetect_keeps : GoKept c (stepDetect s) := by
  unfold stepDetect
  split
  · exact .wait
  · exact (h.withSsw _).go

theorem stepSpHdr_keeps : GoKept c (stepSpHdr s) := by
  unfold stepSpHdr
  dsimp only
  split
  · exact .wait
  split
  · exact (failSsw_keeps h _).go
  split
  · exact (failSsw_keeps h _).go
  · exact ((consume_keeps h _).withSsw _).go


theorem takeChunk_keeps (hdr eff : Bytes) (k : ChunkKind) : MemKept c (takeChunk hdr eff k s) := by
  unfold takeChunk
  extract_lets csz nblk s1 _ s2 _ s3
  have h2 : MemKept c s2 := (consume_keeps h _).withSsw _
  have h3 : MemKept c s3 := h2.withSsw _
  split
  · exact failSsw_keeps h _
  split
  · exact failSsw_keeps h _
  cases k with
  | raw => exact (chunkDone_keeps h3).ite (h3.withSsw _)
  | fill => exact h2.withSsw _
  | dontCare => exact chunkDone_keeps (advance_keeps h2 _)
  | crc32 => exact chunkDone_keeps h2

theorem unknownChunk_keeps (hdr : Bytes) : MemKept c (unknownChunk hdr s) := by
  have hr := raiseSsw_keeps h .chunkType
  unfold unknownChunk
  dsimp only
  split
  · exact failSsw_keeps hr _
  split
  · exact failSsw_keeps hr _
  · exact takeChunk_keeps hr _ _ _

theorem stepSpChunkHdr_keeps : GoKept c (stepSpChunkHdr s) := by
  unfold stepSpChunkHdr
  split
  · exact .wait
  dsimp only
  split
  · exact (takeChunk_keeps h _ _ _).go
  · exact (unknownChunk_keeps h _).go

theorem stepSpRaw_keeps : GoKept c (stepSpRaw s) := by
  unfold stepSpRaw
  dsimp only
  split
  · exact .wait
  have hw := devWriteCall_keeps h
  split
  · split
    · exact (chunkDone_keeps ((advance_keeps (consume_keeps (hw _ _) _) _).withSsw _)).go
    · exact ((advance_keeps (consume_keeps (hw _ _) _) _).withSsw _).go
  · exact (failSsw_keeps (hw _ _) _).go

omit h in
theorem fillWrite_keeps (w : Bytes) (fuel : Nat) :
    ∀ (n : Nat) {s : State}, MemKept c s → MemKept c (fillWrite w fuel n s) := by
  induction fuel with
  | zero => exact fun _ _ h => h
  | succ fuel ih =>
    intro n s h
    unfold fillWrite
    split
    · exact h
    dsimp only
    have hw := devWriteCall_keeps h
    split
    · exact ih _ (advance_keeps (hw _ _) _)
    · exact failSsw_keeps (hw _ _) _

theorem eraseMid_keeps (mid : Nat) : MemKept c (eraseMid mid s) := by
  unfold eraseMid
  split
  · have he := devEraseCall_keeps h
    dsimp only
    split
    · exact advance_keeps (he _ _) _
    · exact failSsw_keeps (he _ _) _
  · exact h

theorem doFill_keeps (w : Bytes) (nblk : Nat) : MemKept c (doFill w nblk s) := by
  unfold doFill
  split
  · exact fillWrite_keeps w _ _ (eraseMid_keeps (fillWrite_keeps w _ _ h) _)
  · exact fillWrite_keeps w _ _ h

theorem stepSpFill_keeps : GoKept c (stepSpFill s) := by
  unfold stepSpFill
  split
  · exact .wait
  have hf := doFill_keeps (eatWord_keeps h)
  dsimp only
  split
  · exact (hf _ _).go
  · exact (chunkDone_keeps (hf _ _)).go

theorem stepSpDone_keeps : GoKept c (stepSpDone s) := by
  unfold stepSpDone
  split
  · exact (failSsw_keeps h _).go
  · exact .wait

theorem stepRaw_keeps : GoKept c (stepRaw s) := by
  unfold stepRaw
  dsimp only
  split
  · exact .wait
  split
  · exact (failSsw_keeps h _).go
  have hw := devWriteCall_keeps h
  split
  · split
    · exact (failSsw_keeps (devReadCall_keeps (hw _ _) _ _) _).go
    · exact (advance_keeps (consume_keeps ((devReadCall_keeps (hw _ _) _ _).withSsw _) _) _).go
  · exact (failSsw_keeps (hw _ _) _).go

theorem pushStep_keeps : GoKept c (pushStep s) := by
  unfold pushStep
  cases s.ssw.phase with
  | closed => exact .wait
  | detect => exact stepDetect_keeps h
  | spHdr => exact stepSpHdr_keeps h
  | spChunkHdr => exact stepSpChunkHdr_keeps h
  | spRaw => exact stepSpRaw_keeps h
  | spFill => exact stepSpFill_keeps h
  | spDone => exact stepSpDone_keeps h
  | raw => exact stepRaw_keeps h
  | failed => exact .wait

omit h in
theorem pushLoop_keeps (fuel : Nat) : ∀ {s : State}, MemKept c s → MemKept c (pushLoop fuel s) := by
  induction fuel with
  | zero => exact fun h => h
  | succ fuel ih =>
    intro s h
    have hs := pushStep_keeps h
    cases hp : pushStep s with
    | wait => rwa [pushLoop_wait _ hp]
    | go s1 =>
      rw [hp] at hs
      rw [pushLoop_go _ hp]
      split
      · exact hs
      · exact ih hs

theorem pushEnd_keeps {r : Byte × State} (hr : pushEnd s = .ok r) : MemKept c r.2 := by
  unfold pushEnd at hr
  split at hr
  · cases hr
    exact h.withSsw _
  split at hr
  · cases hr
  next m hm =>
    cases hr
    exact (h.withLeft (writeBuf_wf h.left hm)).withSsw _

theorem sswPushOp_keeps {b : Bytes} {r : Byte × State} (hr : sswPushOp b s = .ok r) : MemKept c r.2 := by
  unfold sswPushOp at hr
  split at hr
  · cases hr
    exact h
  split at hr
  · cases hr
    exact h
  split at hr
  · cases hr
    exact h
  split at hr
  · cases hr
  · exact pushEnd_keeps (pushLoop_keeps _ (h.withSsw _)) hr

theorem sswOpenOp_keeps (d : Desc) : MemKept c (sswOpenOp d s).2 := by
  unfold sswOpenOp
  split
  · exact h
  split
  · exact h.withSsw _
  · exact h

theorem sswCloseOp_keeps : MemKept c (sswCloseOp s).2 := by
  unfold sswCloseOp
  split
  · exact h
  · exact (h.withSsw _).withCdi _

theorem pushBytes_keeps (b : Bytes) : NextKept c (pushBytes b s) :=
  .withVal fun _ hr => (MemKept.withRet (sswPushOp_keeps h hr) _).next

theorem stepIn_keeps {f : State → PushStep} (hf : GoKept c (f s)) (p : Phase) : NextKept c (stepIn p f s) := by
  cases hs : f s with
  | wait =>
    rw [stepIn_wait hs]
    exact h.next
  | go s1 =>
    rw [hs] at hf
    unfold stepIn
    split
    · rw [hs]
      exact MemKept.next hf
    · exact h.next

end

/-! ## UPE (41_uart_engine.md) -/

section
variable {c : Config} {s : State} (h : MemKept c s)
include h

theorem tx_keeps (b : Bytes) : MemKept c (tx b s) := h.act _

theorem frameReset_keeps : MemKept c (frameReset s) := h.withUpe _

theorem postStatus_keeps (code : Byte) : MemKept c (postStatus code s) := h.withUpe _

theorem raiseUpe_keeps (e : UpeErr) : MemKept c (raiseUpe e s) := h.withUpe _

theorem nakFrame_keeps (e : UpeErr) : MemKept c (nakFrame e s) := frameReset_keeps (tx_keeps (raiseUpe_keeps h e) _)

theorem dropHead_keeps : MemKept c (dropHead s) := h.withQueue fun t ht => h.queue t (List.mem_of_mem_tail ht)

theorem finishHead_keeps {t : Task} (ht : t.buf.wf) (code : Byte) : MemKept c (finishHead t code s) :=
  dropHead_keeps ((postStatus_keeps h code).withFinished
    (List.forall_mem_append.2 ⟨h.finished, List.forall_mem_singleton.2 ht⟩))

theorem switchDir_keeps (d : Dir) : MemKept c (switchDir d s) := by
  unfold switchDir
  split
  · exact h
  · exact h.ite (dropHead_keeps h)

/-- Sending a slice of a task changes no memory, if what follows it does not. -/
theorem sendSlice_keeps {k : State → Result} (hk : ∀ t, MemKept c t → NextKept c (k t)) (t : Task) (n : Nat) :
    NextKept c (sendSlice t n k s) := by
  refine .withVal fun data _ => ?_
  split
  · exact hk _ (tx_keeps h _)
  · exact .fault _

theorem trySend_keeps : NextKept c (trySend s) := by
  unfold trySend
  split
  · split
    · exact h.next
    dsimp only
    exact sendSlice_keeps (h.withUpe _) (fun _ h1 => (h1.withUpe _).next) _ _
  · exact h.next

theorem retransmit_keeps : NextKept c (retransmit s) := by
  unfold retransmit
  split
  · exact .fault _
  · exact sendSlice_keeps h (fun _ h1 => (h1.withUpe _).next) _ _

theorem cmdSigC_keeps : MemKept c (cmdSigC s) := tx_keeps (h.withUpe _) [s.cfg.ack]

theorem cmdSwitch_keeps (d : Dir) (st : UpeSt) : MemKept c (cmdSwitch d st s) :=
  have h1 := switchDir_keeps h d
  frameReset_keeps (h1.withUpe _)

theorem cmdAck_keeps : NextKept c (cmdAck s) := by
  unfold cmdAck
  split
  · exact .fault _
  next t rest hq =>
    extract_lets t1 _ s1
    have ht : t1.buf.wf := h.queue t (hq ▸ List.mem_cons_self)
    have h1 : MemKept c s1 := h.withHead _ hq ht
    split
    · exact (finishHead_keeps h1 ht _).next
    · exact (h1.withUpe _).next

theorem commandByte_keeps (b : Byte) : NextKept c (commandByte b s) := by
  unfold commandByte
  split
  · exact (cmdSigC_keeps h).next
  split
  · exact (cmdSwitch_keeps h _ _).next
  split
  · exact (cmdSwitch_keeps h _ _).next
  split
  · exact cmdAck_keeps h
  split
  · exact retransmit_keeps h
  · exact h.next

theorem acceptFrame_keeps (blk : Byte) (data : Bytes) : NextKept c (acceptFrame blk data s) := by
  unfold acceptFrame
  split
  · exact (nakFrame_keeps h _).next
  next t rest hq =>
    split
    · exact (nakFrame_keeps h _).next
    split
    · exact (nakFrame_keeps h _).next
    refine .withVal fun m hm => ?_
    extract_lets t1 _ s1
    have ht : t1.buf.wf := writeBuf_wf (h.queue t (hq ▸ List.mem_cons_self)) hm
    have h1 : MemKept c s1 := frameReset_keeps (tx_keeps (h.withHead _ hq ht) _)
    split
    · exact (finishHead_keeps h1 ht _).next
    · exact h1.next

theorem completeFrame_keeps (frame : Bytes) : NextKept c (completeFrame frame s) := by
  unfold completeFrame
  split
  · exact (nakFrame_keeps h _).next
  split
  · exact (nakFrame_keeps h _).next
  · exact (frameReset_keeps (tx_keeps h _)).next
  · exact acceptFrame_keeps h _ _

theorem frameByte_keeps (b : Byte) : NextKept c (frameByte b s) := by
  refine .withVal fun m hm => ?_
  extract_lets n frame _ s1
  have h1 : MemKept c s1 := (h.withFbuf (writeBuf_wf h.fbuf hm)).withUpe _
  split
  · exact .fault _
  · exact (h1.withUpe _).next
  · extract_lets s2
    have h2 : MemKept c s2 := h1.withUpe _
    split
    · exact completeFrame_keeps h2 _
    · exact h2.next

theorem uartRx_keeps (b : Byte) : NextKept c (uartRx b s) := by
  unfold uartRx
  split
  · exact h.next
  extract_lets _ s1
  have h1 : MemKept c s1 := h.withUpe _
  refine .andThen ?_ fun _ ht => trySend_keeps ht
  split
  · exact frameByte_keeps h1 b
  · exact commandByte_keeps h1 b

omit h in
theorem uartRxs_keeps (b : Bytes) : ∀ {s : State}, MemKept c s → NextKept c (uartRxs b s) := by
  induction b with
  | nil => exact fun h => h.next
  | cons x r ih => exact fun h => .andThen (uartRx_keeps h x) fun _ ht => ih ht

theorem startTask_keeps {t : Task} (ht : t.buf.wf) : NextKept c (startTask t s) := by
  unfold startTask
  split
  · exact (h.withRet _).next
  split
  · exact (h.withRet _).next
  split
  · exact (h.withRet _).next
  have h1 := h.withQueue (u := { s.upe with q := s.upe.q ++ [t] })
    (List.forall_mem_append.2 ⟨h.queue, List.forall_mem_singleton.2 ht⟩)
  exact .andThen (trySend_keeps h1) fun _ h2 => (h2.withRet _).next

theorem upeInitOp_keeps : MemKept c (upeInitOp s) := tx_keeps (h.withQueue (by simp [upeReset])) _

theorem frameWatchdog_keeps : MemKept c (frameWatchdog s) :=
  have h1 := tx_keeps (frameReset_keeps (raiseUpe_keeps h .timeoutFrame)) [s.cfg.nak]
  h1.withUpe _

theorem sessionTimeout_keeps : MemKept c (sessionTimeout s) :=
  have h1 := raiseUpe_keeps h .timeoutSession
  h1.withUpe _

theorem releaseWriter_keeps : MemKept c (releaseWriter s) := (h.withAns _).withInbox _

theorem tickOp_keeps : NextKept c (tickOp s) := by
  unfold tickOp
  split
  · exact h.next
  extract_lets s1 s2
  have h1 : MemKept c s1 := h.withUpe _
  have h2 : MemKept c s2 := (frameWatchdog_keeps h1).ite h1
  split
  · exact (releaseWriter_keeps (sessionTimeout_keeps h1)).next
  refine .andThen ?_ fun _ ht => trySend_keeps ht
  split
  · exact retransmit_keeps (raiseUpe_keeps h2 _)
  · exact h2.next

end

/-! ## UTE (42_usb_engine.md) -/

section
variable {c : Config} {s : State} (h : MemKept c s)
include h

theorem raiseUte_keeps (e : UteErr) : MemKept c (raiseUte e s) := h.withUte _

theorem submitCsw_keeps (tag res : U32) (st : Byte) : MemKept c (submitCsw tag res st s) :=
  ((h.withUte _).act _).withUte _

theorem sendCsw_keeps : MemKept c (sendCsw s) := by
  unfold sendCsw
  split
  · exact submitCsw_keeps h _ _ _
  · exact submitCsw_keeps (dispStatusCall_keeps h) _ _ _

theorem malformedCbw_keeps : MemKept c (malformedCbw s) := sendCsw_keeps (raiseUte_keeps h _)

theorem armOutPacket_keeps : MemKept c (armOutPacket s) := (h.withUte _).act _

theorem nextTask_keeps : MemKept c (nextTask s) := h.withUte _

theorem startOutTask_keeps : MemKept c (startOutTask s) := armOutPacket_keeps (nextTask_keeps h)

theorem submitInPacket_keeps : NextKept c (submitInPacket s) :=
  .withVal fun _ _ => ((h.withUte _).act _).next

/-- What a data-in task leaves behind (rules R242, R243), with the dispatcher's bytes in PKTBUF. -/
theorem supplied_keeps {m : Memory} (hm : m.wf) : MemKept c (s.supplied m) := by
  have hp := h.withPktbuf hm
  unfold State.supplied
  dsimp only
  split
  · rw [← sendCsw_eq]
    exact sendCsw_keeps hp
  · exact hp

theorem startInTask_keeps : NextKept c (startInTask s) := by
  rw [startInTask_eq]
  exact (supplied_keeps h (Memory.wf_writeRun h.pktbuf _ _)).next

theorem forwardTask_keeps {t : State} (ht : forwardTask s = .ok t) : MemKept c t := by
  unfold forwardTask at ht
  split at ht
  · split at ht
    · cases ht
    dsimp only at ht
    have h1 := dispOutCall_keeps h
    split at ht
    · cases ht
      exact (raiseUte_keeps ((h1 _).withUte _) _).withUte _
    · cases ht
      exact (h1 _).withUte _
  · cases ht
    exact h

theorem beginData_keeps : NextKept c (beginData s) := by
  have he := dispExpectCall_keeps h s.ute.cmd s.ute.dlen
  unfold beginData
  dsimp only
  generalize dispExpectCall s.ute.cmd s.ute.dlen s = p at he ⊢
  have h2 : MemKept c (if p.1 ≠ p.2.ute.dlen then raiseUte .length p.2 else p.2) := (raiseUte_keeps he _).ite he
  generalize (if p.1 ≠ p.2.ute.dlen then raiseUte .length p.2 else p.2) = s2 at h2 ⊢
  split
  · split
    · exact (sendCsw_keeps (h2.withUte _)).next
    · exact startInTask_keeps ((h2.withUte _).withUte _)
  · split
    · exact (sendCsw_keeps (h2.withUte _)).next
    · exact (startOutTask_keeps ((h2.withUte _).withUte _)).next

theorem outReadCbw_keeps (b : Bytes) : NextKept c (outReadCbw b s) := by
  unfold outReadCbw
  dsimp only
  split
  · exact (malformedCbw_keeps ((h.withUte _).withUte _)).next
  split
  · exact beginData_keeps ((h.withUte _).withUte _)
  · exact (malformedCbw_keeps ((h.withUte _).withUte _)).next

theorem outData_keeps (b : Bytes) : NextKept c (outData b s) := by
  unfold outData
  split
  · exact .refused _
  refine .withVal fun m hm => ?_
  extract_lets n _ s1 short s2
  have h1 : MemKept c s1 := (h.withPktbuf (writeBuf_wf h.pktbuf hm)).withUte _
  have h2 : MemKept c s2 := (raiseUte_keeps h1 _).ite h1
  split
  · refine .withVal fun s3 h3 => ?_
    have h3 := forwardTask_keeps h2 h3
    split
    · exact (sendCsw_keeps h3).next
    · exact (startOutTask_keeps (h3.withUte _)).next
  · exact (armOutPacket_keeps (h2.withUte _)).next

theorem outDone_keeps (b : Bytes) : NextKept c (outDone b s) := by
  unfold outDone
  split
  · cases s.ute.stage with
    | readCbw => exact outReadCbw_keeps h b
    | dataOut | dataOutBuf => exact outData_keeps h b
    | dataIn | dataInBuf | sendCsw | waitCsw => exact h.next
  · exact h.next

theorem inData_keeps (n : U32) : NextKept c (inData n s) := by
  unfold inData
  split
  · exact .refused _
  extract_lets _ s1
  have h1 : MemKept c s1 := h.withUte _
  split
  · split
    · exact (sendCsw_keeps h1).next
    · exact startInTask_keeps (h1.withUte _)
  · exact submitInPacket_keeps (h1.withUte _)

theorem inWaitCsw_keeps : MemKept c (inWaitCsw s) := (h.withUte _).act _

theorem inDone_keeps (n : U32) : NextKept c (inDone n s) := by
  unfold inDone
  split
  · cases s.ute.stage with
    | dataIn | dataInBuf => exact inData_keeps h n
    | waitCsw => exact (inWaitCsw_keeps h).next
    | readCbw | dataOut | dataOutBuf | sendCsw => exact h.next
  · exact h.next

theorem uteInitOp_keeps : MemKept c (uteInitOp s) := (h.withUte _).act _

theorem usbResetOp_keeps : MemKept c (usbResetOp s) := (uteInitOp_keeps h).ite h

end

/-! ## The action rows (rule R8) and the dispatcher (44_command_interface.md) -/

section
variable {c : Config} {s : State} (h : MemKept c s)
include h

theorem retLast_keeps : MemKept c (retLast s) := by
  unfold retLast
  split
  · exact h
  · exact h.withRet _

theorem execDevWrite_keeps (blk : U32) (data : Bytes) : NextKept c (execDevWrite blk data s) := by
  unfold execDevWrite
  split
  · exact (retLast_keeps (devWriteCall_keeps h _ _)).next
  · exact (retLast_keeps (devWriteOdd_keeps h _ _)).next

theorem handleSetMeta_keeps (via : Transport) (payload : Bytes) : MemKept c (handleSetMeta via payload s).2 := by
  have hl := lookupCall_keeps h payload
  unfold handleSetMeta
  split
  · exact h
  dsimp only
  split
  · exact hl
  · have h3 := sswOpenOp_keeps (hl.ite (p := (lookupCall payload s).2.ssw.phase = .closed) (sswCloseOp_keeps hl))
    exact ((h3 _).withCdi _).ite (h3 _)

theorem handleSendData_keeps {payload : Bytes} {r : Reply × State} (hr : handleSendData payload s = .ok r) :
    MemKept c r.2 := by
  unfold handleSendData at hr
  split at hr
  · cases hr
  next code s1 hp =>
    cases hr
    exact sswPushOp_keeps h hp

theorem handleSetCfg_keeps (payload : Bytes) : MemKept c (handleSetCfg payload s).2 := by
  have hm := readModeCall_keeps h payload
  unfold handleSetCfg
  dsimp only
  split
  · exact hm.withCdi _
  · exact hm

theorem noteHeader_keeps (via : Transport) (rejected : Bool) : MemKept c (noteHeader via rejected s) := by
  cases via with
  | uart => exact h
  | usb => exact h.withCdi _

/-- Whatever handler a command code has, it keeps the memories and the configuration. -/
theorem handlerOf_keeps {via : Transport} {cmd : Byte} {payload : Bytes} {e : Except Fault (Reply × State)}
    {r : Reply × State} (he : handlerOf via cmd payload s = some e) (hr : e = .ok r) : MemKept c r.2 := by
  subst hr
  unfold handlerOf at he
  split at he
  · cases he
    exact handleSetMeta_keeps h via payload
  split at he
  · exact handleSendData_keeps h (Option.some.inj he)
  split at he
  · cases he
    exact h
  split at he
  · cases he
    exact h
  split at he
  · cases he
    exact handleSetCfg_keeps h payload
  split at he
  · cases he
    exact sswCloseOp_keeps h
  · cases he

theorem handleCommandOp_keeps (via : Transport) (hb payload : Bytes) : NextKept c (handleCommandOp via hb payload s) := by
  unfold handleCommandOp
  split
  · exact ((noteHeader_keeps h _ _).withRet _).next
  extract_lets s0
  have h0 : MemKept c s0 := noteHeader_keeps h _ _
  split
  · exact (h0.withRet _).next
  split
  · exact (h0.withRet _).next
  next e he => exact .withVal fun _ hr => ((handlerOf_keeps h0 he hr).withRet _).next

theorem checkUpgModeOp_keeps (now : U64) : MemKept c (checkUpgModeOp now s) := by
  unfold checkUpgModeOp
  split
  · exact h.withRet _
  · exact ((h.withCdi _).withRet _).ite (h.withRet _)

/-! ## UPE's port events (rules R173 to R176, R199, R200) and RESET -/

theorem execReset_keeps : NextKept c (execReset s) :=
  (((h.withQueue (by simp [upeReset])).withUte _).withSsw _).next

theorem execUpeDeinit_keeps : NextKept c (execUpeDeinit s) := by
  unfold execUpeDeinit
  split
  · exact h.next
  · exact (h.withUpe _).next

theorem execGetStatus_keeps : NextKept c (execGetStatus s) := by
  unfold execGetStatus
  split
  · exact ((h.withUpe _).withRet _).next
  · exact (h.withRet _).next

/-! ## One step (rules R7, R72) -/

/-- Every row keeps the memories and the configuration, by the lemma of the operation that it is. -/
theorem exec_keeps (i : Instr) : NextKept c (exec i s) := by
  cases i with
  | sigC | dc1 | dc2 | ack | nak | can | soh | stx | uartDropped | uartRx => exact uartRx_keeps h _
  | shortFrame | longFrame => exact uartRxs_keeps _ h
  | cbwWrite | cbwRead | cbwMalformed | outDoneReadCbw | outDoneDataOut => exact outDone_keeps h _
  | inDoneDataIn | inDoneWaitCsw => exact inDone_keeps h _
  | doneIgnored done =>
    cases done with
    | out b => exact outDone_keeps h b
    | inn n => exact inDone_keeps h n
  | csw => exact (submitCsw_keeps h _ _ _).next
  | sparseHeader | chunkRaw | chunkFill | chunkDontCare | chunkCrc32 | chunkUnknown | sswPush => exact pushBytes_keeps h _
  | commandHeader | responseHeader | hdrEncodeCmd | hdrDecodeCmd | hdrEncodeRsp | hdrDecodeRsp => exact (h.withRet _).next
  | crc16 | packShort | packLong | packFrame | frameTotal | unpack | slice | split => exact (h.withRet _).next
  | cmdSetFwcMeta | cmdSendFwcData | cmdGetFwcCrc | cmdGetFwcBurnResult | cmdSetUpgCfg | cmdSetUpgEnd | handleCommand =>
    exact handleCommandOp_keeps h _ _ _
  | checkUpgMode => exact (checkUpgModeOp_keeps h _).next
  | reset => exact execReset_keeps h
  | tick => exact tickOp_keeps h
  | upeInit => exact (upeInitOp_keeps h).next
  | upeDeinit => exact execUpeDeinit_keeps h
  | startRead => exact startTask_keeps h Memory.wf_nil
  | startWrite data => exact startTask_keeps h (Memory.wf_ofBytes data)
  | getStatus => exact execGetStatus_keeps h
  | setStatus => exact (postStatus_keeps h _).next
  | uteInit => exact (uteInitOp_keeps h).next
  | usbReset => exact (usbResetOp_keeps h).next
  | sswOpen => exact ((sswOpenOp_keeps h _).withRet _).next
  | sswClose => exact ((sswCloseOp_keeps h).withRet _).next
  | pushDetect => exact stepIn_keeps h (stepDetect_keeps h) _
  | pushSpHdr => exact stepIn_keeps h (stepSpHdr_keeps h) _
  | pushSpChunkHdr => exact stepIn_keeps h (stepSpChunkHdr_keeps h) _
  | pushSpRaw => exact stepIn_keeps h (stepSpRaw_keeps h) _
  | pushSpFill => exact stepIn_keeps h (stepSpFill_keeps h) _
  | pushSpDone => exact stepIn_keeps h (stepSpDone_keeps h) _
  | pushRaw => exact stepIn_keeps h (stepRaw_keeps h) _
  | sswGetResult | sswGetCrc => exact (h.withRet _).next
  | uartTx | epRecv | epSend | progress => exact (h.act _).next
  | dispExpect => exact (retLast_keeps (dispExpectCall_keeps h _ _)).next
  | dispOut => exact (retLast_keeps (dispOutCall_keeps h _)).next
  | dispIn => exact (retLast_keeps (dispInCall_keeps h _)).next
  | dispStatus => exact (retLast_keeps (dispStatusCall_keeps h)).next
  | devWrite => exact execDevWrite_keeps h _ _
  | devRead => exact (retLast_keeps (devReadCall_keeps h _ _)).next
  | devErase => exact (retLast_keeps (devEraseCall_keeps h _ _)).next

theorem undecoded_keeps (p : Packet) : NextKept c (undecoded p s) := by
  unfold undecoded
  split
  · exact uartRxs_keeps _ h
  · exact uartRxs_keeps _ h
  · exact pushBytes_keeps h _
  · exact pushBytes_keeps h _
  · exact (h.withRet _).next
  · exact handleCommandOp_keeps h _ _ _
  · exact h.next

theorem step_keeps : NextKept c (step s) := by
  cases hp : s.inbox with
  | nil =>
    rw [step_of_inbox_nil hp]
    exact h.next
  | cons p rest =>
    cases hd : decode s.cfg p with
    | ok i =>
      rw [step_of_decode_ok hp hd]
      exact exec_keeps (h.withInbox rest) i
    | error e =>
      rw [step_of_decode_error hp hd]
      exact undecoded_keeps (h.withInbox rest) p

end

/-- Settles O56: what every step keeps holds of `s` with its own configuration, so it holds of the next state. -/
theorem stepKeepsMemory : Obligations.StepKeepsMemory := by
  intro s t hs ht
  have h : NextKept s.cfg (step s) := step_keeps ⟨hs, rfl⟩
  rw [ht] at h
  exact h

end Sys2Proof.Machine
end

section
/-! PROOFS. No step faults from a state with the invariants (rules R60, R180, R186, R192; log 22). UPE and the writer's PUSH take many
bytes in one step, so that for these two the proof shows as well what each byte, and each turn of the loop, leaves for the next one. -/

namespace Sys2Proof.Machine

/-! ## Outcomes -/

/-- An outcome that is no fault, and whose next state, if there is one, has `P`. -/
def Sound (P : State → Prop) : Result → Prop
  | .next t => P t
  | .fault _ => False
  | .refused _ => True

theorem Sound.andThen {P Q : State → Prop} {o : Result} {k : State → Result} (ho : Sound Q o)
    (hk : ∀ t, Q t → Sound P (k t)) : Sound P (Machine.andThen o k) := by
  cases o with
  | next t => exact hk t ho
  | fault f => exact ho.elim
  | refused r => trivial

theorem Sound.imp {P Q : State → Prop} {o : Result} (ho : Sound P o) (h : ∀ t, P t → Q t) : Sound Q o := by
  cases o with
  | next t => exact h t ho
  | fault f => exact ho
  | refused r => trivial

theorem Sound.ne_fault {P : State → Prop} {o : Result} (ho : Sound P o) (f : Fault) : o ≠ .fault f := by
  rintro rfl
  exact ho

/-- Nothing is asked of the next state. -/
abbrev NoFault (o : Result) : Prop := Sound (fun _ => True) o

theorem Sound.noFault {P : State → Prop} {o : Result} (ho : Sound P o) : NoFault o := ho.imp fun _ _ => trivial

/-! ## UPE (41_uart_engine.md) -/

/-- The invariant of UPE without its last clause: what `try_send` is called with, when a frame may be due (rules R186, R188). -/
structure UpeReady (s : State) : Prop where
  room : s.upe.q.length ≤ s.cfg.qCap
  unfinished : ∀ t ∈ s.upe.q, t.done.toNat < t.len.toNat
  frame : frameInv s.cfg s.upe s.fbuf
  flight : flightInv s.upe

theorem upeInv_iff {s : State} : UpeInv s ↔ UpeReady s ∧ s.quiet :=
  ⟨fun ⟨h1, h2, h3, h4, h5⟩ => ⟨⟨h1, h2, h3, h4⟩, h5⟩, fun ⟨⟨h1, h2, h3, h4⟩, h5⟩ => ⟨h1, h2, h3, h4, h5⟩⟩

theorem UpeInv.ready {s : State} (h : UpeInv s) : UpeReady s := (upeInv_iff.1 h).1

/-- At a frame boundary and with no frame in flight, only the queue matters. -/
theorem UpeReady.idle {s : State} (hroom : s.upe.q.length ≤ s.cfg.qCap) (hq : ∀ t ∈ s.upe.q, t.done.toNat < t.len.toNat)
    (hf : s.upe.fcnt = 0 ∧ s.upe.fneed = 0) (ha : s.upe.awaitAck = false) : UpeReady s :=
  ⟨hroom, hq, .inl hf, fun h => absurd (ha.symm.trans h) (by decide)⟩

/-- Only in DATA_RECV is a frame in progress (rule R180). -/
theorem UpeReady.boundary {s : State} (h : UpeReady s) (hst : s.upe.st ≠ .dataRecv) : s.upe.fcnt = 0 ∧ s.upe.fneed = 0 :=
  h.frame.resolve_right fun h1 => hst h1.1

/-- Only in CMD_RECV is a frame in flight (rule R192). -/
theorem UpeReady.notInFlight {s : State} (h : UpeReady s) (hst : s.upe.st ≠ .cmdRecv) : s.upe.awaitAck = false := by
  by_contra ha
  exact hst (h.flight (by simpa using ha)).1

/-- The queue without a head that is done (rules R185, R192). -/
theorem UpeReady.tail {s : State} {t : Task} {r : List Task} (h : UpeReady s) (hq : s.upe.q = t :: r) :
    r.length ≤ s.cfg.qCap ∧ ∀ x ∈ r, x.done.toNat < x.len.toNat := by
  have hroom := h.room
  have hunf := h.unfinished
  rw [hq] at hroom hunf
  exact ⟨Nat.le_of_succ_le hroom, fun x hx => hunf x (List.mem_cons_of_mem _ hx)⟩

/-- The queue with another head that is not done either (rules R185, R192). -/
theorem UpeReady.cons {s : State} {t t1 : Task} {r : List Task} (h : UpeReady s) (hq : s.upe.q = t :: r)
    (ht : t1.done.toNat < t1.len.toNat) :
    (t1 :: r).length ≤ s.cfg.qCap ∧ ∀ x ∈ t1 :: r, x.done.toNat < x.len.toNat := by
  have hroom := h.room
  rw [hq] at hroom
  exact ⟨hroom, List.forall_mem_cons.2 ⟨ht, (h.tail hq).2⟩⟩

/-- The engine is about to send just when a send task is at the head in DATA_SEND (rule R186). -/
theorem exists_send_of_not_quiet {s : State} (h : ¬ s.quiet) :
    s.upe.st = .dataSend ∧ ∃ t r, s.upe.q = t :: r ∧ t.dir = .send := by
  simp only [State.quiet, sendReady] at h
  cases hq : s.upe.q with
  | nil => simp [hq] at h
  | cons t r => exact ⟨by simp_all, t, r, rfl, by simp_all⟩

theorem trySend_sound {s : State} (h : UpeReady s) : Sound UpeInv (trySend s) := by
  by_cases hquiet : s.quiet
  · rw [trySend_quiet hquiet]
    exact upeInv_iff.2 ⟨h, hquiet⟩
  obtain ⟨hst, t, r, hq, hd⟩ := exists_send_of_not_quiet hquiet
  have hl : t.done.toNat < t.len.toNat := h.unfinished t (by simp [hq])
  obtain ⟨f, -, hsend⟩ := trySend_sends hst hq hd hl
  rw [hsend]
  have hslice := sliceOf_carried (t.len.toNat - t.done.toNat)
  refine ⟨h.room, h.unfinished, .inl (h.boundary (by simp [hst])), fun _ => ⟨rfl, t, by simp [hq], hd, ?_⟩, rfl⟩
  rw [sub_toNat hl.le, BitVec.toNat_ofNat, Nat.mod_eq_of_lt (by omega)]

/-- While a frame is in flight there is a head task (rule R192). -/
theorem UpeInv.exists_head {s : State} (h : UpeInv s) (ha : s.upe.awaitAck = true) : ∃ t r, s.upe.q = t :: r := by
  obtain ⟨-, t, ht, -⟩ := h.ready.flight ha
  cases hq : s.upe.q with
  | nil => simp [hq] at ht
  | cons t r => exact ⟨t, r, rfl⟩

theorem retransmit_sound {s : State} (h : UpeInv s) (ha : s.upe.awaitAck = true) : Sound UpeInv (retransmit s) := by
  obtain ⟨t, r, hq⟩ := h.exists_head ha
  obtain ⟨-, -, hl, hslice⟩ := h.flight ha hq
  have hle := sliceOf_le (t.len.toNat - t.done.toNat)
  have hcarried := sliceOf_carried (t.len.toNat - t.done.toNat)
  obtain ⟨f, -, hsend⟩ := retransmit_sends hq (by omega) (by omega)
  rw [hsend]
  exact h

theorem cmdAck_sound {s : State} (h : UpeInv s) (ha : s.upe.awaitAck = true) : Sound UpeReady (cmdAck s) := by
  obtain ⟨t, r, hq⟩ := h.exists_head ha
  obtain ⟨hst, -, hl, hslice⟩ := h.flight ha hq
  have hle := sliceOf_le (t.len.toNat - t.done.toNat)
  have hdone : (t.done + s.upe.slice.setWidth 32).toNat = t.done.toNat + s.upe.slice.toNat := by
    have := t.len.isLt
    simp only [BitVec.toNat_add, BitVec.toNat_setWidth]
    omega
  have hbound := h.ready.boundary (by simp [hst])
  simp only [cmdAck, hq]
  split
  · obtain ⟨hroom, hunf⟩ := h.ready.tail hq
    exact .idle hroom hunf hbound rfl
  next hne =>
    have hlt : (t.done + s.upe.slice.setWidth 32).toNat < t.len.toNat := by
      have : (t.done + s.upe.slice.setWidth 32).toNat ≠ t.len.toNat := fun he => hne (BitVec.eq_of_toNat_eq he)
      omega
    obtain ⟨hroom, hunf⟩ := h.ready.cons (t1 := { t with done := t.done + s.upe.slice.setWidth 32 }) hq hlt
    exact .idle hroom hunf hbound rfl

theorem announced_sublist (d : Dir) (q : List Task) : (announced d q).Sublist q := by
  cases q with
  | nil => exact .slnil
  | cons t r =>
    by_cases h : t.dir = d
    · simp [announced, h]
    · simp [announced, h]

theorem cmdSwitch_ready {s : State} (h : UpeReady s) (d : Dir) (st : UpeSt) : UpeReady (cmdSwitch d st s) := by
  have hsub := announced_sublist d s.upe.q
  rw [cmdSwitch_eq]
  exact .idle (hsub.length_le.trans h.room) (fun t ht => h.unfinished t (hsub.subset ht)) ⟨rfl, rfl⟩ rfl

theorem commandByte_sound {s : State} (h : UpeInv s) (b : Byte) : Sound UpeReady (commandByte b s) := by
  unfold commandByte
  split
  · exact (⟨h.ready.room, h.ready.unfinished, h.ready.frame, h.ready.flight⟩ : UpeReady (cmdSigC s))
  split
  · exact cmdSwitch_ready h.ready _ _
  split
  · exact cmdSwitch_ready h.ready _ _
  split
  next hack => exact cmdAck_sound h hack.2
  split
  next hnak => exact (retransmit_sound h hnak.2).imp fun _ => UpeInv.ready
  exact h.ready

/-- A frame that has been gathered: whatever comes of it, the engine is at a frame boundary again (rules R181 to R185). -/
theorem completeFrame_sound {s : State} (hroom : s.upe.q.length ≤ s.cfg.qCap)
    (hunf : ∀ t ∈ s.upe.q, t.done.toNat < t.len.toNat) (ha : s.upe.awaitAck = false) (f : Bytes) :
    Sound UpeReady (completeFrame f s) := by
  have hnak : ∀ e, UpeReady (nakFrame e s) := fun e => .idle hroom hunf ⟨rfl, rfl⟩ ha
  cases hu : unpackOf s.cfg f with
  | error e =>
    rw [completeFrame_damaged hu]
    exact hnak _
  | ok v =>
    obtain ⟨blk, data⟩ := v
    cases hc : blkClass s.upe blk with
    | bad =>
      rw [completeFrame_bad hu hc]
      exact hnak _
    | dup =>
      rw [completeFrame_dup hu hc]
      exact .idle hroom hunf ⟨rfl, rfl⟩ ha
    | new =>
      rcases hq : s.upe.q with _ | ⟨t, r⟩
      · rw [completeFrame_noTask hu hc (by simp [hq])]
        exact hnak _
      rw [hq] at hroom hunf
      obtain ⟨hl, hr⟩ := List.forall_mem_cons.1 hunf
      cases hd : t.dir with
      | send =>
        rw [completeFrame_noTask hu hc (by simp [hq, hd])]
        exact hnak _
      | recv =>
        rcases Nat.lt_trichotomy (t.done.toNat + data.length) t.len.toNat with hlt | heq | hgt
        · rw [completeFrame_more hu hc hq hd hlt]
          refine .idle hroom (List.forall_mem_cons.2 ⟨?_, hr⟩) ⟨rfl, rfl⟩ ha
          have := t.len.isLt
          simp only [BitVec.toNat_add, BitVec.toNat_ofNat]
          omega
        · rw [completeFrame_done hu hc hq hd heq]
          exact .idle (Nat.le_of_succ_le hroom) hr ⟨rfl, rfl⟩ ha
        · rw [completeFrame_overflow hu hc hq hd hl.le (by omega)]
          exact hnak _

/-- What FRAME_TOTAL has said of the beginning of a frame stays so (rule R146). -/
theorem frameTotalOf_append {c : Config} {p : Bytes} {n : Nat} (h : frameTotalOf c p = .total n) (r : Bytes) :
    frameTotalOf c (p ++ r) = .total n := by
  cases p with
  | nil => cases h
  | cons l q =>
    by_cases h4 : 4 ≤ (l :: q).length
    · have hb : byteAt (l :: (q ++ r)) 3 = byteAt (l :: q) 3 := byteAt_append (a := l :: q) (by omega)
      have h4' : 4 ≤ (l :: (q ++ r)).length := by simp only [List.length_cons, List.length_append] at h4 ⊢; omega
      simpa only [frameTotalOf, List.cons_append, h4, h4', if_true, hb] using h
    · simp only [frameTotalOf, List.cons_append, if_neg h4] at h ⊢
      split at h
      · rwa [if_pos ‹_›]
      · split at h <;> cases h

/-- Four bytes tell the length of a frame (rule R146). -/
theorem length_of_frameTotalOf_unknown {c : Config} {p : Bytes} (h : frameTotalOf c p = .unknown) : p.length < 4 := by
  by_contra h4
  cases p with
  | nil => simp at h4
  | cons l q =>
    simp only [frameTotalOf, if_pos (not_lt.1 h4)] at h
    split at h
    · cases h
    · split at h <;> cases h

/-- The bytes of a frame in progress and one more: its lead byte is one, and they are no more than the frame has (rule R180). -/
theorem frameTotalOf_gathered {s : State} {b : Byte} (h : UpeInv s) (hin : inFrame s.cfg s.upe b = true) :
    (frameTotalOf s.cfg (s.fbuf.readRun 0 s.upe.fcnt.toNat ++ [b]) = .unknown ∧ s.upe.fcnt.toNat + 1 < 4) ∨
    ∃ n, frameTotalOf s.cfg (s.fbuf.readRun 0 s.upe.fcnt.toNat ++ [b]) = .total n ∧ s.upe.fcnt.toNat + 1 ≤ n := by
  have hlen : (s.fbuf.readRun 0 s.upe.fcnt.toNat ++ [b]).length = s.upe.fcnt.toNat + 1 := by simp
  have hlead : byteAt (s.fbuf.readRun 0 s.upe.fcnt.toNat ++ [b]) 0 = s.cfg.stx ∨
      byteAt (s.fbuf.readRun 0 s.upe.fcnt.toNat ++ [b]) 0 = s.cfg.soh := by
    rcases Nat.eq_zero_or_pos s.upe.fcnt.toNat with h0 | h0
    · have hz : s.upe.fcnt = 0 := BitVec.eq_of_toNat_eq h0
      have hb : b = s.cfg.soh ∨ b = s.cfg.stx := by simp_all [inFrame]
      rw [h0]
      exact hb.symm
    · rw [byteAt_append (by simpa using h0)]
      exact h.lead h0
  rcases frameTotalOf_need (by omega) hlead with ⟨hu, -⟩ | ht
  · have := length_of_frameTotalOf_unknown hu
    exact .inl ⟨hu, by omega⟩
  · refine .inr ⟨_, ht, ?_⟩
    have h6 := (frameTotalOf_bounds ht).1
    rcases h.ready.frame with ⟨h0, -⟩ | ⟨-, -, hlt, ⟨hu, hneed⟩ | htot⟩
    · have hz : s.upe.fcnt.toNat = 0 := by rw [h0]; rfl
      omega
    · omega
    · have := (frameTotalOf_append htot [b]).symm.trans ht
      injection this with this
      omega

theorem inFrame_st {c : Config} {u : Upe} {b : Byte} (h : inFrame c u b = true) : u.st = .dataRecv := by
  simp only [inFrame, Bool.and_eq_true, beq_iff_eq] at h
  exact h.1

theorem frameByte_sound {s : State} {b : Byte} (h : UpeInv s) (hin : inFrame s.cfg s.upe b = true) :
    Sound UpeReady (frameByte b s) := by
  have hst := inFrame_st hin
  have ha := h.ready.notInFlight (by simp [hst])
  have hfit : s.upe.fcnt.toNat < 1029 := by
    rcases Nat.eq_zero_or_pos s.upe.fcnt.toNat with h0 | h0
    · omega
    · have := h.frame h0
      omega
  have hcnt : (s.upe.fcnt + 1).toNat = s.upe.fcnt.toNat + 1 := by
    rw [BitVec.toNat_add]
    exact Nat.mod_eq_of_lt (by omega : s.upe.fcnt.toNat + 1 < 65536)
  have hrun : (s.fbuf.writeRun s.upe.fcnt.toNat [b]).readRun 0 (s.upe.fcnt + 1).toNat =
      s.fbuf.readRun 0 s.upe.fcnt.toNat ++ [b] := by rw [hcnt, Memory.readRun_snoc]
  have hflight : ∀ u : Upe, u.awaitAck = s.upe.awaitAck → flightInv u := fun u hu h1 =>
    absurd (ha.symm.trans (hu.symm.trans h1)) (by decide)
  rw [frameByte_eq b hfit]
  rcases frameTotalOf_gathered h hin with ⟨hu, h4⟩ | ⟨n, ht, hn⟩
  · rw [hu]
    refine ⟨h.ready.room, h.ready.unfinished, .inr ⟨hst, hcnt ▸ Nat.succ_pos _, ?_, .inl ⟨?_, rfl⟩⟩, hflight _ rfl⟩
    · exact hcnt.trans_lt h4
    · simp only [hrun, hu]
  · have hb := frameTotalOf_bounds ht
    have hneed : (BitVec.ofNat 16 n).toNat = n := by
      rw [BitVec.toNat_ofNat]
      exact Nat.mod_eq_of_lt (by omega)
    rw [ht]
    dsimp only
    split
    · refine completeFrame_sound ?_ ?_ ?_ _
      exacts [h.ready.room, h.ready.unfinished, ha]
    · refine ⟨h.ready.room, h.ready.unfinished, .inr ⟨hst, hcnt ▸ Nat.succ_pos _, ?_, .inr ?_⟩, hflight _ rfl⟩
      · rw [hneed, hcnt]
        omega
      · simp only [hrun, ht, hneed]

/-- A byte on the UART link keeps the invariant of UPE (rule R172). -/
theorem uartRx_sound {s : State} (h : UpeInv s) (b : Byte) : Sound UpeInv (uartRx b s) := by
  by_cases hl : s.listening
  · have hh : UpeInv (s.withUpe s.upe.heard) := h
    cases hin : inFrame s.cfg s.upe b with
    | true =>
      rw [uartRx_in hl hin]
      exact (frameByte_sound hh hin).andThen fun _ => trySend_sound
    | false =>
      rw [uartRx_out hl hin]
      exact (commandByte_sound hh b).andThen fun _ => trySend_sound
  · rw [uartRx_masked b (upeMasked_of_deaf hl)]
    exact h

theorem uartRxs_sound (b : Bytes) : ∀ {s : State}, UpeInv s → Sound UpeInv (uartRxs b s) := by
  induction b with
  | nil => exact fun h => h
  | cons x r ih => exact fun h => (uartRx_sound h x).andThen fun _ => ih

/-- A task of which nothing is done yet is queued (rules R173, R174). -/
theorem startTask_sound {s : State} {t : Task} (h : UpeInv s) (ht : t.done = 0) : Sound UpeInv (startTask t s) := by
  unfold startTask
  split
  · exact h
  split
  · exact h
  next hlen =>
  split
  · exact h
  next hfull =>
  have hpos : t.done.toNat < t.len.toNat := by
    rw [ht]
    exact Nat.pos_of_ne_zero fun h0 => hlen (BitVec.eq_of_toNat_eq h0)
  have hready : UpeReady (s.withUpe { s.upe with q := s.upe.q ++ [t] }) := by
    refine ⟨?_, List.forall_mem_append.2 ⟨h.ready.unfinished, List.forall_mem_singleton.2 hpos⟩, h.ready.frame, fun ha => ?_⟩
    · have := h.ready.room
      simp only [State.withUpe_upe, State.withUpe_cfg, List.length_append, List.length_singleton]
      omega
    · obtain ⟨x, r, hq⟩ := h.exists_head ha
      have hf := h.ready.flight ha
      simp only [hq] at hf
      simpa [hq] using hf
  exact (trySend_sound hready).andThen fun _ h1 => h1

theorem frameWatchdog_inv {s : State} (h : UpeInv s) : UpeInv (frameWatchdog s) := by
  obtain ⟨hroom, hunf, -, hflight, hquiet⟩ := h
  exact ⟨hroom, hunf, .inl ⟨rfl, rfl⟩, hflight, hquiet⟩

theorem tickOp_sound {s : State} (h : UpeInv s) : Sound UpeInv (tickOp s) := by
  unfold tickOp
  split
  · exact h
  extract_lets s1 s2
  have h1 : UpeInv s1 := h
  have h2 : UpeInv s2 := by
    unfold s2
    split
    · exact frameWatchdog_inv h1
    · exact h1
  split
  · exact h1
  refine Sound.andThen (Q := UpeInv) ?_ fun _ h3 => trySend_sound h3.ready
  split
  next hlate => exact retransmit_sound (s := raiseUpe .timeoutAck s2) h2 hlate.1
  · exact h2

/-! ## UTE (42_usb_engine.md) -/

theorem noFault_next (s : State) : NoFault (.next s) := trivial

theorem noFault_withVal {α : Type} {e : Except Fault α} {k : α → Result} (he : ∀ f, e ≠ .error f) (hk : ∀ a, NoFault (k a)) :
    NoFault (withVal e k) := by
  cases e with
  | ok a => exact hk a
  | error f => exact absurd rfl (he f)

theorem startInTask_noFault (s : State) : NoFault (startInTask s) := by
  rw [startInTask_eq]
  exact noFault_next _

theorem beginData_noFault (s : State) : NoFault (beginData s) := by
  unfold beginData
  dsimp only
  generalize dispExpectCall s.ute.cmd s.ute.dlen s = p
  generalize (if p.1 ≠ p.2.ute.dlen then raiseUte .length p.2 else p.2) = s2
  split
  · split
    · exact noFault_next _
    · exact startInTask_noFault _
  · split <;> exact noFault_next _

theorem outReadCbw_noFault (b : Bytes) (s : State) : NoFault (outReadCbw b s) := by
  unfold outReadCbw
  extract_lets
  split
  · exact noFault_next _
  split
  · exact beginData_noFault _
  · exact noFault_next _

/-- A packet of a data-out phase that is no longer than armed fits the packet buffer (rules R60, R240). -/
theorem outData_noFault {s : State} (h : UteInv s) (hst : s.ute.stage = .dataOut ∨ s.ute.stage = .dataOutBuf) (b : Bytes) :
    NoFault (outData b s) := by
  obtain ⟨-, -, -, -, hout, -⟩ := h
  obtain ⟨-, hpkt, -, hbuf⟩ := hout hst
  by_cases hlong : s.ute.pktXfer.toNat < b.length
  · unfold outData
    rw [if_pos hlong]
    trivial
  have hdone : (s.received (s.pktbuf.writeRun s.ute.taskDone.toNat b) b).ute.taskDone.toNat ≤
      (s.received (s.pktbuf.writeRun s.ute.taskDone.toNat b) b).cfg.pktBufSize := by
    simp only [State.received, BitVec.toNat_add, BitVec.toNat_ofNat]
    omega
  rw [outData_eq (by omega) (by omega)]
  split
  · rw [forwardTask_eq _ hdone]
    refine noFault_withVal (fun _ => nofun) fun _ => ?_
    split <;> exact noFault_next _
  · exact noFault_next _

/-- The next packet of a data-in task is in the packet buffer (rules R60, R243). -/
theorem submitInPacket_noFault {s : State} (h1 : s.ute.taskDone.toNat ≤ s.ute.taskXfer.toNat)
    (h2 : s.ute.taskXfer.toNat ≤ s.cfg.pktBufSize) : NoFault (submitInPacket s) := by
  have hn : (nextPacket s.cfg s.ute).toNat ≤ s.ute.taskXfer.toNat - s.ute.taskDone.toNat := by
    rw [nextPacket, sub_toNat h1, BitVec.toNat_ofNat]
    exact (Nat.mod_le _ _).trans (Nat.min_le_left _ _)
  unfold submitInPacket readBuf
  dsimp only
  rw [if_pos (by omega)]
  exact noFault_next _

theorem inData_noFault {s : State} (h : UteInv s) (hst : s.ute.stage = .dataIn ∨ s.ute.stage = .dataInBuf) (n : U32) :
    NoFault (inData n s) := by
  obtain ⟨-, -, -, -, -, hin⟩ := h
  obtain ⟨-, hpkt, -, hbuf⟩ := hin hst
  unfold inData
  split
  · trivial
  next hn =>
  dsimp only
  split
  · split
    · exact noFault_next _
    · exact startInTask_noFault _
  · refine submitInPacket_noFault ?_ hbuf
    simp only [State.withUte_ute, BitVec.toNat_add]
    omega

theorem outDone_noFault {s : State} (h : UteInv s) (b : Bytes) : NoFault (outDone b s) := by
  unfold outDone
  split
  · cases hst : s.ute.stage with
    | readCbw => exact outReadCbw_noFault b s
    | dataOut => exact outData_noFault h (.inl hst) b
    | dataOutBuf => exact outData_noFault h (.inr hst) b
    | dataIn | dataInBuf | sendCsw | waitCsw => exact noFault_next _
  · exact noFault_next _

theorem inDone_noFault {s : State} (h : UteInv s) (n : U32) : NoFault (inDone n s) := by
  unfold inDone
  split
  · cases hst : s.ute.stage with
    | dataIn => exact inData_noFault h (.inl hst) n
    | dataInBuf => exact inData_noFault h (.inr hst) n
    | readCbw | dataOut | dataOutBuf | sendCsw | waitCsw => exact noFault_next _
  · exact noFault_next _

/-! ## SSW (43_sparse_writer.md) -/

/-- What holds of a running PUSH that has not failed: as much of the writer's invariant as says when the loop waits
(rules R286, R288, R293). -/
structure Pushing (s : State) : Prop where
  ok : s.cfg.ok
  isOpen : s.ssw.phase ≠ .closed
  block : 0 < s.ssw.bs.toNat
  sparse : s.ssw.phase.inSparse → s.ssw.sbs.toNat % s.ssw.bs.toNat = 0
  chunk : s.ssw.phase = .spRaw → 0 < s.ssw.chunkRem.toNat ∧ s.ssw.chunkRem.toNat % s.ssw.bs.toNat = 0

/-- More turns than this the loop of rule R286 does not make: each consumes a byte or leaves DETECT. -/
def turnsLeft (w : Ssw) : Nat := w.hand.length + if w.phase = .detect then 1 else 0

theorem turnsLeft_le (w : Ssw) : turnsLeft w ≤ w.hand.length + 1 := by
  unfold turnsLeft
  split <;> omega

/-- A turn of the loop has taken a running PUSH from `s` to `t`. -/
def Turned (s t : State) : Prop := t.ssw.phase = .failed ∨ (Pushing t ∧ turnsLeft t.ssw < turnsLeft s.ssw)

/-- What a step does in a running PUSH: it waits with fewer bytes at hand than LEFT has room for, or it is a turn. -/
def GoesOn (s : State) : PushStep → Prop
  | .wait => s.ssw.hand.length < leftCap s.cfg s.ssw
  | .go t => Turned s t

theorem turned_failSsw (s t : State) (e : SswCode) : Turned s (failSsw e t) := .inl rfl

/-- A turn that consumes `n` bytes. -/
theorem Turned.intro {s t : State} {n : Nat} (h : Pushing s) (hn : 0 < n) (hfit : n ≤ s.ssw.hand.length) (hc : t.cfg = s.cfg)
    (hbs : t.ssw.bs = s.ssw.bs) (hhand : t.ssw.hand = s.ssw.hand.drop n) (hclosed : t.ssw.phase ≠ .closed) (hdetect : t.ssw.phase ≠ .detect)
    (hsparse : t.ssw.phase.inSparse → t.ssw.sbs.toNat % s.ssw.bs.toNat = 0)
    (hchunk : t.ssw.phase = .spRaw → 0 < t.ssw.chunkRem.toNat ∧ t.ssw.chunkRem.toNat % s.ssw.bs.toNat = 0) : Turned s t := by
  refine .inr ⟨⟨hc ▸ h.ok, hclosed, hbs ▸ h.block, hbs ▸ hsparse, hbs ▸ hchunk⟩, ?_⟩
  rw [turnsLeft, turnsLeft, if_neg hdetect, hhand, List.length_drop]
  omega

/-- A turn that ends a chunk (rule R289). -/
theorem Turned.chunkDone {s t : State} {n : Nat} (h : Pushing s) (hp : s.ssw.phase.inSparse) (hn : 0 < n)
    (hfit : n ≤ s.ssw.hand.length) (hc : t.cfg = s.cfg) (hbs : t.ssw.bs = s.ssw.bs) (hsbs : t.ssw.sbs = s.ssw.sbs)
    (hhand : t.ssw.hand = s.ssw.hand.drop n) :
    Turned s (Machine.chunkDone t) := by
  have hphase : (Machine.chunkDone t).ssw.phase = .spDone ∨ (Machine.chunkDone t).ssw.phase = .spChunkHdr := by
    rw [chunkDone_eq]
    exact ite_eq_or_eq _ _ _
  have hsame : (Machine.chunkDone t).ssw.sbs = s.ssw.sbs := hsbs
  refine .intro h hn hfit hc hbs hhand ?_ ?_ (fun _ => hsame ▸ h.sparse hp) fun hraw => ?_
  · rcases hphase with h1 | h1 <;> simp [h1]
  · rcases hphase with h1 | h1 <;> simp [h1]
  · rcases hphase with h1 | h1 <;> simp [h1] at hraw

theorem Pushing.lengths {s : State} (h : Pushing s) : 28 ≤ s.cfg.sparseHdrLen ∧ 12 ≤ s.cfg.chunkHdrLen := by
  obtain ⟨⟨-, -, -, -, -, -, -, -, -, -, -, -, -, -, hs, -, hc, -⟩, -⟩ := h.ok
  exact ⟨hs, hc⟩

theorem stepDetect_goesOn {s : State} (h : Pushing s) (hp : s.ssw.phase = .detect) : GoesOn s (stepDetect s) := by
  have hlen := h.lengths
  unfold stepDetect
  split
  · simp only [GoesOn, leftCap]
    omega
  · refine .inr ⟨⟨h.ok, ?_, h.block, ?_, ?_⟩, ?_⟩ <;> simp only [State.withSsw_ssw]
    · split <;> simp
    · split <;> simp [Phase.inSparse]
    · split <;> simp
    · simp only [turnsLeft, hp]
      split <;> simp

theorem stepSpHdr_goesOn {s : State} (h : Pushing s) : GoesOn s (stepSpHdr s) := by
  have hlen := h.lengths
  unfold stepSpHdr
  split
  · simp only [GoesOn, leftCap]
    omega
  dsimp only
  split
  · exact turned_failSsw ..
  split
  · exact turned_failSsw ..
  next hshort _ hsbs =>
    obtain ⟨-, hmod⟩ := not_or.1 hsbs
    refine .intro h (by omega) (not_lt.1 hshort) rfl rfl rfl ?_ ?_ (fun _ => not_not.1 hmod) ?_
    all_goals simp only [State.withSsw_ssw]; split <;> simp

/-- A chunk header that is at hand (rule R290). -/
theorem takeChunk_turned {s : State} (h : Pushing s) (hp : s.ssw.phase = .spChunkHdr)
    (hl : s.cfg.chunkHdrLen ≤ s.ssw.hand.length) (hdr eff : Bytes) (k : ChunkKind) : Turned s (takeChunk hdr eff k s) := by
  have hlen := h.lengths
  have hsp : s.ssw.phase.inSparse := .inl hp
  unfold takeChunk
  extract_lets csz nblk s1 _ s2 _ s3
  have hn : 0 < s.cfg.chunkHdrLen := by omega
  split
  · exact turned_failSsw ..
  next hsize =>
  split
  · exact turned_failSsw ..
  cases k with
  | raw =>
    have hrem : s3.ssw.chunkRem.toNat = csz.toNat * s.ssw.sbs.toNat := by
      have := (le32 eff 8).isLt
      simp only [chunkWant, not_not] at hsize
      exact Nat.mod_eq_of_lt (by omega : csz.toNat * s.ssw.sbs.toNat < 2 ^ 32)
    dsimp only
    split
    · exact .chunkDone h hsp hn hl rfl rfl rfl rfl
    next hne =>
      refine .intro h hn hl rfl rfl rfl Phase.noConfusion Phase.noConfusion (fun _ => h.sparse hsp) fun _ => ⟨?_, ?_⟩
      · exact Nat.pos_of_ne_zero fun h0 => hne (BitVec.eq_of_toNat_eq h0)
      · show s3.ssw.chunkRem.toNat % s.ssw.bs.toNat = 0
        rw [hrem, Nat.mul_mod, h.sparse hsp, Nat.mul_zero, Nat.zero_mod]
  | fill => exact .intro h hn hl rfl rfl rfl Phase.noConfusion Phase.noConfusion (fun _ => h.sparse hsp) Phase.noConfusion
  | dontCare => exact .chunkDone h hsp hn hl rfl rfl rfl rfl
  | crc32 => exact .chunkDone h hsp hn hl rfl rfl rfl rfl

theorem unknownChunk_turned {s : State} (h : Pushing s) (hp : s.ssw.phase = .spChunkHdr)
    (hl : s.cfg.chunkHdrLen ≤ s.ssw.hand.length) (hdr : Bytes) : Turned s (unknownChunk hdr s) := by
  have hr : Pushing (raiseSsw .chunkType s) := ⟨h.ok, h.isOpen, h.block, h.sparse, h.chunk⟩
  unfold unknownChunk
  dsimp only
  split
  · exact turned_failSsw ..
  split
  · exact turned_failSsw ..
  · exact takeChunk_turned hr hp hl _ _ _

theorem stepSpChunkHdr_goesOn {s : State} (h : Pushing s) (hp : s.ssw.phase = .spChunkHdr) : GoesOn s (stepSpChunkHdr s) := by
  unfold stepSpChunkHdr
  split
  · simp only [GoesOn, leftCap]
    omega
  next hl =>
  dsimp only
  split
  · exact takeChunk_turned h hp (not_lt.1 hl) _ _ _
  · exact unknownChunk_turned h hp (not_lt.1 hl) _

/-- The whole blocks among the bytes that may be written: some, and no more than there are. -/
theorem wholeBlocks {n bs : Nat} (hk : n / bs ≠ 0) : 0 < n / bs * bs ∧ n / bs * bs ≤ n :=
  ⟨Nat.mul_pos (Nat.pos_of_ne_zero hk) (Nat.pos_of_ne_zero fun h0 => hk (by simp [h0])), Nat.div_mul_le_self n bs⟩

/-- A turn that writes `n` bytes of a raw chunk, whole blocks, and ends the chunk if they are the last (rule R293). -/
theorem Turned.rawBytes {s t : State} {n : Nat} (h : Pushing s) (hp : s.ssw.phase = .spRaw) (hc : t.cfg = s.cfg)
    (hbs : t.ssw.bs = s.ssw.bs) (hsbs : t.ssw.sbs = s.ssw.sbs) (hphase : t.ssw.phase = s.ssw.phase)
    (hhand : t.ssw.hand = s.ssw.hand.drop n) (hrem : t.ssw.chunkRem = s.ssw.chunkRem - BitVec.ofNat 32 n) (hn : 0 < n)
    (hfit : n ≤ min s.ssw.hand.length s.ssw.chunkRem.toNat) (hblocks : n % s.ssw.bs.toNat = 0) :
    Turned s (if t.ssw.chunkRem = 0 then Machine.chunkDone t else t) := by
  have hsp : s.ssw.phase.inSparse := .inr (.inl hp)
  have hfit' : n ≤ s.ssw.hand.length := by omega
  have hleft : t.ssw.chunkRem.toNat = s.ssw.chunkRem.toNat - n := by
    have := s.ssw.chunkRem.isLt
    have hn32 : (BitVec.ofNat 32 n).toNat = n := by
      rw [BitVec.toNat_ofNat]
      exact Nat.mod_eq_of_lt (by omega)
    rw [hrem, sub_toNat (by omega), hn32]
  split
  · exact .chunkDone h hsp hn hfit' hc hbs hsbs hhand
  next hne =>
    refine .intro h hn hfit' hc hbs hhand (by simp [hphase, hp]) (by simp [hphase, hp]) (fun _ => hsbs ▸ h.sparse hsp)
      fun _ => ⟨?_, ?_⟩
    · exact Nat.pos_of_ne_zero fun h0 => hne (BitVec.eq_of_toNat_eq h0)
    · have hdvd := Nat.dvd_sub (Nat.dvd_of_mod_eq_zero (h.chunk hp).2) (Nat.dvd_of_mod_eq_zero hblocks)
      rw [hleft, Nat.mod_eq_zero_of_dvd hdvd]

@[simp] theorem devWriteCall_ssw (blk : Nat) (data : Bytes) (s : State) : (devWriteCall blk data s).2.ssw = s.ssw := rfl
@[simp] theorem devWriteCall_cfg (blk : Nat) (data : Bytes) (s : State) : (devWriteCall blk data s).2.cfg = s.cfg := rfl
@[simp] theorem devReadCall_ssw (blk n : Nat) (s : State) : (devReadCall blk n s).2.ssw = s.ssw := rfl
@[simp] theorem devReadCall_cfg (blk n : Nat) (s : State) : (devReadCall blk n s).2.cfg = s.cfg := rfl

theorem stepSpRaw_goesOn {s : State} (h : Pushing s) (hp : s.ssw.phase = .spRaw) : GoesOn s (stepSpRaw s) := by
  unfold stepSpRaw
  dsimp only
  split
  next hk =>
    -- what is left of the chunk is a block at least, so that it is the bytes at hand that are less than one
    obtain ⟨hpos, hmod⟩ := h.chunk hp
    have hle : s.ssw.bs.toNat ≤ s.ssw.chunkRem.toNat := Nat.le_of_dvd hpos (Nat.dvd_of_mod_eq_zero hmod)
    have hlt := (Nat.div_eq_zero_iff.1 hk).resolve_left h.block.ne'
    simp only [GoesOn, leftCap]
    omega
  next hk =>
  obtain ⟨hpos, hle⟩ := wholeBlocks hk
  split
  · refine .rawBytes h hp ?_ ?_ ?_ ?_ ?_ ?_ hpos hle (Nat.mul_mod_left ..) <;> simp [advance, consume]
  · exact turned_failSsw ..

/-- What the device calls of a fill leave of the writer's registers, unless one of them fails (rule R295). -/
def FillFrame (s t : State) : Prop := t.ssw.phase = .failed ∨ (t.cfg = s.cfg ∧ ∃ c, t.ssw = { s.ssw with cursor := c })

theorem FillFrame.refl (s : State) : FillFrame s s := .inr ⟨rfl, s.ssw.cursor, rfl⟩

theorem FillFrame.trans {s t u : State} (h1 : FillFrame s t) (h2 : FillFrame t u) : FillFrame s u := by
  rcases h2 with h2 | ⟨hc2, c2, h2⟩
  · exact .inl h2
  rcases h1 with h1 | ⟨hc1, c1, h1⟩
  · exact .inl (by rw [h2, h1])
  · exact .inr ⟨hc2.trans hc1, c2, by rw [h2, h1]⟩

theorem fillWrite_frame (w : Bytes) (fuel : Nat) : ∀ (n : Nat) (s : State), FillFrame s (fillWrite w fuel n s) := by
  induction fuel with
  | zero => exact fun _ s => .refl s
  | succ fuel ih =>
    intro n s
    unfold fillWrite
    split
    · exact .refl s
    dsimp only
    split
    · exact .trans (.inr ⟨rfl, _, rfl⟩) (ih _ _)
    · exact .inl rfl

theorem eraseMid_frame (mid : Nat) (s : State) : FillFrame s (eraseMid mid s) := by
  unfold eraseMid
  split
  · dsimp only
    split
    · exact .inr ⟨rfl, _, rfl⟩
    · exact .inl rfl
  · exact .refl s

theorem doFill_frame (w : Bytes) (nblk : Nat) (s : State) : FillFrame s (doFill w nblk s) := by
  unfold doFill
  split
  · exact .trans (.trans (fillWrite_frame ..) (eraseMid_frame ..)) (fillWrite_frame ..)
  · exact fillWrite_frame ..

theorem stepSpFill_goesOn {s : State} (h : Pushing s) (hp : s.ssw.phase = .spFill) : GoesOn s (stepSpFill s) := by
  have hlen := h.lengths
  unfold stepSpFill
  split
  · simp only [GoesOn, leftCap]
    omega
  dsimp only
  generalize hf : doFill (s.ssw.hand.take 4) (chunkBlks (le32 (eatWord s).ssw.curHdr 4) (eatWord s).ssw) (eatWord s) = s2
  split
  next hfail => exact .inl hfail
  next hfail =>
    obtain ⟨hcfg, c, hssw⟩ := (hf ▸ doFill_frame ..).resolve_left hfail
    refine .chunkDone (n := 4) h (.inr (.inr (.inl hp))) (by omega) (by omega) hcfg ?_ ?_ ?_ <;> rw [hssw] <;> rfl

theorem stepSpDone_goesOn {s : State} (h : Pushing s) : GoesOn s (stepSpDone s) := by
  have hlen := h.lengths
  unfold stepSpDone
  split
  · exact turned_failSsw ..
  · simp only [GoesOn, leftCap]
    omega

theorem stepRaw_goesOn {s : State} (h : Pushing s) (hp : s.ssw.phase = .raw) : GoesOn s (stepRaw s) := by
  unfold stepRaw
  dsimp only
  split
  next hk =>
    have hlt := (Nat.div_eq_zero_iff.1 hk).resolve_left h.block.ne'
    simp only [GoesOn, leftCap]
    omega
  next hk =>
  split
  · exact turned_failSsw ..
  split
  · split
    · exact turned_failSsw ..
    · obtain ⟨hpos, hle⟩ := wholeBlocks hk
      refine .intro h hpos hle ?_ ?_ ?_ ?_ ?_ ?_ ?_ <;> simp [advance, consume, hp, Phase.inSparse]
  · exact turned_failSsw ..

theorem pushStep_goesOn {s : State} (h : Pushing s) (hp : s.ssw.phase ≠ .failed) : GoesOn s (pushStep s) := by
  unfold pushStep
  cases hphase : s.ssw.phase with
  | closed => exact absurd hphase h.isOpen
  | detect => exact stepDetect_goesOn h hphase
  | spHdr => exact stepSpHdr_goesOn h
  | spChunkHdr => exact stepSpChunkHdr_goesOn h hphase
  | spRaw => exact stepSpRaw_goesOn h hphase
  | spFill => exact stepSpFill_goesOn h hphase
  | spDone => exact stepSpDone_goesOn h
  | raw => exact stepRaw_goesOn h hphase
  | failed => exact absurd hphase hp

/-- With fuel for all its turns the loop ends in a failure, or with a tail for which LEFT has room (rules R286, R300). -/
theorem pushLoop_fits (fuel : Nat) : ∀ {s : State}, Pushing s → s.ssw.phase ≠ .failed → turnsLeft s.ssw < fuel →
    (pushLoop fuel s).ssw.phase = .failed ∨
      (pushLoop fuel s).ssw.hand.length < leftCap (pushLoop fuel s).cfg (pushLoop fuel s).ssw := by
  induction fuel with
  | zero => exact fun _ _ hf => absurd hf (Nat.not_lt_zero _)
  | succ fuel ih =>
    intro s h hp hf
    have hstep := pushStep_goesOn h hp
    cases hs : pushStep s with
    | wait =>
      rw [hs] at hstep
      rw [pushLoop_wait _ hs]
      exact .inr hstep
    | go t =>
      rw [hs] at hstep
      rw [pushLoop_go _ hs]
      split
      next hfail => exact .inl hfail
      next hfail =>
        obtain ⟨ht, hless⟩ := hstep.resolve_left hfail
        exact ih ht hfail (by omega)

theorem pushEnd_ne_error {s : State} (h : s.ssw.phase = .failed ∨ s.ssw.hand.length < leftCap s.cfg s.ssw) (f : Fault) :
    pushEnd s ≠ .error f := by
  rcases h with h | h
  · rw [pushEnd_failed h]
    exact nofun
  · unfold pushEnd
    split
    · exact nofun
    · rw [writeBuf, if_pos (by omega)]
      dsimp only
      exact nofun

/-- A push reads and writes LEFT within its size (rules R60, R286, R300). -/
theorem sswPushOp_ne_error {s : State} (hok : s.cfg.ok) (h : SswInv s) (b : Bytes) (f : Fault) : sswPushOp b s ≠ .error f := by
  obtain ⟨-, -, -, -, hdesc, hleft, -, hsparse, hraw, -⟩ := h
  unfold sswPushOp
  split
  · exact nofun
  next hopen =>
  split
  · exact nofun
  next hfail =>
  split
  · exact nofun
  rw [readBuf, if_pos (by omega)]
  dsimp only
  obtain ⟨hbs, -, -⟩ := hdesc hopen
  refine pushEnd_ne_error (pushLoop_fits _ ?_ ?_ ?_) f
  · exact ⟨hok, hopen, Nat.zero_lt_of_lt hbs, fun hp => (hsparse hp).2, fun hp => ⟨(hraw hp).1, (hraw hp).2.1⟩⟩
  · exact hfail
  · exact Nat.lt_succ_of_le (turnsLeft_le _)

theorem pushBytes_noFault {s : State} (hok : s.cfg.ok) (h : SswInv s) (b : Bytes) : NoFault (pushBytes b s) :=
  noFault_withVal (sswPushOp_ne_error hok h b) fun _ => noFault_next _

theorem stepIn_noFault (p : Phase) (f : State → PushStep) (s : State) : NoFault (stepIn p f s) := by
  unfold stepIn
  split
  · split <;> exact noFault_next _
  · exact noFault_next _

/-! ## The dispatcher (44_command_interface.md) -/

theorem handlerOf_ne_error {s : State} (hok : s.cfg.ok) (h : SswInv s) {via : Transport} {cmd : Byte} {payload : Bytes}
    {e : Except Fault (Reply × State)} (he : handlerOf via cmd payload s = some e) (f : Fault) : e ≠ .error f := by
  rintro rfl
  unfold handlerOf at he
  split at he
  · cases he
  split at he
  · have he := Option.some.inj he
    unfold handleSendData at he
    split at he
    next hp => exact sswPushOp_ne_error hok h payload _ hp
    · cases he
  iterate 4
    split at he
    · cases he
  cases he

theorem handleCommandOp_noFault {s : State} (hok : s.cfg.ok) (h : SswInv s) (via : Transport) (hb payload : Bytes) :
    NoFault (handleCommandOp via hb payload s) := by
  unfold handleCommandOp
  split
  · exact noFault_next _
  dsimp only
  split
  · exact noFault_next _
  split
  · exact noFault_next _
  next e he =>
    rw [noteHeader_eq] at he
    exact noFault_withVal (handlerOf_ne_error (s := s.noted via false) hok h he) fun _ => noFault_next _

/-! ## One step (rules R7, R72) -/

section
variable {s : State} (hok : s.cfg.ok) (hupe : UpeInv s) (hute : UteInv s) (hssw : SswInv s)
include hok hupe hute hssw

/-- No row faults, by the lemma of the operation that it is. -/
theorem exec_noFault (i : Instr) : NoFault (exec i s) := by
  cases i with
  | sigC | dc1 | dc2 | ack | nak | can | soh | stx | uartDropped | uartRx => exact (uartRx_sound hupe _).noFault
  | shortFrame | longFrame => exact (uartRxs_sound _ hupe).noFault
  | startRead | startWrite => exact (startTask_sound hupe rfl).noFault
  | tick => exact (tickOp_sound hupe).noFault
  | upeDeinit =>
    show NoFault (execUpeDeinit s)
    unfold execUpeDeinit
    split <;> exact noFault_next _
  | getStatus =>
    show NoFault (execGetStatus s)
    unfold execGetStatus
    split <;> exact noFault_next _
  | cbwWrite | cbwRead | cbwMalformed | outDoneReadCbw | outDoneDataOut => exact outDone_noFault hute _
  | inDoneDataIn | inDoneWaitCsw => exact inDone_noFault hute _
  | doneIgnored done =>
    cases done with
    | out b => exact outDone_noFault hute b
    | inn n => exact inDone_noFault hute n
  | sparseHeader | chunkRaw | chunkFill | chunkDontCare | chunkCrc32 | chunkUnknown | sswPush =>
    exact pushBytes_noFault hok hssw _
  | pushDetect | pushSpHdr | pushSpChunkHdr | pushSpRaw | pushSpFill | pushSpDone | pushRaw => exact stepIn_noFault _ _ _
  | cmdSetFwcMeta | cmdSendFwcData | cmdGetFwcCrc | cmdGetFwcBurnResult | cmdSetUpgCfg | cmdSetUpgEnd | handleCommand =>
    exact handleCommandOp_noFault hok hssw _ _ _
  | devWrite =>
    show NoFault (execDevWrite _ _ s)
    unfold execDevWrite
    split <;> exact noFault_next _
  | reset | upeInit | setStatus | csw | uteInit | usbReset | sswOpen | sswClose | sswGetResult | sswGetCrc => exact noFault_next _
  | commandHeader | responseHeader | hdrEncodeCmd | hdrDecodeCmd | hdrEncodeRsp | hdrDecodeRsp => exact noFault_next _
  | crc16 | packShort | packLong | packFrame | frameTotal | unpack | slice | split | checkUpgMode => exact noFault_next _
  | uartTx | epRecv | epSend | dispExpect | dispOut | dispIn | dispStatus | devRead | devErase | progress => exact noFault_next _

omit hute in
theorem undecoded_noFault (p : Packet) : NoFault (undecoded p s) := by
  unfold undecoded
  split
  · exact (uartRxs_sound _ hupe).noFault
  · exact (uartRxs_sound _ hupe).noFault
  · exact pushBytes_noFault hok hssw _
  · exact pushBytes_noFault hok hssw _
  · exact noFault_next _
  · exact handleCommandOp_noFault hok hssw _ _ _
  · exact noFault_next _

theorem step_noFault : NoFault (step s) := by
  cases hp : s.inbox with
  | nil =>
    rw [step_of_inbox_nil hp]
    exact noFault_next _
  | cons p rest =>
    cases hd : decode s.cfg p with
    | ok i =>
      rw [step_of_decode_ok hp hd]
      exact exec_noFault (s := s.withInbox rest) hok hupe hute hssw i
    | error e =>
      rw [step_of_decode_error hp hd]
      exact undecoded_noFault (s := s.withInbox rest) hok hupe hssw p

end

/-- Settles O60: what waits is a row or bytes of no row, and neither faults in a state with the invariants, whatever stays pending. -/
theorem stepNeverFaults : Obligations.StepNeverFaults :=
  fun _ f hok hupe hute hssw => (step_noFault hok hupe hute hssw).ne_fault f

end Sys2Proof.Machine
end

section
/-! PROOFS. The rows of each unit leave the other units alone (rule R74): for each unit, what of the state lies beside it, and one lemma
for each operation that does not change that. -/

namespace Sys2Proof.Machine

/-! ## Outcomes -/

theorem andThen_eq_next {o : Result} {k : State → Result} {t : State} (h : andThen o k = .next t) :
    ∃ s, o = .next s ∧ k s = .next t := by
  cases o with
  | next s => exact ⟨s, rfl, h⟩
  | fault f => cases h
  | refused r => cases h

theorem withVal_eq_next {α : Type} {e : Except Fault α} {k : α → Result} {t : State} (h : withVal e k = .next t) :
    ∃ a, e = .ok a ∧ k a = .next t := by
  cases e with
  | ok a => exact ⟨a, rfl, h⟩
  | error f => cases h

/-! ## UPE (41_uart_engine.md) -/

/-- What lies beside UPE: its registers, FBUF, the actions, the port and the tasks handed back are blotted out. -/
def State.besideUpe (s : State) : State := { s with upe := upeReset, fbuf := [], log := [], ret := none, finished := [] }

theorem onlyUpe_of_beside {s t : State} (h : t.besideUpe = s.besideUpe) :
    onlyUpe s t ∧ t.inbox = s.inbox ∧ t.ans = s.ans ∧ t.asked = s.asked := by
  simp only [State.besideUpe, State.mk.injEq, true_and, and_true] at h
  obtain ⟨hcfg, hute, hpktbuf, hssw, hleft, hstore, hcdi, hinbox, hans, hasked⟩ := h
  exact ⟨⟨hcfg, hute, hssw, hcdi, fun _ => by rw [hpktbuf], fun _ => by rw [hleft], fun _ => by rw [hstore]⟩,
    hinbox, hans, hasked⟩

section
variable (s : State)

@[simp] theorem besideUpe_withUpe (u : Upe) : (s.withUpe u).besideUpe = s.besideUpe := rfl
@[simp] theorem besideUpe_withFbuf (m : Memory) : (s.withFbuf m).besideUpe = s.besideUpe := rfl
@[simp] theorem besideUpe_withRet (r : Ret) : (s.withRet r).besideUpe = s.besideUpe := rfl
@[simp] theorem besideUpe_tx (b : Bytes) : (tx b s).besideUpe = s.besideUpe := rfl
@[simp] theorem besideUpe_raiseUpe (e : UpeErr) : (raiseUpe e s).besideUpe = s.besideUpe := rfl
@[simp] theorem besideUpe_frameReset : (frameReset s).besideUpe = s.besideUpe := rfl
@[simp] theorem besideUpe_nakFrame (e : UpeErr) : (nakFrame e s).besideUpe = s.besideUpe := rfl
@[simp] theorem besideUpe_finishHead (x : Task) (code : Byte) : (finishHead x code s).besideUpe = s.besideUpe := rfl
@[simp] theorem besideUpe_cmdSigC : (cmdSigC s).besideUpe = s.besideUpe := rfl
@[simp] theorem besideUpe_sessionTimeout : (sessionTimeout s).besideUpe = s.besideUpe := rfl
@[simp] theorem besideUpe_frameWatchdog : (frameWatchdog s).besideUpe = s.besideUpe := rfl

@[simp] theorem besideUpe_cmdSwitch (d : Dir) (st : UpeSt) : (cmdSwitch d st s).besideUpe = s.besideUpe := by
  rw [cmdSwitch_eq]
  rfl

end

section
variable {s t : State}

theorem sendSlice_eq_next {x : Task} {n : Nat} {k : State → Result} (h : sendSlice x n k s = .next t) :
    ∃ f, k (tx f s) = .next t := by
  obtain ⟨data, -, h⟩ := withVal_eq_next h
  split at h
  next f _ => exact ⟨f, h⟩
  · cases h

theorem trySend_beside (h : trySend s = .next t) : t.besideUpe = s.besideUpe := by
  unfold trySend at h
  split at h
  · split at h
    · cases h
      simp
    · obtain ⟨f, h⟩ := sendSlice_eq_next h
      cases h
      simp
  · cases h
    simp

theorem retransmit_beside (h : retransmit s = .next t) : t.besideUpe = s.besideUpe := by
  unfold retransmit at h
  split at h
  · cases h
  · obtain ⟨f, h⟩ := sendSlice_eq_next h
    cases h
    simp

theorem cmdAck_beside (h : cmdAck s = .next t) : t.besideUpe = s.besideUpe := by
  unfold cmdAck at h
  split at h
  · cases h
  · dsimp only at h
    split at h <;> cases h <;> simp

theorem commandByte_beside {b : Byte} (h : commandByte b s = .next t) : t.besideUpe = s.besideUpe := by
  unfold commandByte at h
  split at h
  · cases h
    simp
  split at h
  · cases h
    simp
  split at h
  · cases h
    simp
  split at h
  · exact cmdAck_beside h
  split at h
  · exact retransmit_beside h
  · cases h
    simp

theorem acceptFrame_beside {blk : Byte} {data : Bytes} (h : acceptFrame blk data s = .next t) : t.besideUpe = s.besideUpe := by
  unfold acceptFrame at h
  split at h
  · cases h
    simp
  split at h
  · cases h
    simp
  split at h
  · cases h
    simp
  obtain ⟨m, -, h⟩ := withVal_eq_next h
  dsimp only at h
  split at h <;> cases h <;> simp

theorem completeFrame_beside {f : Bytes} (h : completeFrame f s = .next t) : t.besideUpe = s.besideUpe := by
  unfold completeFrame at h
  split at h
  · cases h
    simp
  split at h
  · cases h
    simp
  · cases h
    simp
  · exact acceptFrame_beside h

theorem frameByte_beside {b : Byte} (h : frameByte b s = .next t) : t.besideUpe = s.besideUpe := by
  obtain ⟨m, -, h⟩ := withVal_eq_next h
  dsimp only at h
  split at h
  · cases h
  · cases h
    simp
  · split at h
    · simpa using completeFrame_beside h
    · cases h
      simp

theorem uartRx_beside {b : Byte} (h : uartRx b s = .next t) : t.besideUpe = s.besideUpe := by
  unfold uartRx at h
  split at h
  · cases h
    simp
  obtain ⟨s1, h1, h⟩ := andThen_eq_next h
  have hbyte : s1.besideUpe = s.besideUpe := by
    split at h1
    · simpa using frameByte_beside h1
    · simpa using commandByte_beside h1
  exact (trySend_beside h).trans hbyte

theorem uartRxs_beside {b : Bytes} : ∀ {s : State}, uartRxs b s = .next t → t.besideUpe = s.besideUpe := by
  induction b with
  | nil =>
    intro s h
    cases h
    simp
  | cons x r ih =>
    intro s h
    obtain ⟨s1, h1, h⟩ := andThen_eq_next h
    exact (ih h).trans (uartRx_beside h1)

theorem startTask_beside {x : Task} (h : startTask x s = .next t) : t.besideUpe = s.besideUpe := by
  unfold startTask at h
  split at h
  · cases h
    simp
  split at h
  · cases h
    simp
  split at h
  · cases h
    simp
  obtain ⟨s1, h1, h⟩ := andThen_eq_next h
  cases h
  simpa using trySend_beside h1

theorem execUpeDeinit_beside (h : execUpeDeinit s = .next t) : t.besideUpe = s.besideUpe := by
  unfold execUpeDeinit at h
  split at h <;> cases h <;> simp

theorem execGetStatus_beside (h : execGetStatus s = .next t) : t.besideUpe = s.besideUpe := by
  unfold execGetStatus at h
  split at h <;> cases h <;> simp

/-- A TICK stays within UPE, or it aborts the engine, and then the dispatcher acts (rules R198, R356). -/
theorem tickOp_beside (h : tickOp s = .next t) : t.besideUpe = s.besideUpe ∨
    (s.upe.abort = false ∧ ∃ u, t = releaseWriter u ∧ u.upe.abort = true ∧ u.besideUpe = s.besideUpe) := by
  unfold tickOp at h
  split at h
  · cases h
    exact .inl rfl
  next hgate =>
  have habort : s.upe.abort = false := by simp_all [upeMasked]
  extract_lets s1 s2 at h
  split at h
  · cases h
    exact .inr ⟨habort, _, rfl, rfl, by simp [s1]⟩
  refine .inl ?_
  obtain ⟨s3, h3, h⟩ := andThen_eq_next h
  have h2 : s2.besideUpe = s.besideUpe := by
    unfold s2
    split <;> simp [s1]
  refine (trySend_beside h).trans (Eq.trans ?_ h2)
  split at h3
  · simpa using retransmit_beside h3
  · cases h3
    rfl

end

/-! ## UTE (42_usb_engine.md) -/

/-- What lies beside UTE: its registers, PKTBUF, the actions and the answers asked for are blotted out. -/
def State.besideUte (s : State) : State :=
  { s with ute := uteReset, pktbuf := [], ans := noAnswers, asked := 0, log := [] }

/-- The state in which the dispatcher has no note of a rejected header (rule R344; log 28). -/
def State.unnoted (s : State) : State := s.withCdi { s.cdi with usbRejected := false }

/-- The dispatcher's note of a rejected header may be used up, and nothing else beside UTE changes. -/
def NearUte (s t : State) : Prop := t.besideUte = s.besideUte ∨ t.besideUte = s.besideUte.unnoted

theorem onlyUte_of_near {s t : State} (h : NearUte s t) : onlyUte s t := by
  simp only [NearUte, State.unnoted, State.withCdi, State.besideUte, State.mk.injEq, true_and] at h
  have hcdi : t.cdi = s.cdi ∨ t.cdi = { s.cdi with usbRejected := false } := by tauto
  obtain ⟨hcfg, hupe, hfbuf, hssw, hleft, hstore, hinbox, hret, hfinished⟩ : t.cfg = s.cfg ∧ t.upe = s.upe ∧
      t.fbuf = s.fbuf ∧ t.ssw = s.ssw ∧ t.left = s.left ∧ t.store = s.store ∧ t.inbox = s.inbox ∧ t.ret = s.ret ∧
      t.finished = s.finished := by tauto
  exact ⟨hcfg, hupe, hssw, hcdi, hinbox, hfinished, hret, fun _ => by rw [hfbuf], fun _ => by rw [hleft],
    fun _ => by rw [hstore]⟩

section
variable (s : State)

@[simp] theorem besideUte_withUte (u : Ute) : (s.withUte u).besideUte = s.besideUte := rfl
@[simp] theorem besideUte_withPktbuf (m : Memory) : (s.withPktbuf m).besideUte = s.besideUte := rfl
@[simp] theorem besideUte_raiseUte (e : UteErr) : (raiseUte e s).besideUte = s.besideUte := rfl
@[simp] theorem besideUte_epSendAct (b : Bytes) : (epSendAct b s).besideUte = s.besideUte := rfl
@[simp] theorem besideUte_submitCsw (tag res : U32) (st : Byte) : (submitCsw tag res st s).besideUte = s.besideUte := rfl
@[simp] theorem besideUte_armOutPacket : (armOutPacket s).besideUte = s.besideUte := rfl
@[simp] theorem besideUte_startOutTask : (startOutTask s).besideUte = s.besideUte := rfl
@[simp] theorem besideUte_inWaitCsw : (inWaitCsw s).besideUte = s.besideUte := rfl
@[simp] theorem besideUte_dispExpectCall (cmd : Byte) (len : U32) : (dispExpectCall cmd len s).2.besideUte = s.besideUte := rfl
@[simp] theorem besideUte_dispOutCall (b : Bytes) : (dispOutCall b s).2.besideUte = s.besideUte := rfl
@[simp] theorem besideUte_dispStatusCall : (dispStatusCall s).2.besideUte = s.besideUte.unnoted := rfl

@[simp] theorem besideUte_usbResetOp : (usbResetOp s).besideUte = s.besideUte := by
  unfold usbResetOp
  split <;> rfl

end

section
variable {s t : State}

/-- A phase that ends with the status phase comes near UTE as that does. -/
theorem NearUte.of_eq {u : State} (h : NearUte u t) (hu : u.besideUte = s.besideUte) : NearUte s t := by
  unfold NearUte at h
  rwa [hu] at h

theorem sendCsw_near (s : State) : NearUte s (sendCsw s) := by
  unfold sendCsw
  split
  · exact .inl (besideUte_submitCsw ..)
  · exact .inr ((besideUte_submitCsw ..).trans (besideUte_dispStatusCall s))

theorem startInTask_near (h : startInTask s = .next t) : NearUte s t := by
  rw [startInTask_eq] at h
  cases h
  unfold State.supplied
  extract_lets want a d _ _ s1
  have h1 : s1.besideUte = s.besideUte := rfl
  split
  · rw [← sendCsw_eq]
    exact (sendCsw_near _).of_eq h1
  · exact .inl h1

theorem submitInPacket_near (h : submitInPacket s = .next t) : NearUte s t := by
  obtain ⟨d, -, h⟩ := withVal_eq_next h
  cases h
  exact .inl (by simp)

theorem beginData_near (h : beginData s = .next t) : NearUte s t := by
  unfold beginData at h
  dsimp only at h
  have hexpect := besideUte_dispExpectCall s s.ute.cmd s.ute.dlen
  generalize dispExpectCall s.ute.cmd s.ute.dlen s = p at h hexpect
  have hraised : (if p.1 ≠ p.2.ute.dlen then raiseUte .length p.2 else p.2).besideUte = s.besideUte := by
    split <;> simpa using hexpect
  generalize (if p.1 ≠ p.2.ute.dlen then raiseUte .length p.2 else p.2) = s2 at h hraised
  split at h
  · split at h
    · cases h
      exact (sendCsw_near _).of_eq (by simpa using hraised)
    · exact (startInTask_near h).of_eq (by simpa using hraised)
  · split at h
    · cases h
      exact (sendCsw_near _).of_eq (by simpa using hraised)
    · cases h
      exact .inl (by simpa using hraised)

theorem outReadCbw_near {b : Bytes} (h : outReadCbw b s = .next t) : NearUte s t := by
  unfold outReadCbw malformedCbw at h
  dsimp only at h
  split at h
  · cases h
    exact (sendCsw_near _).of_eq (by simp)
  split at h
  · exact (beginData_near h).of_eq (by simp)
  · cases h
    exact (sendCsw_near _).of_eq (by simp)

theorem forwardTask_beside (h : forwardTask s = .ok t) : t.besideUte = s.besideUte := by
  unfold forwardTask at h
  split at h
  · split at h
    · cases h
    dsimp only at h
    split at h <;> cases h <;> simp
  · cases h
    rfl

theorem outData_near {b : Bytes} (h : outData b s = .next t) : NearUte s t := by
  unfold outData at h
  split at h
  · cases h
  obtain ⟨m, -, h⟩ := withVal_eq_next h
  extract_lets n _ s1 short s2 at h
  have h2 : s2.besideUte = s.besideUte := by
    unfold s2
    split <;> simp [s1]
  split at h
  · obtain ⟨s3, h3, h⟩ := withVal_eq_next h
    have h3 := (forwardTask_beside h3).trans h2
    split at h
    · cases h
      exact (sendCsw_near _).of_eq h3
    · cases h
      exact .inl (by simpa using h3)
  · cases h
    exact .inl (by simpa using h2)

theorem outDone_near {b : Bytes} (h : outDone b s = .next t) : NearUte s t := by
  unfold outDone at h
  split at h
  · cases hst : s.ute.stage <;> rw [hst] at h
    case readCbw => exact outReadCbw_near h
    case dataOut => exact outData_near h
    case dataOutBuf => exact outData_near h
    all_goals
      cases h
      exact .inl (by simp)
  · cases h
    exact .inl rfl

theorem inData_near {n : U32} (h : inData n s = .next t) : NearUte s t := by
  unfold inData at h
  split at h
  · cases h
  dsimp only at h
  split at h
  · split at h
    · cases h
      exact (sendCsw_near _).of_eq (by simp)
    · exact (startInTask_near h).of_eq (by simp)
  · exact (submitInPacket_near h).of_eq (by simp)

theorem inDone_near {n : U32} (h : inDone n s = .next t) : NearUte s t := by
  unfold inDone at h
  split at h
  · cases hst : s.ute.stage <;> rw [hst] at h
    case dataIn => exact inData_near h
    case dataInBuf => exact inData_near h
    all_goals
      cases h
      exact .inl (by simp)
  · cases h
    exact .inl rfl

end

/-! ## SSW (43_sparse_writer.md) -/

/-- What lies beside SSW: its registers, LEFT, STORE, the actions, the answers asked for and the port are blotted out. -/
def State.besideSsw (s : State) : State :=
  { s with ssw := closedSession s.cfg, left := [], store := [], ans := noAnswers, asked := 0, log := [], ret := none }

theorem onlySsw_of_beside {s t : State} (h : t.besideSsw = s.besideSsw) : onlySsw s t ∧ t.cdi = s.cdi := by
  simp only [State.besideSsw, State.mk.injEq, true_and] at h
  obtain ⟨hcfg, hupe, hfbuf, hute, hpktbuf, -, hcdi, hinbox, hfinished⟩ := h
  exact ⟨⟨hcfg, hupe, hute, .inl hcdi, hinbox, hfinished, fun _ => by rw [hfbuf], fun _ => by rw [hpktbuf]⟩, hcdi⟩

section
variable (s : State)

@[simp] theorem besideSsw_withSsw (w : Ssw) : (s.withSsw w).besideSsw = s.besideSsw := rfl
@[simp] theorem besideSsw_withLeft (m : Memory) : (s.withLeft m).besideSsw = s.besideSsw := rfl
@[simp] theorem besideSsw_withRet (r : Ret) : (s.withRet r).besideSsw = s.besideSsw := rfl
@[simp] theorem besideSsw_consume (n : Nat) : (consume n s).besideSsw = s.besideSsw := rfl
@[simp] theorem besideSsw_eatWord : (eatWord s).besideSsw = s.besideSsw := rfl
@[simp] theorem besideSsw_advance (n : Nat) : (advance n s).besideSsw = s.besideSsw := rfl
@[simp] theorem besideSsw_chunkDone : (chunkDone s).besideSsw = s.besideSsw := rfl
@[simp] theorem besideSsw_raiseSsw (e : SswCode) : (raiseSsw e s).besideSsw = s.besideSsw := rfl
@[simp] theorem besideSsw_failSsw (e : SswCode) : (failSsw e s).besideSsw = s.besideSsw := rfl
@[simp] theorem besideSsw_devWriteCall (blk : Nat) (d : Bytes) : (devWriteCall blk d s).2.besideSsw = s.besideSsw := rfl
@[simp] theorem besideSsw_devWriteOdd (blk : Nat) (d : Bytes) : (devWriteOdd blk d s).2.besideSsw = s.besideSsw := rfl
@[simp] theorem besideSsw_devReadCall (blk n : Nat) : (devReadCall blk n s).2.besideSsw = s.besideSsw := rfl
@[simp] theorem besideSsw_devEraseCall (blk n : Nat) : (devEraseCall blk n s).2.besideSsw = s.besideSsw := rfl

@[simp] theorem besideSsw_retLast : (retLast s).besideSsw = s.besideSsw := by
  unfold retLast
  split
  · rfl
  · simp

end

section
variable {s t : State}

theorem stepDetect_beside (h : stepDetect s = .go t) : t.besideSsw = s.besideSsw := by
  unfold stepDetect at h
  split at h <;> cases h
  simp

theorem stepSpHdr_beside (h : stepSpHdr s = .go t) : t.besideSsw = s.besideSsw := by
  unfold stepSpHdr at h
  split at h
  · cases h
  dsimp only at h
  split at h
  · cases h
    simp
  split at h <;> cases h <;> simp

theorem takeChunk_beside (hdr eff : Bytes) (k : ChunkKind) (s : State) : (takeChunk hdr eff k s).besideSsw = s.besideSsw := by
  unfold takeChunk
  extract_lets csz nblk s1 _ s2 _ s3
  split
  · simp
  split
  · simp
  cases k with
  | raw =>
    dsimp only
    split <;> simp [s1, s2, s3]
  | fill | dontCare | crc32 => simp [s1, s2]

theorem unknownChunk_beside (hdr : Bytes) (s : State) : (unknownChunk hdr s).besideSsw = s.besideSsw := by
  unfold unknownChunk
  dsimp only
  split
  · simp
  split
  · simp
  · simpa using takeChunk_beside hdr _ _ (raiseSsw .chunkType s)

theorem stepSpChunkHdr_beside (h : stepSpChunkHdr s = .go t) : t.besideSsw = s.besideSsw := by
  unfold stepSpChunkHdr at h
  split at h
  · cases h
  dsimp only at h
  split at h
  · cases h
    exact takeChunk_beside ..
  · cases h
    exact unknownChunk_beside ..

theorem stepSpRaw_beside (h : stepSpRaw s = .go t) : t.besideSsw = s.besideSsw := by
  unfold stepSpRaw at h
  dsimp only at h
  split at h
  · cases h
  split at h
  · split at h <;> cases h <;> simp
  · cases h
    simp

theorem fillWrite_beside (w : Bytes) (fuel : Nat) : ∀ (n : Nat) (s : State), (fillWrite w fuel n s).besideSsw = s.besideSsw := by
  induction fuel with
  | zero => exact fun _ _ => rfl
  | succ fuel ih =>
    intro n s
    unfold fillWrite
    split
    · rfl
    dsimp only
    split
    · simpa using ih _ (advance _ (devWriteCall _ _ s).2)
    · simp

theorem eraseMid_beside (mid : Nat) (s : State) : (eraseMid mid s).besideSsw = s.besideSsw := by
  unfold eraseMid
  split
  · dsimp only
    split <;> simp
  · rfl

theorem doFill_beside (w : Bytes) (nblk : Nat) (s : State) : (doFill w nblk s).besideSsw = s.besideSsw := by
  unfold doFill
  split
  · exact (fillWrite_beside ..).trans ((eraseMid_beside ..).trans (fillWrite_beside ..))
  · exact fillWrite_beside ..

theorem stepSpFill_beside (h : stepSpFill s = .go t) : t.besideSsw = s.besideSsw := by
  unfold stepSpFill at h
  split at h
  · cases h
  dsimp only at h
  split at h <;> cases h <;> simp [doFill_beside]

theorem stepSpDone_beside (h : stepSpDone s = .go t) : t.besideSsw = s.besideSsw := by
  unfold stepSpDone at h
  split at h <;> cases h
  simp

theorem stepRaw_beside (h : stepRaw s = .go t) : t.besideSsw = s.besideSsw := by
  unfold stepRaw at h
  dsimp only at h
  split at h
  · cases h
  split at h
  · cases h
    simp
  split at h
  · split at h <;> cases h <;> simp
  · cases h
    simp

theorem pushStep_beside (h : pushStep s = .go t) : t.besideSsw = s.besideSsw := by
  unfold pushStep at h
  cases hp : s.ssw.phase <;> rw [hp] at h
  case detect => exact stepDetect_beside h
  case spHdr => exact stepSpHdr_beside h
  case spChunkHdr => exact stepSpChunkHdr_beside h
  case spRaw => exact stepSpRaw_beside h
  case spFill => exact stepSpFill_beside h
  case spDone => exact stepSpDone_beside h
  case raw => exact stepRaw_beside h
  all_goals cases h

theorem pushLoop_beside (fuel : Nat) : ∀ s : State, (pushLoop fuel s).besideSsw = s.besideSsw := by
  induction fuel with
  | zero => exact fun _ => rfl
  | succ fuel ih =>
    intro s
    cases hs : pushStep s with
    | wait => rw [pushLoop_wait _ hs]
    | go s1 =>
      rw [pushLoop_go _ hs]
      split
      · exact pushStep_beside hs
      · exact (ih s1).trans (pushStep_beside hs)

theorem pushEnd_beside {r : Byte × State} (h : pushEnd s = .ok r) : r.2.besideSsw = s.besideSsw := by
  unfold pushEnd at h
  split at h
  · cases h
    simp
  split at h <;> cases h
  simp

theorem sswPushOp_beside {b : Bytes} {r : Byte × State} (h : sswPushOp b s = .ok r) : r.2.besideSsw = s.besideSsw := by
  unfold sswPushOp at h
  split at h
  · cases h
    simp
  split at h
  · cases h
    simp
  split at h
  · cases h
    simp
  split at h
  · cases h
  · simpa [pushLoop_beside] using pushEnd_beside h

theorem pushBytes_beside {b : Bytes} (h : pushBytes b s = .next t) : t.besideSsw = s.besideSsw := by
  obtain ⟨r, hr, h⟩ := withVal_eq_next h
  cases h
  simpa using sswPushOp_beside hr

/-- A row that is one step of the loop, whatever the phase (rule R286; log 15). -/
theorem stepIn_beside {p : Phase} {f : State → PushStep} (hf : ∀ u, f s = .go u → u.besideSsw = s.besideSsw)
    (h : stepIn p f s = .next t) : t.besideSsw = s.besideSsw := by
  unfold stepIn at h
  split at h
  · split at h
    · cases h
      simp
    next hu =>
      cases h
      exact hf _ hu
  · cases h
    simp

theorem sswOpenOp_beside (d : Desc) (s : State) : (sswOpenOp d s).2.besideSsw = s.besideSsw := by
  unfold sswOpenOp
  split
  · rfl
  split <;> simp

theorem execDevWrite_beside {blk : U32} {data : Bytes} (h : execDevWrite blk data s = .next t) :
    t.besideSsw = s.besideSsw := by
  unfold execDevWrite at h
  split at h <;> cases h <;> simp

/-- Closing a session has the dispatcher forget its owner (rule R350, log 19). -/
theorem sswCloseOp_onlySsw (s : State) : onlySsw s (sswCloseOp s).2 := by
  rw [sswCloseOp_eq]
  split
  · exact (onlySsw_of_beside rfl).1
  · exact ⟨rfl, rfl, rfl, .inr rfl, rfl, rfl, fun _ => rfl, fun _ => rfl⟩

end

/-! ## The rows (rule R8), in the groups of the statement -/

/-- The rows of UPE: arrivals on the UART link, TICK, its ports and its output. -/
abbrev upeRow (c : Config) (i : Instr) : Prop :=
  (∃ b, byteRow c b i) ∨ (∃ blk cblk data crc, i = .shortFrame blk cblk data crc) ∨
  (∃ blk cblk data crc, i = .longFrame blk cblk data crc) ∨ i = .tick ∨ i = .upeInit ∨ i = .upeDeinit ∨
  (∃ len, i = .startRead len) ∨ (∃ data, i = .startWrite data) ∨ i = .getStatus ∨ (∃ code, i = .setStatus code) ∨
  (∃ b, i = .uartTx b)

/-- The rows of UTE: transfers on the USB link, its ports and its output. -/
abbrev uteRow (i : Instr) : Prop :=
  (∃ tag len r, i = .cbwWrite tag len r) ∨ (∃ tag len r, i = .cbwRead tag len r) ∨ (∃ b, i = .cbwMalformed b) ∨
  (∃ tag res st, i = .csw tag res st) ∨ i = .uteInit ∨ i = .usbReset ∨ (∃ b, i = .outDoneReadCbw b) ∨
  (∃ b, i = .outDoneDataOut b) ∨ (∃ n, i = .inDoneDataIn n) ∨ (∃ n, i = .inDoneWaitCsw n) ∨
  (∃ c, i = .doneIgnored c) ∨ (∃ n, i = .epRecv n) ∨ (∃ b, i = .epSend b)

/-- The rows of SSW: its ports, the steps of its loop, the headers of an image, the device calls and its output. -/
abbrev sswRow (i : Instr) : Prop :=
  (∃ a b c, i = .sswOpen a b c) ∨ i = .sswClose ∨ (∃ b, i = .sswPush b) ∨ i = .pushDetect ∨ i = .pushSpHdr ∨
  i = .pushSpChunkHdr ∨ i = .pushSpRaw ∨ i = .pushSpFill ∨ i = .pushSpDone ∨ i = .pushRaw ∨ i = .sswGetResult ∨
  i = .sswGetCrc ∨ (∃ a b c d e r, i = .sparseHeader a b c d e r) ∨ (∃ r a b, i = .chunkRaw r a b) ∨
  (∃ r a b, i = .chunkFill r a b) ∨ (∃ r a b, i = .chunkDontCare r a b) ∨ (∃ r a b, i = .chunkCrc32 r a b) ∨
  (∃ ty r a b, i = .chunkUnknown ty r a b) ∨ (∃ a b, i = .devWrite a b) ∨ (∃ a b, i = .devRead a b) ∨
  (∃ a b, i = .devErase a b) ∨ (∃ p, i = .progress p)

section
variable {s t : State} {i : Instr}

theorem upeRow_beside (hrow : upeRow s.cfg i) (hne : i ≠ .tick) (h : exec i s = .next t) : t.besideUpe = s.besideUpe := by
  obtain ⟨b, hb⟩ | ⟨blk, cblk, data, crc, rfl⟩ | ⟨blk, cblk, data, crc, rfl⟩ | hi | rfl | rfl | ⟨len, rfl⟩ | ⟨data, rfl⟩ |
    rfl | ⟨c, rfl⟩ | ⟨b, rfl⟩ := hrow
  · rw [exec_byteRow hb] at h
    exact uartRx_beside h
  iterate 2 exact uartRxs_beside h
  · exact absurd hi hne
  · cases h
    rfl
  · exact execUpeDeinit_beside h
  iterate 2 exact startTask_beside h
  · exact execGetStatus_beside h
  · cases h
    rfl
  · cases h
    rfl

theorem uteRow_near (hrow : uteRow i) (h : exec i s = .next t) : NearUte s t := by
  obtain ⟨tag, len, r, rfl⟩ | ⟨tag, len, r, rfl⟩ | ⟨b, rfl⟩ | ⟨tag, res, st, rfl⟩ | rfl | rfl | ⟨b, rfl⟩ | ⟨b, rfl⟩ |
    ⟨n, rfl⟩ | ⟨n, rfl⟩ | ⟨c, rfl⟩ | ⟨n, rfl⟩ | ⟨b, rfl⟩ := hrow
  iterate 3 exact outDone_near h
  · cases h
    exact .inl rfl
  · cases h
    exact .inl rfl
  · cases h
    exact .inl (besideUte_usbResetOp s)
  iterate 2 exact outDone_near h
  iterate 2 exact inDone_near h
  · cases c with
    | out b => exact outDone_near h
    | inn n => exact inDone_near h
  · cases h
    exact .inl rfl
  · cases h
    exact .inl rfl

theorem sswRow_beside (hrow : sswRow i) (hne : i ≠ .sswClose) (h : exec i s = .next t) : t.besideSsw = s.besideSsw := by
  obtain ⟨a, b, c, rfl⟩ | hi | ⟨b, rfl⟩ | rfl | rfl | rfl | rfl | rfl | rfl | rfl | rfl | rfl | ⟨a, b, c, d, e, r, rfl⟩ |
    ⟨r, a, b, rfl⟩ | ⟨r, a, b, rfl⟩ | ⟨r, a, b, rfl⟩ | ⟨r, a, b, rfl⟩ | ⟨ty, r, a, b, rfl⟩ | ⟨a, b, rfl⟩ | ⟨a, b, rfl⟩ |
    ⟨a, b, rfl⟩ | ⟨p, rfl⟩ := hrow
  · cases h
    exact sswOpenOp_beside _ s
  · exact absurd hi hne
  · exact pushBytes_beside h
  · exact stepIn_beside (fun _ => stepDetect_beside) h
  · exact stepIn_beside (fun _ => stepSpHdr_beside) h
  · exact stepIn_beside (fun _ => stepSpChunkHdr_beside) h
  · exact stepIn_beside (fun _ => stepSpRaw_beside) h
  · exact stepIn_beside (fun _ => stepSpFill_beside) h
  · exact stepIn_beside (fun _ => stepSpDone_beside) h
  · exact stepIn_beside (fun _ => stepRaw_beside) h
  · cases h
    rfl
  · cases h
    rfl
  iterate 6 exact pushBytes_beside h
  · exact execDevWrite_beside h
  · cases h
    simp
  · cases h
    simp
  · cases h
    rfl

end

/-- Settles O35: two rows go beyond their unit, TICK with an abort and SSW.CLOSE of a session, and UTE's may use up the note. -/
theorem unitsApart : Obligations.UnitsApart := by
  intro s t i h
  refine ⟨fun hrow => ?upe, fun hrow => onlyUte_of_near (uteRow_near hrow h), fun hrow => ?ssw⟩
  case upe =>
    rcases eq_or_ne i .tick with rfl | hne
    · rcases tickOp_beside h with hb | ⟨habort, u, rfl, hu, hb⟩
      · exact (onlyUpe_of_beside hb).imp id .inl
      · obtain ⟨honly, hinbox, hans, hasked⟩ := onlyUpe_of_beside hb
        rw [releaseWriter_eq rfl, hinbox, hans, hasked]
        exact ⟨honly, .inr ⟨rfl, habort, hu, rfl, _, _, rfl, rfl, rfl⟩⟩
    · exact (onlyUpe_of_beside (upeRow_beside hrow hne h)).imp id .inl
  case ssw =>
    rcases eq_or_ne i .sswClose with rfl | hne
    · cases h
      exact ⟨sswCloseOp_onlySsw s, fun hne => absurd rfl hne⟩
    · exact (onlySsw_of_beside (sswRow_beside hrow hne h)).imp id fun hcdi _ => hcdi

end Sys2Proof.Machine
end

section
/-! PROOFS. The header codec: the rows that encode and decode a header, what comes back, and the three tests in their order
(rules R341 to R343, R345). -/

namespace Sys2Proof.Machine

/-! ## The codec -/

section
variable (c : Config) (m : U32)

theorem length_hdrBody (x : HdrRecord) : (hdrBody c m x).length = 12 + Config.padBytes c.hdrPad := by
  simp [hdrBody]
  omega

theorem length_hdrEncode (x : HdrRecord) : (hdrEncode c m x).length = c.hdrLen := by
  simp only [hdrEncode, List.length_append, length_hdrBody, length_encLe32, Config.hdrLen]
  omega

/-- The checksum covers the bytes before it (rule R345). -/
theorem take_hdrEncode (x : HdrRecord) : (hdrEncode c m x).take (12 + Config.padBytes c.hdrPad) = hdrBody c m x :=
  List.take_left' (length_hdrBody c m x)

/-- The decoder recomputes the checksum from the same bytes that the encoder took it of, so the checksum function does not matter. -/
theorem hdrDecode_hdrEncode (x : HdrRecord) : hdrDecode c m (hdrEncode c m x) = .ok x := by
  have hsum := take_hdrEncode c m x
  rw [hdrEncode_eq] at hsum ⊢
  rw [hdrDecode_headerBytes m _ _ _ List.length_replicate, hsum, if_pos rfl]

variable {c} {b : Bytes}

/-- The first test is the length (rule R342). -/
theorem hdrDecode_of_length_ne (h : b.length ≠ c.hdrLen) : hdrDecode c m b = .error .hdr := if_pos h

/-- The second test is the magic (rule R342). -/
theorem hdrDecode_of_magic_ne (hlen : b.length = c.hdrLen) (h : le32 b 0 ≠ m) : hdrDecode c m b = .error .hdr := by
  rw [hdrDecode, if_neg (not_not_intro hlen), if_pos h]

/-- The third test is the checksum: what a header's fields are handed back as (rules R342, R343, R345). -/
theorem decodeRet_headerBytes (cmd b7 : Byte) {r : HdrRest} (h : r.wf c) {sum : U32}
    (hsum : sum = hdrSumOf c.hdrSum ((headerBytes m cmd b7 r).take (12 + Config.padBytes c.hdrPad))) :
    decodeRet (hdrDecode c m (headerBytes m cmd b7 r)) =
      if r.checksum = sum then .record ⟨r.protocol, r.version, cmd, b7, r.dataLength⟩ else .cdiErr .checksum := by
  rw [hdrDecode_headerBytes m cmd b7 r h, ← hsum, apply_ite decodeRet]
  rfl

end

/-! ## The rows -/

section
variable (s : State)

theorem exec_hdrEncodeCmd (p v cmd rsv : Byte) (len : U32) :
    exec (.hdrEncodeCmd p v cmd rsv len) s =
      .next (s.withRet (.bytes (hdrEncode s.cfg Config.cmdMagic ⟨p, v, cmd, 0, len⟩))) := rfl

theorem exec_hdrEncodeRsp (p v cmd st : Byte) (len : U32) :
    exec (.hdrEncodeRsp p v cmd st len) s =
      .next (s.withRet (.bytes (hdrEncode s.cfg Config.rspMagic ⟨p, v, cmd, st, len⟩))) := rfl

theorem exec_hdrDecodeCmd (b : Bytes) :
    exec (.hdrDecodeCmd b) s = .next (s.withRet (decodeRet (hdrDecode s.cfg Config.cmdMagic b))) := rfl

theorem exec_hdrDecodeRsp (b : Bytes) :
    exec (.hdrDecodeRsp b) s = .next (s.withRet (decodeRet (hdrDecode s.cfg Config.rspMagic b))) := rfl

/-- The row of a command header's bytes decodes them (rule R98). -/
theorem exec_commandHeader (cmd rsv : Byte) (r : HdrRest) :
    exec (.commandHeader cmd rsv r) s = exec (.hdrDecodeCmd (headerBytes Config.cmdMagic cmd rsv r)) s := rfl

/-- The row of a response header's bytes decodes them (rule R99). -/
theorem exec_responseHeader (cmd st : Byte) (r : HdrRest) :
    exec (.responseHeader cmd st r) s = exec (.hdrDecodeRsp (headerBytes Config.rspMagic cmd st r)) s := rfl

end

/-- Settles O41: the round trip, then the tests in the decoder's order, each for commands and for responses. -/
theorem headersDecoded : Obligations.HeadersDecoded := by
  intro s
  refine ⟨fun p v cmd rsv len => ?encodedCmd, fun p v cmd st len => ?encodedRsp, fun b hlen => ?length,
    fun b hlen => ⟨fun hmagic => ?magicCmd, fun hmagic => ?magicRsp⟩,
    fun cmd b7 r hr => ⟨fun sum hsum => ?sumCmd, fun sum hsum => ?sumRsp⟩⟩
  case encodedCmd =>
    refine ⟨_, exec_hdrEncodeCmd s p v cmd rsv len, length_hdrEncode .., ?_⟩
    rw [exec_hdrDecodeCmd, hdrDecode_hdrEncode]
    rfl
  case encodedRsp =>
    refine ⟨_, exec_hdrEncodeRsp s p v cmd st len, length_hdrEncode .., ?_⟩
    rw [exec_hdrDecodeRsp, hdrDecode_hdrEncode]
    rfl
  case length =>
    rw [exec_hdrDecodeCmd, exec_hdrDecodeRsp, hdrDecode_of_length_ne _ hlen, hdrDecode_of_length_ne _ hlen]
    exact ⟨rfl, rfl⟩
  case magicCmd =>
    rw [exec_hdrDecodeCmd, hdrDecode_of_magic_ne Config.cmdMagic hlen hmagic]
    rfl
  case magicRsp =>
    rw [exec_hdrDecodeRsp, hdrDecode_of_magic_ne Config.rspMagic hlen hmagic]
    rfl
  case sumCmd =>
    rw [exec_commandHeader, exec_hdrDecodeCmd, decodeRet_headerBytes _ cmd b7 hr hsum]
    rfl
  case sumRsp =>
    rw [exec_responseHeader, exec_hdrDecodeRsp, decodeRet_headerBytes _ cmd b7 hr hsum]
    rfl

end Sys2Proof.Machine
end

section
/-! PROOFS. The frame codec: packing and unpacking, and every value that the functions hand back (rules R141, R143 to R148, R150). -/

namespace Sys2Proof.Machine

/-! ## The rows: a value is handed back and nothing else changes (rule R140) -/

section
variable (s : State)

theorem exec_crc16 (data : Bytes) : exec (.crc16 data) s = .next (s.withRet (.u16 (crc16Of s.cfg.crc16 data))) := rfl

theorem exec_packShort (blk : Byte) (data : Bytes) :
    exec (.packShort blk data) s = .next (s.withRet (packRet (packShortOf s.cfg blk data))) := rfl

theorem exec_packLong (blk : Byte) (data : Bytes) :
    exec (.packLong blk data) s = .next (s.withRet (packRet (packLongOf s.cfg blk data))) := rfl

theorem exec_packFrame (blk : Byte) (data : Bytes) :
    exec (.packFrame blk data) s = .next (s.withRet (packRet (packFrameOf s.cfg blk data))) := rfl

theorem exec_frameTotal_cons (lead : Byte) (r : Bytes) :
    exec (.frameTotal (lead :: r)) s = .next (s.withRet (frameTotalRet (frameTotalOf s.cfg (lead :: r)))) := rfl

theorem exec_slice (rem : U32) : exec (.slice rem) s = .next (s.withRet (.num (sliceOf rem.toNat))) := rfl

theorem exec_split (blk0 : Byte) (data : Bytes) :
    exec (.split blk0 data) s = .next (s.withRet (.frames (splitOf s.cfg blk0 data))) := rfl

/-- Only a whole frame is unpacked as rule R147 says (log 35). -/
theorem exec_unpack_of_whole {s : State} {f : Bytes} (h : frameTotalOf s.cfg f = .total f.length) :
    exec (.unpack f) s = .next (s.withRet (unpackRet (unpackOf s.cfg f))) := by
  have hrow : exec (.unpack f) s = .next (s.withRet (unpackRet
    (if frameTotalOf s.cfg f = .total f.length then unpackOf s.cfg f else Config.freeUnpack f))) := rfl
  rw [hrow, if_pos h]

/-- The value handed back can be read off the next state. -/
theorem next_withRet_inj {s : State} {r r' : Ret} (h : (.next (s.withRet r) : Result) = .next (s.withRet r')) : r = r' := by
  simpa [State.withRet] using h

theorem packRet_eq_bytes {e : Except FcErr Bytes} {f : Bytes} (h : packRet e = .bytes f) : e = .ok f := by
  cases e with
  | ok g => exact congrArg Except.ok (Ret.bytes.inj h)
  | error _ => cases h

end

/-! ## Packing (rules R143 to R145) -/

/-- The CRC field, high byte first (rule R95). -/
theorem encBe16_eq (v : U16) : encBe16 v = [BitVec.ofNat 8 (v.toNat / 256), BitVec.ofNat 8 v.toNat] := by
  simp [encBe16, byteOf]

theorem packShortOf_eq (c : Config) (blk : Byte) (data : Bytes) :
    packShortOf c blk data = if data.length ≤ 61 then
      .ok (shortFrameBytes c blk (255 - blk) data (crc16Of c.crc16 data)) else .error .len := rfl

theorem packLongOf_eq (c : Config) (blk : Byte) (data : Bytes) :
    packLongOf c blk data = if data.length = 1024 then
      .ok (longFrameBytes c blk (255 - blk) data (crc16Of c.crc16 data)) else .error .len := rfl

theorem packFrameOf_def (c : Config) (blk : Byte) (data : Bytes) :
    packFrameOf c blk data = if data.length = 1024 then packLongOf c blk data
      else if data.length ≤ 61 then packShortOf c blk data else .error .len := rfl

/-- The format is chosen by the length, so the check that the format itself makes is passed (rule R145). -/
theorem packFrameOf_eq (c : Config) (blk : Byte) (data : Bytes) :
    packFrameOf c blk data =
      if data.length = 1024 then .ok (longFrameBytes c blk (255 - blk) data (crc16Of c.crc16 data))
      else if data.length ≤ 61 then .ok (shortFrameBytes c blk (255 - blk) data (crc16Of c.crc16 data))
      else .error .len := by
  rw [packFrameOf_def, packLongOf_eq, packShortOf_eq]
  split
  · rfl
  · split <;> rfl

/-- Settles O36: the two formats byte for byte; PACK_FRAME takes the one that the length calls for. -/
theorem framesPacked : Obligations.FramesPacked := by
  intro s blk data short long hshort hlong
  have hs : packRet (packShortOf s.cfg blk data) = short := by
    rw [packShortOf_eq, hshort, ← encBe16_eq, apply_ite packRet]
    rfl
  have hl : packRet (packLongOf s.cfg blk data) = long := by
    rw [packLongOf_eq, hlong, ← encBe16_eq, apply_ite packRet]
    rfl
  refine ⟨?_, ?_, ?_⟩
  · rw [exec_packShort, hs]
    rfl
  · rw [exec_packLong, hl]
    rfl
  · rw [exec_packFrame, packFrameOf_def, apply_ite packRet, apply_ite packRet, hs, hl]
    rfl

/-! ## The lengths that FRAME_TOTAL and SLICE answer (rules R146, R150) -/

theorem frameTotalRet_cons (c : Config) (lead : Byte) (r : Bytes) :
    frameTotalRet (frameTotalOf c (lead :: r)) = if lead = c.stx then .frameLen (.total 1029)
      else if lead = c.soh then
        .frameLen (if 3 ≤ r.length then .total (4 + (byteAt r 2).toNat + 2) else .unknown)
      else .fcErr .frame := by
  have hlen : 4 ≤ (lead :: r).length ↔ 3 ≤ r.length := Nat.succ_le_succ_iff
  simp only [frameTotalOf, apply_ite frameTotalRet, apply_ite Ret.frameLen, hlen]
  rfl

theorem crc16Xmodem_check : crc16Xmodem [0x31, 0x32, 0x33, 0x34, 0x35, 0x36, 0x37, 0x38, 0x39] = 0x31C3 := by decide +kernel

/-! ## A frame of either format

A packed frame is a header that depends on the data's length only, the data, and the CRC. -/

/-- The bytes of a frame before its data (rules R91, R92). -/
def frameHead (c : Config) (blk cblk : Byte) (n : Nat) : Bytes :=
  if n = 1024 then [c.stx, blk, cblk] else [c.soh, blk, cblk, BitVec.ofNat 8 n]

/-- The frame that carries `data`, with the fields as given: long for 1024 bytes, else short (rule R145). -/
def frameBytes (c : Config) (blk cblk : Byte) (data : Bytes) (crc : U16) : Bytes :=
  frameHead c blk cblk data.length ++ (data ++ encBe16 crc)

/-- The lengths of data that a frame can carry (rules R143, R144). -/
abbrev Carried (data : Bytes) : Prop := data.length ≤ 61 ∨ data.length = 1024

section
variable {c : Config} {data : Bytes} (blk cblk : Byte) (crc : U16)

theorem frameBytes_of_long (h : data.length = 1024) :
    frameBytes c blk cblk data crc = longFrameBytes c blk cblk data crc := by
  rw [frameBytes, frameHead, if_pos h]
  rfl

theorem frameBytes_of_short (h : data.length ≠ 1024) :
    frameBytes c blk cblk data crc = shortFrameBytes c blk cblk data crc := by
  rw [frameBytes, frameHead, if_neg h]
  rfl

theorem length_frameBytes : (frameBytes c blk cblk data crc).length =
    (frameHead c blk cblk data.length).length + data.length + 2 := by
  simp only [frameBytes, List.length_append, length_encBe16, Nat.add_assoc]

/-- The lead bytes of the two formats differ (rule R11). -/
theorem soh_ne_stx (hok : c.ok) : c.soh ≠ c.stx := by
  obtain ⟨⟨hnodup, -⟩, -⟩ := hok
  exact fun he => (List.nodup_cons.1 hnodup).1 (he ▸ List.mem_cons_self)

/-- A frame that carries its data is whole, whatever its other fields (rule R146). -/
theorem frameTotalOf_frameBytes (hok : c.ok) (h : Carried data) :
    frameTotalOf c (frameBytes c blk cblk data crc) = .total (frameBytes c blk cblk data crc).length := by
  rcases h with hshort | hlong
  · rw [frameBytes_of_short blk cblk crc (by omega)]
    exact frameTotalOf_short c (soh_ne_stx hok) blk cblk data crc (by omega)
  · rw [frameBytes_of_long blk cblk crc hlong]
    exact frameTotalOf_long c blk cblk data crc hlong

/-- The two tests that are left for a frame that carries its data, in their order (rules R147, R375). -/
theorem unpackOf_frameBytes (hok : c.ok) (h : Carried data) :
    unpackOf c (frameBytes c blk cblk data crc) = if blk.toNat + cblk.toNat ≠ 255 then .error .frame
      else if crc16Of c.crc16 data ≠ crc then .error .data else .ok (blk, data) := by
  rcases h with hshort | hlong
  · rw [frameBytes_of_short blk cblk crc (by omega), unpackOf_short c blk cblk data crc (by omega),
      if_neg (c := 61 < data.length) (by omega)]
  · rw [frameBytes_of_long blk cblk crc hlong, unpackOf_long c (soh_ne_stx hok) blk cblk data crc hlong]

/-- What UNPACK hands back for a frame that carries its data. -/
theorem exec_unpack_frameBytes {s : State} (hok : s.cfg.ok) (h : Carried data) :
    exec (.unpack (frameBytes s.cfg blk cblk data crc)) s = .next (s.withRet
      (if blk.toNat + cblk.toNat ≠ 255 then .fcErr .frame
       else if crc16Of s.cfg.crc16 data ≠ crc then .fcErr .data else .unpacked blk data)) := by
  rw [exec_unpack_of_whole (frameTotalOf_frameBytes blk cblk crc hok h), unpackOf_frameBytes blk cblk crc hok h,
    apply_ite unpackRet, apply_ite unpackRet]
  rfl

/-- PACK_FRAME fails on the lengths that no frame carries, and only on them (rule R145). -/
theorem packFrameOf_eq_ok_iff {f : Bytes} : packFrameOf c blk data = .ok f ↔
    Carried data ∧ f = frameBytes c blk (255 - blk) data (crc16Of c.crc16 data) := by
  rw [packFrameOf_eq]
  by_cases hlong : data.length = 1024
  · rw [if_pos hlong, frameBytes_of_long blk _ _ hlong, Except.ok.injEq, and_iff_right (Or.inr hlong), eq_comm]
  · rw [if_neg hlong, frameBytes_of_short blk _ _ hlong]
    by_cases hshort : data.length ≤ 61
    · rw [if_pos hshort, Except.ok.injEq, and_iff_right (Or.inl hshort), eq_comm]
    · rw [if_neg hshort]
      exact ⟨nofun, fun ⟨hc, _⟩ => absurd hc (not_or.2 ⟨hshort, hlong⟩)⟩

/-- A block number and its complement make 255 (rule R91). -/
theorem toNat_add_complement : blk.toNat + (255 - blk : Byte).toNat = 255 := by
  have := blk.isLt
  rw [BitVec.toNat_sub, show (255 : Byte).toNat = 255 from rfl]
  omega

/-- Unpacking undoes packing, since both take the CRC of the same bytes (rule R148). -/
theorem unpackOf_of_packFrameOf {f : Bytes} (hok : c.ok) (h : packFrameOf c blk data = .ok f) :
    unpackOf c f = .ok (blk, data) := by
  obtain ⟨hcarried, rfl⟩ := (packFrameOf_eq_ok_iff blk).1 h
  rw [unpackOf_frameBytes _ _ _ hok hcarried, if_neg (not_not_intro (toNat_add_complement blk)),
    if_neg (not_not_intro rfl)]

end

/-- Settles O38: the frame that PACK_FRAME makes is whole, and its complement and CRC are right. -/
theorem packedUnpacks : Obligations.PackedUnpacks := by
  intro s blk data hok hcarried
  have hpack := (packFrameOf_eq_ok_iff (c := s.cfg) (data := data) blk).2 ⟨hcarried, rfl⟩
  refine ⟨frameBytes s.cfg blk (255 - blk) data (crc16Of s.cfg.crc16 data), ?_, ?_⟩
  · rw [exec_packFrame, hpack]
    rfl
  · rw [exec_unpack_of_whole (frameTotalOf_frameBytes _ _ _ hok hcarried), unpackOf_of_packFrameOf blk hok hpack]
    rfl

/-- What UNPACK hands back for a short frame, whatever its fields, a length byte over 61 included (rule R147). -/
theorem exec_unpack_short {s : State} (hok : s.cfg.ok) (blk cblk : Byte) {data : Bytes} (crc : U16) (h : data.length ≤ 255) :
    exec (.unpack (shortFrameBytes s.cfg blk cblk data crc)) s = .next (s.withRet
      (if blk.toNat + cblk.toNat ≠ 255 then .fcErr .frame
       else if 61 < data.length then .fcErr .frame
       else if crc16Of s.cfg.crc16 data ≠ crc then .fcErr .data else .unpacked blk data)) := by
  rw [exec_unpack_of_whole (frameTotalOf_short s.cfg (soh_ne_stx hok) blk cblk data crc h),
    unpackOf_short s.cfg blk cblk data crc h, apply_ite unpackRet, apply_ite unpackRet, apply_ite unpackRet]
  rfl

/-- Settles O37: each function by its lemma; a long frame skips the test of the length byte. -/
theorem codecValues : Obligations.CodecValues := by
  intro s
  refine ⟨fun lead r => ?frameTotal, ⟨_, rfl⟩, fun f => ⟨_, rfl⟩, ?unpack, exec_slice s, exec_crc16 s, fun hx => ?check⟩
  case frameTotal =>
    rw [exec_frameTotal_cons, frameTotalRet_cons]
    rfl
  case unpack =>
    rintro hok blk cblk data f crc short (⟨rfl, hlen, rfl⟩ | ⟨rfl, hlen, rfl⟩)
    · rw [exec_unpack_short hok blk cblk crc hlen]
      simp only [true_and]
      rfl
    · rw [← frameBytes_of_long blk cblk crc hlen, exec_unpack_frameBytes blk cblk crc hok (Or.inr hlen)]
      simp only [Bool.false_eq_true, false_and, if_false]
      rfl
  case check =>
    rw [exec_crc16, hx, crc16Of, crc16Xmodem_check]
    rfl

end Sys2Proof.Machine
end

section
/-! PROOFS. SPLIT: its frames carry the slices of the data, and put together they give the data back (rule R151). -/

namespace Sys2Proof.Machine

/-- The frames carry the pieces, block number after block number, and each piece is the slice of what is left (rules R150, R151). -/
inductive CarrySlices (c : Config) : Byte → List Bytes → List Bytes → Prop where
  | nil (blk : Byte) : CarrySlices c blk [] []
  | cons {blk : Byte} {f piece : Bytes} {fs pieces : List Bytes} (hpack : packFrameOf c blk piece = .ok f)
      (hlen : piece.length = sliceOf (piece :: pieces).flatten.length) (hrest : CarrySlices c (blk + 1) fs pieces) :
      CarrySlices c blk (f :: fs) (piece :: pieces)

theorem length_take_sliceOf (data : Bytes) : (data.take (sliceOf data.length)).length = sliceOf data.length :=
  List.length_take_of_le (sliceOf_le _)

/-- A slice has a length that a frame carries (rule R150). -/
theorem packFrameOf_slice (c : Config) (blk : Byte) (data : Bytes) :
    ∃ f, packFrameOf c blk (data.take (sliceOf data.length)) = .ok f :=
  packFrameOf_ok c blk _ (by rw [length_take_sliceOf]; exact sliceOf_carried _)

theorem splitFrom_nil (c : Config) (fuel : Nat) (blk : Byte) : splitFrom c fuel blk [] = [] := by
  cases fuel <;> rfl

/-- One turn of the loop: a frame of the first slice, then the frames of the rest (rule R151). -/
theorem splitFrom_succ {c : Config} {blk : Byte} {data f : Bytes} (fuel : Nat) (hne : data ≠ [])
    (hpack : packFrameOf c blk (data.take (sliceOf data.length)) = .ok f) :
    splitFrom c (fuel + 1) blk data = f :: splitFrom c fuel (blk + 1) (data.drop (sliceOf data.length)) := by
  rw [splitFrom, if_neg (mt List.length_eq_zero_iff.1 hne), hpack]

/-- Fuel for one frame a byte is enough: every slice has a byte. -/
theorem splitFrom_carries (c : Config) (fuel : Nat) (blk : Byte) (data : Bytes) (hfuel : data.length ≤ fuel) :
    ∃ pieces, pieces.flatten = data ∧ CarrySlices c blk (splitFrom c fuel blk data) pieces := by
  induction fuel generalizing blk data with
  | zero =>
    obtain rfl := List.length_eq_zero_iff.1 (Nat.le_zero.1 hfuel)
    exact ⟨[], rfl, .nil blk⟩
  | succ fuel ih =>
    rcases eq_or_ne data [] with rfl | hne
    · refine ⟨[], rfl, ?_⟩
      rw [splitFrom_nil]
      exact .nil blk
    · obtain ⟨f, hpack⟩ := packFrameOf_slice c blk data
      have hpos : 0 < sliceOf data.length := sliceOf_pos (List.length_pos_of_ne_nil hne)
      obtain ⟨pieces, hflat, hcarry⟩ := ih (blk + 1) (data.drop (sliceOf data.length)) (by rw [List.length_drop]; omega)
      have hall : (data.take (sliceOf data.length) :: pieces).flatten = data := by
        rw [List.flatten_cons, hflat, List.take_append_drop]
      refine ⟨_, hall, ?_⟩
      rw [splitFrom_succ fuel hne hpack]
      exact .cons hpack (by rw [hall, length_take_sliceOf]) hcarry

theorem CarrySlices.length_eq {c : Config} {blk : Byte} {fs pieces : List Bytes} (h : CarrySlices c blk fs pieces) :
    fs.length = pieces.length := by
  induction h with
  | nil => rfl
  | cons _ _ _ ih => exact congrArg Nat.succ ih

theorem add_ofNat_succ (blk : Byte) (i : Nat) : blk + BitVec.ofNat 8 (i + 1) = blk + 1 + BitVec.ofNat 8 i := by
  rw [Nat.add_comm i 1, BitVec.ofNat_add, BitVec.add_assoc]
  rfl

/-- The frame at a position, its block number and its piece. -/
theorem CarrySlices.at {c : Config} {blk : Byte} {fs pieces : List Bytes} (h : CarrySlices c blk fs pieces) {i : Nat}
    (hi : i < fs.length) :
    packFrameOf c (blk + BitVec.ofNat 8 i) (pieces.getD i []) = .ok (fs.getD i []) ∧
    (pieces.getD i []).length = sliceOf (pieces.drop i).flatten.length := by
  induction h generalizing i with
  | nil => cases hi
  | cons hpack hlen _ ih =>
    cases i with
    | zero =>
      rw [BitVec.add_zero]
      exact ⟨hpack, hlen⟩
    | succ i =>
      rw [add_ofNat_succ]
      exact ih (Nat.lt_of_succ_lt_succ hi)

/-- Settles O39: the slices are the pieces; each frame unpacks to its piece because packing is undone by unpacking. -/
theorem splitReassembles : Obligations.SplitReassembles := by
  intro s blk0 data hok _
  obtain ⟨pieces, hflat, hcarry⟩ := splitFrom_carries s.cfg data.length blk0 data le_rfl
  refine ⟨splitOf s.cfg blk0 data, pieces, exec_split s blk0 data, hcarry.length_eq, hflat, fun i hi => ?_⟩
  obtain ⟨hpack, hlen⟩ := hcarry.at hi
  exact ⟨hpack, unpackOf_of_packFrameOf _ hok hpack, hlen⟩

end Sys2Proof.Machine
end

section
/-! PROOFS. Corruption: a frame or a header changed in one byte is a frame or a header with other fields, and the field that
changed fails its test (rules R142, R149, R345). -/

namespace Sys2Proof.Machine

/-! ## One byte of a string changed -/

theorem byteAt_set_self {l : Bytes} {p : Nat} (hp : p < l.length) (b : Byte) : byteAt (l.set p b) p = b := by
  simp [byteAt, hp]

theorem byteAt_set_ne (l : Bytes) {p i : Nat} (h : p ≠ i) (b : Byte) : byteAt (l.set p b) i = byteAt l i := by
  simp [byteAt, List.getD_eq_getElem?_getD, List.getElem?_set_ne h]

/-- Each byte of a little-endian field can be read off its value (rule R13). -/
theorem byteOf_le32 (l : Bytes) (i : Nat) {k : Nat} (hk : k < 4) : byteOf (le32 l i).toNat k = byteAt l (i + k) := by
  have h0 := (byteAt l i).isLt
  have h1 := (byteAt l (i + 1)).isLt
  have h2 := (byteAt l (i + 2)).isLt
  have h3 := (byteAt l (i + 3)).isLt
  apply BitVec.eq_of_toNat_eq
  rw [byteOf_toNat, le32, BitVec.toNat_ofNat]
  interval_cases k
  · simp only [Nat.add_zero]
    omega
  all_goals omega

theorem le32_set_of_inside {l : Bytes} {i p : Nat} {b : Byte} (hi : i ≤ p) (hp : p < i + 4) (hl : p < l.length)
    (hb : b ≠ byteAt l p) : le32 (l.set p b) i ≠ le32 l i := by
  intro h
  have hbyte : ∀ v : Bytes, byteOf (le32 v i).toNat (p - i) = byteAt v p := fun v => by
    rw [byteOf_le32 v i (by omega), Nat.add_sub_cancel' hi]
  apply hb
  rw [← hbyte l, ← h, hbyte, byteAt_set_self hl]

theorem le32_set_of_outside (l : Bytes) {i p : Nat} (b : Byte) (h : p < i ∨ i + 4 ≤ p) : le32 (l.set p b) i = le32 l i := by
  simp only [le32]
  rw [byteAt_set_ne l (by omega), byteAt_set_ne l (by omega), byteAt_set_ne l (by omega), byteAt_set_ne l (by omega)]

/-- Any two bytes are the CRC field of some CRC (rule R95). -/
theorem encBe16_be16 (x y : Byte) : encBe16 (be16 [x, y] 0) = [x, y] := by
  have hx := x.isLt
  have hy := y.isLt
  have hv : (be16 [x, y] 0).toNat = 256 * x.toNat + y.toNat := by
    rw [be16, BitVec.toNat_ofNat]
    simp only [byteAt, List.getD_cons_zero, List.getD_cons_succ]
    omega
  rw [encBe16_eq, hv]
  congr 1
  · exact BitVec.eq_of_toNat_eq (by rw [BitVec.toNat_ofNat]; omega)
  · congr 1
    exact BitVec.eq_of_toNat_eq (by rw [BitVec.toNat_ofNat]; omega)

/-- A CRC field changed in one byte is the field of another CRC. -/
theorem encBe16_set (crc : U16) {j : Nat} {b : Byte} (hj : j < 2) (hb : b ≠ byteAt (encBe16 crc) j) :
    ∃ crc', crc' ≠ crc ∧ (encBe16 crc).set j b = encBe16 crc' := by
  obtain ⟨x, y, hxy⟩ := List.length_eq_two.1 ((List.length_set ..).trans (length_encBe16 crc) : ((encBe16 crc).set j b).length = 2)
  refine ⟨be16 [x, y] 0, fun he => hb ?_, by rw [encBe16_be16, hxy]⟩
  rw [← he, encBe16_be16, ← hxy, byteAt_set_self (by rwa [length_encBe16])]

/-! ## A frame changed in one byte (rule R149) -/

section
variable {c : Config} {data : Bytes} {b : Byte} (blk cblk : Byte) (crc : U16)

theorem frameBytes_set_one : (frameBytes c blk cblk data crc).set 1 b = frameBytes c b cblk data crc := by
  unfold frameBytes frameHead
  split <;> rfl

theorem frameBytes_set_two : (frameBytes c blk cblk data crc).set 2 b = frameBytes c blk b data crc := by
  unfold frameBytes frameHead
  split <;> rfl

theorem byteAt_frameBytes_one : byteAt (frameBytes c blk cblk data crc) 1 = blk := by
  unfold frameBytes frameHead
  split <;> rfl

theorem byteAt_frameBytes_two : byteAt (frameBytes c blk cblk data crc) 2 = cblk := by
  unfold frameBytes frameHead
  split <;> rfl

/-- A frame with another byte among its data or its CRC carries other data, or another CRC. -/
theorem frameBytes_set_body {p : Nat} (hp : (frameHead c blk cblk data.length).length ≤ p)
    (hlt : p < (frameBytes c blk cblk data crc).length) (hb : b ≠ byteAt (frameBytes c blk cblk data crc) p) :
    (∃ data', OneByteChanged data data' ∧ (frameBytes c blk cblk data crc).set p b = frameBytes c blk cblk data' crc) ∨
    ∃ crc', crc' ≠ crc ∧ (frameBytes c blk cblk data crc).set p b = frameBytes c blk cblk data crc' := by
  obtain ⟨i, rfl⟩ := Nat.exists_eq_add_of_le hp
  rw [length_frameBytes] at hlt
  rw [frameBytes, byteAt_append_right (Nat.le_add_right ..), Nat.add_sub_cancel_left] at hb
  rw [frameBytes, List.set_append_right _ _ (Nat.le_add_right ..), Nat.add_sub_cancel_left]
  by_cases hi : i < data.length
  · rw [byteAt_append_left hi] at hb
    refine .inl ⟨data.set i b, ⟨i, b, hi, hb, rfl⟩, ?_⟩
    rw [List.set_append_left _ _ hi, frameBytes, List.length_set]
  · obtain ⟨j, rfl⟩ := Nat.exists_eq_add_of_le (not_lt.1 hi)
    rw [byteAt_append_right (Nat.le_add_right ..), Nat.add_sub_cancel_left] at hb
    obtain ⟨crc', hne, hset⟩ := encBe16_set crc (by omega) hb
    refine .inr ⟨crc', hne, ?_⟩
    rw [List.set_append_right _ _ (Nat.le_add_right ..), Nat.add_sub_cancel_left, hset, frameBytes]

variable {s : State}

/-- With one byte of its data or of its CRC changed, a packed frame's CRC is no longer the CRC of its data (rule R142). -/
theorem exec_unpack_bodyChanged (hok : s.cfg.ok) (hlaw : s.cfg.crc16.detects) (h : Carried data) {p : Nat} {f : Bytes}
    (hf : f = frameBytes s.cfg blk (255 - blk) data (crc16Of s.cfg.crc16 data)) (hp : f.length - data.length - 2 ≤ p)
    (hlt : p < f.length) (hb : b ≠ byteAt f p) :
    exec (.unpack (f.set p b)) s = .next (s.withRet (.fcErr .data)) := by
  subst hf
  have hhead : (frameHead s.cfg blk (255 - blk) data.length).length ≤ p := by
    rw [length_frameBytes] at hp
    omega
  have hsum := not_not_intro (toNat_add_complement blk)
  rcases frameBytes_set_body blk _ _ hhead hlt hb with ⟨data', hchange, hset⟩ | ⟨crc', hne, hset⟩
  · have hdiff := hlaw data data' (by omega) hchange
    obtain ⟨i, x, -, -, rfl⟩ := hchange
    have hcarried : Carried (data.set i x) := by rwa [Carried, List.length_set]
    rw [hset, exec_unpack_frameBytes _ _ _ hok hcarried, if_neg hsum, if_pos hdiff.symm]
  · rw [hset, exec_unpack_frameBytes _ _ _ hok h, if_neg hsum, if_pos hne.symm]

/-- With its block number or its complement changed, a frame's two no longer make 255 (rule R147). -/
theorem exec_unpack_blockChanged (hok : s.cfg.ok) (h : Carried data) {p : Nat} {f : Bytes}
    (hf : f = frameBytes s.cfg blk (255 - blk) data crc) (hp : p = 1 ∨ p = 2) (hb : b ≠ byteAt f p) :
    exec (.unpack (f.set p b)) s = .next (s.withRet (.fcErr .frame)) := by
  subst hf
  have hsum := toNat_add_complement blk
  rcases hp with rfl | rfl
  · rw [byteAt_frameBytes_one] at hb
    have hne : b.toNat ≠ blk.toNat := mt BitVec.eq_of_toNat_eq hb
    rw [frameBytes_set_one, exec_unpack_frameBytes _ _ _ hok h, if_pos (by omega)]
  · rw [byteAt_frameBytes_two] at hb
    have hne : b.toNat ≠ (255 - blk).toNat := mt BitVec.eq_of_toNat_eq hb
    rw [frameBytes_set_two, exec_unpack_frameBytes _ _ _ hok h, if_pos (by omega)]

end

/-! ## A header changed in one byte (rule R345) -/

section
variable (c : Config) (m : U32) (x : HdrRecord)

theorem le32_hdrEncode_magic : le32 (hdrEncode c m x) 0 = m := by
  rw [hdrEncode_eq, headerBytes_magic]

theorem le32_hdrEncode_sum :
    le32 (hdrEncode c m x) (12 + Config.padBytes c.hdrPad) = hdrSumOf c.hdrSum (hdrBody c m x) := by
  rw [hdrEncode_eq, headerBytes_sum m _ _ _ List.length_replicate]

variable {c}

/-- The first two tests passed, the third decides (rule R342). -/
theorem hdrDecode_of_sum_ne {h : Bytes} (hlen : h.length = c.hdrLen) (hmagic : le32 h 0 = m)
    (hsum : le32 h (12 + Config.padBytes c.hdrPad) ≠ hdrSumOf c.hdrSum (h.take (12 + Config.padBytes c.hdrPad))) :
    hdrDecode c m h = .error .checksum := by
  rw [hdrDecode, if_neg (not_not_intro hlen), if_neg (not_not_intro hmagic), if_pos hsum]

/-- A changed magic fails the second test. Behind it the checksum stands, or the sum of the bytes before it, but not both. -/
theorem hdrDecode_changed (hlaw : c.hdrSum.detects c.hdrPad) {p : Nat} {b : Byte} {h : Bytes} (hh : h = hdrEncode c m x)
    (hp : p < h.length) (hb : b ≠ byteAt h p) :
    hdrDecode c m (h.set p b) = .error (if p < 4 then .hdr else .checksum) := by
  subst hh
  have hlen : ((hdrEncode c m x).set p b).length = c.hdrLen := by rw [List.length_set, length_hdrEncode]
  by_cases h4 : p < 4
  · have hmagic := le32_set_of_inside (i := 0) (Nat.zero_le p) h4 hp hb
    rw [le32_hdrEncode_magic] at hmagic
    rw [if_pos h4, hdrDecode_of_magic_ne m hlen hmagic]
  · have hmagic : le32 ((hdrEncode c m x).set p b) 0 = m := by
      rw [le32_set_of_outside _ b (by omega), le32_hdrEncode_magic]
    rw [if_neg h4]
    refine hdrDecode_of_sum_ne m hlen hmagic ?_
    rw [List.take_set, take_hdrEncode]
    by_cases hbody : p < 12 + Config.padBytes c.hdrPad
    · have hbyte : b ≠ byteAt (hdrBody c m x) p := by
        rwa [← take_hdrEncode, byteAt_take hbody]
      have hchange : OneByteChanged (hdrBody c m x) ((hdrBody c m x).set p b) :=
        ⟨p, b, by rwa [length_hdrBody], hbyte, rfl⟩
      rw [le32_set_of_outside _ b (.inl hbody), le32_hdrEncode_sum]
      exact hlaw _ _ (length_hdrBody c m x) hchange
    · have hend : p < 12 + Config.padBytes c.hdrPad + 4 := by
        rw [length_hdrEncode, Config.hdrLen] at hp
        omega
      have hsame : (hdrBody c m x).set p b = hdrBody c m x :=
        List.set_eq_of_length_le (by rw [length_hdrBody]; exact not_lt.1 hbody)
      rw [hsame, ← le32_hdrEncode_sum]
      exact le32_set_of_inside (not_lt.1 hbody) hend hp hb

theorem decodeRet_changed (hlaw : c.hdrSum.detects c.hdrPad) {p : Nat} {b : Byte} {h : Bytes} (hh : h = hdrEncode c m x)
    (hp : p < h.length) (hb : b ≠ byteAt h p) :
    decodeRet (hdrDecode c m (h.set p b)) = .cdiErr (if p < 4 then .hdr else .checksum) := by
  rw [hdrDecode_changed m x hlaw hh hp hb, decodeRet]

end

/-- Settles O40: the laws of the two sample functions, then a frame and a header, each as it was encoded but for one byte. -/
theorem corruptionDetected : Obligations.CorruptionDetected := by
  refine ⟨crc16Xmodem_detects, byteSum_detects, fun s p b hok => ⟨?frame, ?header⟩⟩
  case frame =>
    intro blk data f hlaw _ hpack hp hb
    obtain ⟨hcarried, hf⟩ := (packFrameOf_eq_ok_iff blk).1 (packRet_eq_bytes (next_withRet_inj hpack))
    exact ⟨fun hbody => exec_unpack_bodyChanged blk hok hlaw hcarried hf hbody hp hb,
      fun hblock => exec_unpack_blockChanged blk _ hok hcarried hf hblock hb⟩
  case header =>
    intro pr v cmd b7 len h hlaw hp hb
    refine ⟨fun henc => ?_, fun henc => ?_⟩
    · rw [exec_hdrDecodeCmd, decodeRet_changed _ _ hlaw (Ret.bytes.inj (next_withRet_inj henc)).symm hp hb]
      rfl
    · rw [exec_hdrDecodeRsp, decodeRet_changed _ _ hlaw (Ret.bytes.inj (next_withRet_inj henc)).symm hp hb]
      rfl

end Sys2Proof.Machine
end

section
/-! PROOFS. The UART engine as an observer sees it: what comes of each byte, of a tick and of each port event (rules R170
to R201). -/

namespace Sys2Proof.Machine

/-! ## Bytes outside a frame (rules R177, R191 to R193) -/

/-- The tail of an operation when no frame is due (rules R186, R188). -/
theorem andThen_trySend_of_quiet {s : State} (h : s.quiet) : andThen (.next s) trySend = .next s := trySend_quiet h

theorem andThen_trySend_of_st {s : State} (h : s.upe.st ≠ .dataSend) : andThen (.next s) trySend = .next s :=
  andThen_trySend_of_quiet (quiet_of_st h)

/-- Only in DATA_RECV can a byte belong to a frame (rule R115). -/
theorem inFrame_of_st {c : Config} {u : Upe} (b : Byte) (h : u.st ≠ .dataRecv) : inFrame c u b = false :=
  Bool.eq_false_iff.2 fun hin => h (inFrame_st hin)

section
variable {s : State}

/-- A control byte arrives by the row of its own or by UART.RX (rules R93, R172). -/
theorem exec_controlByte {i row : Instr} {b : Byte} (hi : i = row ∨ i = .uartRx b) (hrow : exec row s = uartRx b s) :
    exec i s = uartRx b s := by
  rcases hi with rfl | rfl
  · exact hrow
  · rfl

theorem commandByte_sigC : commandByte s.cfg.sigC s = .next (cmdSigC s) := by
  rw [commandByte, if_pos rfl]

theorem commandByte_ack (hok : s.cfg.ok) (ha : s.upe.awaitAck = true) : commandByte s.cfg.ack s = cmdAck s := by
  obtain ⟨⟨hnodup, -⟩, -⟩ := hok
  simp only [List.nodup_cons, List.mem_cons, not_or] at hnodup
  obtain ⟨-, -, ⟨-, -, hsig, hdc1, hdc2, -⟩, -⟩ := hnodup
  rw [commandByte, if_neg hsig, if_neg hdc1, if_neg hdc2, if_pos ⟨rfl, ha⟩]

theorem commandByte_nak (hok : s.cfg.ok) (ha : s.upe.awaitAck = true) : commandByte s.cfg.nak s = retransmit s := by
  obtain ⟨⟨hnodup, -⟩, -⟩ := hok
  simp only [List.nodup_cons, List.mem_cons, not_or] at hnodup
  obtain ⟨-, -, ⟨hnak, -⟩, ⟨-, hsig, hdc1, hdc2, -⟩, -⟩ := hnodup
  rw [commandByte, if_neg hsig, if_neg hdc1, if_neg hdc2, if_neg fun h => hnak h.1.symm, if_pos ⟨rfl, ha⟩]

/-- No other byte means anything, and ACK and NAK only while a frame is in flight (rule R191). -/
theorem commandByte_dropped {b : Byte} (hb : b ∉ [s.cfg.sigC, s.cfg.dc1, s.cfg.dc2])
    (ha : s.upe.awaitAck = true → b ∉ [s.cfg.ack, s.cfg.nak]) : commandByte b s = .next s := by
  simp only [List.mem_cons, List.not_mem_nil, or_false, not_or] at hb ha
  obtain ⟨hsig, hdc1, hdc2⟩ := hb
  rw [commandByte, if_neg hsig, if_neg hdc1, if_neg hdc2, if_neg fun h => (ha h.2).1 h.1, if_neg fun h => (ha h.2).2 h.1]

end

/-- Settles O1: a ping leaves what `try_send` looks at as it is, so nothing more is sent. -/
theorem pingAnswered : Obligations.PingAnswered := by
  intro s i hl hquiet hf hi
  have hping : commandByte s.cfg.sigC (s.withUpe s.upe.heard) = .next (cmdSigC (s.withUpe s.upe.heard)) :=
    commandByte_sigC (s := s.withUpe s.upe.heard)
  rw [exec_controlByte hi rfl, uartRx_out hl hf, hping]
  exact andThen_trySend_of_quiet hquiet

/-- Settles O4: no test of `command_byte` is met, and nothing is due to be sent. -/
theorem byteDropped : Obligations.ByteDropped := by
  intro s b i hl hquiet hf hrow hb ha
  have hdrop : commandByte b (s.withUpe s.upe.heard) = .next (s.withUpe s.upe.heard) := commandByte_dropped hb ha
  rw [exec_byteRow hrow, uartRx_out hl hf, hdrop]
  exact andThen_trySend_of_quiet hquiet

/-! ## ACK and NAK of the frame in flight (rules R192, R193) -/

section
variable {s : State} {t : Task} {r : List Task}

/-- The slice that `try_send` cuts from the head task, from the byte that the task has come to (rule R186). -/
theorem trySend_sends_from {k : Nat} (hs : s.upe.st = .dataSend) (hq : s.upe.q = t :: r) (hd : t.dir = .send)
    (hk : t.done.toNat = k) (hl : k < t.len.toNat) :
    ∃ f, packFrameOf s.cfg s.upe.sendBlk (t.buf.readRun k (sliceOf (t.len.toNat - k))) = .ok f ∧
      trySend s = .next { s with
        upe := { s.upe with
          st := .cmdRecv, awaitAck := true, tWait := 0, slice := BitVec.ofNat 16 (sliceOf (t.len.toNat - k)) }
        log := s.log ++ [.uartTx f] } := by
  subst hk
  exact trySend_sends hs hq hd hl

/-- A task's count does not wrap while it stays within its length (rule R192). -/
theorem toNat_done_add_slice {n : U16} (h : t.done.toNat + n.toNat ≤ t.len.toNat) :
    (t.done + n.setWidth 32).toNat = t.done.toNat + n.toNat := by
  have := t.len.isLt
  simp only [BitVec.toNat_add, BitVec.toNat_setWidth]
  omega

/-- ACK of a task's last slice: it leaves the queue with its status (rule R192). -/
theorem cmdAck_done (hq : s.upe.q = t :: r) (hlast : t.done.toNat + s.upe.slice.toNat = t.len.toNat) :
    cmdAck s = .next { s with
      upe := { s.upe with
        q := r, sendBlk := s.upe.sendBlk + 1, awaitAck := false, statusCode := 2, statusValid := true
        statusOverrun := s.upe.statusOverrun || s.upe.statusValid }
      finished := s.finished ++ [{ t with done := t.len }] } := by
  have hdone : t.done + s.upe.slice.setWidth 32 = t.len :=
    BitVec.eq_of_toNat_eq ((toNat_done_add_slice hlast.le).trans hlast)
  simp only [cmdAck, hq, hdone, if_true]
  rfl

/-- ACK of another slice: the task advances by it and DATA_SEND is entered (rule R192). -/
theorem cmdAck_more (hq : s.upe.q = t :: r) (hmore : t.done.toNat + s.upe.slice.toNat < t.len.toNat) :
    (t.done + s.upe.slice.setWidth 32).toNat = t.done.toNat + s.upe.slice.toNat ∧
    cmdAck s = .next { s with
      upe := { s.upe with
        q := { t with done := t.done + s.upe.slice.setWidth 32 } :: r, sendBlk := s.upe.sendBlk + 1, awaitAck := false
        st := .dataSend } } := by
  have hdone := toNat_done_add_slice hmore.le
  have hne : t.done + s.upe.slice.setWidth 32 ≠ t.len := fun he => by
    rw [he] at hdone
    omega
  refine ⟨hdone, ?_⟩
  simp only [cmdAck, hq, if_neg hne]
  rfl

variable {i : Instr}

theorem exec_ackRow (hok : s.cfg.ok) (hl : s.listening) (ha : s.upe.awaitAck = true) (hst : s.upe.st = .cmdRecv)
    (hi : i = .ack ∨ i = .uartRx s.cfg.ack) :
    exec i s = andThen (cmdAck (s.withUpe s.upe.heard)) trySend := by
  have hcmd : commandByte s.cfg.ack (s.withUpe s.upe.heard) = cmdAck (s.withUpe s.upe.heard) :=
    commandByte_ack (s := s.withUpe s.upe.heard) hok ha
  rw [exec_controlByte hi rfl, uartRx_out hl (inFrame_of_st _ (by simp [hst])), hcmd]

theorem exec_nakRow (hok : s.cfg.ok) (hl : s.listening) (ha : s.upe.awaitAck = true) (hst : s.upe.st = .cmdRecv)
    (hi : i = .nak ∨ i = .uartRx s.cfg.nak) :
    exec i s = andThen (retransmit (s.withUpe s.upe.heard)) trySend := by
  have hcmd : commandByte s.cfg.nak (s.withUpe s.upe.heard) = retransmit (s.withUpe s.upe.heard) :=
    commandByte_nak (s := s.withUpe s.upe.heard) hok ha
  rw [exec_controlByte hi rfl, uartRx_out hl (inFrame_of_st _ (by simp [hst])), hcmd]

/-- The frame in flight goes out again, as it was (rule R193). -/
theorem UpeInv.retransmits (h : UpeInv s) (ha : s.upe.awaitAck = true) (hq : s.upe.q = t :: r) :
    ∃ f, packFrameOf s.cfg s.upe.sendBlk (t.buf.readRun t.done.toNat s.upe.slice.toNat) = .ok f ∧
      retransmit s = .next { s with upe := { s.upe with tWait := 0 }, log := s.log ++ [.uartTx f] } := by
  obtain ⟨-, -, hl, hslice⟩ := h.flight ha hq
  have hle := sliceOf_le (t.len.toNat - t.done.toNat)
  have hcarried := sliceOf_carried (t.len.toNat - t.done.toNat)
  exact Machine.retransmit_sends hq (by omega) (by omega)

end

/-- Settles O3: after an ACK the engine is in CMD_RECV with the task gone, or in DATA_SEND where `try_send` cuts the next slice; a
NAK leaves it in CMD_RECV. -/
theorem ackAndNak : Obligations.AckAndNak := by
  intro s t r hok hl hinv ha hq
  obtain ⟨hst, hdir, -, -⟩ := hinv.flight ha hq
  refine ⟨fun i hi => ⟨fun hlast => ?done, fun hmore => ?more⟩, fun i hi => ?nak⟩
  case done =>
    rw [exec_ackRow hok hl ha hst hi, cmdAck_done (s := s.withUpe s.upe.heard) hq hlast]
    exact andThen_trySend_of_st (by simp [Upe.heard, hst])
  case more =>
    obtain ⟨hdone, hcmd⟩ := cmdAck_more (s := s.withUpe s.upe.heard) hq hmore
    obtain ⟨f, hf, hsend⟩ := trySend_sends_from (s := s.withUpe { s.upe.heard with
      q := { t with done := t.done + s.upe.slice.setWidth 32 } :: r, sendBlk := s.upe.sendBlk + 1, awaitAck := false
      st := .dataSend }) rfl rfl hdir hdone hmore
    rw [exec_ackRow hok hl ha hst hi, hcmd]
    refine ⟨_, f, congrArg sliceOf (Nat.sub_sub ..).symm, hf, hsend.trans ?_⟩
    simp only [State.withUpe, Upe.heard, hst, ha]
  case nak =>
    obtain ⟨f, hf, hsend⟩ := UpeInv.retransmits (s := s.withUpe s.upe.heard) hinv ha hq
    refine ⟨f, hf, ?_⟩
    rw [exec_nakRow hok hl ha hst hi, hsend]
    exact andThen_trySend_of_st (by simp [Upe.heard, hst])

/-! ## Frames (rules R180 to R185) -/

theorem wrote_writeRun (m : Memory) (a : Nat) (v : Bytes) : wrote m (m.writeRun a v) a v := Memory.read_writeRun m a v

theorem frameTotalOf_stx (c : Config) : frameTotalOf c [c.stx] = .total 1029 := by
  rw [frameTotalOf, if_pos rfl]
  rfl

theorem frameTotalOf_soh {c : Config} (hok : c.ok) : frameTotalOf c [c.soh] = .unknown := by
  rw [frameTotalOf, if_neg (soh_ne_stx hok), if_pos rfl]
  rfl

/-- Settles O5: FRAME_TOTAL of the bytes so far is not their number, so each byte is stored and counted and no more. -/
theorem frameBytesGathered : Obligations.FrameBytesGathered := by
  intro s hok hl hst
  refine ⟨fun hc => ⟨fun i hi => ⟨_, ?soh, wrote_writeRun _ _ _⟩, fun i hi => ⟨_, ?stx, wrote_writeRun _ _ _⟩⟩,
    fun b i f hinv hc hrow hf hmore => ⟨_, wrote_writeRun _ _ _, ?inside⟩⟩
  case soh =>
    rw [exec_controlByte hi rfl, uartRx_lead hl hst hc (.inl rfl) (.inl ⟨frameTotalOf_soh hok, rfl⟩)]
    rfl
  case stx =>
    rw [exec_controlByte hi rfl, uartRx_lead hl hst hc (.inr rfl) (.inr (frameTotalOf_stx s.cfg))]
    rfl
  case inside =>
    subst hf
    obtain ⟨-, hneed, hmax⟩ := hinv.frame hc
    have hlen : (s.fbuf.readRun 0 s.upe.fcnt.toNat ++ [b]).length = s.upe.fcnt.toNat + 1 := by simp
    have hlead := hinv.lead hc
    rw [← byteAt_append (b := [b]) (by simpa using hc)] at hlead
    rw [exec_byteRow hrow]
    refine uartRx_middle hl hst hc (by omega) ((frameTotalOf_need (by omega) hlead).imp_right fun htotal => ⟨htotal, ?_⟩)
    rwa [← hlen]

/-- The state in which a whole frame is handed to `complete_frame`: FBUF is `m` and FCNT and FNEED are its length (rule R180). -/
def State.gathered (s : State) (m : Memory) (n : U16) : State :=
  { s with upe := { s.upe.heard with fcnt := n, fneed := n }, fbuf := m }

section
variable {s : State} {f data : Bytes} {blk : Byte} {t : Task} {r : List Task}

/-- The byte with which FRAME_TOTAL and the count agree (rule R180). -/
theorem frameByte_last {b : Byte} (hc : s.upe.fcnt.toNat < 1029)
    (htotal : frameTotalOf s.cfg (s.fbuf.readRun 0 s.upe.fcnt.toNat ++ [b]) = .total (s.upe.fcnt.toNat + 1)) :
    frameByte b s = completeFrame (s.fbuf.readRun 0 s.upe.fcnt.toNat ++ [b]) { s with
      upe := { s.upe with
        fcnt := BitVec.ofNat 16 (s.upe.fcnt.toNat + 1), fneed := BitVec.ofNat 16 (s.upe.fcnt.toNat + 1) }
      fbuf := s.fbuf.writeRun s.upe.fcnt.toNat [b] } := by
  have hcnt : s.upe.fcnt + 1 = BitVec.ofNat 16 (s.upe.fcnt.toNat + 1) := by
    apply BitVec.eq_of_toNat_eq
    rw [BitVec.toNat_add, BitVec.toNat_ofNat]
    rfl
  rw [frameByte_eq b hc, htotal, ← hcnt]
  exact if_pos rfl

/-- The byte that completes a frame, whichever row brings it (rules R172, R180). -/
theorem exec_lastByte {b : Byte} {i : Instr} (hl : s.listening) (hinv : UpeInv s) (hc : 0 < s.upe.fcnt.toNat)
    (hrow : byteRow s.cfg b i) (hf : f = s.fbuf.readRun 0 s.upe.fcnt.toNat ++ [b])
    (htotal : frameTotalOf s.cfg f = .total f.length) :
    exec i s = andThen (completeFrame f
      (s.gathered (s.fbuf.writeRun s.upe.fcnt.toNat [b]) (BitVec.ofNat 16 f.length))) trySend := by
  obtain ⟨-, hneed, hmax⟩ := hinv.frame hc
  have hlen : f.length = s.upe.fcnt.toNat + 1 := by simp [hf]
  have hlast := frameByte_last (s := s.withUpe s.upe.heard) (b := b) (hneed.trans_le hmax)
    (by rw [hlen, hf] at htotal; exact htotal)
  rw [exec_inFrame hl hinv hc hrow, hlast, hlen, hf]
  rfl

variable {m : Memory} {n : U16} (hst : s.upe.st = .dataRecv)
include hst

/-- A frame that is refused (rules R181 to R183, R380). -/
theorem gathered_refused {e : UpeErr} (h : completeFrame f (s.gathered m n) = .next (nakFrame e (s.gathered m n))) :
    andThen (completeFrame f (s.gathered m n)) trySend = .next { s with
      upe := { s.upe.heard with fcnt := 0, fneed := 0, err := upeErrNum e }, fbuf := m
      log := s.log ++ [.uartTx [s.cfg.nak]] } := by
  rw [h, nakFrame_eq]
  exact andThen_trySend_of_st (by simp [State.gathered, Upe.heard, hst])

/-- A duplicate of the last accepted frame (rule R183). -/
theorem gathered_duplicate (hu : unpackOf s.cfg f = .ok (s.upe.lastBlk, data)) (hfresh : s.upe.fresh = false) :
    andThen (completeFrame f (s.gathered m n)) trySend = .next { s with
      upe := { s.upe.heard with fcnt := 0, fneed := 0 }, fbuf := m, log := s.log ++ [.uartTx [s.cfg.ack]] } := by
  have hne : s.upe.lastBlk ≠ s.upe.lastBlk + 1 := by bv_omega
  have hdup : blkClass (s.gathered m n).upe s.upe.lastBlk = .dup :=
    blkClass_dup (not_or.2 ⟨fun h => absurd (hfresh.symm.trans h.1) (by decide), hne⟩) ⟨hfresh, rfl⟩
  rw [completeFrame_dup (s := s.gathered m n) hu hdup]
  exact andThen_trySend_of_st (by simp [State.gathered, Upe.heard, hst])

variable (hu : unpackOf s.cfg f = .ok (blk, data)) (hnew : (s.upe.fresh = true ∧ blk = 1) ∨ blk = s.upe.lastBlk + 1)
  (hq : s.upe.q = t :: r) (hd : t.dir = .recv)
include hu hnew hq hd

/-- A good new frame, after which the head task still wants more (rule R185). -/
theorem gathered_more (hl : t.done.toNat + data.length < t.len.toNat) :
    andThen (completeFrame f (s.gathered m n)) trySend = .next { s with
      upe := { s.upe.heard with
        fcnt := 0, fneed := 0, lastBlk := blk, fresh := false
        q := { t with buf := t.buf.writeRun t.done.toNat data, done := t.done + BitVec.ofNat 32 data.length } :: r }
      fbuf := m, log := s.log ++ [.uartTx [s.cfg.ack]] } := by
  rw [completeFrame_more (s := s.gathered m n) hu (blkClass_new hnew) hq hd hl]
  exact andThen_trySend_of_st (by simp [State.gathered, Upe.heard, hst])

/-- A good new frame that fills the head task (rule R185). -/
theorem gathered_done (hl : t.done.toNat + data.length = t.len.toNat) :
    andThen (completeFrame f (s.gathered m n)) trySend = .next { s with
      upe := { s.upe.heard with
        fcnt := 0, fneed := 0, lastBlk := blk, fresh := false, q := r, statusCode := 1, statusValid := true
        statusOverrun := s.upe.statusOverrun || s.upe.statusValid }
      fbuf := m, log := s.log ++ [.uartTx [s.cfg.ack]]
      finished := s.finished ++ [{ t with buf := t.buf.writeRun t.done.toNat data, done := t.len }] } := by
  rw [completeFrame_done (s := s.gathered m n) hu (blkClass_new hnew) hq hd hl]
  exact andThen_trySend_of_st (by simp [State.gathered, Upe.heard, hst])

end

/-- Settles O6: the frame is whole with this byte; the codec, then its block number, then the head task decide on it. -/
theorem frameCompleted : Obligations.FrameCompleted := by
  intro s b i f hl hinv hc hrow hf htotal
  obtain ⟨hst, -, -⟩ := hinv.frame hc
  rw [exec_lastByte hl hinv hc hrow hf htotal]
  refine ⟨_, wrote_writeRun _ _ _, fun code hcode => ?refused, fun data hfresh hu => gathered_duplicate hst hu hfresh,
    fun blk data t r hu hnew hq hd _ => ⟨_, wrote_writeRun _ _ _, gathered_more hst hu hnew hq hd,
      gathered_done hst hu hnew hq hd⟩⟩
  case refused =>
    rcases hcode with ⟨e, hu, rfl⟩ |
      ⟨blk, data, hu, ⟨rfl, h1, hnext, hdup⟩ | ⟨rfl, hnew, hsend⟩ | ⟨rfl, hnew, t, ht, hd, hfull⟩⟩
    · exact gathered_refused hst (completeFrame_damaged hu)
    · exact gathered_refused hst (completeFrame_bad hu (blkClass_bad (not_or.2 ⟨h1, hnext⟩) hdup))
    · exact gathered_refused hst (completeFrame_noTask hu (blkClass_new hnew) hsend)
    · obtain ⟨r, hq⟩ := List.head?_eq_some_iff.1 ht
      have hle := (hinv.ready.unfinished t (by simp [hq])).le
      exact gathered_refused hst (completeFrame_overflow hu (blkClass_new hnew) hq hd hle hfull)

/-- A frame row brings the bytes of its frame, one after the other, and the frame carries its data (rules R91, R92, R133). -/
theorem exec_frameRow {s : State} {i : Instr} {blk cblk : Byte} {data frame : Bytes} {crc : U16}
    (h : (data.length ≤ 61 ∧ i = .shortFrame blk cblk data crc ∧ frame = shortFrameBytes s.cfg blk cblk data crc) ∨
      (data.length = 1024 ∧ i = .longFrame blk cblk data crc ∧ frame = longFrameBytes s.cfg blk cblk data crc)) :
    Carried data ∧ frame = frameBytes s.cfg blk cblk data crc ∧ exec i s = uartRxs frame s := by
  rcases h with ⟨hlen, rfl, rfl⟩ | ⟨hlen, rfl, rfl⟩
  · exact ⟨.inl hlen, (frameBytes_of_short blk cblk crc (by omega)).symm, rfl⟩
  · exact ⟨.inr hlen, (frameBytes_of_long blk cblk crc hlen).symm, rfl⟩

/-- Settles O7: the bytes are gathered one by one (`uartRxs_frame`), and the whole frame is a packed one, so it unpacks to its
data. -/
theorem framesAccepted : Obligations.FramesAccepted := by
  intro s i blk data frame t r hok hl hinv hst hc hframe hnew hq hd _
  obtain ⟨hcarried, hbytes, hexec⟩ := exec_frameRow hframe
  have hu : unpackOf s.cfg frame = .ok (blk, data) :=
    unpackOf_of_packFrameOf blk hok ((packFrameOf_eq_ok_iff blk).2 ⟨hcarried, hbytes⟩)
  have htotal : frameTotalOf s.cfg frame = .total frame.length := by
    rw [hbytes]
    exact frameTotalOf_frameBytes blk _ _ hok hcarried
  obtain ⟨m, hm, hgather⟩ := uartRxs_frame hl hst hc htotal
  have hfcnt : s.upe.heard.fcnt = 0 := hc
  rw [hexec, hgather]
  refine ⟨m, _, hm, wrote_writeRun _ _ _, fun hlt => ?more, fun heq => ?done⟩
  case more =>
    rw [← State.gathered, gathered_more hst hu hnew hq hd hlt]
    simp only [hfcnt]
  case done =>
    rw [← State.gathered, gathered_done hst hu hnew hq hd heq]
    simp only [hfcnt]

/-! ## Ticks (rules R195 to R198) -/

theorem past_eq_true {v : U32} {n : Nat} : past v n = true ↔ n < v.toNat := decide_eq_true_iff

/-- A frame that has stalled is given up (rule R196). -/
theorem frameWatchdog_eq (s : State) : frameWatchdog s = { s with
    upe := { s.upe with err := 6, fcnt := 0, fneed := 0, tByte := 0 }, log := s.log ++ [.uartTx [s.cfg.nak]] } := by
  simp only [frameWatchdog, frameReset, raiseUpe, upeErrNum, tx, State.withUpe, State.act]

/-- Total silence aborts the engine (rule R198). -/
theorem sessionTimeout_eq (s : State) : sessionTimeout s = { s with upe := { s.upe with err := 8, abort := true } } := rfl

/-- The frame watchdog where it looks (rules R195, R196). -/
def frameTimer (s : State) : State :=
  if s.upe.st = .dataRecv ∧ s.upe.fcnt ≠ 0 ∧ past s.upe.tByte s.cfg.tFrame = true then frameWatchdog s else s

/-- The ACK timeout where it looks (rules R195, R197). -/
def ackTimer (s : State) : Result :=
  if s.upe.awaitAck = true ∧ past s.upe.tWait s.cfg.tAck = true then retransmit (raiseUpe .timeoutAck s) else .next s

section
variable {s : State}

/-- The three timers of a tick, in their order (rules R195, R375). -/
theorem tickOp_of_listening (hl : s.listening) : tickOp s =
    if past s.upe.ticked.tSess s.cfg.tSession = true then .next (releaseWriter (sessionTimeout (s.withUpe s.upe.ticked)))
    else andThen (ackTimer (frameTimer (s.withUpe s.upe.ticked))) trySend := by
  rw [← tickCounters_eq, tickOp, if_neg (by simp [upeMasked_of_listening hl])]
  rfl

theorem exec_tick_expired (hl : s.listening) (h : s.cfg.tSession < s.upe.ticked.tSess.toNat) :
    exec .tick s = .next (releaseWriter (sessionTimeout (s.withUpe s.upe.ticked))) :=
  (tickOp_of_listening hl).trans (if_pos (past_eq_true.2 h))

theorem exec_tick_going_on (hl : s.listening) (h : s.upe.ticked.tSess.toNat ≤ s.cfg.tSession) :
    exec .tick s = andThen (ackTimer (frameTimer (s.withUpe s.upe.ticked))) trySend :=
  (tickOp_of_listening hl).trans (if_neg (mt past_eq_true.1 (not_lt.2 h)))

theorem frameTimer_of_not (h : ¬ (s.upe.st = .dataRecv ∧ s.upe.fcnt ≠ 0 ∧ s.cfg.tFrame < s.upe.tByte.toNat)) :
    frameTimer s = s := if_neg (by rwa [past_eq_true])

theorem ackTimer_of_not (h : ¬ (s.upe.awaitAck = true ∧ s.cfg.tAck < s.upe.tWait.toNat)) : ackTimer s = .next s :=
  if_neg (by rwa [past_eq_true])

end

/-- Settles O10: at most one of the timers acts, since no frame is in flight while one is gathered. -/
theorem tickTimers : Obligations.TickTimers := by
  intro s hl hinv
  have hticked : UpeInv (s.withUpe s.upe.ticked) := hinv
  refine ⟨fun hsess hframe hack => ?counts, fun hsess n rest hnext => ?aborts, fun hsess hst hc hframe => ?watchdog,
    fun t r hsess ha hq hack => ?resends⟩
  case counts =>
    have hno : frameTimer (s.withUpe s.upe.ticked) = s.withUpe s.upe.ticked :=
      frameTimer_of_not fun ⟨hst, hc, hlate⟩ => absurd (hframe hst hc) (not_le.2 hlate)
    have hna : ackTimer (s.withUpe s.upe.ticked) = .next (s.withUpe s.upe.ticked) :=
      ackTimer_of_not fun ⟨ha, hlate⟩ => absurd (hack ha) (not_le.2 hlate)
    rw [exec_tick_going_on hl hsess, hno, hna]
    exact andThen_trySend_of_quiet (upeInv_iff.1 hticked).2
  case aborts =>
    rw [exec_tick_expired hl hsess, releaseWriter_eq (s := sessionTimeout (s.withUpe s.upe.ticked)) hnext, sessionTimeout_eq]
    rfl
  case watchdog =>
    have hgiven : frameTimer (s.withUpe s.upe.ticked) = frameWatchdog (s.withUpe s.upe.ticked) :=
      if_pos ⟨hst, hc, past_eq_true.2 hframe⟩
    have ha : (frameWatchdog (s.withUpe s.upe.ticked)).upe.awaitAck = false := by
      rw [frameWatchdog_eq]
      exact hinv.ready.notInFlight (by simp [hst])
    have hna := ackTimer_of_not (s := frameWatchdog (s.withUpe s.upe.ticked)) (by simp [ha])
    rw [exec_tick_going_on hl hsess, hgiven, hna, andThen_trySend_of_quiet (upeInv_iff.1 (frameWatchdog_inv hticked)).2,
      frameWatchdog_eq]
    rfl
  case resends =>
    obtain ⟨hst, -, -, -⟩ := hinv.flight ha hq
    have hno : frameTimer (s.withUpe s.upe.ticked) = s.withUpe s.upe.ticked :=
      frameTimer_of_not fun h => absurd (hst.symm.trans h.1) (by decide)
    have hlate : ackTimer (s.withUpe s.upe.ticked) = retransmit (raiseUpe .timeoutAck (s.withUpe s.upe.ticked)) :=
      if_pos ⟨ha, past_eq_true.2 hack⟩
    obtain ⟨f, hf, hsend⟩ := UpeInv.retransmits (s := raiseUpe .timeoutAck (s.withUpe s.upe.ticked)) hinv ha hq
    refine ⟨f, hf, ?_⟩
    rw [exec_tick_going_on hl hsess, hno, hlate, hsend]
    exact andThen_trySend_of_st (by simp [raiseUpe, Upe.ticked, hst])

/-! ## Tasks (rules R173, R174) -/

theorem exec_startRead (s : State) (len : U32) : exec (.startRead len) s = startTask ⟨.recv, len, 0, []⟩ s := rfl

theorem exec_startWrite (s : State) (data : Bytes) :
    exec (.startWrite data) s = startTask ⟨.send, BitVec.ofNat 32 data.length, 0, Memory.ofBytes data⟩ s := rfl

section
variable {s : State} {t : Task}

theorem startTask_masked (hl : ¬ s.listening) : startTask t s = .next (s.withRet (.code 1)) := by
  rw [startTask, if_pos (upeMasked_of_deaf hl)]
  rfl

variable (hl : s.listening)
include hl

theorem startTask_of_listening : startTask t s = if t.len = 0 then .next (s.withRet (.code 2))
    else if s.upe.q.length = s.cfg.qCap then .next (s.withRet (.code 3))
    else andThen (trySend (s.withUpe { s.upe with q := s.upe.q ++ [t] })) (fun u => .next (u.withRet (.code 0))) := by
  rw [startTask, if_neg (by simp [upeMasked_of_listening hl])]
  rfl

theorem startTask_empty (hlen : t.len = 0) : startTask t s = .next (s.withRet (.code 2)) := by
  rw [startTask_of_listening hl, if_pos hlen]

theorem startTask_full (hlen : t.len ≠ 0) (hfull : s.upe.q.length = s.cfg.qCap) :
    startTask t s = .next (s.withRet (.code 3)) := by
  rw [startTask_of_listening hl, if_neg hlen, if_pos hfull]

theorem startTask_room (hlen : t.len ≠ 0) (hroom : s.upe.q.length < s.cfg.qCap) :
    startTask t s = andThen (trySend (s.withUpe { s.upe with q := s.upe.q ++ [t] }))
      (fun u => .next (u.withRet (.code 0))) := by
  rw [startTask_of_listening hl, if_neg hlen, if_neg hroom.ne]

omit hl in
/-- A new task is due to be sent only if it is the head, in DATA_SEND, and a send task (rule R186). -/
theorem quiet_append (hquiet : s.quiet) (h : s.upe.st ≠ .dataSend ∨ s.upe.q ≠ [] ∨ t.dir = .recv) :
    (s.withUpe { s.upe with q := s.upe.q ++ [t] }).quiet := by
  by_cases hst : s.upe.st = .dataSend
  · cases hq : s.upe.q with
    | nil =>
      have hd : t.dir = .recv := (h.resolve_left (not_not_intro hst)).resolve_left (not_not_intro hq)
      simp [State.quiet, sendReady, hd]
    | cons x r => simpa [State.quiet, sendReady, hq] using hquiet
  · exact quiet_of_st hst

theorem startTask_queued (hlen : t.len ≠ 0) (hroom : s.upe.q.length < s.cfg.qCap) (hquiet : s.quiet)
    (h : s.upe.st ≠ .dataSend ∨ s.upe.q ≠ [] ∨ t.dir = .recv) :
    startTask t s = .next { s with upe := { s.upe with q := s.upe.q ++ [t] }, ret := some (.code 0) } := by
  rw [startTask_room hl hlen hroom, trySend_quiet (quiet_append hquiet h)]
  rfl

/-- A write task that finds DATA_SEND and no other task sends its first slice at once (rules R174, R186). -/
theorem startTask_sends (hlen : t.len ≠ 0) (hroom : s.upe.q.length < s.cfg.qCap) (hst : s.upe.st = .dataSend)
    (hq : s.upe.q = []) (hd : t.dir = .send) (hdone : t.done = 0) :
    ∃ f, packFrameOf s.cfg s.upe.sendBlk (t.buf.readRun 0 (sliceOf t.len.toNat)) = .ok f ∧
      startTask t s = .next { s with
        upe := { s.upe with
          q := [t], st := .cmdRecv, awaitAck := true, tWait := 0, slice := BitVec.ofNat 16 (sliceOf t.len.toNat) }
        log := s.log ++ [.uartTx f], ret := some (.code 0) } := by
  have hpos : 0 < t.len.toNat := Nat.pos_of_ne_zero fun h0 => hlen (BitVec.eq_of_toNat_eq h0)
  obtain ⟨f, hf, hsend⟩ := trySend_sends_from (s := s.withUpe { s.upe with q := [t] }) hst rfl hd
    (congrArg BitVec.toNat hdone) hpos
  refine ⟨f, hf, ?_⟩
  rw [startTask_room hl hlen hroom, hq, List.nil_append, hsend]
  rfl

end

/-- The length field of a task tells an empty string from another (rule R174). -/
theorem ofNat_length_eq_zero_iff {data : Bytes} (h : data.length < 2 ^ 32) : BitVec.ofNat 32 data.length = 0 ↔ data = [] := by
  rw [← List.length_eq_zero_iff, ← BitVec.toNat_inj, BitVec.toNat_ofNat, Nat.mod_eq_of_lt h]
  rfl

/-- Settles O12: the return codes in their order, and `try_send` with the new task at the end of the queue. -/
theorem tasksEnqueued : Obligations.TasksEnqueued := by
  intro s len data hdata
  have hzero := ofNat_length_eq_zero_iff hdata
  rw [exec_startRead, exec_startWrite]
  refine ⟨startTask_masked, fun hl hlen => startTask_empty hl hlen,
    fun hl hlen hfull => startTask_full hl hlen hfull, fun hl hlen hroom hquiet => ⟨[], ?read⟩, startTask_masked,
    fun hl hempty => startTask_empty hl (hzero.2 hempty), fun hl hne => startTask_full hl (mt hzero.1 hne),
    fun hl hne hroom => ⟨Memory.ofBytes data, wrote_writeRun [] 0 data, fun hquiet hother => ?queued, fun hst hq => ?sent⟩⟩
  case read => exact startTask_queued hl hlen hroom hquiet (.inr (.inr rfl))
  case queued => exact startTask_queued hl (mt hzero.1 hne) hroom hquiet (hother.imp_right .inl)
  case sent =>
    have hlen : (BitVec.ofNat 32 data.length).toNat = data.length := by rw [BitVec.toNat_ofNat, Nat.mod_eq_of_lt hdata]
    obtain ⟨f, hf, hsend⟩ := startTask_sends (t := ⟨.send, BitVec.ofNat 32 data.length, 0, Memory.ofBytes data⟩)
      hl (mt hzero.1 hne) hroom hst hq rfl rfl
    simp only [hlen] at hf hsend
    rw [Memory.readRun_ofBytes data 0 _ (by simpa using sliceOf_le data.length), List.drop_zero] at hf
    exact ⟨f, hf, hsend⟩

/-! ## The engine and its status slot (rules R175, R176, R199, R200) -/

/-- Settles O11: UPE.INIT looks at nothing of the old engine; the gate decides about UPE.DEINIT. -/
theorem upeStartsAndStops : Obligations.UpeStartsAndStops := by
  refine fun s => ⟨rfl, fun hl => ?running, fun hl => ?masked⟩
  case running => exact if_neg (by simp [upeMasked_of_listening hl])
  case masked => exact if_pos (upeMasked_of_deaf hl)

/-- Settles O13: posting does not look at the slot, and reading goes by its valid bit. -/
theorem statusSlot : Obligations.StatusSlot := by
  refine fun s code => ⟨rfl, fun hvalid => ?posted, fun hnone => ?none⟩
  case posted => exact if_pos hvalid
  case none => exact if_neg (by simp [hnone])

end Sys2Proof.Machine
end

section
/-! PROOFS. The USB engine as an observer sees it: what comes of each completion and of a bus reset (rules R235 to R249). -/

namespace Sys2Proof.Machine

/-! ## Which completion goes where (rules R230, R248) -/

section
variable {s : State} (hrun : s.ute.run = true)
include hrun

theorem outDone_readCbw (hst : s.ute.stage = .readCbw) (b : Bytes) : outDone b s = outReadCbw b s := by
  rw [outDone, if_pos hrun, hst]

theorem outDone_dataOut (hst : s.ute.stage = .dataOut ∨ s.ute.stage = .dataOutBuf) (b : Bytes) :
    outDone b s = outData b s := by
  rcases hst with hst | hst <;> rw [outDone, if_pos hrun, hst]

theorem outDone_ignored (hst : s.ute.stage = .dataIn ∨ s.ute.stage = .dataInBuf ∨ s.ute.stage = .waitCsw) (b : Bytes) :
    outDone b s = .next s := by
  rcases hst with hst | hst | hst <;> rw [outDone, if_pos hrun, hst]

theorem inDone_dataIn (hst : s.ute.stage = .dataIn ∨ s.ute.stage = .dataInBuf) (n : U32) : inDone n s = inData n s := by
  rcases hst with hst | hst <;> rw [inDone, if_pos hrun, hst]

theorem inDone_waitCsw (hst : s.ute.stage = .waitCsw) (n : U32) : inDone n s = .next (inWaitCsw s) := by
  rw [inDone, if_pos hrun, hst]

theorem inDone_ignored (hst : s.ute.stage = .readCbw ∨ s.ute.stage = .dataOut ∨ s.ute.stage = .dataOutBuf) (n : U32) :
    inDone n s = .next s := by
  rcases hst with hst | hst | hst <;> rw [inDone, if_pos hrun, hst]

end

/-! ## Packets and tasks of a data phase (rules R239, R242, R243) -/

/-- How many bytes the next packet of the task moves (rules R239, R243). -/
def Ute.nextLen (u : Ute) (c : Config) : Nat := min (u.taskXfer.toNat - u.taskDone.toNat) c.epMps

/-- The engine in another stage. -/
def State.inStage (s : State) (g : Stage) : State := { s with ute := { s.ute with stage := g } }

section
variable {s : State}

theorem nextPacket_eq (h : s.ute.taskDone.toNat ≤ s.ute.taskXfer.toNat) :
    nextPacket s.cfg s.ute = BitVec.ofNat 32 (s.ute.nextLen s.cfg) := by
  rw [nextPacket, sub_toNat h, Ute.nextLen]

theorem toNat_nextPacket (h : s.ute.taskDone.toNat ≤ s.ute.taskXfer.toNat) :
    (nextPacket s.cfg s.ute).toNat = s.ute.nextLen s.cfg := by
  have hlt := s.ute.taskXfer.isLt
  rw [nextPacket_eq h, BitVec.toNat_ofNat, Nat.mod_eq_of_lt (by unfold Ute.nextLen; omega)]

theorem armOutPacket_eq (h : s.ute.taskDone.toNat ≤ s.ute.taskXfer.toNat) : armOutPacket s = { s with
    ute := { s.ute with pktXfer := BitVec.ofNat 32 (s.ute.nextLen s.cfg), pktDone := 0 }
    log := s.log ++ [.epRecv (s.ute.nextLen s.cfg)] } := by
  rw [armOutPacket, toNat_nextPacket h, nextPacket_eq h]
  rfl

/-- The next task begins with its first packet armed (rule R239). -/
theorem startOutTask_eq (s : State) : startOutTask s = { s with
    ute := { s.ute with
      taskXfer := BitVec.ofNat 32 (min s.ute.remain.toNat s.cfg.pktBufSize), taskDone := 0
      pktXfer := BitVec.ofNat 32 (min (min s.ute.remain.toNat s.cfg.pktBufSize) s.cfg.epMps), pktDone := 0 }
    log := s.log ++ [.epRecv (min (min s.ute.remain.toNat s.cfg.pktBufSize) s.cfg.epMps)] } := by
  have hlt := s.ute.remain.isLt
  have hlen : (nextTask s).ute.nextLen s.cfg = min (min s.ute.remain.toNat s.cfg.pktBufSize) s.cfg.epMps := by
    simp only [Ute.nextLen, nextTask, State.withUte_ute, BitVec.toNat_ofNat]
    rw [Nat.mod_eq_of_lt (by omega)]
    rfl
  rw [startOutTask, armOutPacket_eq (Nat.zero_le _)]
  simp only [nextTask, State.withUte_cfg] at hlen ⊢
  rw [hlen]
  rfl

/-- The next packet of a task in the packet buffer is submitted (rule R243). -/
theorem submitInPacket_eq (h : s.ute.taskDone.toNat ≤ s.ute.taskXfer.toNat) (hbuf : s.ute.taskXfer.toNat ≤ s.cfg.pktBufSize) :
    submitInPacket s = .next { s with
      ute := { s.ute with pktXfer := BitVec.ofNat 32 (s.ute.nextLen s.cfg), pktDone := 0 }
      log := s.log ++ [.epSend (s.pktbuf.readRun s.ute.taskDone.toNat (s.ute.nextLen s.cfg))] } := by
  have hfits : s.ute.taskDone.toNat + s.ute.nextLen s.cfg ≤ s.cfg.pktBufSize := by unfold Ute.nextLen; omega
  simp only [submitInPacket, readBuf, toNat_nextPacket h]
  rw [if_pos hfits, nextPacket_eq h]
  rfl

end

/-- What a packet of `k` bytes finds in a data phase when no more than that were armed or submitted (rules R239, R243, R250). -/
structure PacketFits (s : State) (k : Nat) : Prop where
  packet : k ≤ s.ute.pktXfer.toNat
  task : s.ute.taskDone.toNat + k ≤ s.ute.taskXfer.toNat
  buffer : s.ute.taskXfer.toNat ≤ s.cfg.pktBufSize
  phase : k ≤ s.ute.remain.toNat

section
variable {s : State} {k : Nat}

theorem UteInv.packetFits (h : UteInv s)
    (hst : (s.ute.stage = .dataOut ∨ s.ute.stage = .dataOutBuf) ∨ (s.ute.stage = .dataIn ∨ s.ute.stage = .dataInBuf))
    (hk : k ≤ s.ute.pktXfer.toNat) : PacketFits s k := by
  obtain ⟨-, -, -, -, hout, hin⟩ := h
  obtain ⟨hpkt, hremain, hbuf⟩ := hst.elim (fun h => (hout h).2) (fun h => (hin h).2)
  exact ⟨hk, by omega, hbuf, by omega⟩

variable (hfit : PacketFits s k)
include hfit

theorem PacketFits.toNat_ofNat : (BitVec.ofNat 32 k).toNat = k := by
  rw [BitVec.toNat_ofNat, Nat.mod_eq_of_lt (hfit.phase.trans_lt s.ute.remain.isLt)]

variable {n : U32} (hn : n.toNat = k)
include hn

theorem PacketFits.toNat_taskDone : (s.ute.taskDone + n).toNat = s.ute.taskDone.toNat + k := by
  subst hn
  exact BitVec.toNat_add_of_lt (hfit.task.trans_lt s.ute.taskXfer.isLt)

theorem PacketFits.taskDone_le : (s.ute.taskDone + n).toNat ≤ s.ute.taskXfer.toNat :=
  (hfit.toNat_taskDone hn).trans_le hfit.task

theorem PacketFits.toNat_remain : (s.ute.remain - n).toNat = s.ute.remain.toNat - k := by
  subst hn
  exact sub_toNat hfit.phase

theorem PacketFits.taskFull_iff : s.ute.taskDone + n = s.ute.taskXfer ↔ s.ute.taskDone.toNat + k = s.ute.taskXfer.toNat := by
  rw [← BitVec.toNat_inj, hfit.toNat_taskDone hn]

theorem PacketFits.phaseOver_iff : s.ute.remain - n = 0 ↔ k = s.ute.remain.toNat := by
  have hle := hfit.phase
  rw [← BitVec.toNat_inj, hfit.toNat_remain hn]
  exact Nat.sub_eq_zero_iff_le.trans ⟨le_antisymm hle, Eq.ge⟩

end

/-! ## A packet of a data-out phase (rules R240, R241) -/

section
variable {s : State} {b : Bytes}

theorem outData_tooLong (h : s.ute.pktXfer.toNat < b.length) : outData b s = .refused .outTooLong := if_pos h

@[simp] theorem forwarded_cfg (s : State) : s.forwarded.cfg = s.cfg := by
  unfold State.forwarded
  split <;> rfl

/-- Forwarding a task moves none of the bytes that are still to come (rule R241). -/
@[simp] theorem forwarded_remain (s : State) : s.forwarded.ute.remain = s.ute.remain := by
  unfold State.forwarded
  split <;> rfl

/-- The three outcomes of a packet: the next packet, the next task, the status phase (rule R240). -/
theorem outData_of_fits (hfit : PacketFits s b.length) {t : State}
    (ht : t = s.received (s.pktbuf.writeRun s.ute.taskDone.toNat b) b) :
    outData b s =
      if s.ute.taskDone.toNat + b.length = s.ute.taskXfer.toNat ∨ b.length < s.ute.pktXfer.toNat then
        if b.length = s.ute.remain.toNat ∨ b.length < s.ute.pktXfer.toNat then .next t.forwarded.statusPhase
        else .next (startOutTask (t.forwarded.inStage .dataOutBuf))
      else .next (armOutPacket (t.inStage .dataOutBuf)) := by
  have hfits : s.ute.taskDone.toNat + b.length ≤ s.cfg.pktBufSize := hfit.task.trans hfit.buffer
  have hdone : t.ute.taskDone.toNat ≤ t.cfg.pktBufSize := by
    subst ht
    exact (hfit.taskDone_le hfit.toNat_ofNat).trans hfit.buffer
  have hfull : t.ute.taskDone = s.ute.taskXfer ↔ s.ute.taskDone.toNat + b.length = s.ute.taskXfer.toNat := by
    subst ht
    exact hfit.taskFull_iff hfit.toNat_ofNat
  have hover : t.forwarded.ute.remain = 0 ↔ b.length = s.ute.remain.toNat := by
    rw [forwarded_remain, ht]
    exact hfit.phaseOver_iff hfit.toNat_ofNat
  rw [outData_eq hfit.packet hfits, ← ht, forwardTask_eq _ hdone]
  simp only [withVal, hfull, hover]
  rfl

end

/-- Settles O19: the tests of the two counters after the packet are tests of its length before it. -/
theorem dataOutTaken : Obligations.DataOutTaken := by
  intro s b i _ hrun hinv hst hrow
  rw [exec_outRow hrow, outDone_dataOut hrun hst]
  refine ⟨outData_tooLong, fun hb => ⟨_, wrote_writeRun _ _ _, ?_⟩⟩
  have hfit := hinv.packetFits (.inl hst) hb
  have hlen := hfit.toNat_ofNat
  rw [outData_of_fits hfit rfl]
  generalize s.pktbuf.writeRun s.ute.taskDone.toNat b = m
  rintro f rfl
  refine ⟨fun hwhole hmore => ?nextPacket, fun hwhole hfull hmore => ?nextTask, fun hlast => ?status⟩
  case nextPacket =>
    rw [if_neg (by omega), armOutPacket_eq (s := (s.received m b).inStage .dataOutBuf) (hfit.taskDone_le hlen)]
    simp only [Ute.nextLen, State.inStage, State.received, hfit.toNat_taskDone hlen]
  case nextTask =>
    rw [if_pos (.inl hfull), if_neg (by omega), startOutTask_eq]
    simp only [State.inStage, forwarded_remain, forwarded_cfg, State.received, hfit.toNat_remain hlen]
  case status =>
    rw [if_pos (by omega), if_pos (by omega)]

/-! ## A completion of a data-in phase (rule R244) -/

/-- The registers once the host has had `n` bytes of the packet (rule R244). -/
def State.delivered (s : State) (n : U32) : State := { s with ute := { s.ute with
  pktDone := n, taskDone := s.ute.taskDone + n, remain := s.ute.remain - n, moved := s.ute.moved + n } }

section
variable {s : State} {n : U32}

theorem inData_tooLong (h : s.ute.pktXfer.toNat < n.toNat) : inData n s = .refused .inTooLong := if_pos h

/-- The three outcomes of a completion: the next packet, the next task, the status phase (rule R244). -/
theorem inData_of_fits (hfit : PacketFits s n.toNat) :
    inData n s =
      if s.ute.taskDone.toNat + n.toNat = s.ute.taskXfer.toNat then
        if n.toNat = s.ute.remain.toNat then .next (s.delivered n).statusPhase
        else startInTask ((s.delivered n).inStage .dataInBuf)
      else submitInPacket ((s.delivered n).inStage .dataInBuf) := by
  rw [inData, if_neg (not_lt.2 hfit.packet)]
  simp only [← hfit.taskFull_iff rfl, ← hfit.phaseOver_iff rfl, sendCsw_eq]
  rfl

end

/-- Settles O20: the tests of the two counters after the completion are tests of its count before it. -/
theorem dataInSent : Obligations.DataInSent := by
  intro s n i s1 _ hrun hinv hst hrow
  rw [exec_inRow hrow, inDone_dataIn hrun hst]
  refine ⟨inData_tooLong, fun hn hs1 => ?_⟩
  obtain rfl : s1 = s.delivered n := hs1
  have hfit := hinv.packetFits (.inr hst) hn
  rw [inData_of_fits hfit]
  refine ⟨fun hmore k hk => ?nextPacket, fun hsent hmore => ⟨_, wrote_writeRun _ _ _, ?nextTask⟩, fun hsent hlast => ?status⟩
  case nextPacket =>
    rw [if_neg hmore.ne, submitInPacket_eq (s := (s.delivered n).inStage .dataInBuf)
      (hfit.taskDone_le rfl) hfit.buffer, hk]
    simp only [Ute.nextLen, State.inStage, State.delivered, hfit.toNat_taskDone rfl]
  case nextTask =>
    rw [if_pos hsent, if_neg hmore.ne, startInTask_eq]
    rfl
  case status => rw [if_pos hsent, if_pos hlast]

/-! ## Starting, and a malformed CBW (rules R235, R237, R249) -/

/-- Settles O14: UTE.INIT looks at nothing of the old engine, and the gate lets the bus reset through. -/
theorem uteStarts : Obligations.UteStarts := by
  rintro s i (rfl | ⟨rfl, hrun⟩)
  case inl => rfl
  case inr =>
    have hreset : usbResetOp s = uteInitOp s := if_pos hrun
    exact congrArg Host.Outcome.next hreset

/-- With a phase error the dispatcher is not asked (rule R246). -/
theorem statusPhase_of_phaseErr {s : State} (h : s.ute.phaseErr = true) : s.statusPhase = { s with
    ute := { s.ute with stage := .waitCsw, csw := cswBytes s.ute.tag (s.ute.dlen - s.ute.moved) 2 }
    log := s.log ++ [.epSend (cswBytes s.ute.tag (s.ute.dlen - s.ute.moved) 2)] } := by
  simp only [State.statusPhase, h, if_true]

theorem malformedCbw_eq {s : State} (hmoved : s.ute.moved = 0) : malformedCbw s = { s with
    ute := { s.ute with
      err := 1, phaseErr := true, stage := .waitCsw, csw := cswBytes s.ute.tag s.ute.dlen 2 }
    log := s.log ++ [.epSend (cswBytes s.ute.tag s.ute.dlen 2)] } := by
  have hresidue : s.ute.dlen - s.ute.moved = s.ute.dlen := by rw [hmoved]; exact BitVec.sub_zero _
  rw [malformedCbw, sendCsw_eq, statusPhase_of_phaseErr rfl, ← hresidue]
  rfl

theorem cbwPaired_iff {c : Config} {cmd : Byte} {d : Bool} :
    cbwPaired c cmd d = true ↔ (cmd = c.usbCmdWrite ∧ d = false) ∨ (cmd = c.usbCmdRead ∧ d = true) := by
  simp [cbwPaired]

section
variable {s : State} {b : Bytes}

/-- A wrong length or signature: the old CBW stays, and nothing counts as declared (rule R236). -/
theorem outReadCbw_badForm (h : b.length ≠ Config.cbwLen ∨ le32 b 0 ≠ Config.cbwSig) :
    outReadCbw b s = .next (malformedCbw (s.withUte { cbwStart b s.ute with dlen := 0 })) := if_pos h

/-- A command that does not go with the direction: the fields of the new CBW stand (rule R236). -/
theorem outReadCbw_unpaired (hlen : b.length = Config.cbwLen) (hsig : le32 b 0 = Config.cbwSig)
    (hp : ¬ cbwPaired s.cfg (byteAt b 15) (bit7 (byteAt b 12)) = true) :
    outReadCbw b s = .next (malformedCbw (s.withUte (cbwFields b (cbwStart b s.ute)))) :=
  (if_neg (not_or.2 ⟨not_not_intro hlen, not_not_intro hsig⟩)).trans (if_neg hp)

end

/-- Settles O18: either way `DLEN` is the residue, since nothing has been moved. -/
theorem cbwMalformed : Obligations.CbwMalformed := by
  intro s b i hrun hst hrow
  rw [exec_outRow hrow, outDone_readCbw hrun hst]
  refine ⟨fun hbad tag htag => ?signature, fun hlen hsig hwrite hread => ?pairing⟩
  case signature =>
    rw [outReadCbw_badForm hbad, malformedCbw_eq rfl, htag]
    rfl
  case pairing =>
    have htag : (if 8 ≤ b.length then le32 b 4 else 0) = le32 b 4 := if_pos (by omega)
    rw [outReadCbw_unpaired hlen hsig (mt cbwPaired_iff.1 (not_or.2 ⟨hwrite, hread⟩)), malformedCbw_eq rfl]
    simp only [State.withUte_ute, cbwFields, cbwStart, htag]
    rfl

/-- Settles O21: the stage decides, whatever row the completion was written as. -/
theorem cswGone : Obligations.CswGone := by
  refine fun s i hrun => ⟨fun n hrow => ⟨fun hst => ?gone, fun hst => ?inIgnored⟩, fun b hrow hst => ?outIgnored⟩
  case gone =>
    rw [exec_inRow hrow, inDone_waitCsw hrun hst]
    rfl
  case inIgnored => rw [exec_inRow hrow, inDone_ignored hrun hst]
  case outIgnored => rw [exec_outRow hrow, outDone_ignored hrun hst]

end Sys2Proof.Machine
end

section
/-! PROOFS. The device calls, a session opened and closed, and what it reports. -/

namespace Sys2Proof.Machine

/-! ## The device calls (rules R67, R69, R305, R310) -/

theorem stored_of_ok {ok : Bool} {v : Bytes} {call a : Nat} (h : ok = true) : stored ok v call a = v := if_pos h

/-- `DEV.READ`: the stored bytes stand behind those that the answer gives (rules R69, R301; log 3). -/
theorem devReadCall_eq {s : State} {a : Option Bytes} {rest : List (Option Bytes)} (blk n : Nat)
    (h : nextAnswer s.ans.read (Config.freeRead s.asked) = (a, rest)) {d : Option Bytes}
    (hd : d = a.map fun o => o.take (n * s.ssw.bs.toNat) ++
      (s.store.readRun (blk * s.ssw.bs.toNat) (n * s.ssw.bs.toNat)).drop o.length) :
    devReadCall blk n s = (d, { s with
      ans := { s.ans with read := rest }, asked := s.asked + 1, log := s.log ++ [.devRead blk n d] }) := by
  subst hd
  simp only [devReadCall, h]
  rfl

section
variable {s : State} {ok : Bool} {rest : List Bool}

theorem exec_devWrite_blocks (hans : nextAnswer s.ans.writeOk (Config.freeWriteOk s.asked) = (ok, rest)) (blk : U32)
    {data : Bytes} (hne : data ≠ []) (hbs : s.ssw.bs ≠ 0) (hmod : data.length % s.ssw.bs.toNat = 0) :
    exec (.devWrite blk data) s = .next { s with
      store := s.store.writeRun (blk.toNat * s.ssw.bs.toNat) (stored ok data s.asked (blk.toNat * s.ssw.bs.toNat))
      ans := { s.ans with writeOk := rest }, asked := s.asked + 1
      log := s.log ++ [.devWrite blk.toNat data ok], ret := some (.answer (.devWrite blk.toNat data ok)) } := by
  have hrow : exec (.devWrite blk data) s = .next (retLast (devWriteCall blk.toNat data s).2) :=
    if_pos ⟨mt List.length_eq_zero_iff.1 hne, hbs, hmod⟩
  rw [hrow, devWriteCall_eq _ _ hans, retLast_of_log rfl]
  rfl

/-- What is no positive number of whole blocks leaves anything in the blocks it touches (log 35). -/
theorem exec_devWrite_odd (hans : nextAnswer s.ans.writeOk (Config.freeWriteOk s.asked) = (ok, rest)) (blk : U32)
    {data : Bytes} (hodd : data = [] ∨ s.ssw.bs = 0 ∨ data.length % s.ssw.bs.toNat ≠ 0) :
    ∃ v : Bytes, v.length = touched data.length s.ssw.bs.toNat ∧ exec (.devWrite blk data) s = .next { s with
      store := s.store.writeRun (blk.toNat * s.ssw.bs.toNat) v
      ans := { s.ans with writeOk := rest }, asked := s.asked + 1
      log := s.log ++ [.devWrite blk.toNat data ok], ret := some (.answer (.devWrite blk.toNat data ok)) } := by
  obtain ⟨v, hv, hcall⟩ := devWriteOdd_eq blk.toNat data hans
  have hrow : exec (.devWrite blk data) s = .next (retLast (devWriteOdd blk.toNat data s).2) := by
    refine if_neg ?_
    rintro ⟨hne, hbs, hmod⟩
    rcases hodd with h | h | h
    · exact hne (by simp [h])
    · exact hbs h
    · exact h hmod
  refine ⟨v, hv, ?_⟩
  rw [hrow, hcall, retLast_of_log rfl]
  rfl

theorem exec_devErase (hans : nextAnswer s.ans.eraseOk (Config.freeEraseOk s.asked) = (ok, rest)) (blk n : U32) :
    exec (.devErase blk n) s = .next { s with
      store := s.store.writeRun (blk.toNat * s.ssw.bs.toNat)
        (stored ok (List.replicate (n.toNat * s.ssw.bs.toNat) 0) s.asked (blk.toNat * s.ssw.bs.toNat))
      ans := { s.ans with eraseOk := rest }, asked := s.asked + 1
      log := s.log ++ [.devErase blk.toNat n.toNat ok], ret := some (.answer (.devErase blk.toNat n.toNat ok)) } := by
  have hrow : exec (.devErase blk n) s = .next (retLast (devEraseCall blk.toNat n.toNat s).2) := rfl
  rw [hrow, devEraseCall_eq _ _ hans, retLast_of_log rfl]
  rfl

theorem exec_devRead {a : Option Bytes} {rrest : List (Option Bytes)}
    (hans : nextAnswer s.ans.read (Config.freeRead s.asked) = (a, rrest)) (blk n : U32) {d : Option Bytes}
    (hd : d = a.map fun o => o.take (n.toNat * s.ssw.bs.toNat) ++
      (s.store.readRun (blk.toNat * s.ssw.bs.toNat) (n.toNat * s.ssw.bs.toNat)).drop o.length) :
    exec (.devRead blk n) s = .next { s with
      ans := { s.ans with read := rrest }, asked := s.asked + 1
      log := s.log ++ [.devRead blk.toNat n.toNat d], ret := some (.answer (.devRead blk.toNat n.toNat d)) } := by
  have hrow : exec (.devRead blk n) s = .next (retLast (devReadCall blk.toNat n.toNat s).2) := rfl
  rw [hrow, devReadCall_eq _ _ hans hd, retLast_of_log rfl]
  rfl

end

/-- Settles O49: each row is its call, with the answer handed back; what STORE reads afterwards is the law of a write. -/
theorem deviceCalled : Obligations.DeviceCalled := by
  intro s blk n data ok rest a rrest
  refine ⟨fun hans => ⟨fun hne hbs hmod => ?blocks, fun hodd => ?odd⟩, fun hans => ?erase, fun hans d hd => ?read⟩
  case blocks =>
    exact ⟨_, _, wrote_writeRun _ _ _, length_stored .., stored_of_ok, exec_devWrite_blocks hans blk hne hbs hmod⟩
  case odd =>
    obtain ⟨v, hv, hexec⟩ := exec_devWrite_odd hans blk hodd
    exact ⟨_, v, wrote_writeRun _ _ _, hv, hexec⟩
  case erase =>
    exact ⟨_, _, wrote_writeRun _ _ _, by simp, stored_of_ok, exec_devErase hans blk n⟩
  case read => exact exec_devRead hans blk n hd

/-! ## Sessions (rules R284, R285, R306, R309) -/

theorem descOk_iff (d : Desc) :
    descOk d = true ↔ 4 ≤ d.bs.toNat ∧ d.bs.toNat % 4 = 0 ∧ d.start.toNat + d.size.toNat ≤ 2 ^ 32 := by
  simp only [descOk, Bool.and_eq_true, decide_eq_true_eq, and_assoc]

/-- `SSW.OPEN` (rule R284). -/
theorem sswOpenOp_eq (d : Desc) (s : State) : sswOpenOp d s =
    if s.ssw.phase ≠ .closed then (2, s)
    else if descOk d then (0, { s with ssw := openedSession s.cfg d.start d.size d.bs })
    else (3, s) := rfl

theorem exec_sswOpen (start size bs : U32) (s : State) : exec (.sswOpen start size bs) s =
    .next ((sswOpenOp ⟨start, size, bs⟩ s).2.withRet (.code (sswOpenOp ⟨start, size, bs⟩ s).1)) := rfl

theorem exec_sswClose (s : State) :
    exec .sswClose s = .next ((sswCloseOp s).2.withRet (.code (sswCloseOp s).1)) := rfl

/-- Settles O22: both rows are tests of the phase and, for SSW.OPEN, of the descriptor. -/
theorem sessionOpenedAndClosed : Obligations.SessionOpenedAndClosed := by
  intro s start size bs
  rw [exec_sswOpen, exec_sswClose, sswOpenOp_eq, sswCloseOp_eq]
  refine ⟨fun hp => ?busy, fun hp hbad => ?desc, fun hp hbs hmod hsum => ?opened, fun hp => ?none, fun hp => ?closed⟩
  case busy => rw [if_pos hp]; rfl
  case desc =>
    have hd : ¬ descOk ⟨start, size, bs⟩ = true := by
      rw [descOk_iff]
      rintro ⟨hbs, hmod, hsum⟩
      dsimp only at hbs hmod hsum
      omega
    rw [if_neg (not_not.2 hp), if_neg hd]
    rfl
  case opened =>
    rw [if_neg (not_not.2 hp), if_pos ((descOk_iff _).2 ⟨hbs, hmod, hsum⟩)]
    rfl
  case none => rw [if_pos hp]; rfl
  case closed => rw [if_neg hp]; rfl

theorem exec_sswGetCrc (s : State) : exec .sswGetCrc s = .next { s with
    ret := some (if s.ssw.phase = .closed then .crc 1 0 else .crc 0 s.ssw.crcWr) } := by
  have hrow : exec .sswGetCrc s = .next (s.withRet (.crc (sswCrcOf s.ssw).1 (sswCrcOf s.ssw).2)) := rfl
  rw [hrow, sswCrcOf]
  split <;> rfl

/-- Settles O33: the code is a function of the phase, the leftover and the two CRCs. -/
theorem resultReported : Obligations.ResultReported := by
  intro s code hcode
  refine ⟨?_, exec_sswGetCrc s⟩
  suffices hres : sswResultOf s.ssw = code by
    rw [← hres]
    rfl
  unfold sswResultOf
  rcases hcode with ⟨hp, rfl⟩ | ⟨hp, rfl⟩ | ⟨hp, rfl⟩ | ⟨hp, hl, rfl⟩ | ⟨hp, hl, hcrc, rfl⟩ | ⟨hp, hl, hcrc, rfl⟩ | ⟨hp, hl, rfl⟩
  · rw [hp]; rfl
  · rw [hp]
  · rcases hp with hp | hp | hp | hp <;> rw [hp] <;> rfl
  · rcases hp with hp | hp | hp <;> rw [hp] <;> exact if_pos hl
  · rw [hp]; exact (if_neg (not_not.2 hl)).trans (if_pos hcrc)
  · rw [hp]; exact (if_neg (not_not.2 hl)).trans (if_neg (not_not.2 hcrc))
  · rcases hp with hp | hp <;> rw [hp] <;> exact if_neg (not_not.2 hl)

end Sys2Proof.Machine
end

section
/-! PROOFS. The steps of a running PUSH, one by one: what each comes to on the bytes at hand, and the rows that stand for it
(rules R287 to R290, R293, R297, R299; log 15). -/

namespace Sys2Proof.Machine

/-! ## The rows of the steps -/

/-- The row `i` is the step `f` of the phase `p`. -/
abbrev stepRow (i : Instr) (p : Phase) (f : State → PushStep) : Prop := ∀ s, exec i s = stepIn p f s

theorem pushDetect_row : stepRow .pushDetect .detect stepDetect := fun _ => rfl

theorem pushSpHdr_row : stepRow .pushSpHdr .spHdr stepSpHdr := fun _ => rfl

theorem pushSpChunkHdr_row : stepRow .pushSpChunkHdr .spChunkHdr stepSpChunkHdr := fun _ => rfl

theorem pushSpRaw_row : stepRow .pushSpRaw .spRaw stepSpRaw := fun _ => rfl

theorem pushSpFill_row : stepRow .pushSpFill .spFill stepSpFill := fun _ => rfl

theorem pushSpDone_row : stepRow .pushSpDone .spDone stepSpDone := fun _ => rfl

theorem pushRaw_row : stepRow .pushRaw .raw stepRaw := fun _ => rfl

section
variable {i : Instr} {p : Phase} {f : State → PushStep} {s t : State}

theorem stepRow.go (hrow : stepRow i p f) (hp : s.ssw.phase = p) (h : f s = .go t) : exec i s = .next t :=
  (hrow s).trans (stepIn_go hp h)

theorem stepRow.wait (hrow : stepRow i p f) (h : f s = .wait) : exec i s = .next s := (hrow s).trans (stepIn_wait h)

end

theorem failSsw_stepFailed (e : SswCode) (s : State) : failSsw e s = s.stepFailed (sswNum e) := rfl

section
variable {s : State}

theorem pushStep_detect (hp : s.ssw.phase = .detect) : pushStep s = stepDetect s := by rw [pushStep, hp]

theorem pushStep_spHdr (hp : s.ssw.phase = .spHdr) : pushStep s = stepSpHdr s := by rw [pushStep, hp]

theorem pushStep_spChunkHdr (hp : s.ssw.phase = .spChunkHdr) : pushStep s = stepSpChunkHdr s := by rw [pushStep, hp]

theorem pushStep_spRaw (hp : s.ssw.phase = .spRaw) : pushStep s = stepSpRaw s := by rw [pushStep, hp]

theorem pushStep_spFill (hp : s.ssw.phase = .spFill) : pushStep s = stepSpFill s := by rw [pushStep, hp]

theorem pushStep_spDone (hp : s.ssw.phase = .spDone) : pushStep s = stepSpDone s := by rw [pushStep, hp]

theorem pushStep_raw (hp : s.ssw.phase = .raw) : pushStep s = stepRaw s := by rw [pushStep, hp]

end

/-! ## DETECT and SP_HDR (rules R287, R288) -/

section
variable {s : State}

theorem stepDetect_wait (h : s.ssw.hand.length < 4) : stepDetect s = .wait := if_pos h

theorem stepDetect_go (h : 4 ≤ s.ssw.hand.length) : stepDetect s = .go { s with
    ssw := { s.ssw with phase := if le32 s.ssw.hand 0 = s.cfg.sparseMagic then .spHdr else .raw } } :=
  if_neg (not_lt.2 h)

/-- Fields of a header that stand within its length. -/
theorem byteAt_take {b : Bytes} {n i : Nat} (h : i < n) : byteAt (b.take n) i = byteAt b i := by
  simp [byteAt, List.getD_eq_getElem?_getD, h]

theorem le16_take {b : Bytes} {n i : Nat} (h : i + 2 ≤ n) : le16 (b.take n) i = le16 b i := by
  rw [le16, le16, byteAt_take (by omega), byteAt_take (by omega)]

theorem le32_take {b : Bytes} {n i : Nat} (h : i + 4 ≤ n) : le32 (b.take n) i = le32 b i := by
  rw [le32, le32, byteAt_take (by omega), byteAt_take (by omega), byteAt_take (by omega), byteAt_take (by omega)]

theorem stepSpHdr_wait (h : s.ssw.hand.length < s.cfg.sparseHdrLen) : stepSpHdr s = .wait := if_pos h

/-- A sparse header at hand is in order (rule R288). -/
abbrev sparseHdrOk (s : State) : Prop :=
  (le16 s.ssw.hand 8).toNat = s.cfg.sparseHdrLen ∧ (le16 s.ssw.hand 10).toNat = s.cfg.chunkHdrLen ∧
    le32 s.ssw.hand 12 ≠ 0 ∧ (le32 s.ssw.hand 12).toNat % s.ssw.bs.toNat = 0

/-- A sparse header at hand is taken if it is in order, and refused if not (rule R288). -/
theorem stepSpHdr_go (hlen : 28 ≤ s.cfg.sparseHdrLen) (h : s.cfg.sparseHdrLen ≤ s.ssw.hand.length) :
    stepSpHdr s = .go (if sparseHdrOk s then { s with
      ssw := { s.ssw.ate s.cfg s.cfg.sparseHdrLen with
        sbs := le32 s.ssw.hand 12, totalBlks := le32 s.ssw.hand 16, totalChunks := le32 s.ssw.hand 20
        phase := if le32 s.ssw.hand 20 = 0 then .spDone else .spChunkHdr } } else s.stepFailed 4) := by
  have h8 : le16 (s.ssw.hand.take s.cfg.sparseHdrLen) 8 = le16 s.ssw.hand 8 := le16_take (by omega)
  have h10 : le16 (s.ssw.hand.take s.cfg.sparseHdrLen) 10 = le16 s.ssw.hand 10 := le16_take (by omega)
  have h12 : le32 (s.ssw.hand.take s.cfg.sparseHdrLen) 12 = le32 s.ssw.hand 12 := le32_take (by omega)
  have h16 : le32 (s.ssw.hand.take s.cfg.sparseHdrLen) 16 = le32 s.ssw.hand 16 := le32_take (by omega)
  have h20 : le32 (s.ssw.hand.take s.cfg.sparseHdrLen) 20 = le32 s.ssw.hand 20 := le32_take (by omega)
  rw [stepSpHdr, if_neg (not_lt.2 h)]
  dsimp only
  rw [h8, h10, h12, h16, h20]
  split
  next hbad => exact congrArg PushStep.go (if_neg fun hok => hbad.elim (absurd hok.1) (absurd hok.2.1)).symm
  next hsizes =>
  split
  next hbad => exact congrArg PushStep.go (if_neg fun hok => hbad.elim hok.2.2.1 (absurd hok.2.2.2)).symm
  next hblk =>
    simp only [not_or, not_not] at hsizes hblk
    exact congrArg PushStep.go (if_pos ⟨hsizes.1, hsizes.2, hblk.1, hblk.2⟩).symm

/-! ## SP_CHUNK_HDR and SP_DONE (rules R290, R297, R299) -/

theorem stepSpChunkHdr_wait (h : s.ssw.hand.length < s.cfg.chunkHdrLen) : stepSpChunkHdr s = .wait := if_pos h

theorem stepSpChunkHdr_known {k : ChunkKind} (h : s.cfg.chunkHdrLen ≤ s.ssw.hand.length)
    (hk : chunkKind s.cfg (s.ssw.hand.take s.cfg.chunkHdrLen) = some k) : stepSpChunkHdr s =
      .go (takeChunk (s.ssw.hand.take s.cfg.chunkHdrLen) (s.ssw.hand.take s.cfg.chunkHdrLen) k s) := by
  rw [stepSpChunkHdr, if_neg (not_lt.2 h)]
  simp only [hk]

theorem stepSpChunkHdr_unknown (h : s.cfg.chunkHdrLen ≤ s.ssw.hand.length)
    (hk : chunkKind s.cfg (s.ssw.hand.take s.cfg.chunkHdrLen) = none) :
    stepSpChunkHdr s = .go (unknownChunk (s.ssw.hand.take s.cfg.chunkHdrLen) s) := by
  rw [stepSpChunkHdr, if_neg (not_lt.2 h)]
  simp only [hk]

theorem chunkKind_of_known {c : Config} {h : Bytes} (hty : le16 h 0 ∈ c.chunkTypes) : ∃ k, chunkKind c h = some k := by
  simp only [Config.chunkTypes, List.mem_cons, List.not_mem_nil, or_false] at hty
  unfold chunkKind
  split
  · exact ⟨_, rfl⟩
  split
  · exact ⟨_, rfl⟩
  split
  · exact ⟨_, rfl⟩
  next h1 h2 h3 => exact ⟨_, if_pos (((hty.resolve_left h1).resolve_left h2).resolve_left h3)⟩

theorem chunkKind_of_unknown {c : Config} {h : Bytes} (hok : c.ok) (hty : le16 h 0 ∉ c.chunkTypes) :
    chunkKind c h = none := (chunkKind_of hok _ h rfl).2.2.2.2 hty

theorem known_of_chunkKind {c : Config} {h : Bytes} {k : ChunkKind} (hok : c.ok) (hk : chunkKind c h = some k) :
    le16 h 0 ∈ c.chunkTypes := by
  by_contra hty
  rw [chunkKind_of_unknown hok hty] at hk
  cases hk

/-- An unknown chunk with nothing to fall back on (rule R297). -/
theorem unknownChunk_refused (h : Bytes) (hno : s.cfg.unknownPolicy = .hardError ∨ s.ssw.lastValid = false) :
    unknownChunk h s = s.stepFailed 6 := if_pos hno

/-- A chunk header of no known type begins nothing: what `chunkBegins` says is said of the known ones. -/
theorem chunkBegins_of_unknown {s t : State} {eff : Bytes} {p : State → Prop} {q : Byte → Prop}
    (hty : le16 eff 0 ∉ s.cfg.chunkTypes) : chunkBegins s t eff p q := by
  simp only [Config.chunkTypes, List.mem_cons, List.not_mem_nil, or_false, not_or] at hty
  obtain ⟨hr, hf, hd, hc⟩ := hty
  rintro csz size raw blks - - - -
  refine ⟨?_, fun h => absurd h hc, fun _ => ⟨fun h => absurd h hr, fun h => absurd h hf, fun h => absurd h hd⟩⟩
  rintro want (⟨h, -⟩ | ⟨h, -⟩ | ⟨h | h, -⟩)
  exacts [absurd h hr, absurd h hf, absurd h hd, absurd h hc]

/-- An unknown chunk under `reuse_last` is what the last valid header begins (rule R297). -/
theorem unknownChunk_begins {h : Bytes} (hok : s.cfg.ok) (hty : le16 h 0 ∉ s.cfg.chunkTypes)
    (hpol : s.cfg.unknownPolicy = .reuseLast) (hval : s.ssw.lastValid = true) :
    chunkBegins s { s with ssw := { s.ssw.ate s.cfg s.cfg.chunkHdrLen with curHdr := s.ssw.lastHdr, err := 6 } } s.ssw.lastHdr
      (fun t => unknownChunk h s = t) (fun code => unknownChunk h s = s.stepFailed code) := by
  by_cases hlast : le16 s.ssw.lastHdr 0 ∈ s.cfg.chunkTypes
  case neg => exact chunkBegins_of_unknown hlast
  obtain ⟨k, hk⟩ := chunkKind_of_known hlast
  have hne : s.ssw.lastHdr ≠ h := by
    rintro rfl
    exact hty hlast
  have hun : unknownChunk h s = takeChunk h s.ssw.lastHdr k (raiseSsw .chunkType s) := by
    rw [unknownChunk, if_neg (by simp [raiseSsw, hpol, hval])]
    simp only [raiseSsw, State.withSsw_cfg, State.withSsw_ssw, hk]
  have hbegin := takeChunk_begins (s := raiseSsw .chunkType s) (h := h) (k := k) hok hk rfl
  simp only [if_neg hne] at hbegin
  rw [hun]
  exact hbegin

theorem stepSpDone_go (h : s.ssw.hand ≠ []) : stepSpDone s = .go (s.stepFailed 9) := if_pos (List.length_pos_iff.2 h)

theorem stepSpDone_wait (h : s.ssw.hand = []) : stepSpDone s = .wait := if_neg (by simp [h])

end

theorem lengths_of_ok {c : Config} (hok : c.ok) : 28 ≤ c.sparseHdrLen ∧ 12 ≤ c.chunkHdrLen := by
  obtain ⟨⟨-, -, -, -, -, -, -, -, -, -, -, -, -, -, hs, -, hc, -⟩, -⟩ := hok
  exact ⟨hs, hc⟩

/-- Settles O28: each row is its step, and each step has a lemma for each outcome. -/
theorem headerSteps : Obligations.HeaderSteps := by
  intro s hok
  obtain ⟨hslen, -⟩ := lengths_of_ok hok
  refine ⟨fun hp hl => pushDetect_row.go hp (stepDetect_go hl), fun _ hl => pushDetect_row.wait (stepDetect_wait hl), ?taken,
    ?refused, fun _ hl => pushSpHdr_row.wait (stepSpHdr_wait hl), ?chunk,
    fun _ hl => pushSpChunkHdr_row.wait (stepSpChunkHdr_wait hl), fun hp hh => pushSpDone_row.go hp (stepSpDone_go hh),
    fun _ hh => pushSpDone_row.wait (stepSpDone_wait hh)⟩
  case taken =>
    intro hp hl h8 h10 h12 hmod
    refine pushSpHdr_row.go hp ((stepSpHdr_go hslen hl).trans ?_)
    rw [if_pos ⟨h8, h10, h12, hmod⟩]
  case refused =>
    intro hp hl hbad
    refine pushSpHdr_row.go hp ((stepSpHdr_go hslen hl).trans ?_)
    rw [if_neg]
    rintro ⟨h8, h10, h12, hmod⟩
    rcases hbad with h | h | h | h <;> contradiction
  case chunk =>
    rintro hp hl h rfl
    refine ⟨fun hty => ?known, fun hty hno => ?unknown, fun hty hpol hval => ?reused⟩
    case known =>
      obtain ⟨k, hk⟩ := chunkKind_of_known hty
      have hbegin := takeChunk_begins (s := s) (h := s.ssw.hand.take s.cfg.chunkHdrLen) hok hk rfl
      simp only [if_true] at hbegin
      refine hbegin.imp (fun t ht => ?_) (fun code ht => ?_) <;>
        exact pushSpChunkHdr_row.go hp ((stepSpChunkHdr_known hl hk).trans (congrArg _ ht))
    case unknown =>
      exact pushSpChunkHdr_row.go hp ((stepSpChunkHdr_unknown hl (chunkKind_of_unknown hok hty)).trans
        (congrArg _ (unknownChunk_refused _ hno)))
    case reused =>
      refine (unknownChunk_begins hok hty hpol hval).imp (fun t ht => ?_) (fun code ht => ?_) <;>
        exact pushSpChunkHdr_row.go hp ((stepSpChunkHdr_unknown hl (chunkKind_of_unknown hok hty)).trans (congrArg _ ht))

/-! ## A chunk header that arrives whole (rules R290, R297, R298) -/

section
variable {s t u : State} {h eff : Bytes}

/-- A push of one step that fails (rules R286, R304). -/
theorem pushBytes_failed (hopen : s.ssw.phase ≠ .closed) (hnf : s.ssw.phase ≠ .failed) (hne : h ≠ []) (hl : s.ssw.leftLen = 0)
    (hstep : pushStep { s with ssw := { s.ssw with hand := h } } = .go u) (hu : u.ssw.phase = .failed) :
    pushBytes h s = .next { u with ssw := { u.ssw with hand := [] }, ret := some (.code u.ssw.fail) } := by
  rw [pushBytes, sswPushOp_fresh hopen hnf hne hl, pushLoop_go _ hstep, if_pos hu, pushEnd_failed hu]
  rfl

/-- A push of one step that takes all its bytes, after which the loop waits (rule R286). -/
theorem pushBytes_taken (hopen : s.ssw.phase ≠ .closed) (hnf : s.ssw.phase ≠ .failed) (hne : h ≠ []) (hl : s.ssw.leftLen = 0)
    (hstep : pushStep { s with ssw := { s.ssw with hand := h } } = .go u) (hu : u.ssw.phase ≠ .failed)
    (hhand : u.ssw.hand = []) (hwait : pushStep u = .wait) :
    pushBytes h s = .next { u with
      left := u.left.writeRun 0 [], ssw := { u.ssw with leftLen := 0, hand := [] }, ret := some (.code 0) } := by
  rw [pushBytes, sswPushOp_fresh hopen hnf hne hl, pushLoop_go _ hstep, if_neg hu, pushLoop_wait _ hwait,
    pushEnd_empty hu hhand]
  rfl

theorem chunkBegins.and {p p' : State → Prop} {q q' : Byte → Prop} (h1 : chunkBegins s t eff p q)
    (h2 : chunkBegins s t eff p' q') : chunkBegins s t eff (fun v => p v ∧ p' v) (fun c => q c ∧ q' c) := by
  intro csz size raw blks e1 e2 e3 e4
  obtain ⟨ha, hb, hc⟩ := h1 csz size raw blks e1 e2 e3 e4
  obtain ⟨ha', hb', hc'⟩ := h2 csz size raw blks e1 e2 e3 e4
  refine ⟨fun w hw => ⟨fun x => ⟨(ha w hw).1 x, (ha' w hw).1 x⟩, fun x y z => ⟨(ha w hw).2 x y z, (ha' w hw).2 x y z⟩⟩,
    fun x y => ⟨hb x y, hb' x y⟩, fun hfit => ?_⟩
  obtain ⟨hr, hf, hd⟩ := hc hfit
  obtain ⟨hr', hf', hd'⟩ := hc' hfit
  exact ⟨fun x y => ⟨fun z => ⟨(hr x y).1 z, (hr' x y).1 z⟩, fun z => ⟨(hr x y).2 z, (hr' x y).2 z⟩⟩,
    fun x y => ⟨hf x y, hf' x y⟩, fun x y => ⟨hd x y, hd' x y⟩⟩

/-- What beginning a chunk leaves alone: the session is open still, and the bytes at hand are those behind the header. -/
structure BegunFrom (t u : State) : Prop where
  cfg : u.cfg = t.cfg
  left : u.left = t.left
  bs : u.ssw.bs = t.ssw.bs
  hand : u.ssw.hand = t.ssw.hand
  leftLen : u.ssw.leftLen = t.ssw.leftLen
  alive : u.ssw.phase ≠ .failed

theorem BegunFrom.chunkEnded (t : State) (w : Ssw) (csz : U32) (hbs : w.bs = t.ssw.bs) (hhand : w.hand = t.ssw.hand)
    (hl : w.leftLen = t.ssw.leftLen) : BegunFrom t (State.chunkEnded { t with ssw := w } csz) := by
  refine ⟨rfl, rfl, hbs, hhand, hl, ?_⟩
  unfold State.chunkEnded
  dsimp only
  split <;> exact Phase.noConfusion

theorem chunkBegins_frame : chunkBegins s t eff (BegunFrom t) (fun _ => True) := by
  rintro csz size raw blks - - - -
  refine ⟨fun _ _ => ⟨fun _ => trivial, fun _ _ _ => trivial⟩, fun _ _ => .chunkEnded t t.ssw csz rfl rfl rfl, fun _ => ⟨fun _ _ => ⟨?_, ?_⟩, ?_, ?_⟩⟩
  · exact fun _ => .chunkEnded t _ csz rfl rfl rfl
  · exact fun _ => ⟨rfl, rfl, rfl, rfl, rfl, Phase.noConfusion⟩
  · exact fun _ _ => ⟨rfl, rfl, rfl, rfl, rfl, Phase.noConfusion⟩
  · exact fun _ _ => .chunkEnded t _ csz rfl rfl rfl

/-- What a chunk header comes to at the step is what pushing it alone comes to: nothing is left over (rules R286, R290). -/
theorem chunkBegins_pushed (hok : s.cfg.ok) (hinv : SswInv s) (hp : s.ssw.phase = .spChunkHdr) (hl : s.ssw.leftLen = 0)
    (hh : h.length = s.cfg.chunkHdrLen) (hcfg : t.cfg = s.cfg) (hleft : t.left = s.left) (hbs : t.ssw.bs = s.ssw.bs)
    (hhand : t.ssw.hand = []) (htl : t.ssw.leftLen = 0)
    (hbegin : chunkBegins s t eff (fun u => stepSpChunkHdr { s with ssw := { s.ssw with hand := h } } = .go u)
      (fun code => stepSpChunkHdr { s with ssw := { s.ssw with hand := h } } =
        .go (State.stepFailed { s with ssw := { s.ssw with hand := h } } code))) :
    chunkBegins s t eff (fun u => pushBytes h s = .next { u with left := s.left.writeRun 0 [], ret := some (.code 0) })
      (fun code => pushBytes h s = .next (s.sessionFailed code)) := by
  obtain ⟨-, hlen⟩ := lengths_of_ok hok
  obtain ⟨hs0, -, -, -, hdesc, -⟩ := hinv
  have hopen : s.ssw.phase ≠ .closed := by simp [hp]
  have hnf : s.ssw.phase ≠ .failed := by simp [hp]
  have hne : h ≠ [] := List.ne_nil_of_length_pos (by omega)
  have hstep : pushStep { s with ssw := { s.ssw with hand := h } } =
      stepSpChunkHdr { s with ssw := { s.ssw with hand := h } } := pushStep_spChunkHdr hp
  rw [← hstep] at hbegin
  refine (hbegin.and chunkBegins_frame).imp ?taken ?refused
  case taken =>
    rintro u ⟨hu, hf⟩
    have hbpos : 0 < u.ssw.bs.toNat := by
      have := (hdesc hopen).1
      rw [hf.bs, hbs]
      omega
    have huh : u.ssw.hand = [] := hf.hand.trans hhand
    have hul : u.ssw.leftLen = 0 := hf.leftLen.trans htl
    rw [pushBytes_taken hopen hnf hne hl hu hf.alive huh (pushStep_empty (hf.cfg.trans hcfg ▸ hok) huh hbpos), ← huh, ← hul,
      hf.left, hleft]
  case refused =>
    rintro code ⟨hu, -⟩
    rw [pushBytes_failed hopen hnf hne hl hu rfl, ← hs0]
    rfl

/-- The registers after a header at hand has been consumed, if it is all that is at hand. -/
theorem ate_header (hh : h.length = s.cfg.chunkHdrLen) (hp : s.ssw.phase = .spChunkHdr) (hs0 : s.ssw.hand = []) :
    { Ssw.ate { s.ssw with hand := h } s.cfg s.cfg.chunkHdrLen with curHdr := h, lastHdr := h, lastValid := true } =
      s.ssw.tookHeader s.cfg h := by
  simp [Ssw.ate, Ssw.tookHeader, ← hh, hp, hs0]

/-- A header that is all there is at hand, at its step (rules R290, R297). -/
theorem stepSpChunkHdr_all_known {k : ChunkKind} (hh : h.length = s.cfg.chunkHdrLen) (hk : chunkKind s.cfg h = some k) :
    stepSpChunkHdr { s with ssw := { s.ssw with hand := h } } =
      .go (takeChunk h h k { s with ssw := { s.ssw with hand := h } }) := by
  have htake : h.take s.cfg.chunkHdrLen = h := List.take_of_length_le hh.le
  have := stepSpChunkHdr_known (s := { s with ssw := { s.ssw with hand := h } }) (k := k) hh.ge (by rwa [htake])
  rwa [htake] at this

theorem stepSpChunkHdr_all_unknown (hh : h.length = s.cfg.chunkHdrLen) (hk : chunkKind s.cfg h = none) :
    stepSpChunkHdr { s with ssw := { s.ssw with hand := h } } = .go (unknownChunk h { s with ssw := { s.ssw with hand := h } }) := by
  have htake : h.take s.cfg.chunkHdrLen = h := List.take_of_length_le hh.le
  have := stepSpChunkHdr_unknown (s := { s with ssw := { s.ssw with hand := h } }) hh.ge (by rwa [htake])
  rwa [htake] at this

theorem knownChunk_pushed (hok : s.cfg.ok) (hinv : SswInv s) (hp : s.ssw.phase = .spChunkHdr) (hl : s.ssw.leftLen = 0)
    (hh : h.length = s.cfg.chunkHdrLen) (hty : le16 h 0 ∈ s.cfg.chunkTypes) :
    chunkBegins s { s with ssw := s.ssw.tookHeader s.cfg h } h
      (fun u => pushBytes h s = .next { u with left := s.left.writeRun 0 [], ret := some (.code 0) })
      (fun code => pushBytes h s = .next (s.sessionFailed code)) := by
  obtain ⟨k, hk⟩ := chunkKind_of_known hty
  have hs0 : s.ssw.hand = [] := hinv.1
  have hstep := stepSpChunkHdr_all_known hh hk
  have hbegin := takeChunk_begins (s := { s with ssw := { s.ssw with hand := h } }) (h := h) hok hk rfl
  simp only [if_true, ate_header hh hp hs0] at hbegin
  refine chunkBegins_pushed hok hinv hp hl hh rfl rfl rfl hs0 hl ?_
  exact chunkBegins.imp hbegin (fun u hu => hstep.trans (congrArg _ hu)) fun code hu => hstep.trans (congrArg _ hu)

theorem unknownChunk_pushed (hok : s.cfg.ok) (hinv : SswInv s) (hp : s.ssw.phase = .spChunkHdr) (hl : s.ssw.leftLen = 0)
    (hh : h.length = s.cfg.chunkHdrLen) (hty : le16 h 0 ∉ s.cfg.chunkTypes) (hpol : s.cfg.unknownPolicy = .reuseLast)
    (hval : s.ssw.lastValid = true) :
    chunkBegins s { s with
        ssw := { s.ssw.tookHeader s.cfg h with
          curHdr := s.ssw.lastHdr, lastHdr := s.ssw.lastHdr, lastValid := true, err := 6 } } s.ssw.lastHdr
      (fun u => pushBytes h s = .next { u with left := s.left.writeRun 0 [], ret := some (.code 0) })
      (fun code => pushBytes h s = .next (s.sessionFailed code)) := by
  have hs0 : s.ssw.hand = [] := hinv.1
  have hbegin := unknownChunk_begins (s := { s with ssw := { s.ssw with hand := h } }) (h := h) hok hty hpol hval
  have hregs : { Ssw.ate { s.ssw with hand := h } s.cfg s.cfg.chunkHdrLen with curHdr := s.ssw.lastHdr, err := 6 } =
      { s.ssw.tookHeader s.cfg h with
        curHdr := s.ssw.lastHdr, lastHdr := s.ssw.lastHdr, lastValid := true, err := 6 } := by
    simp [← ate_header hh hp hs0, Ssw.ate, hval]
  dsimp only at hbegin
  rw [hregs] at hbegin
  have hstep := stepSpChunkHdr_all_unknown hh (chunkKind_of_unknown hok hty)
  refine chunkBegins_pushed hok hinv hp hl hh rfl rfl rfl hs0 hl ?_
  exact chunkBegins.imp hbegin (fun u hu => hstep.trans (congrArg _ hu)) fun code hu => hstep.trans (congrArg _ hu)

end

theorem sameBytes_writeRun_nil (m : Memory) (a : Nat) : sameBytes m (m.writeRun a []) := by
  intro x
  rw [Memory.read_writeRun, if_neg (by simp)]

/-- The known types are those the configuration lists. -/
theorem mem_chunkTypes {c : Config} {ty : U16} :
    ty ∈ c.chunkTypes ↔ ty = c.typeRaw ∨ ty = c.typeFill ∨ ty = c.typeDontCare ∨ ty = c.typeCrc32 := by
  simp [Config.chunkTypes]

/-- Settles O25: pushing the header of a known chunk begins the chunk; the four rows are the four types. -/
theorem chunkTaken : Obligations.ChunkTaken := by
  intro s r csz tsz hok hinv hr hp hl
  refine ⟨s.left.writeRun 0 [], sameBytes_writeRun_nil _ _, fun t ht => ?_⟩
  have hbegin : ∀ ty ∈ s.cfg.chunkTypes, chunkBegins s _ (chunkHeaderBytes ty r csz tsz) _ _ := fun ty hty =>
    knownChunk_pushed hok hinv hp hl (length_chunkHeaderBytes hr) (by rwa [chunkHeaderBytes_type])
  have hparts := fun ty hty => hbegin ty hty csz tsz.toNat _ _ (chunkHeaderBytes_csz ty r csz tsz).symm
    (congrArg _ (chunkHeaderBytes_tsz ty r csz tsz)).symm rfl rfl
  simp only [chunkHeaderBytes_type] at hparts
  have hsbs : 0 < s.ssw.sbs.toNat := by
    obtain ⟨-, -, -, -, -, -, -, hsparse, -⟩ := hinv
    exact (hsparse (.inl hp)).1
  simp only [ht]
  refine ⟨fun hsz hfit hne => ?raw, fun hsz h0 => ?empty, fun hsz hfit => ?fill, fun hsz hfit => ?dontCare, fun hsz => ?crc32⟩
  case raw =>
    have hne' : csz.toNat * s.ssw.sbs.toNat ≠ 0 := Nat.mul_ne_zero (fun h => hne (BitVec.eq_of_toNat_eq h)) hsbs.ne'
    exact (((hparts _ (mem_chunkTypes.2 (.inl rfl))).2.2 hfit).1 rfl hsz).2 hne'
  case empty =>
    subst h0
    have hfit : s.ssw.cursor.toNat + (0 : U32).toNat * (s.ssw.sbs.toNat / s.ssw.bs.toNat) ≤ s.ssw.partSize.toNat := by
      obtain ⟨-, -, -, hcur, -⟩ := hinv
      simpa using hcur
    exact (((hparts _ (mem_chunkTypes.2 (.inl rfl))).2.2 hfit).1 rfl (by simpa using hsz)).1 (by simp)
  case fill => exact ((hparts _ (mem_chunkTypes.2 (.inr (.inl rfl)))).2.2 hfit).2.1 rfl hsz
  case dontCare => exact ((hparts _ (mem_chunkTypes.2 (.inr (.inr (.inl rfl))))).2.2 hfit).2.2 rfl hsz
  case crc32 => exact (hparts _ (mem_chunkTypes.2 (.inr (.inr (.inr rfl))))).2.1 rfl hsz

/-- Settles O27: an unknown header fails the session, or begins the chunk of the last valid one. -/
theorem unknownChunkHandled : Obligations.UnknownChunk := by
  intro s ty r csz tsz hok hinv hr hp hl hty
  have hh : (chunkHeaderBytes ty r csz tsz).length = s.cfg.chunkHdrLen := length_chunkHeaderBytes hr
  have hty' : le16 (chunkHeaderBytes ty r csz tsz) 0 ∉ s.cfg.chunkTypes := by rwa [chunkHeaderBytes_type]
  refine ⟨fun hno => ?refused, fun hpol hval => ⟨_, sameBytes_writeRun_nil _ _,
    unknownChunk_pushed hok hinv hp hl hh hty' hpol hval⟩⟩
  case refused =>
    obtain ⟨-, hlen⟩ := lengths_of_ok hok
    have hs0 : s.ssw.hand = [] := hinv.1
    have hstep : pushStep { s with ssw := { s.ssw with hand := chunkHeaderBytes ty r csz tsz } } =
        .go (State.stepFailed { s with ssw := { s.ssw with hand := chunkHeaderBytes ty r csz tsz } } 6) := by
      refine Eq.trans (pushStep_spChunkHdr hp) ((stepSpChunkHdr_all_unknown hh (chunkKind_of_unknown hok hty')).trans
        (congrArg _ (unknownChunk_refused _ hno)))
    have hpush := pushBytes_failed (by simp [hp]) (by simp [hp]) (List.ne_nil_of_length_pos (by omega)) hl hstep rfl
    have hrow : exec (.chunkUnknown ty r csz tsz) s = pushBytes (chunkHeaderBytes ty r csz tsz) s := rfl
    rw [hrow, hpush, ← hs0]
    rfl

/-! ## SP_RAW (rules R293, R305) -/

/-- The registers once `k` whole blocks of a raw chunk have been written (rule R293). -/
def Ssw.wroteBlocks (w : Ssw) (c : Config) (k : Nat) : Ssw :=
  { w.ate c (k * w.bs.toNat) with
    cursor := w.cursor + BitVec.ofNat 32 k
    chunkRem := w.chunkRem - BitVec.ofNat 32 (k * w.bs.toNat) }

/-- The whole blocks at hand that the chunk still wants (rule R293). -/
def Ssw.rawBlocks (w : Ssw) : Nat := min w.hand.length w.chunkRem.toNat / w.bs.toNat

section
variable {s t : State}

theorem stepSpRaw_wait (h : s.ssw.rawBlocks = 0) : stepSpRaw s = .wait := if_pos h

/-- The device call of SP_RAW (rule R293). -/
def rawCall (k : Nat) (s : State) : Bool × State := devWriteCall (cursorBlk s) (s.ssw.hand.take (k * s.ssw.bs.toNat)) s

theorem stepSpRaw_go {ok : Bool} (h : s.ssw.rawBlocks ≠ 0) (hcall : rawCall s.ssw.rawBlocks s = (ok, t)) :
    stepSpRaw s = .go (if ok then
        if (s.ssw.wroteBlocks s.cfg s.ssw.rawBlocks).chunkRem = 0 then
          State.chunkEnded { t with ssw := s.ssw.wroteBlocks s.cfg s.ssw.rawBlocks } (le32 s.ssw.curHdr 4)
        else { t with ssw := s.ssw.wroteBlocks s.cfg s.ssw.rawBlocks }
      else t.stepFailed 8) := by
  have hstep : stepSpRaw s = if (rawCall s.ssw.rawBlocks s).1 = true then
      .go (if (s.ssw.wroteBlocks s.cfg s.ssw.rawBlocks).chunkRem = 0 then
        chunkDone { (rawCall s.ssw.rawBlocks s).2 with ssw := s.ssw.wroteBlocks s.cfg s.ssw.rawBlocks }
        else { (rawCall s.ssw.rawBlocks s).2 with ssw := s.ssw.wroteBlocks s.cfg s.ssw.rawBlocks })
      else .go (failSsw .dev (rawCall s.ssw.rawBlocks s).2) := if_neg h
  rw [hstep, hcall, chunkDone_eq]
  cases ok <;> rfl

theorem rawBlocks_mul_le (w : Ssw) : w.rawBlocks * w.bs.toNat ≤ min w.hand.length w.chunkRem.toNat := Nat.div_mul_le_self _ _

/-- What is left of a chunk after some of its blocks (rule R293). -/
theorem wroteBlocks_chunkRem {w : Ssw} {k : Nat} (c : Config) (h : k * w.bs.toNat ≤ w.chunkRem.toNat) :
    (w.wroteBlocks c k).chunkRem.toNat = w.chunkRem.toNat - k * w.bs.toNat := by
  have hn : (BitVec.ofNat 32 (k * w.bs.toNat)).toNat = k * w.bs.toNat := by
    rw [BitVec.toNat_ofNat]
    exact Nat.mod_eq_of_lt (Nat.lt_of_le_of_lt h w.chunkRem.isLt)
  refine (sub_toNat ?_).trans ?_ <;> rw [hn]
  exact h

theorem wroteBlocks_done_iff {w : Ssw} {k : Nat} (c : Config) (h : k * w.bs.toNat ≤ w.chunkRem.toNat) :
    (w.wroteBlocks c k).chunkRem = 0 ↔ k * w.bs.toNat = w.chunkRem.toNat := by
  rw [← BitVec.toNat_inj, wroteBlocks_chunkRem c h]
  show w.chunkRem.toNat - k * w.bs.toNat = 0 ↔ _
  omega

end

/-- Settles O29: SP_RAW is one device call, whose answer decides, and then whether the chunk is done. -/
theorem rawChunkStep : Obligations.RawChunkStep := by
  rintro s k a ok rest hp hbs hk rfl hans
  obtain rfl : k = s.ssw.rawBlocks := hk
  refine ⟨fun h0 => pushSpRaw_row.wait (stepSpRaw_wait h0), fun h0 => ?_⟩
  have hle := rawBlocks_mul_le s.ssw
  have hdone := wroteBlocks_done_iff s.cfg (hle.trans (min_le_right _ _))
  have hstep := stepSpRaw_go h0 (devWriteCall_eq (cursorBlk s) (s.ssw.hand.take (s.ssw.rawBlocks * s.ssw.bs.toNat)) hans)
  refine ⟨_, stored ok (s.ssw.hand.take (s.ssw.rawBlocks * s.ssw.bs.toNat)) s.asked (cursorBlk s * s.ssw.bs.toNat),
    wrote_writeRun _ _ _, ?_, stored_of_ok, ?_⟩
  · rw [length_stored, List.length_take]
    omega
  rintro t rfl u rfl
  refine ⟨fun hfail => ?failed, fun hok hless => ?more, fun hok hlast => ?last⟩ <;>
    refine pushSpRaw_row.go hp (hstep.trans ?_)
  case failed => rw [hfail]; rfl
  case more => rw [hok, if_pos rfl, if_neg (mt hdone.1 hless.ne)]; rfl
  case last => rw [hok, if_pos rfl, if_pos (hdone.2 hlast)]; rfl

/-! ## RAW (rules R301, R305) -/

/-- The whole blocks at hand of a raw image (rule R301). -/
def Ssw.imageBlocks (w : Ssw) : Nat := w.hand.length / w.bs.toNat

/-- The registers once `k` blocks of a raw image have been written and read back as `d` (rule R301). -/
def Ssw.readBack (w : Ssw) (c : Config) (k : Nat) (d : Bytes) : Ssw :=
  { w.ate c (k * w.bs.toNat) with
    crcWr := crc32Update c.crc32 w.crcWr d
    cursor := w.cursor + BitVec.ofNat 32 k }

section
variable {s t u : State}

theorem stepRaw_wait (h : s.ssw.imageBlocks = 0) : stepRaw s = .wait := if_pos h

theorem stepRaw_overrun (h : s.ssw.imageBlocks ≠ 0)
    (hover : s.ssw.partSize.toNat < s.ssw.cursor.toNat + s.ssw.imageBlocks) : stepRaw s = .go (s.stepFailed 7) :=
  (if_neg h).trans (if_pos hover)

/-- What the two device calls of RAW make of it: `t` is the state after the write, `u` the one after the read-back (rule R301). -/
theorem stepRaw_go {ok : Bool} {rb : Option Bytes} (hp : s.ssw.phase = .raw) (h : s.ssw.imageBlocks ≠ 0)
    (hfit : s.ssw.cursor.toNat + s.ssw.imageBlocks ≤ s.ssw.partSize.toNat) (hw : rawCall s.ssw.imageBlocks s = (ok, t))
    (hr : devReadCall (cursorBlk s) s.ssw.imageBlocks t = (rb, u)) :
    stepRaw s = .go (if ok then rb.elim (u.stepFailed 8) fun d => { u with ssw := s.ssw.readBack s.cfg s.ssw.imageBlocks d }
      else t.stepFailed 8) := by
  have htssw : t.ssw = s.ssw := (congrArg (fun r => r.2.ssw) hw).symm
  have hussw : u.ssw = s.ssw := (congrArg (fun r => r.2.ssw) hr).symm.trans htssw
  have hucfg : u.cfg = s.cfg := (congrArg (fun r => r.2.cfg) hr).symm.trans (congrArg (fun r => r.2.cfg) hw).symm
  have hblk : cursorBlk t = cursorBlk s := by rw [cursorBlk, htssw, cursorBlk]
  unfold stepRaw
  extract_lets bs k
  rw [if_neg (show ¬ k = 0 from h), if_neg (show ¬ _ < _ + k from not_lt.2 hfit)]
  have hw' : devWriteCall (cursorBlk s) (s.ssw.hand.take (k * bs)) s = (ok, t) := hw
  have hr' : devReadCall (cursorBlk t) k t = (rb, u) := by rw [hblk]; exact hr
  simp only [hw', hr']
  cases ok with
  | false => rfl
  | true =>
    cases rb with
    | none => rfl
    | some d =>
      simp only [advance, consume, State.withSsw, Ssw.readBack, Ssw.ate, hussw, hucfg, hp, if_true, Option.elim]
      rfl

end

end Sys2Proof.Machine
end

section
/-! PROOFS. A fill: what its device calls leave in STORE, whatever they answer, and how many answers they ask for (rules R294,
R295, R305; log 38). -/

namespace Sys2Proof.Machine

/-! ## What a fill has written -/

/-- In `m` the `d` blocks from the cursor on read as the word over and over, and no byte has changed outside these blocks and the
`e` blocks behind them. -/
def Painted (w : Bytes) (s : State) (d e : Nat) (m : Memory) : Prop :=
  (∀ x, cursorBlk s * s.ssw.bs.toNat ≤ x → x < cursorBlk s * s.ssw.bs.toNat + d * s.ssw.bs.toNat →
    m.read x = byteAt w ((x - cursorBlk s * s.ssw.bs.toNat) % 4)) ∧
  ∀ x, (x < cursorBlk s * s.ssw.bs.toNat ∨ cursorBlk s * s.ssw.bs.toNat + (d + e) * s.ssw.bs.toNat ≤ x) → m.read x = s.store.read x

/-- `d` blocks have been filled by the calls `l`, each answered ok: the cursor has passed them. -/
structure FillOk (w : Bytes) (s t : State) (l : List Action) (d : Nat) : Prop where
  eq : t = { s with
    store := t.store, ans := t.ans, asked := t.asked, log := s.log ++ l
    ssw := { s.ssw with cursor := s.ssw.cursor + BitVec.ofNat 32 d } }
  calls : ∀ y ∈ l, answeredOk y
  painted : Painted w s d 0 t.store

/-- The device call that failed in a fill names the `m` blocks from block `b` on (rules R295, R305). -/
def FailedCall (w : Bytes) (s : State) (b m : Nat) (y : Action) : Prop :=
  y = .devErase b m false ∨ y = .devWrite b (pattern w (m * s.ssw.bs.toNat)) false

/-- `d` blocks have been filled, and then the last of the calls `l` has failed, which names `m` blocks more. -/
structure FillFailed (w : Bytes) (s t : State) (l : List Action) (d m : Nat) : Prop where
  eq : t = { s with
    store := t.store, ans := t.ans, asked := t.asked, log := s.log ++ l
    ssw := { s.ssw with
      cursor := s.ssw.cursor + BitVec.ofNat 32 d, err := 8, fail := 8, phase := .failed, leftLen := 0 } }
  pos : 0 < m
  calls : ∀ y ∈ l.dropLast, answeredOk y
  last : ∃ y, l.getLast? = some y ∧ FailedCall w s (cursorBlk s + d) m y
  painted : Painted w s d m t.store

/-- All that can come of filling `n` blocks. -/
def FillEnds (w : Bytes) (n : Nat) (s t : State) : Prop :=
  (∃ l, FillOk w s t l n) ∨ ∃ l d m, d + m ≤ n ∧ FillFailed w s t l d m

/-- What a fill needs: a buffer, blocks of whole words, and room for the blocks (rules R11, R284, R290). -/
structure Fillable (n : Nat) (s : State) : Prop where
  buf : 1 ≤ s.cfg.fillBufBlks
  bs : s.ssw.bs.toNat % 4 = 0
  room : s.ssw.cursor.toNat + n < 2 ^ 32
  alive : s.ssw.phase ≠ .failed

/-! ## One piece after another -/

section
variable {w : Bytes} {s t u : State} {l l' : List Action} {d d' m n : Nat}

theorem FillOk.ssw (h : FillOk w s t l d) : t.ssw = { s.ssw with cursor := s.ssw.cursor + BitVec.ofNat 32 d } := by rw [h.eq]

theorem FillOk.alive (h : FillOk w s t l d) (hs : s.ssw.phase ≠ .failed) : t.ssw.phase ≠ .failed := by rwa [h.ssw]

theorem FillFailed.failed (h : FillFailed w s t l d m) : t.ssw.phase = .failed := by rw [h.eq]

theorem add_ofNat_toNat {c : U32} {k : Nat} (h : c.toNat + k < 2 ^ 32) : (c + BitVec.ofNat 32 k).toNat = c.toNat + k := by
  rw [BitVec.toNat_add, BitVec.toNat_ofNat, Nat.add_mod_mod, Nat.mod_eq_of_lt h]

theorem FillOk.cursorBlk (h : FillOk w s t l d) (hroom : s.ssw.cursor.toNat + d < 2 ^ 32) :
    Machine.cursorBlk t = Machine.cursorBlk s + d := by
  rw [Machine.cursorBlk, h.ssw, Machine.cursorBlk]
  dsimp only
  rw [add_ofNat_toNat hroom, Nat.add_assoc]

theorem FillOk.bs (h : FillOk w s t l d) : t.ssw.bs = s.ssw.bs := by rw [h.ssw]

/-- After `d` blocks there is room for the rest. -/
theorem FillOk.fillable (h : FillOk w s t l d) (hf : Fillable (d + n) s) : Fillable n t := by
  have hroom := hf.room
  have hcfg : t.cfg = s.cfg := by rw [h.eq]
  refine ⟨hcfg ▸ hf.buf, h.bs ▸ hf.bs, ?_, h.alive hf.alive⟩
  rw [h.ssw]
  dsimp only
  rw [add_ofNat_toNat (by omega)]
  omega

theorem Fillable.mono (hf : Fillable n s) (h : d ≤ n) : Fillable d s :=
  ⟨hf.buf, hf.bs, by have := hf.room; omega, hf.alive⟩

/-- Blocks filled from where a fill has come to lie behind those it filled. -/
theorem FillOk.painted_trans (h : FillOk w s t l d) (hf : Fillable d s) {r : Memory} (ht : Painted w t d' m r) :
    Painted w s (d + d') m r := by
  obtain ⟨hin, hout⟩ := h.painted
  obtain ⟨hin', hout'⟩ := ht
  have hstart : Machine.cursorBlk t * s.ssw.bs.toNat = Machine.cursorBlk s * s.ssw.bs.toNat + d * s.ssw.bs.toNat := by
    rw [h.cursorBlk hf.room, Nat.add_mul]
  rw [h.bs, hstart] at hin' hout'
  rw [Nat.add_zero] at hout
  have hsplit : ∀ e, (d + e) * s.ssw.bs.toNat = d * s.ssw.bs.toNat + e * s.ssw.bs.toNat := fun e => Nat.add_mul ..
  have hword : d * s.ssw.bs.toNat % 4 = 0 := by rw [Nat.mul_mod, hf.bs, Nat.mul_zero, Nat.zero_mod]
  refine ⟨fun x hx1 hx2 => ?_, fun x hx => ?_⟩
  · rw [hsplit] at hx2
    by_cases hx : x < Machine.cursorBlk s * s.ssw.bs.toNat + d * s.ssw.bs.toNat
    · rw [hout' x (.inl hx)]
      exact hin x hx1 hx
    · rw [hin' x (by omega) (by omega)]
      congr 1
      omega
  · rw [Nat.add_assoc, hsplit] at hx
    rw [hout' x (by omega), hout x (by omega)]

theorem FillOk.trans (h : FillOk w s t l d) (hf : Fillable d s) (ht : FillOk w t u l' d') : FillOk w s u (l ++ l') (d + d') := by
  refine ⟨?_, fun y hy => (List.mem_append.1 hy).elim (h.calls y) (ht.calls y), h.painted_trans hf ht.painted⟩
  rw [ht.eq, h.eq]
  simp only [List.append_assoc, BitVec.add_assoc, BitVec.ofNat_add]

theorem FillOk.trans_failed (h : FillOk w s t l d) (hf : Fillable d s) (ht : FillFailed w t u l' d' m) :
    FillFailed w s u (l ++ l') (d + d') m := by
  obtain ⟨y, hlast, hcall⟩ := ht.last
  have hne : l' ≠ [] := by
    rintro rfl
    cases hlast
  refine ⟨?_, ht.pos, ?_, ⟨y, ?_, ?_⟩, h.painted_trans hf ht.painted⟩
  · rw [ht.eq, h.eq]
    simp only [List.append_assoc, BitVec.add_assoc, BitVec.ofNat_add]
  · rw [List.dropLast_append_of_ne_nil hne]
    exact fun y hy => (List.mem_append.1 hy).elim (h.calls y) (ht.calls y)
  · rw [List.getLast?_append_of_ne_nil _ hne, hlast]
  · rw [h.cursorBlk hf.room, Nat.add_assoc] at hcall
    rwa [FailedCall, h.bs] at hcall

/-- A part of a fill, and the rest of it unless the part has failed. -/
theorem FillEnds.trans {k : Nat} (h : FillEnds w n s t) (hf : Fillable (n + k) s) (hgo : Fillable k t → FillEnds w k t u)
    (hstop : t.ssw.phase = .failed → u = t) : FillEnds w (n + k) s u := by
  rcases h with ⟨l, h⟩ | ⟨l, d, m, hle, h⟩
  · have hf' : Fillable n s := hf.mono (by omega)
    rcases hgo (h.fillable hf) with ⟨l', h'⟩ | ⟨l', d', m, hle, h'⟩
    · exact .inl ⟨_, h.trans hf' h'⟩
    · exact .inr ⟨_, _, m, by omega, h.trans_failed hf' h'⟩
  · rw [hstop h.failed]
    exact .inr ⟨l, d, m, by omega, h⟩

theorem FillEnds.nothing (w : Bytes) (s : State) : FillEnds w 0 s s := by
  refine .inl ⟨[], ?_, nofun, fun x h1 h2 => ?_, fun _ _ => rfl⟩
  · simp
  · omega

/-- One device call of a fill names the next `k` blocks (rules R295, R305): `v` is what they hold afterwards, and it is the word over
and over if the call was answered ok. -/
theorem fillEnds_call {k : Nat} {ok : Bool} {ans : Answers} {y : Action} {v : Bytes} (hk : 0 < k)
    (hlen : v.length = k * s.ssw.bs.toNat) (hv : ok = true → v = pattern w (k * s.ssw.bs.toNat)) (hok : ok = true → answeredOk y)
    (hfail : ok = false → FailedCall w s (cursorBlk s) k y) {c : State}
    (hc : c = { s with
      store := s.store.writeRun (Machine.cursorBlk s * s.ssw.bs.toNat) v, ans := ans, asked := s.asked + 1, log := s.log ++ [y] }) :
    FillEnds w k s (if ok then advance k c else failSsw .dev c) := by
  subst hc
  have hout : ∀ x, (x < Machine.cursorBlk s * s.ssw.bs.toNat ∨
      Machine.cursorBlk s * s.ssw.bs.toNat + k * s.ssw.bs.toNat ≤ x) →
      (s.store.writeRun (Machine.cursorBlk s * s.ssw.bs.toNat) v).read x = s.store.read x := by
    intro x hx
    rw [Memory.read_writeRun, if_neg (by omega)]
  cases ok with
  | true =>
    refine .inl ⟨[y], rfl, by simpa using hok rfl, fun x hx1 hx2 => ?_, fun x hx => hout x (by simpa using hx)⟩
    show (s.store.writeRun _ v).read x = _
    rw [Memory.read_writeRun, if_pos (by omega), hv rfl]
    simp only [pattern, List.getD_eq_getElem?_getD, List.getElem?_map]
    rw [List.getElem?_range (by omega)]
    rfl
  | false =>
    refine .inr ⟨[y], 0, k, by omega, ?_, hk, nofun, ⟨y, rfl, hfail rfl⟩, fun x hx1 hx2 => ?_, fun x hx => hout x (by simpa using hx)⟩
    · simp only [BitVec.ofNat_eq_ofNat, BitVec.add_zero]
      rfl
    · omega

end

/-! ## The device calls of a fill (rule R295) -/

theorem length_pattern (w : Bytes) (n : Nat) : (pattern w n).length = n := by simp [pattern]

/-- The word of zeros over and over is what an erased block reads as (rules R69, R295). -/
theorem pattern_zeros (n : Nat) : pattern [0, 0, 0, 0] n = List.replicate n 0 := by
  have hz : ∀ i, i < 4 → byteAt [0, 0, 0, 0] i = 0 := by decide
  refine List.ext_getElem (by simp [pattern]) fun i h1 h2 => ?_
  simpa [pattern] using hz _ (Nat.mod_lt _ (by decide))

theorem fillEnds_write (w : Bytes) {s : State} {k : Nat} (hk : 0 < k) :
    FillEnds w k s (if (devWriteCall (cursorBlk s) (pattern w (k * s.ssw.bs.toNat)) s).1 = true
      then advance k (devWriteCall (cursorBlk s) (pattern w (k * s.ssw.bs.toNat)) s).2
      else failSsw .dev (devWriteCall (cursorBlk s) (pattern w (k * s.ssw.bs.toNat)) s).2) := by
  rw [devWriteCall_eq _ _ rfl]
  refine fillEnds_call (y := .devWrite ..) hk ?_ stored_of_ok (fun h => h) (fun h => .inr ?_) rfl
  · rw [length_stored, length_pattern]
  · rw [h]

theorem fillEnds_erase {s : State} {k : Nat} (hk : 0 < k) :
    FillEnds [0, 0, 0, 0] k s (if (devEraseCall (cursorBlk s) k s).1 = true
      then advance k (devEraseCall (cursorBlk s) k s).2 else failSsw .dev (devEraseCall (cursorBlk s) k s).2) := by
  rw [devEraseCall_eq _ _ rfl]
  refine fillEnds_call (y := .devErase ..) hk ?_ (fun h => (stored_of_ok h).trans (pattern_zeros _).symm) (fun h => h) (fun h => .inl ?_) rfl
  · rw [length_stored, List.length_replicate]
  · rw [h]

theorem fillWrite_of_failed {s : State} (h : s.ssw.phase = .failed) (w : Bytes) (fuel n : Nat) : fillWrite w fuel n s = s := by
  cases fuel with
  | zero => rfl
  | succ fuel => exact if_pos (.inr h)

theorem eraseMid_of_failed {s : State} (h : s.ssw.phase = .failed) (mid : Nat) : eraseMid mid s = s := if_neg fun hn => hn.2 h

/-- The piece that is written next is not empty, and is no more than is left (rule R295). -/
theorem fillWrite_succ {s : State} {w : Bytes} {fuel n : Nat} (hn : n ≠ 0) (hs : s.ssw.phase ≠ .failed) :
    fillWrite w (fuel + 1) n s =
      if (devWriteCall (cursorBlk s) (pattern w (min n s.cfg.fillBufBlks * s.ssw.bs.toNat)) s).1 = true
      then fillWrite w fuel (n - min n s.cfg.fillBufBlks)
        (advance (min n s.cfg.fillBufBlks) (devWriteCall (cursorBlk s) (pattern w (min n s.cfg.fillBufBlks * s.ssw.bs.toNat)) s).2)
      else failSsw .dev (devWriteCall (cursorBlk s) (pattern w (min n s.cfg.fillBufBlks * s.ssw.bs.toNat)) s).2 :=
  if_neg (not_or.2 ⟨hn, hs⟩)

theorem fillWrite_ends (w : Bytes) (fuel : Nat) : ∀ {n : Nat} {s : State}, n ≤ fuel → Fillable n s →
    FillEnds w n s (fillWrite w fuel n s) := by
  induction fuel with
  | zero =>
    intro n s hn _
    obtain rfl : n = 0 := by omega
    exact .nothing w s
  | succ fuel ih =>
    intro n s hfuel hf
    by_cases hn : n = 0
    · subst hn
      have h0 : fillWrite w (fuel + 1) 0 s = s := if_pos (.inl rfl)
      rw [h0]
      exact .nothing w s
    have hbuf := hf.buf
    have hend := fillEnds_write (s := s) w (k := min n s.cfg.fillBufBlks) (by omega)
    have hsplit : min n s.cfg.fillBufBlks + (n - min n s.cfg.fillBufBlks) = n := by omega
    rw [fillWrite_succ hn hf.alive]
    rw [← hsplit] at hf
    have hall := fun u => hend.trans (u := u) hf
    rw [hsplit] at hall
    split at hend
    next hok =>
      rw [if_pos hok] at hall ⊢
      exact hall _ (ih (by omega)) fun hfail => fillWrite_of_failed hfail ..
    next hok =>
      rw [if_neg hok] at hall ⊢
      exact hall _ (fun hf' => absurd rfl hf'.alive) fun _ => rfl

theorem eraseMid_ends {mid : Nat} {s : State} (hf : Fillable mid s) : FillEnds [0, 0, 0, 0] mid s (eraseMid mid s) := by
  by_cases hm : 0 < mid
  · have hstep : eraseMid mid s = if (devEraseCall (cursorBlk s) mid s).1 = true
        then advance mid (devEraseCall (cursorBlk s) mid s).2 else failSsw .dev (devEraseCall (cursorBlk s) mid s).2 :=
      if_pos ⟨hm, hf.alive⟩
    rw [hstep]
    exact fillEnds_erase hm
  · obtain rfl : mid = 0 := by omega
    have h0 : eraseMid 0 s = s := if_neg fun h => absurd h.1 (lt_irrefl 0)
    rw [h0]
    exact .nothing _ s

/-- The blocks of the aligned middle that are erased (rule R295). -/
def fillMid (c : Config) (blk n : Nat) : Nat := (n - fillHead c blk n) / c.eraseGroupBlks * c.eraseGroupBlks

/-- A fill with erase cuts its blocks in three (rule R295). -/
theorem fill_parts (c : Config) (blk n : Nat) :
    fillHead c blk n + (fillMid c blk n + (n - fillHead c blk n - fillMid c blk n)) = n := by
  have hhead : fillHead c blk n ≤ n := min_le_left _ _
  have hmid : fillMid c blk n ≤ n - fillHead c blk n := Nat.div_mul_le_self _ _
  omega

/-- A fill with the whole middle erased (rule R295). -/
theorem doFill_erase {s : State} {w : Bytes} {n : Nat}
    (h : s.cfg.fillStrategy = .eraseOpt ∧ w = [0, 0, 0, 0] ∧ s.cfg.eraseThreshBlks ≤ n) :
    doFill w n s =
      fillWrite w (n - fillHead s.cfg (cursorBlk s) n - fillMid s.cfg (cursorBlk s) n)
        (n - fillHead s.cfg (cursorBlk s) n - fillMid s.cfg (cursorBlk s) n)
        (eraseMid (fillMid s.cfg (cursorBlk s) n)
          (fillWrite w (fillHead s.cfg (cursorBlk s) n) (fillHead s.cfg (cursorBlk s) n) s)) := if_pos h

theorem doFill_write {s : State} {w : Bytes} {n : Nat}
    (h : ¬ (s.cfg.fillStrategy = .eraseOpt ∧ w = [0, 0, 0, 0] ∧ s.cfg.eraseThreshBlks ≤ n)) :
    doFill w n s = fillWrite w n n s := if_neg h

/-- Whatever the strategy and whatever the device answers, a fill ends in one of the two ways. -/
theorem doFill_ends {w : Bytes} {n : Nat} {s : State} (hf : Fillable n s) : FillEnds w n s (doFill w n s) := by
  by_cases h : s.cfg.fillStrategy = .eraseOpt ∧ w = [0, 0, 0, 0] ∧ s.cfg.eraseThreshBlks ≤ n
  case neg =>
    rw [doFill_write h]
    exact fillWrite_ends w n le_rfl hf
  case pos =>
    rw [doFill_erase h]
    obtain rfl := h.2.1
    have hparts := fill_parts s.cfg (cursorBlk s) n
    generalize fillHead s.cfg (cursorBlk s) n = head at hparts ⊢
    generalize fillMid s.cfg (cursorBlk s) n = mid at hparts ⊢
    generalize n - head - mid = tail at hparts ⊢
    subst hparts
    refine (fillWrite_ends _ head le_rfl (hf.mono (by omega))).trans hf (fun hf1 => ?_) fun hfail => ?_
    · refine (eraseMid_ends (hf1.mono (by omega))).trans hf1 (fillWrite_ends _ tail le_rfl) fun hfail => ?_
      exact fillWrite_of_failed hfail ..
    · rw [eraseMid_of_failed hfail, fillWrite_of_failed hfail]

/-! ## A device that is supposed to answer ok (rule R310; log 3) -/

/-- The device will answer the next `n` writes ok. -/
def WritesOk (n : Nat) (s : State) : Prop := (∀ x ∈ s.ans.writeOk, x = true) ∧ n ≤ s.ans.writeOk.length

/-- From `s` to `t`, `i` writes, `j` erases and `k` reads have been answered from the lists. -/
def Asked (i j k : Nat) (s t : State) : Prop :=
  t.ans.writeOk = s.ans.writeOk.drop i ∧ t.ans.eraseOk = s.ans.eraseOk.drop j ∧ t.ans.read = s.ans.read.drop k

theorem Asked.refl (s : State) : Asked 0 0 0 s s := ⟨rfl, rfl, rfl⟩

theorem Asked.trans {s t u : State} {i j k i' j' k' : Nat} (h : Asked i j k s t) (h' : Asked i' j' k' t u) :
    Asked (i + i') (j + j') (k + k') s u := by
  obtain ⟨hw, he, hr⟩ := h
  obtain ⟨hw', he', hr'⟩ := h'
  exact ⟨by rw [hw', hw, List.drop_drop], by rw [he', he, List.drop_drop], by rw [hr', hr, List.drop_drop]⟩

theorem WritesOk.drop {s t : State} {n i j k : Nat} (h : WritesOk (i + n) s) (ha : Asked i j k s t) : WritesOk n t := by
  obtain ⟨htrue, hlen⟩ := h
  obtain ⟨hw, -⟩ := ha
  rw [WritesOk, hw]
  refine ⟨fun x hx => htrue x (List.mem_of_mem_drop hx), ?_⟩
  rw [List.length_drop]
  omega

/-- The next of the answers supplied, if there is one. -/
theorem nextAnswer_supplied {α : Type} {given : List α} {a free : α} (h : ∀ x ∈ given, x = a) (hne : 1 ≤ given.length) :
    nextAnswer given free = (a, given.drop 1) := by
  cases given with
  | nil => exact absurd hne (by simp)
  | cons x r => rw [h x (List.mem_cons_self ..)]; rfl

/-- A write that the device is supposed to answer ok. -/
theorem devWriteCall_ok {s : State} (h : WritesOk 1 s) (blk : Nat) (data : Bytes) : devWriteCall blk data s = (true, { s with
    store := s.store.writeRun (blk * s.ssw.bs.toNat) data
    ans := { s.ans with writeOk := s.ans.writeOk.drop 1 }, asked := s.asked + 1, log := s.log ++ [.devWrite blk data true] }) :=
  devWriteCall_eq blk data (nextAnswer_supplied h.1 h.2)

theorem fillWrite_writesOk (w : Bytes) (fuel : Nat) : ∀ {n : Nat} {s : State}, n ≤ fuel → Fillable n s → WritesOk n s →
    (fillWrite w fuel n s).ssw.phase ≠ .failed ∧ ∃ i ≤ n, Asked i 0 0 s (fillWrite w fuel n s) := by
  induction fuel with
  | zero => exact fun _ hf _ => ⟨hf.alive, 0, Nat.zero_le _, .refl _⟩
  | succ fuel ih =>
    intro n s hfuel hf hok
    by_cases hn : n = 0
    · subst hn
      have h0 : fillWrite w (fuel + 1) 0 s = s := if_pos (.inl rfl)
      rw [h0]
      exact ⟨hf.alive, 0, le_rfl, .refl s⟩
    have hbuf := hf.buf
    have hroom := hf.room
    have h1 : WritesOk 1 s := ⟨hok.1, by have := hok.2; omega⟩
    rw [fillWrite_succ hn hf.alive, devWriteCall_ok h1, if_pos rfl]
    generalize ht : advance _ _ = t
    have ha : Asked 1 0 0 s t := by rw [← ht]; exact ⟨rfl, rfl, rfl⟩
    have hssw : t.ssw = { s.ssw with cursor := s.ssw.cursor + BitVec.ofNat 32 (min n s.cfg.fillBufBlks) } := by rw [← ht]; rfl
    have hcfg : t.cfg = s.cfg := by rw [← ht]; rfl
    have hf' : Fillable (n - min n s.cfg.fillBufBlks) t := by
      refine ⟨hcfg ▸ hbuf, hssw ▸ hf.bs, ?_, hssw ▸ hf.alive⟩
      rw [hssw]
      dsimp only
      rw [add_ofNat_toNat (by omega)]
      omega
    have hok' : WritesOk (n - min n s.cfg.fillBufBlks) t :=
      WritesOk.drop (i := 1) ⟨hok.1, by have := hok.2; omega⟩ ha
    obtain ⟨halive, i, hi, hask⟩ := ih (by omega) hf' hok'
    exact ⟨halive, 1 + i, by omega, ha.trans hask⟩

theorem eraseMid_eraseOk {mid : Nat} {s : State} (hs : s.ssw.phase ≠ .failed) (h : ∃ r, s.ans.eraseOk = true :: r) :
    (eraseMid mid s).ssw.phase ≠ .failed ∧ ∃ j ≤ 1, Asked 0 j 0 s (eraseMid mid s) := by
  obtain ⟨r, hr⟩ := h
  by_cases hm : 0 < mid
  · have hans : nextAnswer s.ans.eraseOk (Config.freeEraseOk s.asked) = (true, s.ans.eraseOk.drop 1) := by rw [hr]; rfl
    have hstep : eraseMid mid s = if (devEraseCall (cursorBlk s) mid s).1 = true
        then advance mid (devEraseCall (cursorBlk s) mid s).2 else failSsw .dev (devEraseCall (cursorBlk s) mid s).2 :=
      if_pos ⟨hm, hs⟩
    rw [hstep, devEraseCall_eq _ _ hans, if_pos rfl]
    exact ⟨hs, 1, le_rfl, rfl, rfl, rfl⟩
  · have h0 : eraseMid mid s = s := if_neg fun h => hm h.1
    rw [h0]
    exact ⟨hs, 0, Nat.zero_le _, .refl s⟩

/-- A part of a fill that has not failed has filled its blocks. -/
theorem FillEnds.ok {w : Bytes} {n : Nat} {s t : State} (h : FillEnds w n s t) (ht : t.ssw.phase ≠ .failed) :
    ∃ l, FillOk w s t l n := h.resolve_right fun ⟨_, _, _, _, hfail⟩ => ht hfail.failed

/-- A fill asks for a write for each of its blocks at most, and for one erase. -/
theorem doFill_okAnswers {w : Bytes} {n : Nat} {s : State} (hf : Fillable n s) (hw : WritesOk n s)
    (he : ∃ r, s.ans.eraseOk = true :: r) :
    (doFill w n s).ssw.phase ≠ .failed ∧ ∃ i ≤ n, ∃ j ≤ 1, Asked i j 0 s (doFill w n s) := by
  by_cases h : s.cfg.fillStrategy = .eraseOpt ∧ w = [0, 0, 0, 0] ∧ s.cfg.eraseThreshBlks ≤ n
  case neg =>
    rw [doFill_write h]
    obtain ⟨halive, i, hi, hask⟩ := fillWrite_writesOk w n le_rfl hf hw
    exact ⟨halive, i, hi, 0, Nat.zero_le _, hask⟩
  case pos =>
    rw [doFill_erase h]
    obtain rfl := h.2.1
    have hparts := fill_parts s.cfg (cursorBlk s) n
    generalize fillHead s.cfg (cursorBlk s) n = head at hparts ⊢
    generalize fillMid s.cfg (cursorBlk s) n = mid at hparts ⊢
    generalize n - head - mid = tail at hparts ⊢
    subst hparts
    have hlen := hw.2
    have hf0 : Fillable head s := hf.mono (by omega)
    obtain ⟨halive1, i1, hi1, hask1⟩ := fillWrite_writesOk [0, 0, 0, 0] head le_rfl hf0 ⟨hw.1, by omega⟩
    obtain ⟨l1, hfill1⟩ := (fillWrite_ends [0, 0, 0, 0] head le_rfl hf0).ok halive1
    have hf1 := hfill1.fillable hf
    generalize fillWrite [0, 0, 0, 0] head head s = t1 at *
    obtain ⟨halive2, j, hj, hask2⟩ := eraseMid_eraseOk (mid := mid) halive1 (by rw [hask1.2.1]; exact he)
    obtain ⟨l2, hfill2⟩ := (eraseMid_ends (hf1.mono (by omega))).ok halive2
    have hf2 := hfill2.fillable hf1
    generalize eraseMid mid t1 = t2 at *
    have hask : Asked i1 j 0 s t2 := by simpa using hask1.trans hask2
    obtain ⟨halive3, i3, hi3, hask3⟩ :=
      fillWrite_writesOk [0, 0, 0, 0] tail le_rfl hf2 (WritesOk.drop (i := i1) ⟨hw.1, by omega⟩ hask)
    exact ⟨halive3, i1 + i3, by omega, j, hj, hask.trans hask3⟩

/-! ## SP_FILL (rule R294) -/

theorem stepSpFill_wait {s : State} (h : s.ssw.hand.length < 4) : stepSpFill s = .wait := if_pos h

/-- The blocks of the chunk that is being filled (rules R290, R294). -/
def fillBlks (w : Ssw) : Nat := chunkBlks (le32 w.curHdr 4) w

/-- The state after the device calls of SP_FILL (rule R294). -/
def fillCalls (s : State) : State := doFill (s.ssw.hand.take 4) (fillBlks s.ssw) (eatWord s)

theorem stepSpFill_go {s : State} (h : 4 ≤ s.ssw.hand.length) : stepSpFill s =
    .go (if (fillCalls s).ssw.phase = .failed then fillCalls s else chunkDone (fillCalls s)) := if_neg (not_lt.2 h)

/-- The chunk that is being filled fits the partition, and its blocks are whole words (rules R284, R290). -/
theorem eatWord_fillable {s : State} (hok : s.cfg.ok) (hp : s.ssw.phase = .spFill) (hbs : s.ssw.bs.toNat % 4 = 0)
    (hfit : s.ssw.cursor.toNat + fillBlks s.ssw ≤ s.ssw.partSize.toNat) : Fillable (fillBlks s.ssw) (eatWord s) := by
  obtain ⟨⟨-, -, -, -, -, -, -, -, -, hbuf, -⟩, -⟩ := hok
  exact ⟨hbuf, hbs, Nat.lt_of_le_of_lt hfit s.ssw.partSize.isLt, fun h => by cases hp.symm.trans h⟩

theorem FailedCall.not_ok {w : Bytes} {s : State} {b m : Nat} {y : Action} (h : FailedCall w s b m y) : ¬ answeredOk y := by
  rcases h with rfl | rfl <;> exact nofun

/-- The word over and over, read off the bytes at hand (rules R65, R294). -/
theorem pattern_hand (b : Bytes) (n : Nat) : pattern (b.take 4) n = (List.range n).map fun x => byteAt b (x % 4) :=
  List.map_congr_left fun x _ => byteAt_take (Nat.mod_lt x (by decide))

/-- A fill is the work of the writer alone, and keeps LEFT. -/
theorem fill_frame {s t : State} {w : Ssw} {m : Memory} {a : Answers} {k : Nat} {l : List Action}
    (h : t = { s with store := m, ans := a, asked := k, log := l, ssw := w }) :
    t.upe = s.upe ∧ t.ute = s.ute ∧ t.cdi = s.cdi ∧ t.cfg = s.cfg ∧ t.ret = s.ret ∧ t.inbox = s.inbox ∧
      t.finished = s.finished ∧ sameBytes s.fbuf t.fbuf ∧ sameBytes s.pktbuf t.pktbuf ∧ sameBytes s.left t.left := by
  subst h
  exact ⟨rfl, rfl, rfl, rfl, rfl, rfl, rfl, fun _ => rfl, fun _ => rfl, fun _ => rfl⟩

/-- Settles O31: a fill ends in one of two ways, by induction on its pieces (`doFill_ends`). -/
theorem fillContent : Obligations.FillContent := by
  rintro s n hok hp hbs hmod rfl hfit
  refine ⟨fun h => pushSpFill_row.wait (stepSpFill_wait h), ?_⟩
  rintro hlen a rfl
  have hf := eatWord_fillable hok hp hmod hfit
  have hwilling := fun h1 h2 => (doFill_okAnswers (w := s.ssw.hand.take 4) hf h1 h2).1
  have hgo := stepSpFill_go hlen
  rcases doFill_ends (w := s.ssw.hand.take 4) hf with ⟨l, h⟩ | ⟨l, d, m, hle, h⟩
  case inl =>
    have halive : (fillCalls s).ssw.phase ≠ .failed := h.alive hf.alive
    rw [if_neg halive, chunkDone_eq] at hgo
    refine ⟨_, l, fillBlks s.ssw, 0, pushSpFill_row.go hp hgo, le_rfl, fun x hx1 hx2 => ?_, h.painted.2, fun _ => ⟨rfl, rfl, ?_⟩,
      fun hno => absurd h.calls hno, fun _ _ _ => h.calls, ?_⟩
    · exact (h.painted.1 x hx1 hx2).trans (byteAt_take (Nat.mod_lt _ (by decide)))
    · rintro c rfl
      rw [show fillCalls s = _ from h.eq]
      exact ⟨rfl, rfl⟩
    · exact fill_frame (s := s) (t := fillCalls s) h.eq
  case inr =>
    obtain ⟨y, hlast, hcall⟩ := h.last
    rw [if_pos (show (fillCalls s).ssw.phase = .failed from h.failed)] at hgo
    have hno : ¬ ∀ z ∈ l, answeredOk z := fun hall => hcall.not_ok (hall y (List.mem_of_getLast? hlast))
    refine ⟨_, l, d, m, pushSpFill_row.go hp hgo, hle, fun x hx1 hx2 => ?_, h.painted.2, fun hall => absurd hall hno,
      fun _ => ⟨h.pos, h.calls, ?_, ?_, ?_⟩, fun h1 h2 h3 => absurd h.failed (hwilling ⟨h1, h2⟩ h3), fill_frame (s := s) h.eq⟩
    · exact (h.painted.1 x hx1 hx2).trans (byteAt_take (Nat.mod_lt _ (by decide)))
    · rw [show fillCalls s = _ from h.eq]
      rfl
    · rintro b rfl
      rw [hlast, ← pattern_hand]
      exact hcall.imp (congrArg some) (congrArg some)
    · rw [show fillCalls s = _ from h.eq]
      rfl

end Sys2Proof.Machine
end

section
/-! PROOFS. The writer never names a block outside its partition (rule R302): one lemma for each operation of SSW, then one for each
operation of the other units and the dispatcher, which make no device call. -/

namespace Sys2Proof.Machine

/-! ## What is kept -/

/-- An address of STORE outside the partition (rule R302; log 8). -/
def Outside (w : Ssw) (x : Nat) : Prop :=
  x < w.partStart.toNat * w.bs.toNat ∨ (w.partStart.toNat + w.partSize.toNat) * w.bs.toNat ≤ x

/-- From `s0` to `s` the device calls have named blocks of the partition only, STORE has not changed outside it, and the cursor is
within it. -/
def Inside (s0 s : State) : Prop :=
  (∃ l, s.log = s0.log ++ l ∧ ∀ a ∈ l, inPartition s0.ssw a) ∧ (∀ x, Outside s0.ssw x → s.store.read x = s0.store.read x) ∧
    s.ssw.cursor.toNat ≤ s.ssw.partSize.toNat

/-- An outcome whose next state, if there is one, has `P`. -/
def Nexts (P : State → Prop) : Result → Prop
  | .next t => P t
  | .fault _ => True
  | .refused _ => True

section
variable {s0 s t : State}

theorem Inside.refl (h : s.ssw.cursor.toNat ≤ s.ssw.partSize.toNat) : Inside s s :=
  ⟨⟨[], by simp, nofun⟩, fun _ _ => rfl, h⟩

theorem Inside.act (h : Inside s0 s) {a : Action} (ha : inPartition s0.ssw a) : Inside s0 (s.act a) := by
  obtain ⟨⟨l, hl, hin⟩, hstore, hcur⟩ := h
  exact ⟨⟨l ++ [a], by simp [hl], List.forall_mem_append.2 ⟨hin, List.forall_mem_singleton.2 ha⟩⟩, hstore, hcur⟩

theorem Inside.withSsw (h : Inside s0 s) {w : Ssw} (hw : w.cursor.toNat ≤ w.partSize.toNat) : Inside s0 (s.withSsw w) :=
  ⟨h.1, h.2.1, hw⟩

/-- A write within the partition (rules R61, R302). -/
theorem Inside.withStore (h : Inside s0 s) {a : Nat} {v : Bytes} (hlo : s0.ssw.partStart.toNat * s0.ssw.bs.toNat ≤ a)
    (hhi : a + v.length ≤ (s0.ssw.partStart.toNat + s0.ssw.partSize.toNat) * s0.ssw.bs.toNat) :
    Inside s0 (s.withStore (s.store.writeRun a v)) := by
  refine ⟨h.1, fun x hx => ?_, h.2.2⟩
  rw [State.withStore_store, Memory.read_writeRun, if_neg (by rcases hx with hx | hx <;> omega)]
  exact h.2.1 x hx

theorem Inside.ite {p : Prop} [Decidable p] (hs : Inside s0 s) (ht : Inside s0 t) : Inside s0 (if p then s else t) := by
  split
  · exact hs
  · exact ht

theorem Nexts.andThen {P Q : State → Prop} {o : Result} {k : State → Result} (ho : Nexts Q o) (hk : ∀ t, Q t → Nexts P (k t)) :
    Nexts P (Machine.andThen o k) := by
  cases o with
  | next t => exact hk t ho
  | fault f => trivial
  | refused r => trivial

theorem Nexts.withVal {P : State → Prop} {α : Type} {e : Except Fault α} {k : α → Result}
    (hk : ∀ a, e = .ok a → Nexts P (k a)) : Nexts P (Machine.withVal e k) := by
  cases e with
  | ok a => exact hk a rfl
  | error f => trivial

end

/-! ## A running PUSH (rules R286, R290, R292) -/

/-- What holds along a running PUSH: nothing outside the partition is touched, and the partition stays what it is. -/
structure Along (s0 s : State) : Prop where
  inside : Inside s0 s
  start : s.ssw.partStart = s0.ssw.partStart
  size : s.ssw.partSize = s0.ssw.partSize
  bs : s.ssw.bs = s0.ssw.bs
  block : 4 ≤ s0.ssw.bs.toNat ∧ s0.ssw.bs.toNat % 4 = 0

/-- What the registers of the writer promise of the chunk at hand: it fits the partition (rules R288, R290, R292). -/
structure ChunkFits (w : Ssw) : Prop where
  sparse : w.phase.inSparse → w.sbs.toNat % w.bs.toNat = 0
  raw : w.phase = .spRaw → w.cursor.toNat + w.chunkRem.toNat / w.bs.toNat ≤ w.partSize.toNat
  fill : w.phase = .spFill → w.cursor.toNat + fillBlks w ≤ w.partSize.toNat

/-- What every step of the loop keeps. -/
def Safe (s0 s : State) : Prop := Along s0 s ∧ ChunkFits s.ssw

/-- A step keeps it if the state that it goes on with has it. -/
def GoSafe (s0 : State) : PushStep → Prop
  | .wait => True
  | .go t => Safe s0 t

/-- The invariant is all that an open session needs. -/
theorem safe_of_inv {s0 s : State} (hinv : SswInv s0) (hopen : s0.ssw.phase ≠ .closed) (h : Inside s0 s)
    (hs : s.ssw = s0.ssw) : Safe s0 s := by
  obtain ⟨-, -, -, -, hdesc, -, -, hsparse, hraw, hfill⟩ := hinv
  obtain ⟨h4, hmod, -⟩ := hdesc hopen
  refine ⟨⟨h, by rw [hs], by rw [hs], by rw [hs], h4, hmod⟩, ?_⟩
  rw [hs]
  exact ⟨fun hp => (hsparse hp).2, fun hp => (hraw hp).2.2, hfill⟩

/-- In a phase without a chunk nothing is promised. -/
theorem chunkFits_idle {w : Ssw} (h : w.phase ∉ [.spChunkHdr, .spRaw, .spFill, .spDone]) : ChunkFits w := by
  simp only [List.mem_cons, List.not_mem_nil, or_false, not_or] at h
  obtain ⟨hc, hr, hf, hd⟩ := h
  exact ⟨fun hp => by rcases hp with hp | hp | hp | hp <;> contradiction, fun hp => absurd hp hr, fun hp => absurd hp hf⟩

section
variable {s0 s t : State}

theorem Along.cursor (h : Along s0 s) : s.ssw.cursor.toNat ≤ s.ssw.partSize.toNat := h.inside.2.2

/-- Registers that keep the partition and have the cursor within it. -/
theorem Along.withSsw (h : Along s0 s) {w : Ssw} (hw : w.cursor.toNat ≤ w.partSize.toNat)
    (hstart : w.partStart = s.ssw.partStart) (hsize : w.partSize = s.ssw.partSize) (hbs : w.bs = s.ssw.bs) :
    Along s0 (s.withSsw w) :=
  ⟨h.inside.withSsw hw, hstart.trans h.start, hsize.trans h.size, hbs.trans h.bs, h.block⟩

/-- Registers that keep the cursor as well. -/
theorem Along.withRegs (h : Along s0 s) {w : Ssw} (hcur : w.cursor = s.ssw.cursor) (hstart : w.partStart = s.ssw.partStart)
    (hsize : w.partSize = s.ssw.partSize) (hbs : w.bs = s.ssw.bs) : Along s0 (s.withSsw w) :=
  h.withSsw (by rw [hcur, hsize]; exact h.cursor) hstart hsize hbs

theorem Along.advance (h : Along s0 s) {n : Nat} (hn : s.ssw.cursor.toNat + n ≤ s.ssw.partSize.toNat) :
    Along s0 (advance n s) := by
  refine h.withSsw ?_ rfl rfl rfl
  show (s.ssw.cursor + BitVec.ofNat 32 n).toNat ≤ _
  rwa [add_ofNat_toNat (Nat.lt_of_le_of_lt hn s.ssw.partSize.isLt)]

theorem Along.consume (h : Along s0 s) (n : Nat) : Along s0 (consume n s) := h.withRegs rfl rfl rfl rfl

theorem Along.fail (h : Along s0 s) (e : SswCode) : Safe s0 (failSsw e s) :=
  ⟨h.withRegs rfl rfl rfl rfl, chunkFits_idle (by simp [failSsw])⟩

theorem Along.chunkDone (h : Along s0 s) (hsbs : s.ssw.sbs.toNat % s.ssw.bs.toNat = 0) : Safe s0 (chunkDone s) := by
  have hact : Along s0 (progressAct (progressOf (s.ssw.blocksDone + (le32 s.ssw.curHdr 4).setWidth 64) s.ssw.totalBlks) s) :=
    ⟨h.inside.act trivial, h.start, h.size, h.bs, h.block⟩
  refine ⟨hact.withRegs rfl rfl rfl rfl, fun _ => hsbs, fun hp => ?_, fun hp => ?_⟩ <;>
  · rw [chunkDone_eq] at hp
    simp only [State.chunkEnded] at hp
    split at hp <;> cases hp

/-! ## Device calls within the partition (rules R61, R302) -/

/-- The blocks from the cursor on, as far as they fit. -/
theorem Along.blocks (h : Along s0 s) {k : Nat} (hk : s.ssw.cursor.toNat + k ≤ s.ssw.partSize.toNat) :
    s0.ssw.partStart.toNat ≤ cursorBlk s ∧ cursorBlk s + k ≤ s0.ssw.partStart.toNat + s0.ssw.partSize.toNat := by
  rw [cursorBlk, ← h.start, ← h.size]
  omega

/-- The bytes of these blocks. -/
theorem Along.bytes (h : Along s0 s) {k n : Nat} (hk : s.ssw.cursor.toNat + k ≤ s.ssw.partSize.toNat) (hn : n ≤ k * s.ssw.bs.toNat) :
    s0.ssw.partStart.toNat * s0.ssw.bs.toNat ≤ cursorBlk s * s.ssw.bs.toNat ∧
      cursorBlk s * s.ssw.bs.toNat + n ≤ (s0.ssw.partStart.toNat + s0.ssw.partSize.toNat) * s0.ssw.bs.toNat := by
  obtain ⟨hlo, hhi⟩ := h.blocks hk
  rw [h.bs] at hn ⊢
  refine ⟨Nat.mul_le_mul_right _ hlo, le_trans ?_ (Nat.mul_le_mul_right _ hhi)⟩
  rw [Nat.add_mul]
  omega

/-- A device call, an action within the partition, that leaves `v` in blocks of the partition. -/
theorem Along.called (h : Along s0 s) {y : Action} (hy : inPartition s0.ssw y) {k : Nat} {v : Bytes} (ans : Answers)
    (hk : s.ssw.cursor.toNat + k ≤ s.ssw.partSize.toNat) (hv : v.length ≤ k * s.ssw.bs.toNat) :
    Along s0 (((s.withAns ans).withStore (s.store.writeRun (cursorBlk s * s.ssw.bs.toNat) v)).act y) := by
  obtain ⟨hlo, hhi⟩ := h.bytes hk hv
  have hans : Inside s0 (s.withAns ans) := h.inside
  exact ⟨(hans.withStore hlo hhi).act hy, h.start, h.size, h.bs, h.block⟩

theorem devWriteCall_along (h : Along s0 s) {k : Nat} {data : Bytes} (hk : s.ssw.cursor.toNat + k ≤ s.ssw.partSize.toNat)
    (hd : data.length ≤ k * s.ssw.bs.toNat) : Along s0 (devWriteCall (cursorBlk s) data s).2 := by
  have hy : inPartition s0.ssw (.devWrite (cursorBlk s) data (devWriteCall (cursorBlk s) data s).1) := by
    refine ⟨(h.blocks hk).1, ?_⟩
    rw [← h.bs]
    exact h.bs ▸ (h.bytes hk hd).2
  exact h.called hy { s.ans with writeOk := (nextAnswer s.ans.writeOk (Config.freeWriteOk s.asked)).2 } hk
    (v := stored _ data s.asked (cursorBlk s * s.ssw.bs.toNat)) (by rwa [length_stored])

theorem devEraseCall_along (h : Along s0 s) {k : Nat} (hk : s.ssw.cursor.toNat + k ≤ s.ssw.partSize.toNat) :
    Along s0 (devEraseCall (cursorBlk s) k s).2 := by
  rw [devEraseCall_eq _ _ rfl]
  refine h.called (y := .devErase ..) (h.blocks hk) { s.ans with eraseOk := (nextAnswer s.ans.eraseOk (Config.freeEraseOk s.asked)).2 } hk ?_
  rw [length_stored, List.length_replicate]

theorem devReadCall_along (h : Along s0 s) {k : Nat} (hk : s.ssw.cursor.toNat + k ≤ s.ssw.partSize.toNat) :
    Along s0 (devReadCall (cursorBlk s) k s).2 := by
  have hans : Inside s0 (s.withAns { s.ans with read := (nextAnswer s.ans.read (Config.freeRead s.asked)).2 }) := h.inside
  exact ⟨hans.act (h.blocks hk), h.start, h.size, h.bs, h.block⟩

/-! ## The steps -/

theorem stepDetect_safe (h : Safe s0 s) : GoSafe s0 (stepDetect s) := by
  unfold stepDetect
  split
  · trivial
  · refine ⟨h.1.withRegs rfl rfl rfl rfl, chunkFits_idle ?_⟩
    dsimp only [State.withSsw_ssw]
    split <;> simp

theorem stepSpHdr_safe (h : Safe s0 s) : GoSafe s0 (stepSpHdr s) := by
  unfold stepSpHdr
  dsimp only
  split
  · trivial
  split
  · exact h.1.fail _
  split
  · exact h.1.fail _
  next hsbs =>
    refine ⟨(h.1.consume _).withRegs rfl rfl rfl rfl, fun _ => not_not.1 (not_or.1 hsbs).2, fun hp => ?_, fun hp => ?_⟩ <;>
    · dsimp only [State.withSsw_ssw] at hp
      split at hp <;> cases hp

/-- Whole sparse blocks are whole storage blocks (rules R288, R292). -/
theorem chunkBlks_raw {w : Ssw} {csz : U32} (h : w.sbs.toNat % w.bs.toNat = 0) :
    csz.toNat * w.sbs.toNat / w.bs.toNat = chunkBlks csz w := Nat.mul_div_assoc _ (Nat.dvd_of_mod_eq_zero h)

theorem takeChunk_safe (h : Safe s0 s) (hp : s.ssw.phase = .spChunkHdr) (hdr eff : Bytes) (k : ChunkKind) :
    Safe s0 (takeChunk hdr eff k s) := by
  have hsbs := h.2.sparse (.inl hp)
  unfold takeChunk
  extract_lets csz nblk s1 _ s2 _ s3
  have h2 : Along s0 s2 := (h.1.consume _).withRegs rfl rfl rfl rfl
  have h3 : Along s0 s3 := h2.withRegs rfl rfl rfl rfl
  split
  · exact h.1.fail _
  next hsize =>
  split
  · exact h.1.fail _
  next hfit =>
  have hroom : k ≠ .crc32 → s.ssw.cursor.toNat + nblk ≤ s.ssw.partSize.toNat := fun hk => not_lt.1 fun hlt => hfit ⟨hk, hlt⟩
  cases k with
  | raw =>
    have hrem : s3.ssw.chunkRem.toNat = csz.toNat * s.ssw.sbs.toNat := by
      have := (le32 eff 8).isLt
      simp only [chunkWant, not_not] at hsize
      exact Nat.mod_eq_of_lt (by omega : csz.toNat * s.ssw.sbs.toNat < 2 ^ 32)
    dsimp only
    split
    · exact h3.chunkDone hsbs
    · refine ⟨h3.withRegs rfl rfl rfl rfl, fun _ => hsbs, fun _ => ?_, Phase.noConfusion⟩
      show s.ssw.cursor.toNat + s3.ssw.chunkRem.toNat / s.ssw.bs.toNat ≤ s.ssw.partSize.toNat
      rw [hrem, chunkBlks_raw hsbs]
      exact hroom nofun
  | fill => exact ⟨h2.withRegs rfl rfl rfl rfl, fun _ => hsbs, Phase.noConfusion, fun _ => hroom nofun⟩
  | dontCare => exact (h2.advance (hroom nofun)).chunkDone hsbs
  | crc32 => exact h2.chunkDone hsbs

theorem unknownChunk_safe (h : Safe s0 s) (hp : s.ssw.phase = .spChunkHdr) (hdr : Bytes) : Safe s0 (unknownChunk hdr s) := by
  have hr : Safe s0 (raiseSsw .chunkType s) := ⟨h.1.withRegs rfl rfl rfl rfl, h.2.sparse, h.2.raw, h.2.fill⟩
  unfold unknownChunk
  dsimp only
  split
  · exact hr.1.fail _
  split
  · exact hr.1.fail _
  · exact takeChunk_safe hr hp _ _ _

theorem stepSpChunkHdr_safe (h : Safe s0 s) (hp : s.ssw.phase = .spChunkHdr) : GoSafe s0 (stepSpChunkHdr s) := by
  unfold stepSpChunkHdr
  split
  · trivial
  dsimp only
  split
  · exact takeChunk_safe h hp _ _ _
  · exact unknownChunk_safe h hp _

/-- The blocks of a raw chunk that are at hand fit, since the chunk does (rules R292, R293). -/
theorem rawBlocks_fit (h : Safe s0 s) (hp : s.ssw.phase = .spRaw) :
    s.ssw.cursor.toNat + s.ssw.rawBlocks ≤ s.ssw.partSize.toNat := by
  have hfit := h.2.raw hp
  have hle : s.ssw.rawBlocks ≤ s.ssw.chunkRem.toNat / s.ssw.bs.toNat := Nat.div_le_div_right (min_le_right _ _)
  omega

theorem stepSpRaw_safe (h : Safe s0 s) (hp : s.ssw.phase = .spRaw) : GoSafe s0 (stepSpRaw s) := by
  by_cases h0 : s.ssw.rawBlocks = 0
  · rw [stepSpRaw_wait h0]
    trivial
  obtain ⟨⟨ok, t⟩, hr⟩ : ∃ r, rawCall s.ssw.rawBlocks s = r := ⟨_, rfl⟩
  rw [stepSpRaw_go h0 hr]
  have hsbs := h.2.sparse (.inr (.inl hp))
  have hroom := rawBlocks_fit h hp
  have hbytes := rawBlocks_mul_le s.ssw
  have hcur : (s.ssw.cursor + BitVec.ofNat 32 s.ssw.rawBlocks).toNat = s.ssw.cursor.toNat + s.ssw.rawBlocks :=
    add_ofNat_toNat (Nat.lt_of_le_of_lt hroom s.ssw.partSize.isLt)
  have hcall : Along s0 (rawCall s.ssw.rawBlocks s).2 :=
    devWriteCall_along h.1 hroom (by rw [List.length_take]; omega)
  have hsame : (rawCall s.ssw.rawBlocks s).2.ssw = s.ssw := devWriteCall_ssw ..
  rw [hr] at hcall hsame
  have hwrote : Along s0 (t.withSsw (s.ssw.wroteBlocks s.cfg s.ssw.rawBlocks)) := by
    refine hcall.withSsw (hcur.trans_le hroom) ?_ ?_ ?_ <;> rw [hsame] <;> rfl
  split
  · split
    · have hdone := hwrote.chunkDone hsbs
      rwa [chunkDone_eq] at hdone
    · refine ⟨hwrote, fun _ => hsbs, fun _ => ?_, fun hf => by cases hp.symm.trans hf⟩
      have hrem := wroteBlocks_chunkRem s.cfg (hbytes.trans (min_le_right _ _))
      show (s.ssw.cursor + BitVec.ofNat 32 s.ssw.rawBlocks).toNat +
        (s.ssw.wroteBlocks s.cfg s.ssw.rawBlocks).chunkRem.toNat / s.ssw.bs.toNat ≤ s.ssw.partSize.toNat
      have hle : s.ssw.rawBlocks ≤ s.ssw.chunkRem.toNat / s.ssw.bs.toNat := Nat.div_le_div_right (min_le_right _ _)
      rw [hrem, hcur, Nat.mul_comm, Nat.sub_mul_div]
      have := h.2.raw hp
      omega
  · exact hcall.fail .dev

theorem fillWrite_along (w : Bytes) (fuel : Nat) : ∀ {n : Nat} {s : State}, Along s0 s →
    s.ssw.cursor.toNat + n ≤ s.ssw.partSize.toNat → Along s0 (fillWrite w fuel n s) ∧
      (fillWrite w fuel n s).ssw.cursor.toNat ≤ s.ssw.cursor.toNat + n := by
  induction fuel with
  | zero => exact fun h _ => ⟨h, Nat.le_add_right _ _⟩
  | succ fuel ih =>
    intro n s h hn
    by_cases hstop : n = 0 ∨ s.ssw.phase = .failed
    · have hs : fillWrite w (fuel + 1) n s = s := if_pos hstop
      rw [hs]
      exact ⟨h, Nat.le_add_right _ _⟩
    obtain ⟨hn0, hs⟩ := not_or.1 hstop
    rw [fillWrite_succ hn0 hs]
    have hm : s.ssw.cursor.toNat + min n s.cfg.fillBufBlks ≤ s.ssw.partSize.toNat := by omega
    have hcall := devWriteCall_along h hm (length_pattern w _).le
    have hcur : (s.ssw.cursor + BitVec.ofNat 32 (min n s.cfg.fillBufBlks)).toNat = s.ssw.cursor.toNat + min n s.cfg.fillBufBlks :=
      add_ofNat_toNat (Nat.lt_of_le_of_lt hm s.ssw.partSize.isLt)
    split
    · have hadv := hcall.advance (n := min n s.cfg.fillBufBlks) hm
      generalize ht : advance _ _ = t at hadv ⊢
      have htc : t.ssw.cursor.toNat = s.ssw.cursor.toNat + min n s.cfg.fillBufBlks := by rw [← ht]; exact hcur
      have htp : t.ssw.partSize = s.ssw.partSize := by rw [← ht]; rfl
      obtain ⟨hgo, hle⟩ := ih (n := n - min n s.cfg.fillBufBlks) hadv (by rw [htp]; omega)
      exact ⟨hgo, by omega⟩
    · exact ⟨(hcall.fail .dev).1, Nat.le_add_right _ _⟩

theorem eraseMid_along {mid : Nat} (h : Along s0 s) (hm : s.ssw.cursor.toNat + mid ≤ s.ssw.partSize.toNat) :
    Along s0 (eraseMid mid s) ∧ (eraseMid mid s).ssw.cursor.toNat ≤ s.ssw.cursor.toNat + mid := by
  have hcall := devEraseCall_along h hm
  have hcur : (s.ssw.cursor + BitVec.ofNat 32 mid).toNat = s.ssw.cursor.toNat + mid :=
    add_ofNat_toNat (Nat.lt_of_le_of_lt hm s.ssw.partSize.isLt)
  unfold eraseMid
  split
  · dsimp only
    split
    · exact ⟨hcall.advance hm, hcur.le⟩
    · exact ⟨(hcall.fail .dev).1, Nat.le_add_right _ _⟩
  · exact ⟨h, Nat.le_add_right _ _⟩

theorem doFill_along {w : Bytes} {n : Nat} (h : Along s0 s) (hn : s.ssw.cursor.toNat + n ≤ s.ssw.partSize.toNat) :
    Along s0 (doFill w n s) := by
  by_cases herase : s.cfg.fillStrategy = .eraseOpt ∧ w = [0, 0, 0, 0] ∧ s.cfg.eraseThreshBlks ≤ n
  case neg =>
    rw [doFill_write herase]
    exact (fillWrite_along w n h hn).1
  case pos =>
    rw [doFill_erase herase]
    have hparts := fill_parts s.cfg (cursorBlk s) n
    obtain ⟨h1, hc1⟩ := fillWrite_along w (fillHead s.cfg (cursorBlk s) n) h (n := fillHead s.cfg (cursorBlk s) n) (by omega)
    have hp1 : _ = s.ssw.partSize := h1.size.trans h.size.symm
    obtain ⟨h2, hc2⟩ := eraseMid_along (mid := fillMid s.cfg (cursorBlk s) n) h1 (by rw [hp1]; omega)
    have hp2 : _ = s.ssw.partSize := h2.size.trans h.size.symm
    exact (fillWrite_along w _ h2 (by rw [hp2]; omega)).1

theorem stepSpFill_safe (h : Safe s0 s) (hp : s.ssw.phase = .spFill) : GoSafe s0 (stepSpFill s) := by
  by_cases hl : s.ssw.hand.length < 4
  · rw [stepSpFill_wait hl]
    trivial
  rw [stepSpFill_go (not_lt.1 hl)]
  have heat : Along s0 (eatWord s) := (h.1.consume 4).withRegs rfl rfl rfl rfl
  have hcalls : Along s0 (fillCalls s) := doFill_along heat (h.2.fill hp)
  split
  next hfail =>
    refine ⟨hcalls, chunkFits_idle ?_⟩
    rw [hfail]
    decide
  next hfail =>
    obtain ⟨-, c, hssw⟩ := (doFill_frame (s.ssw.hand.take 4) (fillBlks s.ssw) (eatWord s)).resolve_left hfail
    refine hcalls.chunkDone ?_
    rw [fillCalls, hssw]
    exact h.2.sparse (.inr (.inr (.inl hp)))

theorem stepSpDone_safe (h : Safe s0 s) : GoSafe s0 (stepSpDone s) := by
  unfold stepSpDone
  split
  · exact h.1.fail _
  · trivial

theorem stepRaw_safe (h : Safe s0 s) (hp : s.ssw.phase = .raw) : GoSafe s0 (stepRaw s) := by
  by_cases h0 : s.ssw.imageBlocks = 0
  · rw [stepRaw_wait h0]
    trivial
  by_cases hroom : s.ssw.partSize.toNat < s.ssw.cursor.toNat + s.ssw.imageBlocks
  · rw [stepRaw_overrun h0 hroom]
    exact h.1.fail .overrun
  have hroom := not_lt.1 hroom
  obtain ⟨⟨ok, t⟩, hw⟩ : ∃ r, rawCall s.ssw.imageBlocks s = r := ⟨_, rfl⟩
  obtain ⟨⟨rb, u⟩, hr⟩ : ∃ r, devReadCall (cursorBlk s) s.ssw.imageBlocks t = r := ⟨_, rfl⟩
  rw [stepRaw_go hp h0 hroom hw hr]
  have ht : Along s0 (rawCall s.ssw.imageBlocks s).2 := devWriteCall_along h.1 hroom (by rw [List.length_take]; omega)
  have htssw : (rawCall s.ssw.imageBlocks s).2.ssw = s.ssw := rfl
  rw [hw] at ht htssw
  dsimp only at ht htssw
  have hblk : cursorBlk t = cursorBlk s := by rw [cursorBlk, htssw, cursorBlk]
  have hu : Along s0 (devReadCall (cursorBlk t) s.ssw.imageBlocks t).2 := devReadCall_along ht (by rwa [htssw])
  have hussw : (devReadCall (cursorBlk t) s.ssw.imageBlocks t).2.ssw = s.ssw := htssw
  rw [hblk, hr] at hu hussw
  dsimp only at hu hussw
  have hcur : (s.ssw.cursor + BitVec.ofNat 32 s.ssw.imageBlocks).toNat = s.ssw.cursor.toNat + s.ssw.imageBlocks :=
    add_ofNat_toNat (Nat.lt_of_le_of_lt hroom s.ssw.partSize.isLt)
  cases ok with
  | false => exact ht.fail .dev
  | true =>
    cases rb with
    | none => exact hu.fail .dev
    | some d =>
      refine ⟨hu.withSsw (w := s.ssw.readBack s.cfg s.ssw.imageBlocks d) (hcur.trans_le hroom) ?_ ?_ ?_, chunkFits_idle ?_⟩
      iterate 3 rw [hussw]; rfl
      show s.ssw.phase ∉ _
      rw [hp]
      decide

theorem pushStep_safe (h : Safe s0 s) : GoSafe s0 (pushStep s) := by
  unfold pushStep
  cases hp : s.ssw.phase with
  | closed | failed => trivial
  | detect => exact stepDetect_safe h
  | spHdr => exact stepSpHdr_safe h
  | spChunkHdr => exact stepSpChunkHdr_safe h hp
  | spRaw => exact stepSpRaw_safe h hp
  | spFill => exact stepSpFill_safe h hp
  | spDone => exact stepSpDone_safe h
  | raw => exact stepRaw_safe h hp

theorem pushLoop_safe (fuel : Nat) : ∀ {s : State}, Safe s0 s → Safe s0 (pushLoop fuel s) := by
  induction fuel with
  | zero => exact fun h => h
  | succ fuel ih =>
    intro s h
    have hstep := pushStep_safe h
    cases hs : pushStep s with
    | wait => rwa [pushLoop_wait _ hs]
    | go t =>
      rw [hs] at hstep
      rw [pushLoop_go _ hs]
      split
      · exact hstep
      · exact ih hstep

theorem pushEnd_inside (h : Inside s0 s) {r : Byte × State} (hr : pushEnd s = .ok r) : Inside s0 r.2 := by
  unfold pushEnd at hr
  split at hr
  · cases hr
    exact h.withSsw h.2.2
  split at hr
  · cases hr
  · cases hr
    exact h.withSsw h.2.2

/-- A push to the session that there is (rule R286). -/
theorem sswPushOp_inside (hinv : SswInv s0) (h : Inside s0 s) (hs : s.ssw = s0.ssw) {b : Bytes} {r : Byte × State}
    (hr : sswPushOp b s = .ok r) : Inside s0 r.2 := by
  unfold sswPushOp at hr
  split at hr
  · cases hr
    exact h
  next hopen =>
  split at hr
  · cases hr
    exact h
  split at hr
  · cases hr
    exact h
  split at hr
  · cases hr
  · rw [hs] at hopen
    obtain ⟨halong, hfits⟩ := safe_of_inv hinv hopen h hs
    refine pushEnd_inside (pushLoop_safe _ ?_).1.inside hr
    exact ⟨halong.withRegs rfl rfl rfl rfl, hfits.sparse, hfits.raw, hfits.fill⟩

theorem sswOpenOp_inside (h : Inside s0 s) (d : Desc) : Inside s0 (sswOpenOp d s).2 := by
  rw [sswOpenOp_eq]
  split
  · exact h
  split
  · exact h.withSsw (Nat.zero_le _)
  · exact h

theorem sswCloseOp_inside (h : Inside s0 s) : Inside s0 (sswCloseOp s).2 := by
  rw [sswCloseOp_eq]
  split
  · exact h
  · exact h.withSsw (Nat.zero_le _)

theorem pushBytes_inside (hinv : SswInv s) (b : Bytes) : Nexts (Inside s) (pushBytes b s) :=
  .withVal fun _ hr => sswPushOp_inside hinv (.refl hinv.2.2.2.1) rfl hr

/-- A row that is a step of the loop: without a session it does nothing (log 15). -/
theorem stepRow.inside {i : Instr} {p : Phase} {f : State → PushStep} (hrow : stepRow i p f) (hp : p ≠ .closed)
    (hinv : SswInv s) (hf : s.ssw.phase = p → Safe s s → GoSafe s (f s)) : Nexts (Inside s) (exec i s) := by
  have hrefl : Inside s s := .refl hinv.2.2.2.1
  rw [hrow, stepIn]
  split
  next hphase =>
    have hgo := hf hphase (safe_of_inv hinv (hphase ▸ hp) hrefl rfl)
    split
    · exact hrefl
    next hs =>
      rw [hs] at hgo
      exact hgo.1.inside
  · exact hrefl

end

/-! ## UPE (41_uart_engine.md) -/

section
variable {s0 s : State} (h : Inside s0 s)
include h

theorem tx_inside (b : Bytes) : Inside s0 (tx b s) := h.act trivial

theorem nakFrame_inside (e : UpeErr) : Inside s0 (nakFrame e s) := tx_inside h _

theorem switchDir_inside (d : Dir) : Inside s0 (switchDir d s) := by
  unfold switchDir
  split
  · exact h
  · exact h.ite h

theorem sendSlice_inside {k : State → Result} (hk : ∀ t, Inside s0 t → Nexts (Inside s0) (k t)) (t : Task) (n : Nat) :
    Nexts (Inside s0) (sendSlice t n k s) := by
  refine .withVal fun data _ => ?_
  split
  · exact hk _ (tx_inside h _)
  · trivial

theorem trySend_inside : Nexts (Inside s0) (trySend s) := by
  have hregs : ∀ u, Inside s0 (s.withUpe u) := fun _ => h
  unfold trySend
  split
  · split
    · exact h
    · refine sendSlice_inside (hregs _) ?_ _ _
      exact fun _ ht => ht
  · exact h

theorem retransmit_inside : Nexts (Inside s0) (retransmit s) := by
  unfold retransmit
  split
  · trivial
  · refine sendSlice_inside h ?_ _ _
    exact fun _ ht => ht

theorem cmdAck_inside : Nexts (Inside s0) (cmdAck s) := by
  unfold cmdAck
  split
  · trivial
  · dsimp only
    split <;> exact h

theorem commandByte_inside (b : Byte) : Nexts (Inside s0) (commandByte b s) := by
  unfold commandByte
  split
  · exact tx_inside h _
  split
  · exact switchDir_inside h _
  split
  · exact switchDir_inside h _
  split
  · exact cmdAck_inside h
  split
  · exact retransmit_inside h
  · exact h

theorem acceptFrame_inside (blk : Byte) (data : Bytes) : Nexts (Inside s0) (acceptFrame blk data s) := by
  unfold acceptFrame
  split
  · exact nakFrame_inside h _
  split
  · exact nakFrame_inside h _
  split
  · exact nakFrame_inside h _
  refine .withVal fun m _ => ?_
  dsimp only
  split <;> exact tx_inside h _

theorem completeFrame_inside (frame : Bytes) : Nexts (Inside s0) (completeFrame frame s) := by
  unfold completeFrame
  split
  · exact nakFrame_inside h _
  split
  · exact nakFrame_inside h _
  · exact tx_inside h _
  · exact acceptFrame_inside h _ _

theorem frameByte_inside (b : Byte) : Nexts (Inside s0) (frameByte b s) := by
  refine .withVal fun m _ => ?_
  extract_lets n frame _ s1
  split
  · trivial
  · exact h
  · extract_lets s2
    split
    · exact completeFrame_inside (s := s2) h _
    · exact h

theorem uartRx_inside (b : Byte) : Nexts (Inside s0) (uartRx b s) := by
  unfold uartRx
  split
  · exact h
  extract_lets _ s1
  have h1 : Inside s0 s1 := h
  refine .andThen ?_ fun _ ht => trySend_inside ht
  split
  · exact frameByte_inside h1 b
  · exact commandByte_inside h1 b

omit h in
theorem uartRxs_inside (b : Bytes) : ∀ {s : State}, Inside s0 s → Nexts (Inside s0) (uartRxs b s) := by
  induction b with
  | nil => exact fun h => h
  | cons x r ih => exact fun h => .andThen (uartRx_inside h x) fun _ ht => ih ht

theorem startTask_inside (t : Task) : Nexts (Inside s0) (startTask t s) := by
  unfold startTask
  split
  · exact h
  split
  · exact h
  split
  · exact h
  exact .andThen (trySend_inside (s := s.withUpe _) h) fun _ ht => ht

theorem tickOp_inside : Nexts (Inside s0) (tickOp s) := by
  unfold tickOp
  split
  · exact h
  extract_lets s1 s2
  have h1 : Inside s0 s1 := h
  have h2 : Inside s0 s2 := Inside.ite (s := frameWatchdog s1) (tx_inside (s := s1) h1 _) h1
  split
  · exact h1
  refine .andThen ?_ fun _ ht => trySend_inside ht
  split
  · exact retransmit_inside (s := raiseUpe _ s2) h2
  · exact h2

theorem execUpeDeinit_inside : Nexts (Inside s0) (execUpeDeinit s) := by
  unfold execUpeDeinit
  split <;> exact h

theorem execGetStatus_inside : Nexts (Inside s0) (execGetStatus s) := by
  unfold execGetStatus
  split <;> exact h

end

/-! ## UTE (42_usb_engine.md) -/

section
variable {s0 s : State} (h : Inside s0 s)
include h

theorem submitCsw_inside (tag res : U32) (st : Byte) : Inside s0 (submitCsw tag res st s) := h.act trivial

theorem dispStatusCall_inside : Inside s0 (dispStatusCall s).2 := by
  rw [dispStatusCall_eq]
  exact h.act (a := .dispStatus s.verdict) trivial

theorem sendCsw_inside : Inside s0 (sendCsw s) := by
  unfold sendCsw
  split
  · exact submitCsw_inside h _ _ _
  · exact submitCsw_inside (dispStatusCall_inside h) _ _ _

theorem armOutPacket_inside : Inside s0 (armOutPacket s) := h.act trivial

theorem submitInPacket_inside : Nexts (Inside s0) (submitInPacket s) := .withVal fun _ _ => h.act trivial

theorem startInTask_inside : Nexts (Inside s0) (startInTask s) := by
  rw [startInTask_eq]
  unfold State.supplied
  extract_lets want a d _ _ s1
  have h1 : Inside s0 s1 := h.act (a := .dispIn want d) trivial
  show Inside s0 (ite _ _ _)
  split
  · rw [← sendCsw_eq]
    exact sendCsw_inside h1
  · exact h1.act (a := .epSend _) trivial

theorem forwardTask_inside {t : State} (ht : forwardTask s = .ok t) : Inside s0 t := by
  unfold forwardTask at ht
  split at ht
  · split at ht
    · cases ht
    next b _ =>
      have h1 : Inside s0 (dispOutCall b s).2 := Inside.act (s := s.withAns _) h trivial
      dsimp only at ht
      split at ht <;> cases ht <;> exact h1
  · cases ht
    exact h

theorem beginData_inside : Nexts (Inside s0) (beginData s) := by
  have he : Inside s0 (dispExpectCall s.ute.cmd s.ute.dlen s).2 := Inside.act (s := s.withAns _) h trivial
  unfold beginData
  dsimp only
  generalize dispExpectCall s.ute.cmd s.ute.dlen s = p at he ⊢
  have h2 : Inside s0 (if p.1 ≠ p.2.ute.dlen then raiseUte .length p.2 else p.2) := Inside.ite (s := raiseUte _ _) he he
  generalize (if p.1 ≠ p.2.ute.dlen then raiseUte .length p.2 else p.2) = s2 at h2 ⊢
  split
  · split
    · exact sendCsw_inside (s := s2.withUte _) h2
    · exact startInTask_inside (s := s2.withUte _) h2
  · split
    · exact sendCsw_inside (s := s2.withUte _) h2
    · exact armOutPacket_inside (s := s2.withUte _) h2

theorem outReadCbw_inside (b : Bytes) : Nexts (Inside s0) (outReadCbw b s) := by
  unfold outReadCbw
  dsimp only
  split
  · exact sendCsw_inside (s := s.withUte _) h
  split
  · exact beginData_inside (s := s.withUte _) h
  · exact sendCsw_inside (s := s.withUte _) h

theorem outData_inside (b : Bytes) : Nexts (Inside s0) (outData b s) := by
  unfold outData
  split
  · trivial
  refine .withVal fun m _ => ?_
  extract_lets n _ s1 short s2
  have h2 : Inside s0 s2 := Inside.ite (s := raiseUte _ _) h h
  split
  · refine .withVal fun s3 h3 => ?_
    have h3 := forwardTask_inside h2 h3
    split
    · exact sendCsw_inside h3
    · exact armOutPacket_inside (s := s3.withUte _) h3
  · exact armOutPacket_inside (s := s2.withUte _) h2

theorem outDone_inside (b : Bytes) : Nexts (Inside s0) (outDone b s) := by
  unfold outDone
  split
  · cases s.ute.stage with
    | readCbw => exact outReadCbw_inside h b
    | dataOut | dataOutBuf => exact outData_inside h b
    | dataIn | dataInBuf | sendCsw | waitCsw => exact h
  · exact h

theorem inData_inside (n : U32) : Nexts (Inside s0) (inData n s) := by
  unfold inData
  split
  · trivial
  dsimp only
  split
  · split
    · exact sendCsw_inside (s := s.withUte _) h
    · exact startInTask_inside (s := s.withUte _) h
  · exact submitInPacket_inside (s := s.withUte _) h

theorem inDone_inside (n : U32) : Nexts (Inside s0) (inDone n s) := by
  unfold inDone
  split
  · cases s.ute.stage with
    | dataIn | dataInBuf => exact inData_inside h n
    | waitCsw => exact Inside.act (s := s.withUte _) h trivial
    | readCbw | dataOut | dataOutBuf | sendCsw => exact h
  · exact h

theorem uteInitOp_inside : Inside s0 (uteInitOp s) := Inside.act (s := s.withUte _) h trivial

theorem usbResetOp_inside : Inside s0 (usbResetOp s) := (uteInitOp_inside h).ite h

end

/-! ## The action rows (rule R8) and the dispatcher (44_command_interface.md) -/

section
variable {s0 s : State} (h : Inside s0 s)
include h

theorem retLast_inside : Inside s0 (retLast s) := by
  unfold retLast
  split <;> exact h

/-- A handler finds the session as it is, or opens and closes one without a device call. -/
theorem handleSetMeta_inside (via : Transport) (payload : Bytes) : Inside s0 (handleSetMeta via payload s).2 := by
  have hl : Inside s0 (lookupCall payload s).2 := Inside.act (s := s.withAns _) h trivial
  unfold handleSetMeta
  split
  · exact h
  dsimp only
  split
  · exact hl
  · have h3 := sswOpenOp_inside (hl.ite (p := (lookupCall payload s).2.ssw.phase = .closed) (sswCloseOp_inside hl))
    exact Inside.ite (s := State.withCdi _ _) (h3 _) (h3 _)

theorem handleSendData_inside (hinv : SswInv s0) (hs : s.ssw = s0.ssw) {payload : Bytes} {r : Reply × State}
    (hr : handleSendData payload s = .ok r) : Inside s0 r.2 := by
  unfold handleSendData at hr
  split at hr
  · cases hr
  next code s1 hp =>
    cases hr
    exact sswPushOp_inside hinv h hs hp

theorem handleSetCfg_inside (payload : Bytes) : Inside s0 (handleSetCfg payload s).2 := by
  have hm : Inside s0 (readModeCall payload s).2 := Inside.act (s := s.withAns _) h trivial
  unfold handleSetCfg
  dsimp only
  split <;> exact hm

theorem handlerOf_inside (hinv : SswInv s0) (hs : s.ssw = s0.ssw) {via : Transport} {cmd : Byte} {payload : Bytes}
    {e : Except Fault (Reply × State)} {r : Reply × State} (he : handlerOf via cmd payload s = some e) (hr : e = .ok r) :
    Inside s0 r.2 := by
  subst hr
  unfold handlerOf at he
  split at he
  · cases he
    exact handleSetMeta_inside h via payload
  split at he
  · exact handleSendData_inside h hinv hs (Option.some.inj he)
  split at he
  · cases he
    exact h
  split at he
  · cases he
    exact h
  split at he
  · cases he
    exact handleSetCfg_inside h payload
  split at he
  · cases he
    exact sswCloseOp_inside h
  · cases he

theorem handleCommandOp_inside (hinv : SswInv s0) (hs : s.ssw = s0.ssw) (via : Transport) (hb payload : Bytes) :
    Nexts (Inside s0) (handleCommandOp via hb payload s) := by
  have hnote : ∀ rejected, Inside s0 (noteHeader via rejected s) ∧ (noteHeader via rejected s).ssw = s0.ssw := by
    cases via <;> exact fun _ => ⟨h, hs⟩
  unfold handleCommandOp
  split
  · exact (hnote _).1
  extract_lets n
  split
  · exact (hnote _).1
  split
  · exact (hnote _).1
  next e he => exact .withVal fun _ hr => handlerOf_inside (hnote _).1 hinv (hnote _).2 he hr

theorem checkUpgModeOp_inside (now : U64) : Inside s0 (checkUpgModeOp now s) := by
  unfold checkUpgModeOp
  split
  · exact h
  · exact Inside.ite (s := State.withRet _ _) h h

end

/-! ## The rows -/

/-- Every row but the device calls, by the lemma of the operation that it is. -/
theorem exec_inside {s : State} {i : Instr} (hinv : SswInv s) (hi : ¬ isDeviceCall i) : Nexts (Inside s) (exec i s) := by
  have h : Inside s s := .refl hinv.2.2.2.1
  cases i with
  | sigC | dc1 | dc2 | ack | nak | can | soh | stx | uartDropped | uartRx => exact uartRx_inside h _
  | shortFrame | longFrame => exact uartRxs_inside _ h
  | cbwWrite | cbwRead | cbwMalformed | outDoneReadCbw | outDoneDataOut => exact outDone_inside h _
  | inDoneDataIn | inDoneWaitCsw => exact inDone_inside h _
  | doneIgnored done =>
    cases done with
    | out b => exact outDone_inside h b
    | inn n => exact inDone_inside h n
  | csw => exact submitCsw_inside h _ _ _
  | sparseHeader | chunkRaw | chunkFill | chunkDontCare | chunkCrc32 | chunkUnknown | sswPush => exact pushBytes_inside hinv _
  | commandHeader | responseHeader | hdrEncodeCmd | hdrDecodeCmd | hdrEncodeRsp | hdrDecodeRsp => exact h
  | crc16 | packShort | packLong | packFrame | frameTotal | unpack | slice | split => exact h
  | cmdSetFwcMeta | cmdSendFwcData | cmdGetFwcCrc | cmdGetFwcBurnResult | cmdSetUpgCfg | cmdSetUpgEnd | handleCommand =>
    exact handleCommandOp_inside h hinv rfl _ _ _
  | checkUpgMode => exact checkUpgModeOp_inside h _
  | reset => exact h.withSsw (Nat.zero_le _)
  | tick => exact tickOp_inside h
  | upeInit => exact tx_inside (s := s.withUpe _) h _
  | upeDeinit => exact execUpeDeinit_inside h
  | startRead | startWrite => exact startTask_inside h _
  | getStatus => exact execGetStatus_inside h
  | setStatus => exact h
  | uteInit => exact uteInitOp_inside h
  | usbReset => exact usbResetOp_inside h
  | sswOpen => exact sswOpenOp_inside h _
  | sswClose => exact sswCloseOp_inside h
  | pushDetect => exact pushDetect_row.inside nofun hinv fun _ => stepDetect_safe
  | pushSpHdr => exact pushSpHdr_row.inside nofun hinv fun _ => stepSpHdr_safe
  | pushSpChunkHdr => exact pushSpChunkHdr_row.inside nofun hinv fun hp hs => stepSpChunkHdr_safe hs hp
  | pushSpRaw => exact pushSpRaw_row.inside nofun hinv fun hp hs => stepSpRaw_safe hs hp
  | pushSpFill => exact pushSpFill_row.inside nofun hinv fun hp hs => stepSpFill_safe hs hp
  | pushSpDone => exact pushSpDone_row.inside nofun hinv fun _ => stepSpDone_safe
  | pushRaw => exact pushRaw_row.inside nofun hinv fun hp hs => stepRaw_safe hs hp
  | sswGetResult | sswGetCrc => exact h
  | uartTx | epRecv | epSend | progress => exact h.act trivial
  | dispExpect | dispOut | dispIn => exact retLast_inside (Inside.act (s := s.withAns _) h trivial)
  | dispStatus => exact retLast_inside (dispStatusCall_inside h)
  | devWrite | devRead | devErase => exact absurd trivial hi

/-- Settles O34: a row stays within the partition, whatever it is. -/
theorem partitionSafe : Obligations.PartitionSafe := by
  intro s t i hinv hi ht
  have h := exec_inside hinv hi
  rw [ht] at h
  exact h

end Sys2Proof.Machine
end

section
/-! PROOFS. Cut-independence (rule R311). Two runs of the loop of rule R286 are compared, of which one has bytes at hand that the other
is still to get: each step of the one is a step of the other, but that a step that writes blocks writes more of them where more are at
hand, as the other does in its next step. -/

namespace Sys2Proof.Machine

/-! ## A run that has more bytes at hand -/

/-- `s'` is `s` with the bytes `e` more at hand: of the rest only the old length of the leftover may differ, and what the device has
been asked, but not what STORE holds and not the reports of progress. -/
structure Ahead (e : Bytes) (s s' : State) : Prop where
  cfg : s'.cfg = s.cfg
  regs : ∃ n, s'.ssw = { s.ssw with hand := s.ssw.hand ++ e, leftLen := n }
  done : s.ssw.phase = .failed → s.ssw.leftLen = 0 ∧ s'.ssw.leftLen = 0
  store : sameBytes s.store s'.store
  reports : s'.log.filter isProgress = s.log.filter isProgress

section
variable {e : Bytes} {s s' t t' q : State}

theorem Ahead.refl (h : s.ssw.phase = .failed → s.ssw.leftLen = 0) : Ahead [] s s :=
  ⟨rfl, ⟨s.ssw.leftLen, by simp⟩, fun hp => ⟨h hp, h hp⟩, fun _ => rfl, rfl⟩

theorem Ahead.trans {d : Bytes} (h : Ahead d s t) (h' : Ahead e t q) : Ahead (d ++ e) s q := by
  obtain ⟨n, hn⟩ := h.regs
  obtain ⟨m, hm⟩ := h'.regs
  refine ⟨h'.cfg.trans h.cfg, ⟨m, by rw [hm, hn]; simp⟩, fun hp => ⟨(h.done hp).1, (h'.done ?_).2⟩,
    fun a => (h'.store a).trans (h.store a), h'.reports.trans h.reports⟩
  rw [hn]
  exact hp

/-- Two runs that have the same bytes more than a third have the same bytes. -/
theorem Ahead.alike (h : Ahead e s t) (h' : Ahead e s q) : Ahead [] t q := by
  obtain ⟨n, hn⟩ := h.regs
  obtain ⟨m, hm⟩ := h'.regs
  refine ⟨h'.cfg.trans h.cfg.symm, ⟨m, by rw [hm, hn]; simp⟩, fun hp => ?_, fun a => (h'.store a).trans (h.store a).symm,
    h'.reports.trans h.reports.symm⟩
  rw [hn] at hp
  exact ⟨(h.done hp).2, (h'.done hp).2⟩

theorem Ahead.symm (h : Ahead [] s t) : Ahead [] t s := by
  obtain ⟨n, hn⟩ := h.regs
  refine h.alike ⟨rfl, ⟨s.ssw.leftLen, by simp⟩, fun hp => ⟨(h.done hp).1, (h.done hp).1⟩, fun _ => rfl, rfl⟩

theorem Ahead.phase (h : Ahead e s s') : s'.ssw.phase = s.ssw.phase := by
  obtain ⟨n, hn⟩ := h.regs
  rw [hn]

theorem Ahead.hand (h : Ahead e s s') : s'.ssw.hand = s.ssw.hand ++ e := by
  obtain ⟨n, hn⟩ := h.regs
  rw [hn]

/-- Both runs get new registers. -/
theorem Ahead.withSsw (h : Ahead e s s') {w w' : Ssw} (hw : ∃ n, w' = { w with hand := w.hand ++ e, leftLen := n })
    (hp : w.phase ≠ .failed) : Ahead e (s.withSsw w) (s'.withSsw w') :=
  ⟨h.cfg, hw, fun hf => absurd hf hp, h.store, h.reports⟩

theorem Ahead.consume (h : Ahead e s s') {n : Nat} (hn : n ≤ s.ssw.hand.length) (hp : s.ssw.phase ≠ .failed) :
    Ahead e (consume n s) (consume n s') := by
  obtain ⟨m, hm⟩ := h.regs
  refine h.withSsw ⟨m, ?_⟩ hp
  simp only [hm, h.cfg, List.take_append_of_le_length hn, List.drop_append_of_le_length hn]

theorem Ahead.fail (h : Ahead e s s') (c : SswCode) : Ahead e (failSsw c s) (failSsw c s') := by
  obtain ⟨m, hm⟩ := h.regs
  refine ⟨h.cfg, ⟨0, ?_⟩, fun _ => ⟨rfl, rfl⟩, h.store, h.reports⟩
  simp only [failSsw, State.withSsw, hm]

theorem Ahead.raise (h : Ahead e s s') (c : SswCode) (hp : s.ssw.phase ≠ .failed) : Ahead e (raiseSsw c s) (raiseSsw c s') := by
  obtain ⟨m, hm⟩ := h.regs
  exact h.withSsw ⟨m, by rw [hm]⟩ hp

theorem Ahead.advance (h : Ahead e s s') (n : Nat) (hp : s.ssw.phase ≠ .failed) : Ahead e (advance n s) (advance n s') := by
  obtain ⟨m, hm⟩ := h.regs
  exact h.withSsw ⟨m, by rw [hm]⟩ hp

/-- A chunk that ends leaves the writer at the next header or at the end (rule R289). -/
theorem chunkDone_phase (s : State) : (chunkDone s).ssw.phase = .spDone ∨ (chunkDone s).ssw.phase = .spChunkHdr := by
  rw [chunkDone_eq]
  exact ite_eq_or_eq _ _ _

theorem chunkDone_alive (s : State) : (chunkDone s).ssw.phase ≠ .failed := by
  rcases chunkDone_phase s with h | h <;> rw [h] <;> decide

theorem Ahead.chunkDone (h : Ahead e s s') : Ahead e (chunkDone s) (chunkDone s') := by
  obtain ⟨m, hm⟩ := h.regs
  refine ⟨h.cfg, ⟨m, ?_⟩, fun hp => absurd hp (chunkDone_alive s), h.store, ?_⟩
  · rw [chunkDone_eq, chunkDone_eq]
    simp only [State.chunkEnded, hm]
  · rw [chunkDone_eq, chunkDone_eq]
    simp only [State.chunkEnded, hm, List.filter_append, h.reports]

/-! ## The steps that make no device call -/

theorem le16_append {b : Bytes} {i : Nat} (h : i + 2 ≤ b.length) (e : Bytes) : le16 (b ++ e) i = le16 b i := by
  rw [le16, le16, byteAt_append (by omega), byteAt_append (by omega)]

theorem le32_append {b : Bytes} {i : Nat} (h : i + 4 ≤ b.length) (e : Bytes) : le32 (b ++ e) i = le32 b i := by
  rw [le32, le32, byteAt_append (by omega), byteAt_append (by omega), byteAt_append (by omega), byteAt_append (by omega)]

theorem Ahead.length_le (h : Ahead e s s') : s.ssw.hand.length ≤ s'.ssw.hand.length := by
  rw [h.hand, List.length_append]
  omega

theorem Ahead.take (h : Ahead e s s') {n : Nat} (hn : n ≤ s.ssw.hand.length) : s'.ssw.hand.take n = s.ssw.hand.take n := by
  rw [h.hand, List.take_append_of_le_length hn]

theorem stepDetect_ahead (h : Ahead e s s') (hstep : stepDetect s = .go t) : ∃ t', stepDetect s' = .go t' ∧ Ahead e t t' := by
  obtain ⟨m, hm⟩ := h.regs
  by_cases hl : s.ssw.hand.length < 4
  · rw [stepDetect_wait hl] at hstep
    cases hstep
  have hmagic : le32 s'.ssw.hand 0 = le32 s.ssw.hand 0 := by rw [h.hand, le32_append (by omega)]
  rw [stepDetect_go (not_lt.1 hl)] at hstep
  cases hstep
  refine ⟨_, stepDetect_go ((not_lt.1 hl).trans h.length_le), h.withSsw ⟨m, ?_⟩ (by split <;> simp)⟩
  rw [hmagic, h.cfg, hm]

theorem stepSpHdr_ahead (h : Ahead e s s') (hp : s.ssw.phase ≠ .failed) (hlen : 28 ≤ s.cfg.sparseHdrLen)
    (hstep : stepSpHdr s = .go t) : ∃ t', stepSpHdr s' = .go t' ∧ Ahead e t t' := by
  by_cases hl : s.ssw.hand.length < s.cfg.sparseHdrLen
  · rw [stepSpHdr_wait hl] at hstep
    cases hstep
  have hl := not_lt.1 hl
  rw [stepSpHdr_go hlen hl] at hstep
  cases hstep
  refine ⟨_, stepSpHdr_go (by rwa [h.cfg]) (by rw [h.cfg]; exact hl.trans h.length_le), ?_⟩
  have hbs : s'.ssw.bs = s.ssw.bs := by
    obtain ⟨m, hm⟩ := h.regs
    rw [hm]
  have h8 : le16 s'.ssw.hand 8 = le16 s.ssw.hand 8 := by rw [h.hand, le16_append (by omega)]
  have h10 : le16 s'.ssw.hand 10 = le16 s.ssw.hand 10 := by rw [h.hand, le16_append (by omega)]
  have h32 : ∀ i, i + 4 ≤ 28 → le32 s'.ssw.hand i = le32 s.ssw.hand i := fun i hi => by rw [h.hand, le32_append (by omega)]
  have hok : sparseHdrOk s' ↔ sparseHdrOk s := by rw [sparseHdrOk, h8, h10, h32 12 (by decide), hbs, h.cfg]
  by_cases hs : sparseHdrOk s
  · rw [if_pos hs, if_pos (hok.2 hs), h32 12 (by decide), h32 16 (by decide), h32 20 (by decide), h.cfg]
    have hate := h.consume hl hp
    obtain ⟨m, hm⟩ := hate.regs
    have halive : (if le32 s.ssw.hand 20 = 0 then Phase.spDone else .spChunkHdr) ≠ .failed := by split <;> decide
    refine ⟨rfl, ⟨m, ?_⟩, fun hf => absurd hf halive, h.store, h.reports⟩
    have hssw : (consume s.cfg.sparseHdrLen s').ssw = s'.ssw.ate s.cfg s.cfg.sparseHdrLen := by rw [consume_eq, h.cfg]
    rw [← hssw, hm]
    rfl
  · rw [if_neg hs, if_neg (mt hok.1 hs)]
    exact h.fail .hdr

/-- The registers with a chunk header that has been consumed, read as `eff` (rules R290, R297). -/
def Ssw.withHeader (w : Ssw) (hdr eff : Bytes) : Ssw :=
  { w with
    curHdr := eff
    lastHdr := if eff = hdr then hdr else w.lastHdr
    lastValid := if eff = hdr then true else w.lastValid }

/-- A raw chunk of `n` bytes begins (rule R290). -/
def beginRaw (n : U32) (s : State) : State :=
  if n = 0 then chunkDone (s.withSsw { s.ssw with chunkRem := n })
  else s.withSsw { s.ssw with chunkRem := n, phase := .spRaw }

/-- A chunk begins whose header has been consumed; `n` is its blocks (rule R290). -/
def beginChunk (eff : Bytes) (k : ChunkKind) (n : Nat) (s : State) : State :=
  match k with
  | .raw => beginRaw (BitVec.ofNat 32 (chunkWant .raw (le32 eff 4) s.ssw.sbs)) s
  | .fill => s.withSsw { s.ssw with chunkRem := 4, phase := .spFill }
  | .dontCare => chunkDone (advance n s)
  | .crc32 => chunkDone s

/-- The state with the header consumed. -/
def eatHeader (hdr eff : Bytes) (s : State) : State :=
  (consume s.cfg.chunkHdrLen s).withSsw ((consume s.cfg.chunkHdrLen s).ssw.withHeader hdr eff)

theorem takeChunk_eq (hdr eff : Bytes) (k : ChunkKind) (s : State) : takeChunk hdr eff k s =
    if (le32 eff 8).toNat ≠ s.cfg.chunkHdrLen + chunkWant k (le32 eff 4) s.ssw.sbs then failSsw .chunkHdr s
    else if k ≠ .crc32 ∧ s.ssw.partSize.toNat < s.ssw.cursor.toNat + chunkBlks (le32 eff 4) s.ssw then failSsw .overrun s
    else beginChunk eff k (chunkBlks (le32 eff 4) s.ssw) (eatHeader hdr eff s) := by
  cases k <;> rfl

theorem Ahead.beginRaw (h : Ahead e s s') (hp : s.ssw.phase ≠ .failed) (n : U32) :
    Ahead e (beginRaw n s) (beginRaw n s') := by
  obtain ⟨m, hm⟩ := h.regs
  unfold Machine.beginRaw
  split
  · refine Ahead.chunkDone (h.withSsw ⟨m, ?_⟩ hp)
    rw [hm]
  · exact h.withSsw ⟨m, by rw [hm]⟩ Phase.noConfusion

theorem Ahead.beginChunk (h : Ahead e s s') (hp : s.ssw.phase ≠ .failed) (eff : Bytes) (k : ChunkKind) (n : Nat) :
    Ahead e (beginChunk eff k n s) (beginChunk eff k n s') := by
  obtain ⟨m, hm⟩ := h.regs
  have hsbs : s'.ssw.sbs = s.ssw.sbs := by rw [hm]
  cases k with
  | raw =>
    rw [Machine.beginChunk, Machine.beginChunk, hsbs]
    exact h.beginRaw hp _
  | fill => exact h.withSsw ⟨m, by rw [hm]⟩ Phase.noConfusion
  | dontCare => exact (h.advance n hp).chunkDone
  | crc32 => exact h.chunkDone

theorem Ahead.eatHeader (h : Ahead e s s') (hp : s.ssw.phase ≠ .failed) (hl : s.cfg.chunkHdrLen ≤ s.ssw.hand.length)
    (hdr eff : Bytes) : Ahead e (eatHeader hdr eff s) (eatHeader hdr eff s') := by
  have hate := h.consume hl hp
  obtain ⟨m, hm⟩ := hate.regs
  unfold Machine.eatHeader
  rw [h.cfg]
  exact hate.withSsw ⟨m, by rw [hm]; rfl⟩ hp

theorem takeChunk_ahead (h : Ahead e s s') (hp : s.ssw.phase ≠ .failed) (hl : s.cfg.chunkHdrLen ≤ s.ssw.hand.length)
    (hdr eff : Bytes) (k : ChunkKind) : Ahead e (takeChunk hdr eff k s) (takeChunk hdr eff k s') := by
  obtain ⟨m, hm⟩ := h.regs
  have hsame : s'.ssw.sbs = s.ssw.sbs ∧ s'.ssw.partSize = s.ssw.partSize ∧ s'.ssw.cursor = s.ssw.cursor ∧
      chunkBlks (le32 eff 4) s'.ssw = chunkBlks (le32 eff 4) s.ssw := by
    rw [hm]
    exact ⟨rfl, rfl, rfl, rfl⟩
  obtain ⟨hsbs, hsize, hcur, hblks⟩ := hsame
  rw [takeChunk_eq, takeChunk_eq, h.cfg, hsbs, hsize, hcur, hblks]
  split
  · exact h.fail _
  split
  · exact h.fail _
  · exact (h.eatHeader hp hl _ _).beginChunk hp _ _ _

theorem unknownChunk_ahead (h : Ahead e s s') (hp : s.ssw.phase ≠ .failed) (hl : s.cfg.chunkHdrLen ≤ s.ssw.hand.length)
    (hdr : Bytes) : Ahead e (unknownChunk hdr s) (unknownChunk hdr s') := by
  have hr := h.raise .chunkType hp
  obtain ⟨m, hm⟩ := hr.regs
  have hlast : (raiseSsw .chunkType s').ssw.lastHdr = (raiseSsw .chunkType s).ssw.lastHdr ∧
      (raiseSsw .chunkType s').ssw.lastValid = (raiseSsw .chunkType s).ssw.lastValid := by
    rw [hm]
    exact ⟨rfl, rfl⟩
  unfold unknownChunk
  dsimp only
  rw [hr.cfg, hlast.1, hlast.2]
  split
  · exact hr.fail _
  split
  · exact hr.fail _
  · exact takeChunk_ahead hr hp hl _ _ _

theorem stepSpChunkHdr_ahead (h : Ahead e s s') (hp : s.ssw.phase ≠ .failed) (hstep : stepSpChunkHdr s = .go t) :
    ∃ t', stepSpChunkHdr s' = .go t' ∧ Ahead e t t' := by
  by_cases hl : s.ssw.hand.length < s.cfg.chunkHdrLen
  · rw [stepSpChunkHdr_wait hl] at hstep
    cases hstep
  have hl := not_lt.1 hl
  have hl' : s'.cfg.chunkHdrLen ≤ s'.ssw.hand.length := by rw [h.cfg]; exact hl.trans h.length_le
  have htake : s'.ssw.hand.take s'.cfg.chunkHdrLen = s.ssw.hand.take s.cfg.chunkHdrLen := by rw [h.cfg, h.take hl]
  cases hk : chunkKind s.cfg (s.ssw.hand.take s.cfg.chunkHdrLen) with
  | some k =>
    rw [stepSpChunkHdr_known hl hk] at hstep
    cases hstep
    rw [stepSpChunkHdr_known hl' (by rw [htake, h.cfg]; exact hk), htake]
    exact ⟨_, rfl, takeChunk_ahead h hp hl _ _ _⟩
  | none =>
    rw [stepSpChunkHdr_unknown hl hk] at hstep
    cases hstep
    rw [stepSpChunkHdr_unknown hl' (by rw [htake, h.cfg]; exact hk), htake]
    exact ⟨_, rfl, unknownChunk_ahead h hp hl _⟩

theorem stepSpDone_ahead (h : Ahead e s s') (hstep : stepSpDone s = .go t) : ∃ t', stepSpDone s' = .go t' ∧ Ahead e t t' := by
  by_cases hh : s.ssw.hand = []
  · rw [stepSpDone_wait hh] at hstep
    cases hstep
  rw [stepSpDone_go hh] at hstep
  cases hstep
  refine ⟨_, stepSpDone_go ?_, h.fail .trailing⟩
  rw [h.hand]
  exact List.append_ne_nil_of_left_ne_nil hh _

end

end Sys2Proof.Machine
end

section
/-! PROOFS. The steps of a running PUSH that write blocks, on a device that answers ok and gives back what is stored: they leave what
a function of the state says, so that blocks written in two steps are the same as in one (rules R293, R294, R301, R310). -/

namespace Sys2Proof.Machine

/-! ## What a running PUSH has to do with -/

/-- What holds of a running PUSH before each step, unless it has failed. -/
structure Ready (s : State) : Prop where
  alive : s.ssw.phase ≠ .failed
  pushing : Pushing s
  cursor : s.ssw.cursor.toNat ≤ s.ssw.partSize.toNat
  block : 4 ≤ s.ssw.bs.toNat ∧ s.ssw.bs.toNat % 4 = 0
  fits : ChunkFits s.ssw

/-- A raw image of which `n` bytes are still to be written fits the partition (rule R301). -/
def Ssw.roomFor (w : Ssw) (n : Nat) : Prop := w.cursor.toNat + n / w.bs.toNat ≤ w.partSize.toNat

/-- The device will be faithful for the bytes at hand and the bytes `r` behind them, and they fit if they are a raw image. -/
structure Provided (r : Bytes) (s : State) : Prop where
  answers : s.faithful ((s.ssw.hand ++ r).length * (s.ssw.partSize.toNat + 1))
  image : s.ssw.phase = .raw → s.ssw.roomFor (s.ssw.hand ++ r).length
  magic : s.ssw.phase = .detect → le32 (s.ssw.hand ++ r) 0 ≠ s.cfg.sparseMagic → s.ssw.roomFor (s.ssw.hand ++ r).length

section
variable {e r : Bytes} {s s' t q : State} {i j k n m : Nat}

theorem Ready.safe (h : Ready s) : Safe s s :=
  ⟨⟨.refl h.cursor, rfl, rfl, rfl, h.block⟩, h.fits⟩

/-- A step that does not fail keeps it, keeps the partition, and leaves fewer turns. -/
theorem Ready.step (h : Ready s) (hstep : pushStep s = .go t) (ht : t.ssw.phase ≠ .failed) :
    Ready t ∧ turnsLeft t.ssw < turnsLeft s.ssw ∧ t.ssw.partSize = s.ssw.partSize ∧ t.ssw.bs = s.ssw.bs := by
  have hgo := pushStep_goesOn h.pushing h.alive
  have hsafe := pushStep_safe h.safe
  rw [hstep] at hgo hsafe
  obtain ⟨hpush, hless⟩ := hgo.resolve_left ht
  obtain ⟨halong, hfits⟩ := hsafe
  exact ⟨⟨ht, hpush, halong.cursor, halong.bs ▸ h.block, hfits⟩, hless, halong.size, halong.bs⟩

/-- It does not speak of the bytes at hand. -/
theorem Ready.ahead (h : Ready s) (ha : Ahead e s s') : Ready s' := by
  obtain ⟨n, hn⟩ := ha.regs
  obtain ⟨halive, ⟨hok, hopen, hblock, hsparse, hchunk⟩, hcur, hbs, hf1, hf2, hf3⟩ := h
  refine ⟨?_, ⟨ha.cfg ▸ hok, ?_, ?_, ?_, ?_⟩, ?_, ?_, ⟨?_, ?_, ?_⟩⟩ <;> rw [hn] <;> assumption

theorem Ready.bs_pos (h : Ready s) : 0 < s.ssw.bs.toNat := h.pushing.block

/-- The device stays faithful while it is asked for no more than it was to answer. -/
theorem faithful_asked (h : s.faithful (n + m)) (ha : Asked i j k s t) (hi : i ≤ n) (hj : j ≤ n) (hk : k ≤ n) :
    t.faithful m := by
  obtain ⟨⟨hw, hwl⟩, ⟨he, hel⟩, hr, hrl⟩ := h
  obtain ⟨haw, hae, har⟩ := ha
  unfold State.faithful
  rw [haw, hae, har, List.length_drop, List.length_drop, List.length_drop]
  exact ⟨⟨fun x hx => hw x (List.mem_of_mem_drop hx), by omega⟩, ⟨fun x hx => he x (List.mem_of_mem_drop hx), by omega⟩,
    fun x hx => hr x (List.mem_of_mem_drop hx), by omega⟩

/-! ## Blocks written at the cursor -/

/-- The registers once `k` blocks at hand have been written, be it of a raw chunk or of a raw image (rules R293, R301). -/
def Ssw.tookBlocks (w : Ssw) (c : Config) (k : Nat) : Ssw :=
  { w with
    hand := w.hand.drop (k * w.bs.toNat)
    transSize := w.transSize + BitVec.ofNat 64 (k * w.bs.toNat)
    crcTx := crc32Update c.crc32 w.crcTx (w.hand.take (k * w.bs.toNat))
    crcWr := crc32Update c.crc32 w.crcWr (w.hand.take (k * w.bs.toNat))
    cursor := w.cursor + BitVec.ofNat 32 k
    chunkRem := if w.phase = .raw then w.chunkRem else w.chunkRem - BitVec.ofNat 32 (k * w.bs.toNat) }

/-- `k` blocks at hand are written at the cursor. -/
def writeBlocks (k : Nat) (s : State) : State :=
  { s with
    ssw := s.ssw.tookBlocks s.cfg k
    store := s.store.writeRun (cursorBlk s * s.ssw.bs.toNat) (s.ssw.hand.take (k * s.ssw.bs.toNat)) }

/-- A raw chunk ends with its last byte (rule R293). -/
def endChunk (s : State) : State := if s.ssw.phase = .spRaw ∧ s.ssw.chunkRem = 0 then chunkDone s else s

/-- A phase whose step writes blocks at hand. -/
def Phase.writes (p : Phase) : Prop := p = .spRaw ∨ p = .raw

/-- The bytes at hand that its step may write. -/
def Ssw.writable (w : Ssw) : Nat := if w.phase = .raw then w.hand.length else min w.hand.length w.chunkRem.toNat

theorem writable_le (w : Ssw) : w.writable ≤ w.hand.length := by
  unfold Ssw.writable
  split <;> omega

/-- Bytes written behind one another are written at once. -/
theorem Memory.read_writeRun_append (mem : Memory) (a : Nat) (u v : Bytes) (x : Nat) :
    (mem.writeRun a (u ++ v)).read x = ((mem.writeRun a u).writeRun (a + u.length) v).read x := by
  simp only [Memory.read_writeRun, List.length_append]
  by_cases hlo : x < a + u.length
  · rw [if_neg (by omega : ¬ (a + u.length ≤ x ∧ _))]
    split
    · rw [if_pos (by omega), List.getD_append _ _ _ _ (by omega)]
    · rw [if_neg (by omega)]
  · rw [if_neg (by omega : ¬ (a ≤ x ∧ x < a + u.length))]
    split
    · rw [if_pos (by omega), List.getD_append_right _ _ _ _ (by omega), Nat.sub_sub]
    · rw [if_neg (by omega)]

/-- Actions that are no reports of progress. -/
theorem filter_reports {l l' : List Action} (h : ∀ a ∈ l', isProgress a = false) :
    (l ++ l').filter isProgress = l.filter isProgress := by
  have hnil : l'.filter isProgress = [] := List.filter_eq_nil_iff.2 fun a ha => by simp [h a ha]
  rw [List.filter_append, hnil, List.append_nil]

theorem Ahead.endChunk (h : Ahead e s s') : Ahead e (endChunk s) (endChunk s') := by
  obtain ⟨m, hm⟩ := h.regs
  have hrem : s'.ssw.chunkRem = s.ssw.chunkRem := by rw [hm]
  unfold Machine.endChunk
  rw [h.phase, hrem]
  split
  · exact h.chunkDone
  · exact h

theorem Ahead.writeBlocks (h : Ahead e s s') (hp : s.ssw.phase ≠ .failed) (hk : k * s.ssw.bs.toNat ≤ s.ssw.hand.length) :
    Ahead e (writeBlocks k s) (writeBlocks k s') := by
  obtain ⟨m, hm⟩ := h.regs
  have haddr : cursorBlk s' * s'.ssw.bs.toNat = cursorBlk s * s.ssw.bs.toNat := by rw [cursorBlk, hm, cursorBlk]
  have hdata : s'.ssw.hand.take (k * s'.ssw.bs.toNat) = s.ssw.hand.take (k * s.ssw.bs.toNat) := by
    rw [← h.take hk, hm]
  refine ⟨h.cfg, ⟨m, ?_⟩, fun hf => absurd hf hp, fun a => ?_, h.reports⟩
  · simp only [Machine.writeBlocks, Ssw.tookBlocks, hm, h.cfg, List.take_append_of_le_length hk, List.drop_append_of_le_length hk]
  · simp only [Machine.writeBlocks]
    rw [haddr, hdata, Memory.read_writeRun, Memory.read_writeRun, h.store]

/-- Blocks written in two goes are the blocks written in one (rules R283, R311). -/
theorem writeBlocks_add (hok : s.cfg.ok) (hp : s.ssw.phase ≠ .failed) (hfit : (i + j) * s.ssw.bs.toNat ≤ s.ssw.hand.length)
    (hroom : s.ssw.cursor.toNat + i < 2 ^ 32) : Ahead [] (writeBlocks (i + j) s) (writeBlocks j (writeBlocks i s)) := by
  obtain ⟨hstream, -⟩ := crc32_streams hok.2
  have hcur : (s.ssw.cursor + BitVec.ofNat 32 i).toNat = s.ssw.cursor.toNat + i := add_ofNat_toNat hroom
  have hmul : (i + j) * s.ssw.bs.toNat = i * s.ssw.bs.toNat + j * s.ssw.bs.toNat := Nat.add_mul ..
  have hdata : s.ssw.hand.take ((i + j) * s.ssw.bs.toNat) =
      s.ssw.hand.take (i * s.ssw.bs.toNat) ++ (s.ssw.hand.drop (i * s.ssw.bs.toNat)).take (j * s.ssw.bs.toNat) := by
    rw [hmul, List.take_add]
  refine ⟨rfl, ⟨s.ssw.leftLen, ?_⟩, fun hf => absurd hf hp, fun a => ?_, rfl⟩
  · simp only [writeBlocks, Ssw.tookBlocks, hmul, List.take_add, ← hstream, List.drop_drop, BitVec.ofNat_add, List.append_nil,
      BitVec.add_assoc]
    split <;> simp [BitVec.sub_sub]
  · have hlen : (s.ssw.hand.take (i * s.ssw.bs.toNat)).length = i * s.ssw.bs.toNat := by
      rw [List.length_take]
      omega
    have haddr : (s.ssw.partStart.toNat + (s.ssw.cursor.toNat + i)) * s.ssw.bs.toNat =
        cursorBlk s * s.ssw.bs.toNat + (s.ssw.hand.take (i * s.ssw.bs.toNat)).length := by
      rw [hlen, cursorBlk, ← Nat.add_assoc, Nat.add_mul]
    simp only [writeBlocks, Ssw.tookBlocks, hdata, Memory.read_writeRun_append]
    rw [← haddr]
    simp only [cursorBlk, hcur]

/-! ## The steps SP_RAW and RAW -/

/-- The whole blocks at hand that the step of a writing phase writes (rules R293, R301). -/
def Ssw.blocks (w : Ssw) : Nat := w.writable / w.bs.toNat

theorem blocks_mul_le (w : Ssw) : w.blocks * w.bs.toNat ≤ w.hand.length :=
  (Nat.div_mul_le_self _ _).trans (writable_le w)

theorem blocks_spRaw {w : Ssw} (hp : w.phase = .spRaw) : w.blocks = w.rawBlocks := by
  rw [Ssw.blocks, Ssw.writable, if_neg (by simp [hp]), Ssw.rawBlocks]

theorem blocks_raw {w : Ssw} (hp : w.phase = .raw) : w.blocks = w.imageBlocks := by
  rw [Ssw.blocks, Ssw.writable, if_pos hp, Ssw.imageBlocks]

theorem pushStep_writes_wait (hp : s.ssw.phase.writes) (h0 : s.ssw.blocks = 0) : pushStep s = .wait := by
  rcases hp with hp | hp
  · rw [pushStep_spRaw hp, stepSpRaw_wait ((blocks_spRaw hp).symm.trans h0)]
  · rw [pushStep_raw hp, stepRaw_wait ((blocks_raw hp).symm.trans h0)]

/-- With bytes at hand there is an answer of each kind at least, and as many as the partition has blocks (rule R310). -/
theorem Provided.asks (h : Provided r s) (hn : 0 < s.ssw.hand.length) : s.faithful (s.ssw.partSize.toNat + 1) := by
  obtain ⟨⟨hw, hwl⟩, ⟨he, hel⟩, hr, hrl⟩ := h.answers
  have hle : s.ssw.partSize.toNat + 1 ≤ (s.ssw.hand ++ r).length * (s.ssw.partSize.toNat + 1) :=
    Nat.le_mul_of_pos_left _ (by rw [List.length_append]; omega)
  exact ⟨⟨hw, hle.trans hwl⟩, ⟨he, hle.trans hel⟩, hr, hle.trans hrl⟩

/-- The blocks that are written next fit (rules R292, R301). -/
theorem blocks_fit (h : Ready s) (hq : Provided r s) (hp : s.ssw.phase.writes) :
    s.ssw.cursor.toNat + s.ssw.blocks ≤ s.ssw.partSize.toNat := by
  rcases hp with hp | hp
  · rw [blocks_spRaw hp]
    exact rawBlocks_fit h.safe hp
  · have hfit := hq.image hp
    have hle : s.ssw.imageBlocks ≤ (s.ssw.hand ++ r).length / s.ssw.bs.toNat :=
      Nat.div_le_div_right (by rw [List.length_append]; omega)
    rw [blocks_raw hp]
    unfold Ssw.roomFor at hfit
    omega

/-- What `writeBlocks` leaves, whichever of the two phases it is for. -/
theorem tookBlocks_spRaw {w : Ssw} (c : Config) (hp : w.phase = .spRaw) : w.tookBlocks c k = w.wroteBlocks c k := by
  simp [Ssw.tookBlocks, Ssw.wroteBlocks, Ssw.ate, hp]

theorem tookBlocks_raw {w : Ssw} (c : Config) (hp : w.phase = .raw) :
    w.tookBlocks c k = w.readBack c k (w.hand.take (k * w.bs.toNat)) := by
  simp [Ssw.tookBlocks, Ssw.readBack, Ssw.ate, hp]

/-- The device has been called, and holds the blocks of `writeBlocks`. -/
structure Called (k : Nat) (s t : State) : Prop where
  cfg : t.cfg = s.cfg
  ssw : t.ssw = s.ssw
  store : t.store = (writeBlocks k s).store
  reports : t.log.filter isProgress = s.log.filter isProgress

theorem Called.ahead (h : Called k s t) (hp : s.ssw.phase ≠ .failed) :
    Ahead [] (writeBlocks k s) { t with ssw := s.ssw.tookBlocks s.cfg k } :=
  ⟨h.cfg, ⟨s.ssw.leftLen, by simp [writeBlocks, Ssw.tookBlocks]⟩, fun hf => absurd hf hp, fun a => by rw [h.store], h.reports⟩

theorem rawCall_ok (h : WritesOk 1 s) (k : Nat) : ∃ t, rawCall k s = (true, t) ∧ Called k s t ∧ Asked 1 0 0 s t :=
  ⟨_, devWriteCall_ok h _ _, ⟨rfl, rfl, rfl, filter_reports (List.forall_mem_singleton.2 rfl)⟩, rfl, rfl, rfl⟩

/-- What has been written is read back (rules R301, R310). -/
theorem readBack_ok (h : Called k s t) (hr : ∀ x ∈ t.ans.read, x = some []) (hl : 1 ≤ t.ans.read.length)
    (hk : k * s.ssw.bs.toNat ≤ s.ssw.hand.length) :
    ∃ u, devReadCall (cursorBlk s) k t = (some (s.ssw.hand.take (k * s.ssw.bs.toNat)), u) ∧ Called k s u ∧ Asked 0 0 1 t u := by
  have hlen : (s.ssw.hand.take (k * s.ssw.bs.toNat)).length = k * s.ssw.bs.toNat := by
    rw [List.length_take]
    omega
  have hread := Memory.readRun_writeRun s.store (cursorBlk s * s.ssw.bs.toNat) (s.ssw.hand.take (k * s.ssw.bs.toNat))
  rw [hlen] at hread
  refine ⟨_, devReadCall_eq _ _ (nextAnswer_supplied hr hl) ?_, ⟨h.cfg, h.ssw, h.store, ?_⟩, rfl, rfl, rfl⟩
  · rw [h.ssw, h.store, writeBlocks, hread]
    simp
  · exact (filter_reports (List.forall_mem_singleton.2 rfl)).trans h.reports

theorem endChunk_spRaw (hp : s.ssw.phase = .spRaw) :
    endChunk s = if s.ssw.chunkRem = 0 then s.chunkEnded (le32 s.ssw.curHdr 4) else s := by
  simp [endChunk, hp, chunkDone_eq]

/-- On a faithful device a writing step writes the whole blocks at hand, and ends its chunk with the last of them
(rules R293, R301, R310). -/
theorem pushStep_writes (h : Ready s) (hq : Provided r s) (hp : s.ssw.phase.writes) (h0 : s.ssw.blocks ≠ 0) :
    ∃ t, pushStep s = .go t ∧ Ahead [] (endChunk (writeBlocks s.ssw.blocks s)) t ∧ ∃ n ≤ 1, Asked 1 0 n s t := by
  have hmul := blocks_mul_le s.ssw
  have hhand : 0 < s.ssw.hand.length := (Nat.mul_pos (Nat.pos_of_ne_zero h0) h.bs_pos).trans_le hmul
  obtain ⟨⟨hw, hwl⟩, -, hr, hrl⟩ := hq.asks hhand
  obtain ⟨u, hcall, hu, hask⟩ := rawCall_ok (s := s) ⟨hw, by omega⟩ s.ssw.blocks
  have hfit := blocks_fit h hq hp
  rcases hp with hp | hp
  · rw [blocks_spRaw hp] at h0 hcall hu ⊢
    have hstep := (pushStep_spRaw hp).trans (stepSpRaw_go h0 hcall)
    rw [if_pos rfl, ← tookBlocks_spRaw s.cfg hp] at hstep
    have hend := endChunk_spRaw (s := { u with ssw := s.ssw.tookBlocks s.cfg s.ssw.rawBlocks }) hp
    refine ⟨_, hstep.trans (congrArg _ hend.symm), (hu.ahead h.alive).endChunk, 0, Nat.zero_le _, ?_⟩
    rw [hend]
    split <;> exact hask
  · rw [blocks_raw hp] at h0 hcall hu hfit hmul ⊢
    have hreads : u.ans.read = s.ans.read := hask.2.2
    obtain ⟨v, hread, hv, hask'⟩ := readBack_ok hu (hreads ▸ hr) (by rw [hreads]; omega) hmul
    have hstep := (pushStep_raw hp).trans (stepRaw_go hp h0 hfit hcall hread)
    rw [if_pos rfl, Option.elim_some, ← tookBlocks_raw s.cfg hp] at hstep
    have hno : endChunk (writeBlocks s.ssw.imageBlocks s) = writeBlocks s.ssw.imageBlocks s :=
      if_neg fun hc => by cases hp.symm.trans hc.1
    rw [hno]
    exact ⟨_, hstep, hv.ahead h.alive, 1, le_rfl, hask.trans hask'⟩

/-- The blocks that are left after `k` of them. -/
theorem blocks_writeBlocks (hp : s.ssw.phase.writes) (hk : k ≤ s.ssw.blocks) :
    (writeBlocks k s).ssw.blocks = s.ssw.blocks - k := by
  have hmul : k * s.ssw.bs.toNat ≤ s.ssw.writable := (Nat.mul_le_mul_right _ hk).trans (Nat.div_mul_le_self _ _)
  have hleft : (writeBlocks k s).ssw.writable = s.ssw.writable - k * s.ssw.bs.toNat := by
    rcases hp with hp | hp
    · have hne : s.ssw.phase ≠ .raw := by simp [hp]
      have hrem := wroteBlocks_chunkRem (w := s.ssw) (k := k) s.cfg (by
        rw [Ssw.writable, if_neg hne] at hmul
        omega)
      rw [← tookBlocks_spRaw s.cfg hp] at hrem
      simp only [Ssw.writable, writeBlocks, hrem]
      simp only [Ssw.tookBlocks, hne, if_false, List.length_drop]
      omega
    · simp [Ssw.writable, writeBlocks, Ssw.tookBlocks, hp]
  rw [Ssw.blocks, hleft]
  show (s.ssw.writable - k * s.ssw.bs.toNat) / s.ssw.bs.toNat = _
  rw [Nat.mul_comm, Nat.sub_mul_div, Ssw.blocks]

/-- Fewer blocks than the chunk still wants do not end it. -/
theorem endChunk_short (hk : s.ssw.phase = .spRaw → k * s.ssw.bs.toNat < s.ssw.chunkRem.toNat) :
    endChunk (writeBlocks k s) = writeBlocks k s := by
  refine if_neg ?_
  rintro ⟨hp, hrem⟩
  have hp : s.ssw.phase = .spRaw := hp
  have hlt := hk hp
  have hdone := (wroteBlocks_done_iff s.cfg hlt.le).1 (by rw [← tookBlocks_spRaw s.cfg hp]; exact hrem)
  omega

/-! ## The step SP_FILL -/

/-- The word at hand is consumed, and the blocks of the chunk hold it over and over (rule R294). -/
def fillBlocks (s : State) : State :=
  { s with
    ssw := { (eatWord s).ssw with cursor := s.ssw.cursor + BitVec.ofNat 32 (fillBlks s.ssw) }
    store := s.store.writeRun (cursorBlk s * s.ssw.bs.toNat) (pattern (s.ssw.hand.take 4) (fillBlks s.ssw * s.ssw.bs.toNat)) }

theorem answeredOk_not_progress {a : Action} (h : answeredOk a) : isProgress a = false := by
  cases a with
  | progress p => exact absurd h id
  | _ => rfl

theorem Ahead.fillBlocks (h : Ahead e s s') (hp : s.ssw.phase ≠ .failed) (hl : 4 ≤ s.ssw.hand.length) :
    Ahead e (fillBlocks s) (fillBlocks s') := by
  obtain ⟨m, hm⟩ := h.regs
  have hblks : fillBlks s'.ssw = fillBlks s.ssw := by rw [hm]; rfl
  have haddr : cursorBlk s' * s'.ssw.bs.toNat = cursorBlk s * s.ssw.bs.toNat := by rw [cursorBlk, hm, cursorBlk]
  have hbs : s'.ssw.bs = s.ssw.bs := by rw [hm]
  obtain ⟨i, hi⟩ := (h.consume hl hp).regs
  refine ⟨h.cfg, ⟨i, ?_⟩, fun hf => absurd hf hp, fun a => ?_, h.reports⟩
  · simp only [Machine.fillBlocks, eatWord, State.withSsw_ssw, hblks, hi]
    rw [hm]
  · simp only [Machine.fillBlocks]
    rw [haddr, hblks, hbs, h.take hl, Memory.read_writeRun, Memory.read_writeRun, h.store]

theorem getD_pattern {w : Bytes} (h : i < n) : (pattern w n).getD i 0 = byteAt w (i % 4) := by
  simp [pattern, List.getD_eq_getElem?_getD, h]

/-- A fill whose calls were all answered ok. -/
theorem fillOk_ahead {l : List Action} (ht : t.ssw.phase ≠ .failed)
    (h : FillOk (s.ssw.hand.take 4) (eatWord s) t l (fillBlks s.ssw)) : Ahead [] (fillBlocks s) t := by
  obtain ⟨hin, hout⟩ := h.painted
  have haddr : cursorBlk (eatWord s) * (eatWord s).ssw.bs.toNat = cursorBlk s * s.ssw.bs.toNat := rfl
  rw [haddr] at hin hout
  have hcfg : t.cfg = s.cfg := by rw [h.eq]; rfl
  have hlog : t.log = s.log ++ l := by rw [h.eq]; rfl
  have hssw : t.ssw = (fillBlocks s).ssw := h.ssw
  refine ⟨hcfg, ⟨t.ssw.leftLen, by rw [hssw]; simp⟩, fun hf => absurd (hssw ▸ hf) ht, fun a => ?_, ?_⟩
  · rw [fillBlocks, Memory.read_writeRun, length_pattern]
    split
    next ha => rw [hin a ha.1 ha.2, getD_pattern (by omega)]
    next ha => rw [hout a (by rw [Nat.add_zero]; exact (not_and_or.1 ha).imp not_le.1 not_lt.1)]; rfl
  · rw [hlog]
    exact filter_reports fun a ha => answeredOk_not_progress (h.calls a ha)

/-- On a faithful device a fill ends its chunk (rules R294, R295, R310). -/
theorem stepSpFill_fills (h : Ready s) (hq : Provided r s) (hp : s.ssw.phase = .spFill) (hl : 4 ≤ s.ssw.hand.length) :
    ∃ t, stepSpFill s = .go t ∧ Ahead [] (chunkDone (fillBlocks s)) t ∧
      ∃ i ≤ s.ssw.partSize.toNat, ∃ j ≤ 1, Asked i j 0 s t := by
  have hroom := h.fits.fill hp
  have hf := eatWord_fillable h.pushing.ok hp h.block.2 hroom
  obtain ⟨⟨hw, hwl⟩, ⟨he, hel⟩, -⟩ := hq.asks (by omega)
  have herase : ∃ r, s.ans.eraseOk = true :: r := by
    cases hs : s.ans.eraseOk with
    | nil => rw [hs] at hel; exact absurd hel (by simp)
    | cons x r => exact ⟨r, by rw [he x (by rw [hs]; exact List.mem_cons_self ..)]⟩
  obtain ⟨halive, i, hi, j, hj, hask⟩ := doFill_okAnswers (w := s.ssw.hand.take 4) hf
    ⟨hw, (by omega : fillBlks s.ssw ≤ s.ans.writeOk.length)⟩ herase
  obtain ⟨l, hfill⟩ := (doFill_ends (w := s.ssw.hand.take 4) hf).ok halive
  have hgo := stepSpFill_go hl
  rw [if_neg (show ¬ (fillCalls s).ssw.phase = .failed from halive)] at hgo
  exact ⟨_, hgo, (fillOk_ahead halive hfill).chunkDone, i, by omega, j, hj, hask⟩

end

end Sys2Proof.Machine
end

section
/-! PROOFS. Cut-independence of a running PUSH (rule R311): the loop of rule R286 on all the bytes leaves what the loop leaves that
gets the rest of them where it waits. -/

namespace Sys2Proof.Machine

section
variable {e r : Bytes} {s s' t q : State} {k n m : Nat}

/-! ## What a step asks the device, and where it leads -/

/-- No device call has been made, and the image is not a raw one. -/
structure Quiet (s t : State) : Prop where
  ans : t.ans = s.ans
  detect : t.ssw.phase ≠ .detect
  raw : t.ssw.phase ≠ .raw

theorem chunkDone_quiet (s : State) : Quiet s (chunkDone s) := by
  refine ⟨rfl, ?_, ?_⟩ <;> rcases chunkDone_phase s with h | h <;> rw [h] <;> decide

theorem failSsw_quiet (c : SswCode) (s : State) : Quiet s (failSsw c s) := ⟨rfl, Phase.noConfusion, Phase.noConfusion⟩

theorem Quiet.of_ans (h : Quiet s t) (hs : s.ans = q.ans) : Quiet q t := ⟨h.ans.trans hs, h.detect, h.raw⟩

theorem beginChunk_quiet (eff : Bytes) (c : ChunkKind) (n : Nat) (s : State) : Quiet s (beginChunk eff c n s) := by
  cases c with
  | raw =>
    rw [beginChunk, beginRaw]
    split
    · exact (chunkDone_quiet _).of_ans rfl
    · exact ⟨rfl, Phase.noConfusion, Phase.noConfusion⟩
  | fill => exact ⟨rfl, Phase.noConfusion, Phase.noConfusion⟩
  | dontCare => exact (chunkDone_quiet _).of_ans rfl
  | crc32 => exact chunkDone_quiet _

theorem takeChunk_quiet (hdr eff : Bytes) (c : ChunkKind) (s : State) : Quiet s (takeChunk hdr eff c s) := by
  rw [takeChunk_eq]
  split
  · exact failSsw_quiet _ s
  split
  · exact failSsw_quiet _ s
  · exact (beginChunk_quiet eff c _ (eatHeader hdr eff s)).of_ans rfl

theorem unknownChunk_quiet (hdr : Bytes) (s : State) : Quiet s (unknownChunk hdr s) := by
  unfold unknownChunk
  dsimp only
  split
  · exact (failSsw_quiet _ _).of_ans rfl
  split
  · exact (failSsw_quiet _ _).of_ans rfl
  · exact (takeChunk_quiet hdr _ _ (raiseSsw .chunkType s)).of_ans rfl

theorem stepSpHdr_quiet (hlen : 28 ≤ s.cfg.sparseHdrLen) (hstep : stepSpHdr s = .go t) : Quiet s t := by
  by_cases hl : s.ssw.hand.length < s.cfg.sparseHdrLen
  · rw [stepSpHdr_wait hl] at hstep
    cases hstep
  rw [stepSpHdr_go hlen (not_lt.1 hl)] at hstep
  cases hstep
  split
  · refine ⟨rfl, ?_, ?_⟩ <;> dsimp only <;> split <;> decide
  · exact failSsw_quiet .hdr s

theorem stepSpChunkHdr_quiet (hstep : stepSpChunkHdr s = .go t) : Quiet s t := by
  unfold stepSpChunkHdr at hstep
  split at hstep
  · cases hstep
  dsimp only at hstep
  split at hstep <;> cases hstep
  · exact takeChunk_quiet ..
  · exact unknownChunk_quiet ..

theorem stepSpDone_quiet (hstep : stepSpDone s = .go t) : Quiet s t := by
  unfold stepSpDone at hstep
  split at hstep <;> cases hstep
  exact failSsw_quiet .trailing s

/-- A raw image is one from DETECT on (rules R287, R301). -/
theorem stepDetect_raw (hstep : stepDetect s = .go t) : t.ans = s.ans ∧ t.ssw.phase ≠ .detect ∧
    (t.ssw.phase = .raw → 4 ≤ s.ssw.hand.length ∧ le32 s.ssw.hand 0 ≠ s.cfg.sparseMagic ∧ t.ssw = { s.ssw with phase := .raw }) := by
  by_cases hl : s.ssw.hand.length < 4
  · rw [stepDetect_wait hl] at hstep
    cases hstep
  have hl := not_lt.1 hl
  rw [stepDetect_go hl] at hstep
  cases hstep
  by_cases hm : le32 s.ssw.hand 0 = s.cfg.sparseMagic
  · simp [hm]
  · simp [hm, hl]

/-- A step that writes blocks. -/
theorem pushStep_writes_go (h : Ready s) (hq : Provided r s) (hp : s.ssw.phase.writes) (hstep : pushStep s = .go t) :
    s.ssw.blocks ≠ 0 ∧ Ahead [] (endChunk (writeBlocks s.ssw.blocks s)) t ∧ ∃ n ≤ 1, Asked 1 0 n s t := by
  by_cases h0 : s.ssw.blocks = 0
  · rw [pushStep_writes_wait hp h0] at hstep
    cases hstep
  obtain ⟨u, hu, hrest⟩ := pushStep_writes h hq hp h0
  obtain rfl : t = u := by simpa [hstep] using hu
  exact ⟨h0, hrest⟩

theorem stepSpFill_go_fills (h : Ready s) (hq : Provided r s) (hp : s.ssw.phase = .spFill) (hstep : stepSpFill s = .go t) :
    4 ≤ s.ssw.hand.length ∧ Ahead [] (chunkDone (fillBlocks s)) t ∧ ∃ i ≤ s.ssw.partSize.toNat, ∃ j ≤ 1, Asked i j 0 s t := by
  by_cases hl : s.ssw.hand.length < 4
  · rw [stepSpFill_wait hl] at hstep
    cases hstep
  obtain ⟨u, hu, hrest⟩ := stepSpFill_fills h hq hp (not_lt.1 hl)
  obtain rfl : t = u := by simpa [hstep] using hu
  exact ⟨not_lt.1 hl, hrest⟩

/-- For the bytes that it consumes a step asks for no more answers than a faithful device has for them. -/
def Frugal (s t : State) : Prop :=
  ∃ n, t.ssw.hand.length + n ≤ s.ssw.hand.length ∧
    ∃ i j k, Asked i j k s t ∧ max i (max j k) ≤ n * (s.ssw.partSize.toNat + 1)

theorem frugal_of_ans (h : t.ans = s.ans) (hl : t.ssw.hand.length ≤ s.ssw.hand.length) : Frugal s t :=
  ⟨0, hl, 0, 0, 0, by rw [Asked, h]; exact ⟨rfl, rfl, rfl⟩, Nat.zero_le _⟩

theorem turnsLeft_past_detect (h : t.ssw.phase ≠ .detect) : turnsLeft t.ssw = t.ssw.hand.length := by
  rw [turnsLeft, if_neg h, Nat.add_zero]

/-- Where a step leads that does not fail: to no DETECT, and to RAW only from DETECT and from RAW (rule R281). -/
structure Leads (r : Bytes) (s t : State) : Prop where
  frugal : Frugal s t
  detect : t.ssw.phase ≠ .detect
  image : t.ssw.phase = .raw → t.ssw.roomFor (t.ssw.hand ++ r).length

theorem Quiet.leads (h : Quiet s t) (hl : t.ssw.hand.length ≤ s.ssw.hand.length) : Leads r s t :=
  ⟨frugal_of_ans h.ans hl, h.detect, fun hr => absurd hr h.raw⟩

theorem stepDetect_leads (hq : Provided r s) (hp : s.ssw.phase = .detect) (hstep : stepDetect s = .go t)
    (hl : t.ssw.hand.length ≤ s.ssw.hand.length) : Leads r s t := by
  obtain ⟨hans, hdetect, hraw⟩ := stepDetect_raw hstep
  refine ⟨frugal_of_ans hans hl, hdetect, fun hr => ?_⟩
  obtain ⟨h4, hmagic, hssw⟩ := hraw hr
  rw [hssw]
  exact hq.magic hp (by rwa [le32_append (by omega)])

theorem stepSpFill_leads (h : Ready s) (hq : Provided r s) (hp : s.ssw.phase = .spFill) (hstep : stepSpFill s = .go t)
    (hl : t.ssw.hand.length + 1 ≤ s.ssw.hand.length) : Leads r s t := by
  obtain ⟨-, ht, i, hi, j, hj, hask⟩ := stepSpFill_go_fills h hq hp hstep
  obtain ⟨-, hdetect, hraw⟩ := chunkDone_quiet (fillBlocks s)
  rw [← ht.phase] at hdetect hraw
  exact ⟨⟨1, hl, i, j, 0, hask, by omega⟩, hdetect, fun hr => absurd hr hraw⟩

theorem endChunk_phase (s : State) : (endChunk s).ssw.phase = s.ssw.phase ∨
    (s.ssw.phase = .spRaw ∧ ((endChunk s).ssw.phase = .spDone ∨ (endChunk s).ssw.phase = .spChunkHdr)) := by
  unfold endChunk
  split
  next h => exact .inr ⟨h.1, chunkDone_phase s⟩
  · exact .inl rfl

/-- Blocks that are written leave as much room as the bytes behind them need. -/
theorem roomFor_writeBlocks (hbs : 0 < s.ssw.bs.toNat) (hk : k * s.ssw.bs.toNat ≤ s.ssw.hand.length)
    (hroom : s.ssw.roomFor (s.ssw.hand ++ r).length) :
    (writeBlocks k s).ssw.roomFor ((writeBlocks k s).ssw.hand ++ r).length := by
  unfold Ssw.roomFor at *
  have hsplit : (s.ssw.hand ++ r).length = ((writeBlocks k s).ssw.hand ++ r).length + s.ssw.bs.toNat * k := by
    simp only [writeBlocks, Ssw.tookBlocks, List.length_append, List.length_drop]
    rw [Nat.mul_comm s.ssw.bs.toNat]
    omega
  rw [hsplit, Nat.add_mul_div_left _ _ hbs] at hroom
  have hcur : (writeBlocks k s).ssw.cursor.toNat = s.ssw.cursor.toNat + k :=
    add_ofNat_toNat (Nat.lt_of_le_of_lt (le_trans (Nat.add_le_add_left (Nat.le_add_left ..) _) hroom) s.ssw.partSize.isLt)
  rw [hcur, Nat.add_assoc, Nat.add_comm k]
  exact hroom

theorem pushStep_writes_leads (h : Ready s) (hq : Provided r s) (hp : s.ssw.phase.writes) (hstep : pushStep s = .go t)
    (hl : t.ssw.hand.length + 1 ≤ s.ssw.hand.length) : Leads r s t := by
  obtain ⟨-, ht, n, hn, hask⟩ := pushStep_writes_go h hq hp hstep
  have hphase := endChunk_phase (writeBlocks s.ssw.blocks s)
  rw [← ht.phase] at hphase
  have hsame : (writeBlocks s.ssw.blocks s).ssw.phase = s.ssw.phase := rfl
  rw [hsame] at hphase
  refine ⟨⟨1, hl, 1, 0, n, hask, by omega⟩, ?_, fun hr => ?_⟩
  · rcases hphase with h1 | ⟨-, h1 | h1⟩ <;> rw [h1]
    · rcases hp with h2 | h2 <;> rw [h2] <;> decide
    · decide
    · decide
  · have hraw : s.ssw.phase = .raw := by
      rcases hphase with h1 | ⟨-, h1 | h1⟩
      · exact h1.symm.trans hr
      · cases h1.symm.trans hr
      · cases h1.symm.trans hr
    rw [endChunk_short fun h1 => by cases hraw.symm.trans h1] at ht
    obtain ⟨m, hm⟩ := ht.regs
    rw [hm, List.append_nil]
    exact roomFor_writeBlocks h.bs_pos (blocks_mul_le s.ssw) (hq.image hraw)

theorem pushStep_leads (h : Ready s) (hq : Provided r s) (hstep : pushStep s = .go t) (ht : t.ssw.phase ≠ .failed) :
    Leads r s t := by
  obtain ⟨-, hturn, -⟩ := h.step hstep ht
  have hlen := h.pushing.lengths.1
  have hle : t.ssw.hand.length ≤ turnsLeft t.ssw := Nat.le_add_right _ _
  have hless : s.ssw.phase ≠ .detect → t.ssw.hand.length + 1 ≤ s.ssw.hand.length := fun hp => by
    rw [turnsLeft_past_detect hp] at hturn
    omega
  cases hp : s.ssw.phase with
  | closed => exact absurd hp h.pushing.isOpen
  | failed => exact absurd hp h.alive
  | detect =>
    have := turnsLeft_le s.ssw
    exact stepDetect_leads hq hp (pushStep_detect hp ▸ hstep) (by omega)
  | spHdr => exact (stepSpHdr_quiet hlen (pushStep_spHdr hp ▸ hstep)).leads (by have := hless (by simp [hp]); omega)
  | spChunkHdr => exact (stepSpChunkHdr_quiet (pushStep_spChunkHdr hp ▸ hstep)).leads (by have := hless (by simp [hp]); omega)
  | spDone => exact (stepSpDone_quiet (pushStep_spDone hp ▸ hstep)).leads (by have := hless (by simp [hp]); omega)
  | spFill => exact stepSpFill_leads h hq hp (pushStep_spFill hp ▸ hstep) (hless (by simp [hp]))
  | spRaw => exact pushStep_writes_leads h hq (.inl hp) hstep (hless (by simp [hp]))
  | raw => exact pushStep_writes_leads h hq (.inr hp) hstep (hless (by simp [hp]))

/-- A step that does not fail leaves the device as many answers as the bytes need that are left. -/
theorem Provided.step (h : Ready s) (hq : Provided r s) (hstep : pushStep s = .go t) (ht : t.ssw.phase ≠ .failed) :
    Provided r t := by
  obtain ⟨-, -, hsize, -⟩ := h.step hstep ht
  obtain ⟨⟨n, hn, i, j, k, hask, hmax⟩, hdetect, himage⟩ := pushStep_leads h hq hstep ht
  refine ⟨?_, himage, fun hp => absurd hp hdetect⟩
  have hlen : (t.ssw.hand ++ r).length + n ≤ (s.ssw.hand ++ r).length := by
    rw [List.length_append, List.length_append]
    omega
  have hmul := Nat.mul_le_mul_right (s.ssw.partSize.toNat + 1) hlen
  rw [Nat.add_mul, Nat.add_comm] at hmul
  obtain ⟨⟨hw, hwl⟩, ⟨he, hel⟩, hr, hrl⟩ := hq.answers
  rw [hsize]
  exact faithful_asked (n := n * (s.ssw.partSize.toNat + 1))
    ⟨⟨hw, hmul.trans hwl⟩, ⟨he, hmul.trans hel⟩, hr, hmul.trans hrl⟩ hask (by omega) (by omega) (by omega)

end

end Sys2Proof.Machine
end

section
/-! PROOFS. An image pushed in pieces (rule R311). -/

namespace Sys2Proof.Machine

section
variable {e r : Bytes} {s s' t q u : State} {k n m : Nat}

/-! ## A step with more bytes at hand -/

/-- A run that waits in `t` has done less than `s'` will do in one step, and does the rest of it once it has the bytes too. -/
def CatchesUp (e r : Bytes) (s' t : State) : Prop :=
  t.ssw.phase ≠ .failed ∧ pushStep t = .wait ∧
    ∀ q, Ahead e t q → Provided r q → ∃ t' q', pushStep s' = .go t' ∧ pushStep q = .go q' ∧ Ahead [] t' q'

/-- A step of the one run is a step of the other, at once or with what the one does next. -/
def Follows (e r : Bytes) (s' t : State) : Prop := (∃ t', pushStep s' = .go t' ∧ Ahead e t t') ∨ CatchesUp e r s' t

theorem Ahead.of_alike (h : Ahead e s s') (ht : Ahead [] s t) (hq : Ahead [] s' q) : Ahead e t q := by
  have hs : Ahead ([] ++ e ++ []) t q := (ht.symm.trans h).trans hq
  rwa [List.nil_append, List.append_nil] at hs

theorem Ahead.blocks_le (h : Ahead e s s') : s.ssw.blocks ≤ s'.ssw.blocks := by
  obtain ⟨m, hm⟩ := h.regs
  rw [hm]
  refine Nat.div_le_div_right ?_
  simp only [Ssw.writable, List.length_append]
  split <;> omega

theorem Ahead.blocks_eq (h : Ahead [] s s') : s'.ssw.blocks = s.ssw.blocks := le_antisymm h.symm.blocks_le h.blocks_le

/-- The blocks at hand are written at once, or `k` of them and then those that are left. -/
theorem writeBlocks_rest (h : Ready s) (hq : Provided r s) (hp : s.ssw.phase.writes) (hk : k ≤ s.ssw.blocks)
    (ha : Ahead [] (writeBlocks k s) q) : Ahead [] (writeBlocks s.ssw.blocks s) (writeBlocks q.ssw.blocks q) := by
  have hroom := blocks_fit h hq hp
  have hmul := blocks_mul_le s.ssw
  have hall : k + (s.ssw.blocks - k) = s.ssw.blocks := by omega
  have hadd := writeBlocks_add (i := k) (j := s.ssw.blocks - k) h.pushing.ok h.alive (by rwa [hall])
    (by have := s.ssw.partSize.isLt; omega)
  have hleft : q.ssw.blocks = s.ssw.blocks - k := by rw [ha.blocks_eq, blocks_writeBlocks hp hk]
  have hfit : (s.ssw.blocks - k) * (writeBlocks k s).ssw.bs.toNat ≤ (writeBlocks k s).ssw.hand.length := by
    rw [← blocks_writeBlocks hp hk]
    exact blocks_mul_le _
  rw [hall] at hadd
  rw [hleft]
  exact hadd.trans (ha.writeBlocks h.alive hfit)

/-- A step that writes blocks writes more of them if more are at hand: the blocks that it writes are those of two steps of the run
that had fewer (rules R293, R301). -/
theorem pushStep_writes_follows (h : Ready s) (hq : Provided (e ++ r) s) (ha : Ahead e s s') (hq' : Provided r s')
    (hp : s.ssw.phase.writes) (hstep : pushStep s = .go t) : Follows e r s' t := by
  obtain ⟨h0, ht, -⟩ := pushStep_writes_go h hq hp hstep
  have h' := h.ahead ha
  have hp' : s'.ssw.phase.writes := ha.phase ▸ hp
  have hle := ha.blocks_le
  obtain ⟨t', hstep', ht', -⟩ := pushStep_writes h' hq' hp' (by omega)
  have hwrote := ha.writeBlocks h.alive (blocks_mul_le s.ssw)
  rcases hle.eq_or_lt with heq | hlt
  · rw [← heq] at ht'
    exact .inl ⟨t', hstep', hwrote.endChunk.of_alike ht ht'⟩
  have hless : s.ssw.phase = .spRaw → s.ssw.blocks * s.ssw.bs.toNat < s.ssw.chunkRem.toNat := fun hraw => by
    have hrem := (rawBlocks_mul_le s'.ssw).trans (min_le_right _ _)
    rw [← blocks_spRaw (ha.phase.trans hraw)] at hrem
    obtain ⟨m, hm⟩ := ha.regs
    have hsame : s'.ssw.bs = s.ssw.bs ∧ s'.ssw.chunkRem = s.ssw.chunkRem := by rw [hm]; exact ⟨rfl, rfl⟩
    rw [hsame.1, hsame.2] at hrem
    exact (Nat.mul_lt_mul_of_pos_right hlt h.bs_pos).trans_le hrem
  rw [endChunk_short hless] at ht
  have hphase : t.ssw.phase = s.ssw.phase := ht.phase
  have halive : t.ssw.phase ≠ .failed := hphase ▸ h.alive
  refine .inr ⟨halive, pushStep_writes_wait (hphase ▸ hp) ?_, fun q haq hqq => ?_⟩
  · rw [ht.blocks_eq, blocks_writeBlocks hp le_rfl, Nat.sub_self]
  have hrest : Ahead [] (writeBlocks s.ssw.blocks s') q := hwrote.alike (ht.trans haq)
  have hqphase : q.ssw.phase.writes := by rw [haq.phase, hphase]; exact hp
  have hqblocks : q.ssw.blocks = s'.ssw.blocks - s.ssw.blocks := by rw [hrest.blocks_eq, blocks_writeBlocks hp' hle]
  obtain ⟨q', hqstep, hend, -⟩ := pushStep_writes ((h.step hstep halive).1.ahead haq) hqq hqphase (by omega)
  exact ⟨t', q', hstep', hqstep, (writeBlocks_rest h' hq' hp' hle hrest).endChunk.of_alike ht' hend⟩

theorem stepSpFill_follows (h : Ready s) (hq : Provided (e ++ r) s) (ha : Ahead e s s') (hq' : Provided r s')
    (hp : s.ssw.phase = .spFill) (hstep : stepSpFill s = .go t) : ∃ t', stepSpFill s' = .go t' ∧ Ahead e t t' := by
  obtain ⟨hl, ht, -⟩ := stepSpFill_go_fills h hq hp hstep
  obtain ⟨t', hstep', ht', -⟩ := stepSpFill_fills (h.ahead ha) hq' (ha.phase.trans hp) (hl.trans ha.length_le)
  exact ⟨t', hstep', (ha.fillBlocks h.alive hl).chunkDone.of_alike ht ht'⟩

/-- Each step of a run is a step of a run that has more bytes at hand (rules R286, R311). -/
theorem pushStep_follows (h : Ready s) (hq : Provided (e ++ r) s) (ha : Ahead e s s') (hq' : Provided r s')
    (hstep : pushStep s = .go t) : Follows e r s' t := by
  have hphase := ha.phase
  cases hp : s.ssw.phase with
  | closed => exact absurd hp h.pushing.isOpen
  | failed => exact absurd hp h.alive
  | detect =>
    rw [pushStep_detect hp] at hstep
    rw [Follows, pushStep_detect (hphase.trans hp)]
    exact .inl (stepDetect_ahead ha hstep)
  | spHdr =>
    rw [pushStep_spHdr hp] at hstep
    rw [Follows, pushStep_spHdr (hphase.trans hp)]
    exact .inl (stepSpHdr_ahead ha h.alive h.pushing.lengths.1 hstep)
  | spChunkHdr =>
    rw [pushStep_spChunkHdr hp] at hstep
    rw [Follows, pushStep_spChunkHdr (hphase.trans hp)]
    exact .inl (stepSpChunkHdr_ahead ha h.alive hstep)
  | spDone =>
    rw [pushStep_spDone hp] at hstep
    rw [Follows, pushStep_spDone (hphase.trans hp)]
    exact .inl (stepSpDone_ahead ha hstep)
  | spFill =>
    rw [pushStep_spFill hp] at hstep
    rw [Follows, pushStep_spFill (hphase.trans hp)]
    exact .inl (stepSpFill_follows h hq ha hq' hp hstep)
  | spRaw => exact pushStep_writes_follows h hq ha hq' (.inl hp) hstep
  | raw => exact pushStep_writes_follows h hq ha hq' (.inr hp) hstep

/-! ## The loop -/

theorem Ready.refl_ahead (h : Ready s) : Ahead [] s s := .refl fun hf => absurd hf h.alive

/-- Alike runs step alike. -/
theorem pushStep_alike (h : Ready s) (hq : Provided r s) (ha : Ahead [] s s') (hq' : Provided r s')
    (hstep : pushStep s = .go t) : ∃ t', pushStep s' = .go t' ∧ Ahead [] t t' := by
  rcases pushStep_follows (e := []) h hq ha hq' hstep with hgo | ⟨halive, hwait, hcatch⟩
  · exact hgo
  · obtain ⟨t', q', -, hgo, -⟩ := hcatch t (h.step hstep halive).1.refl_ahead (hq.step h hstep halive)
    rw [hwait] at hgo
    cases hgo

theorem pushStep_wait_alike (h : Ready s) (hq : Provided r s) (ha : Ahead [] s s') (hq' : Provided r s')
    (hwait : pushStep s = .wait) : pushStep s' = .wait := by
  cases hstep : pushStep s' with
  | wait => rfl
  | go t =>
    obtain ⟨t', hgo, -⟩ := pushStep_alike (h.ahead ha) hq' ha.symm hq hstep
    rw [hwait] at hgo
    cases hgo

theorem Ahead.turnsLeft_eq (ha : Ahead [] s s') : turnsLeft s'.ssw = turnsLeft s.ssw := by
  rw [turnsLeft, ha.phase, ha.hand, List.append_nil, turnsLeft]

/-- Alike runs end alike. -/
theorem pushLoop_alike (fuel : Nat) : ∀ {s s' : State} {fuel' : Nat}, Ready s → Provided r s → Ahead [] s s' → Provided r s' →
    turnsLeft s.ssw < fuel → turnsLeft s'.ssw < fuel' → Ahead [] (pushLoop fuel s) (pushLoop fuel' s') := by
  induction fuel with
  | zero => exact fun _ _ _ _ hf => absurd hf (Nat.not_lt_zero _)
  | succ fuel ih =>
    intro s s' fuel' h hq ha hq' hf hf'
    cases hstep : pushStep s with
    | wait =>
      rw [pushLoop_wait _ hstep, pushLoop_wait _ (pushStep_wait_alike h hq ha hq' hstep)]
      exact ha
    | go t =>
      obtain ⟨t', hstep', hat⟩ := pushStep_alike h hq ha hq' hstep
      obtain ⟨fuel', rfl⟩ := Nat.exists_eq_add_one_of_ne_zero (by omega : fuel' ≠ 0)
      rw [pushLoop_go _ hstep, pushLoop_go _ hstep', hat.phase]
      split
      · exact hat
      next halive =>
        obtain ⟨ht, hless, -⟩ := h.step hstep halive
        have hturns := hat.turnsLeft_eq
        have hsame := ha.turnsLeft_eq
        exact ih ht (hq.step h hstep halive) hat (hq'.step (h.ahead ha) hstep' (hat.phase ▸ halive)) (by omega) (by omega)

theorem pushStep_failed (h : s.ssw.phase = .failed) : pushStep s = .wait := by rw [pushStep, h]

/-- What a run leaves that has all the bytes at hand, the run leaves too that gets the last of them, `e`, where it waits. -/
theorem pushLoop_cut (fuel : Nat) : ∀ {s s' q : State} {fuel' fuel'' : Nat}, Ready s → Provided (e ++ r) s → Ahead e s s' →
    Provided r s' → Ahead e (pushLoop fuel s) q → (q.ssw.phase ≠ .failed → Provided r q) → turnsLeft s.ssw < fuel →
    turnsLeft s'.ssw < fuel' → turnsLeft q.ssw < fuel'' → Ahead [] (pushLoop fuel' s') (pushLoop fuel'' q) := by
  induction fuel with
  | zero => exact fun _ _ _ _ _ _ hf => absurd hf (Nat.not_lt_zero _)
  | succ fuel ih =>
    intro s s' q fuel' fuel'' h hq ha hq' haq hqq hf hf' hf''
    cases hstep : pushStep s with
    | wait =>
      rw [pushLoop_wait _ hstep] at haq
      exact pushLoop_alike _ (h.ahead ha) hq' (ha.alike haq) (hqq (haq.phase ▸ h.alive)) hf' hf''
    | go t =>
      rw [pushLoop_go _ hstep] at haq
      obtain ⟨fuel', rfl⟩ := Nat.exists_eq_add_one_of_ne_zero (by omega : fuel' ≠ 0)
      rcases pushStep_follows h hq ha hq' hstep with ⟨t', hstep', hat⟩ | ⟨halive, hwait, hcatch⟩
      · rw [pushLoop_go _ hstep', hat.phase]
        split
        next hfail =>
          rw [if_pos hfail] at haq
          rw [pushLoop_wait _ (pushStep_failed (haq.phase.trans hfail))]
          exact hat.alike haq
        next halive =>
          rw [if_neg halive] at haq
          obtain ⟨ht, hless, -⟩ := h.step hstep halive
          have halive' := hat.phase ▸ halive
          obtain ⟨-, hless', -⟩ := (h.ahead ha).step hstep' halive'
          exact ih ht (hq.step h hstep halive) hat (hq'.step (h.ahead ha) hstep' halive') haq hqq (by omega) (by omega) hf''
      · rw [if_neg halive, pushLoop_wait _ hwait] at haq
        have hqq := hqq (haq.phase ▸ halive)
        have hready := (h.step hstep halive).1.ahead haq
        obtain ⟨t', q', hstep', hqstep, hat⟩ := hcatch q haq hqq
        obtain ⟨fuel'', rfl⟩ := Nat.exists_eq_add_one_of_ne_zero (by omega : fuel'' ≠ 0)
        rw [pushLoop_go _ hstep', pushLoop_go _ hqstep, hat.phase]
        split
        · exact hat
        next halive' =>
          obtain ⟨ht', hless', -⟩ := (h.ahead ha).step hstep' halive'
          obtain ⟨-, hless'', -⟩ := hready.step hqstep (hat.phase ▸ halive')
          exact pushLoop_alike _ ht' (hq'.step (h.ahead ha) hstep' halive') hat
            (hqq.step hready hqstep (hat.phase ▸ halive')) (by omega) (by omega)

/-- The loop ends in a failure, or waits with a tail for which LEFT has room (rules R286, R300). -/
theorem pushLoop_ends (fuel : Nat) : ∀ {s : State}, Ready s → Provided r s → turnsLeft s.ssw < fuel →
    (pushLoop fuel s).ssw.phase ≠ .failed →
    Ready (pushLoop fuel s) ∧ Provided r (pushLoop fuel s) ∧ pushStep (pushLoop fuel s) = .wait := by
  induction fuel with
  | zero => exact fun _ _ hf => absurd hf (Nat.not_lt_zero _)
  | succ fuel ih =>
    intro s h hq hf
    cases hstep : pushStep s with
    | wait =>
      rw [pushLoop_wait _ hstep]
      exact fun _ => ⟨h, hq, hstep⟩
    | go t =>
      rw [pushLoop_go _ hstep]
      split
      next hfail => exact fun halive => absurd hfail halive
      next halive =>
        obtain ⟨ht, hless, -⟩ := h.step hstep halive
        exact ih ht (hq.step h hstep halive) (by omega)

end

end Sys2Proof.Machine
end

section
/-! PROOFS. An image pushed in pieces: what a push leaves stands for the state in which its loop ended (rules R286, R300, R311). -/

namespace Sys2Proof.Machine

section
variable {e r : Bytes} {s t u : State}

/-- The bytes at hand. -/
def State.holding (s : State) (b : Bytes) : State := { s with ssw := { s.ssw with hand := b } }

/-- What SSW.PUSH returns (rule R286). -/
def pushCode (t : State) : Byte := if t.ssw.phase = .failed then t.ssw.fail else 0

/-- `u` is what a push leaves whose loop ended in `t`: the bytes that were at hand are the leftover (rules R286, R300). -/
structure Rests (t u : State) : Prop where
  hand : u.ssw.hand = []
  ahead : Ahead [] t (u.holding t.ssw.hand)
  ans : u.ans = t.ans
  left : t.ssw.phase ≠ .failed → u.ssw.leftLen.toNat = t.ssw.hand.length ∧ u.left.readRun 0 t.ssw.hand.length = t.ssw.hand

theorem Rests.phase (h : Rests t u) : u.ssw.phase = t.ssw.phase := h.ahead.phase

/-- The next push of a session takes up the bytes where the last one left them. -/
theorem Rests.next (h : Rests t u) (b : Bytes) : Ahead b t (u.holding (t.ssw.hand ++ b)) := by
  obtain ⟨n, hn⟩ := h.ahead.regs
  have hstore : sameBytes t.store u.store := h.ahead.store
  refine ⟨h.ahead.cfg, ⟨u.ssw.leftLen, ?_⟩, h.ahead.done, hstore, h.ahead.reports⟩
  have hregs : u.ssw = { (u.holding t.ssw.hand).ssw with hand := u.ssw.hand } := rfl
  simp only [State.holding]
  rw [hregs, hn]

theorem leftCap_lt (hok : s.cfg.ok) : leftCap s.cfg s.ssw < 2 ^ 32 := by
  obtain ⟨⟨-, -, -, -, -, -, -, -, -, -, -, -, -, -, -, hs, -, hc⟩, -⟩ := hok
  have hbs := s.ssw.bs.isLt
  rw [leftCap]
  omega

theorem pushEnd_failed_rests (hp : t.ssw.phase = .failed) (hl : t.ssw.leftLen = 0) :
    ∃ u, pushEnd t = .ok (pushCode t, u) ∧ Rests t u := by
  rw [pushCode, if_pos hp]
  exact ⟨_, pushEnd_failed hp, rfl, .refl fun _ => hl, rfl, fun h => absurd hp h⟩

/-- A loop that waits leaves a tail for which LEFT has room (rule R300). -/
theorem pushEnd_waits_rests (h : Ready t) (hwait : pushStep t = .wait) :
    ∃ u, pushEnd t = .ok (pushCode t, u) ∧ Rests t u := by
  have hfits := pushStep_goesOn h.pushing h.alive
  rw [hwait] at hfits
  have hfits : t.ssw.hand.length < leftCap t.cfg t.ssw := hfits
  have hcap := leftCap_lt (s := t) h.pushing.ok
  have hend : pushEnd t = .ok (0, { t with
      left := t.left.writeRun 0 t.ssw.hand
      ssw := { t.ssw with leftLen := BitVec.ofNat 32 t.ssw.hand.length, hand := [] } }) := by
    rw [pushEnd, if_neg h.alive, writeBuf, if_pos (by omega)]
    rfl
  rw [pushCode, if_neg h.alive]
  refine ⟨_, hend, rfl, ?_, rfl, fun _ => ⟨?_, Memory.readRun_writeRun ..⟩⟩
  · exact ⟨rfl, ⟨BitVec.ofNat 32 t.ssw.hand.length, by simp [State.holding]⟩, fun hf => absurd hf h.alive, fun _ => rfl, rfl⟩
  · rw [BitVec.toNat_ofNat, Nat.mod_eq_of_lt (by omega)]

/-- Where the loop of a push ends that brings `b`, after one whose loop ended in `t` and that left `u`. -/
def nextLoop (t u : State) (b : Bytes) : State :=
  pushLoop (pushFuel (t.ssw.hand ++ b).length) (u.holding (t.ssw.hand ++ b))

theorem exec_sswPush_ok {b : Bytes} {c : Byte} {v : State} (h : sswPushOp b s = .ok (c, v)) :
    exec (.sswPush b) s = .next (v.withRet (.code c)) := by
  show pushBytes b s = _
  rw [pushBytes, h]
  rfl

/-- What is handed back is no matter. -/
theorem Rests.withRet (h : Rests t u) (x : Ret) : Rests t (u.withRet x) :=
  ⟨h.hand, ⟨h.ahead.cfg, h.ahead.regs, h.ahead.done, h.ahead.store, h.ahead.reports⟩, h.ans, h.left⟩

theorem Rests.done (h : Rests t u) (hp : t.ssw.phase = .failed) : u.ssw.leftLen = 0 := (h.ahead.done hp).2

/-- Every push of an open session hands back its code and leaves the tail (rules R286, R300): of a failed session, with no bytes, and
with bytes. -/
theorem exec_sswPush_rests (h : Rests t u) (b : Bytes) (hopen : t.ssw.phase ≠ .closed)
    (hgo : t.ssw.phase ≠ .failed → Ready t ∧ pushStep (u.holding t.ssw.hand) = .wait)
    (hend : (nextLoop t u b).ssw.phase ≠ .failed → Ready (nextLoop t u b) ∧ pushStep (nextLoop t u b) = .wait)
    (hdone : (nextLoop t u b).ssw.phase = .failed → (nextLoop t u b).ssw.leftLen = 0) :
    ∃ v, exec (.sswPush b) u = .next v ∧ Rests (nextLoop t u b) v ∧ v.ret = some (.code (pushCode (nextLoop t u b))) := by
  have hopen' : u.ssw.phase ≠ .closed := by rwa [h.phase]
  by_cases hfail : t.ssw.phase = .failed
  case pos =>
    have hfail' : u.ssw.phase = .failed := h.phase.trans hfail
    have hop : sswPushOp b u = .ok (u.ssw.fail, u) := by rw [sswPushOp, if_neg hopen', if_pos hfail']
    have hloop : nextLoop t u b = u.holding (t.ssw.hand ++ b) := pushLoop_wait _ (pushStep_failed hfail')
    rw [hloop, exec_sswPush_ok hop, pushCode, if_pos (show (u.holding (t.ssw.hand ++ b)).ssw.phase = .failed from hfail')]
    have hrests : Rests (u.holding (t.ssw.hand ++ b)) u := ⟨h.hand, .refl fun _ => h.done hfail, rfl, fun hn => absurd hfail' hn⟩
    exact ⟨_, rfl, hrests.withRet _, rfl⟩
  have hfail' : u.ssw.phase ≠ .failed := by rwa [h.phase]
  obtain ⟨hready, hwait⟩ := hgo hfail
  obtain ⟨hlen, hleft⟩ := h.left hfail
  by_cases hb : b = []
  case pos =>
    subst hb
    have hop : sswPushOp [] u = .ok (0, u) := by rw [sswPushOp, if_neg hopen', if_neg hfail']; rfl
    have hloop : nextLoop t u [] = u.holding t.ssw.hand := by
      rw [nextLoop, List.append_nil]
      exact pushLoop_wait _ hwait
    rw [hloop, exec_sswPush_ok hop, pushCode, if_neg (show (u.holding t.ssw.hand).ssw.phase ≠ .failed from hfail')]
    have hrests : Rests (u.holding t.ssw.hand) u :=
      ⟨h.hand, .refl fun hf => absurd hf hfail', rfl, fun _ => ⟨hlen, hleft⟩⟩
    exact ⟨_, rfl, hrests.withRet _, rfl⟩
  case neg =>
    have hroom := pushStep_goesOn (hready.ahead h.ahead).pushing hfail'
    rw [hwait] at hroom
    have hroom : t.ssw.hand.length < leftCap u.cfg u.ssw := hroom
    have hop : sswPushOp b u = pushEnd (nextLoop t u b) := by
      rw [sswPushOp, if_neg hopen', if_neg hfail', if_neg (mt List.length_eq_zero_iff.1 hb), hlen, readBuf, if_pos (by omega), hleft]
      rfl
    have hrest : ∃ v, pushEnd (nextLoop t u b) = .ok (pushCode (nextLoop t u b), v) ∧ Rests (nextLoop t u b) v := by
      by_cases hf : (nextLoop t u b).ssw.phase = .failed
      · exact pushEnd_failed_rests hf (hdone hf)
      · exact pushEnd_waits_rests (hend hf).1 (hend hf).2
    obtain ⟨v, hv, hrests⟩ := hrest
    exact ⟨_, exec_sswPush_ok (hop.trans hv), hrests.withRet _, rfl⟩

/-! ## The pieces of an image -/

/-- What R311 asks of the session: it has had no byte of the image, and is to be faithful for all of them. -/
structure Fresh (img : Bytes) (s : State) : Prop where
  ok : s.cfg.ok
  inv : SswInv s
  detect : s.ssw.phase = .detect
  left : s.ssw.leftLen = 0
  answers : s.faithful (img.length * (s.ssw.partSize.toNat + 1))
  room : le32 img 0 ≠ s.cfg.sparseMagic → s.ssw.roomFor img.length

/-- Where the loop ends that has the bytes `p` of the image at once. -/
def imageRun (s : State) (p : Bytes) : State := pushLoop (pushFuel p.length) (s.holding p)

/-- The loop has ended with bytes still to come. -/
def Waits (r : Bytes) (t : State) : Prop := t.ssw.phase ≠ .failed → Ready t ∧ Provided r t ∧ pushStep t = .wait

theorem turnsLeft_holding (s : State) (b : Bytes) : turnsLeft (s.holding b).ssw < pushFuel b.length :=
  Nat.lt_succ_of_le (turnsLeft_le _)

theorem Fresh.ready {img : Bytes} (h : Fresh img s) (p : Bytes) : Ready (s.holding p) := by
  obtain ⟨-, -, -, hcur, hdesc, -⟩ := h.inv
  have hp : (s.holding p).ssw.phase = .detect := h.detect
  obtain ⟨hbs, hmod, -⟩ := hdesc (by simp [h.detect])
  refine ⟨by simp [hp], ⟨h.ok, by simp [hp], Nat.lt_of_lt_of_le (by decide) hbs, ?_, by simp [hp]⟩, hcur, ⟨hbs, hmod⟩,
    chunkFits_idle (by simp [hp])⟩
  simp [hp, Phase.inSparse]

theorem Fresh.provided {img p r : Bytes} (h : Fresh img s) (hsplit : p ++ r = img) : Provided r (s.holding p) := by
  subst hsplit
  exact ⟨h.answers, fun hp => absurd (h.detect.symm.trans hp) Phase.noConfusion, fun _ => h.room⟩

theorem Provided.ahead (h : Provided (e ++ r) s) (ha : Ahead e s t) (hans : t.ans = s.ans) : Provided r t := by
  obtain ⟨n, hn⟩ := ha.regs
  obtain ⟨hall, himage, hmagic⟩ := h
  rw [← List.append_assoc] at hall himage hmagic
  have hhand : t.ssw.hand ++ r = s.ssw.hand ++ e ++ r := by rw [ha.hand]
  have hroom : ∀ m, t.ssw.roomFor m ↔ s.ssw.roomFor m := fun m => by rw [hn]; rfl
  refine ⟨?_, fun hp => ?_, fun hp => ?_⟩
  · rw [State.faithful, hans, hhand, hn]
    exact hall
  · rw [hhand, hroom]
    exact himage (ha.phase.symm.trans hp)
  · rw [hhand, hroom, ha.cfg]
    exact hmagic (ha.phase.symm.trans hp)

section
variable {img p b : Bytes}

/-- One piece more. -/
theorem nextLoop_run (h : Fresh img s) (hsplit : p ++ (b ++ r) = img) (hrun : Ahead [] (imageRun s p) t) (hrest : Rests t u)
    (hwait : Waits (b ++ r) t) : Ahead [] (imageRun s (p ++ b)) (nextLoop t u b) ∧ Waits r (nextLoop t u b) := by
  have hnext := hrest.next b
  have hprov : (u.holding (t.ssw.hand ++ b)).ssw.phase ≠ .failed → Ready (u.holding (t.ssw.hand ++ b)) ∧
      Provided r (u.holding (t.ssw.hand ++ b)) := fun halive => by
    obtain ⟨hready, hq, -⟩ := hwait (hnext.phase ▸ halive)
    exact ⟨hready.ahead hnext, hq.ahead hnext hrest.ans⟩
  have hfuel := turnsLeft_holding u (t.ssw.hand ++ b)
  refine ⟨?_, fun halive => ?_⟩
  · have hcut : Ahead b (s.holding p) (s.holding (p ++ b)) :=
      ⟨rfl, ⟨s.ssw.leftLen, rfl⟩, fun hf => absurd (h.detect.symm.trans hf) Phase.noConfusion, fun _ => rfl, rfl⟩
    exact pushLoop_cut _ (h.ready p) (h.provided hsplit) hcut (h.provided (by rw [← hsplit, List.append_assoc]))
      (hrun.trans hnext) (fun halive => (hprov halive).2) (turnsLeft_holding s p) (turnsLeft_holding s _) hfuel
  · have halive' : (u.holding (t.ssw.hand ++ b)).ssw.phase ≠ .failed := fun hf => by
      rw [nextLoop, pushLoop_wait _ (pushStep_failed hf)] at halive
      exact halive hf
    obtain ⟨hready, hq⟩ := hprov halive'
    exact pushLoop_ends _ hready hq hfuel halive

/-- Each push of a piece takes the run of the bytes before it to the run of the bytes up to its end. -/
theorem exec_sswPush_piece (h : Fresh img s) (hsplit : p ++ (b ++ r) = img) (hrun : Ahead [] (imageRun s p) t) (hrest : Rests t u)
    (hwait : Waits (b ++ r) t) : ∃ v, exec (.sswPush b) u = .next v ∧ Rests (nextLoop t u b) v ∧
      v.ret = some (.code (pushCode (nextLoop t u b))) := by
  obtain ⟨hrun', hwait'⟩ := nextLoop_run h hsplit hrun hrest hwait
  refine exec_sswPush_rests hrest b (fun hc => ?_) (fun halive => ?_) (fun halive => ?_) fun hfail => ?_
  · exact (hwait (by simp [hc])).1.pushing.isOpen hc
  · obtain ⟨hready, hq, hstep⟩ := hwait halive
    exact ⟨hready, pushStep_wait_alike hready hq hrest.ahead (.ahead (e := []) hq hrest.ahead hrest.ans) hstep⟩
  · exact ⟨(hwait' halive).1, (hwait' halive).2.2⟩
  · exact (hrun'.symm.done hfail).1

/-- However an image is cut into pieces, the pushes end where the loop ends that has it at once. -/
theorem pushInTurn_ends (h : Fresh img s) (pieces : List Bytes) : ∀ {p : Bytes} {t u : State}, p ++ pieces.flatten = img →
    Ahead [] (imageRun s p) t → Rests t u → Waits pieces.flatten t → (pieces = [] → u.ret = some (.code (pushCode t))) →
    ∃ t' v, pushInTurn pieces u = .next v ∧ Ahead [] (imageRun s img) t' ∧ Rests t' v ∧
      v.ret = some (.code (pushCode t')) := by
  induction pieces with
  | nil =>
    intro p t u hsplit hrun hrest hwait hret
    rw [List.flatten_nil, List.append_nil] at hsplit
    subst hsplit
    exact ⟨t, u, rfl, hrun, hrest, hret rfl⟩
  | cons b rest ih =>
    intro p t u hsplit hrun hrest hwait _
    rw [List.flatten_cons] at hsplit hwait
    obtain ⟨hrun', hwait'⟩ := nextLoop_run h hsplit hrun hrest hwait
    obtain ⟨v, hexec, hrest', hret⟩ := exec_sswPush_piece h hsplit hrun hrest hwait
    obtain ⟨t', w, hw, hend⟩ := ih (by rw [← hsplit, List.append_assoc]) hrun' hrest' hwait' fun _ => hret
    exact ⟨t', w, by rw [pushInTurn, hexec]; exact hw, hend⟩

/-- Before its first byte the session waits. -/
theorem Fresh.pushes (h : Fresh img s) {pieces : List Bytes} (hne : pieces ≠ []) (hsplit : pieces.flatten = img) :
    ∃ t v, pushInTurn pieces s = .next v ∧ Ahead [] (imageRun s img) t ∧ Rests t v ∧ v.ret = some (.code (pushCode t)) := by
  have hready := h.ready []
  have hwait : pushStep (s.holding []) = .wait := pushStep_empty h.ok rfl hready.bs_pos
  have hrun : imageRun s [] = s.holding [] := pushLoop_wait _ hwait
  have hrest : Rests (s.holding []) s := by
    refine ⟨h.inv.1, hready.refl_ahead, rfl, fun _ => ⟨?_, rfl⟩⟩
    rw [h.left]
    rfl
  refine pushInTurn_ends h pieces (p := []) hsplit ?_ hrest (fun _ => ⟨hready, ?_, hwait⟩) fun hnil => absurd hnil hne
  · rw [hrun]
    exact hready.refl_ahead
  · exact h.provided hsplit

/-- Alike ends leave alike registers, leftovers, STOREs and reports. -/
theorem Rests.same {t' v : State} (h : Rests t u) (h' : Rests t' v) (ha : Ahead [] t t') : v.ssw = u.ssw ∧
    pushCode t' = pushCode t ∧ sameBytes u.store v.store ∧
    v.left.readRun 0 u.ssw.leftLen.toNat = u.left.readRun 0 u.ssw.leftLen.toNat ∧
    v.log.filter isProgress = u.log.filter isProgress := by
  have hhand : t'.ssw.hand = t.ssw.hand := by rw [ha.hand, List.append_nil]
  have huv : Ahead [] (u.holding t.ssw.hand) (v.holding t'.ssw.hand) := ha.of_alike h.ahead h'.ahead
  obtain ⟨n, hn⟩ := huv.regs
  obtain ⟨m, hm⟩ := ha.regs
  have hleft : v.ssw.leftLen = u.ssw.leftLen ∧
      v.left.readRun 0 u.ssw.leftLen.toNat = u.left.readRun 0 u.ssw.leftLen.toNat := by
    by_cases hf : t.ssw.phase = .failed
    · rw [h'.done (ha.phase.trans hf), h.done hf]
      exact ⟨rfl, rfl⟩
    · obtain ⟨hlen, hbytes⟩ := h.left hf
      obtain ⟨hlen', hbytes'⟩ := h'.left (ha.phase ▸ hf)
      rw [hhand] at hlen' hbytes'
      exact ⟨BitVec.eq_of_toNat_eq (hlen'.trans hlen.symm), by rw [hlen, hbytes, hbytes']⟩
  have hregs : v.ssw = { u.ssw with leftLen := v.ssw.leftLen } := by
    have hn' : n = v.ssw.leftLen := (congrArg Ssw.leftLen hn).symm
    have hv : v.ssw = { (v.holding t'.ssw.hand).ssw with hand := v.ssw.hand } := rfl
    rw [← hn', hv, hn, h'.hand, ← h.hand]
    rfl
  refine ⟨by rw [hregs, hleft.1], ?_, huv.store, hleft.2, huv.reports⟩
  rw [pushCode, pushCode, hm]

end

/-- Settles O32: the pushes of the pieces, and the one push of all of them, end as the loop does that has the image at once. -/
theorem cutIndependence : Obligations.CutIndependence := by
  intro s pieces img hok hinv hp hl hsplit hne hfaith hroom
  have hfresh : Fresh img s := ⟨hok, hinv, hp, hl, hfaith, hroom⟩
  have hpieces : pieces ≠ [] := by
    rintro rfl
    exact hne hsplit.symm
  obtain ⟨t, u, hu, hrun, hrest, hret⟩ := hfresh.pushes (pieces := [img]) (by simp) (by simp)
  obtain ⟨t', v, hv, hrun', hrest', hret'⟩ := hfresh.pushes hpieces hsplit
  obtain ⟨hssw, hcode, hstore, hleft, hreports⟩ := hrest.same hrest' (hrun.alike hrun')
  refine ⟨u, v, ?_, hv, hssw, by rw [hret, hret', hcode], hstore, hleft, hreports⟩
  cases hexec : exec (.sswPush img) s with
  | next w =>
    rw [pushInTurn, hexec] at hu
    exact hu
  | fault f => rw [pushInTurn, hexec] at hu; cases hu
  | refused x => rw [pushInTurn, hexec] at hu; cases hu

end

end Sys2Proof.Machine
end

section
/-! PROOFS. SSW.PUSH takes no notice of the dispatcher's registers (rule R74): with others there, each operation comes to the same,
and they stand as they did. -/

namespace Sys2Proof.Machine

/-- A test that is the same in both runs commutes with what the two branches commute with. -/
theorem ite_eq_map {α β : Type} (f : α → β) {p : Prop} [Decidable p] {a b : α} {a' b' : β} (ha : a' = f a) (hb : b' = f b) :
    (if p then a' else b') = f (if p then a else b) := by
  split
  · exact ha
  · exact hb

/-- A step with other registers of the dispatcher in the state it goes on with. -/
def PushStep.withCdi (d : Cdi) : PushStep → PushStep
  | .wait => .wait
  | .go s => .go (s.withCdi d)

/-- What an operation answers, with other registers of the dispatcher in the state it leaves. -/
def answerWithCdi {α : Type} (d : Cdi) (r : α × State) : α × State := (r.1, r.2.withCdi d)

section
variable (d : Cdi) (s : State)

theorem chunkDone_withCdi : chunkDone (s.withCdi d) = (chunkDone s).withCdi d := rfl

theorem takeChunk_withCdi (hdr eff : Bytes) (k : ChunkKind) :
    takeChunk hdr eff k (s.withCdi d) = (takeChunk hdr eff k s).withCdi d := by
  unfold takeChunk
  refine ite_eq_map (State.withCdi · d) rfl (ite_eq_map (State.withCdi · d) rfl ?_)
  cases k with
  | raw => exact ite_eq_map (State.withCdi · d) rfl rfl
  | fill | dontCare | crc32 => rfl

theorem unknownChunk_withCdi (hdr : Bytes) : unknownChunk hdr (s.withCdi d) = (unknownChunk hdr s).withCdi d := by
  refine ite_eq_map (State.withCdi · d) rfl ?_
  simp only [raiseSsw, State.withSsw_cfg, State.withSsw_ssw, State.withCdi_cfg, State.withCdi_ssw]
  cases chunkKind s.cfg s.ssw.lastHdr with
  | none => rfl
  | some k => exact takeChunk_withCdi d (raiseSsw .chunkType s) hdr s.ssw.lastHdr k

theorem stepSpChunkHdr_withCdi : stepSpChunkHdr (s.withCdi d) = (stepSpChunkHdr s).withCdi d := by
  refine ite_eq_map _ rfl ?_
  simp only [State.withCdi_cfg, State.withCdi_ssw]
  cases chunkKind s.cfg (s.ssw.hand.take s.cfg.chunkHdrLen) with
  | none => exact congrArg PushStep.go (unknownChunk_withCdi d s _)
  | some k => exact congrArg PushStep.go (takeChunk_withCdi d s _ _ k)

theorem stepSpRaw_withCdi : stepSpRaw (s.withCdi d) = (stepSpRaw s).withCdi d :=
  ite_eq_map _ rfl (ite_eq_map _ (congrArg PushStep.go (ite_eq_map (State.withCdi · d) rfl rfl)) rfl)

theorem fillWrite_withCdi (w : Bytes) (fuel : Nat) : ∀ (n : Nat) (s : State),
    fillWrite w fuel n (s.withCdi d) = (fillWrite w fuel n s).withCdi d := by
  induction fuel with
  | zero => exact fun _ _ => rfl
  | succ fuel ih =>
    intro n s
    exact ite_eq_map (State.withCdi · d) rfl (ite_eq_map (State.withCdi · d) (ih _ (advance _ (devWriteCall _ _ s).2)) rfl)

theorem eraseMid_withCdi (mid : Nat) : eraseMid mid (s.withCdi d) = (eraseMid mid s).withCdi d :=
  ite_eq_map (State.withCdi · d) (ite_eq_map (State.withCdi · d) rfl rfl) rfl

theorem doFill_withCdi (w : Bytes) (nblk : Nat) : doFill w nblk (s.withCdi d) = (doFill w nblk s).withCdi d := by
  refine ite_eq_map (State.withCdi · d) ?_ (fillWrite_withCdi ..)
  dsimp only
  rw [fillWrite_withCdi, eraseMid_withCdi, fillWrite_withCdi]
  rfl

theorem fillCalls_withCdi : fillCalls (s.withCdi d) = (fillCalls s).withCdi d := doFill_withCdi d (eatWord s) _ _

theorem stepSpFill_withCdi : stepSpFill (s.withCdi d) = (stepSpFill s).withCdi d := by
  refine ite_eq_map _ rfl (congrArg PushStep.go ?_)
  show (if (fillCalls (s.withCdi d)).ssw.phase = .failed then fillCalls (s.withCdi d) else chunkDone (fillCalls (s.withCdi d))) = _
  rw [fillCalls_withCdi]
  exact ite_eq_map (State.withCdi · d) rfl (chunkDone_withCdi d (fillCalls s))

theorem stepRaw_withCdi (hp : s.ssw.phase = .raw) : stepRaw (s.withCdi d) = (stepRaw s).withCdi d := by
  by_cases hk : s.ssw.imageBlocks = 0
  · rw [stepRaw_wait hk, stepRaw_wait (s := s.withCdi d) hk]
    rfl
  by_cases hfit : s.ssw.cursor.toNat + s.ssw.imageBlocks ≤ s.ssw.partSize.toNat
  · cases hw : rawCall s.ssw.imageBlocks s with | mk ok t => ?_
    cases hr : devReadCall (cursorBlk s) s.ssw.imageBlocks t with | mk rb u => ?_
    have hw' : rawCall s.ssw.imageBlocks (s.withCdi d) = (ok, t.withCdi d) := congrArg (answerWithCdi d) hw
    have hr' : devReadCall (cursorBlk s) s.ssw.imageBlocks (t.withCdi d) = (rb, u.withCdi d) :=
      congrArg (answerWithCdi d) hr
    rw [stepRaw_go hp hk hfit hw hr, stepRaw_go (s := s.withCdi d) hp hk hfit hw' hr']
    refine congrArg PushStep.go (ite_eq_map (State.withCdi · d) ?_ rfl)
    cases rb <;> rfl
  · rw [stepRaw_overrun hk (not_le.1 hfit), stepRaw_overrun (s := s.withCdi d) hk (not_le.1 hfit)]
    rfl

/-- Every step of the loop (rule R286). -/
theorem pushStep_withCdi : pushStep (s.withCdi d) = (pushStep s).withCdi d := by
  unfold pushStep
  rw [State.withCdi_ssw]
  cases hp : s.ssw.phase with
  | closed | failed => rfl
  | detect => exact ite_eq_map _ rfl rfl
  | spHdr => exact ite_eq_map _ rfl (ite_eq_map _ rfl (ite_eq_map _ rfl rfl))
  | spChunkHdr => exact stepSpChunkHdr_withCdi d s
  | spRaw => exact stepSpRaw_withCdi d s
  | spFill => exact stepSpFill_withCdi d s
  | spDone => exact ite_eq_map _ rfl rfl
  | raw => exact stepRaw_withCdi d s hp

theorem pushLoop_withCdi (fuel : Nat) : ∀ s : State, pushLoop fuel (s.withCdi d) = (pushLoop fuel s).withCdi d := by
  induction fuel with
  | zero => exact fun _ => rfl
  | succ fuel ih =>
    intro s
    have hstep := pushStep_withCdi d s
    cases hs : pushStep s with
    | wait => rw [pushLoop_wait _ hs, pushLoop_wait _ (by rw [hstep, hs]; rfl)]
    | go t =>
      rw [pushLoop_go _ hs, pushLoop_go (s1 := t.withCdi d) _ (by rw [hstep, hs]; rfl)]
      exact ite_eq_map (State.withCdi · d) rfl (ih t)

theorem pushEnd_withCdi : pushEnd (s.withCdi d) = (pushEnd s).map (answerWithCdi d) := by
  refine ite_eq_map (Except.map _) rfl ?_
  simp only [State.withCdi_ssw, State.withCdi_cfg, State.withCdi_left]
  cases writeBuf .left (leftCap s.cfg s.ssw) s.left 0 s.ssw.hand <;> rfl

/-- A push (rule R286). -/
theorem sswPushOp_withCdi (b : Bytes) : sswPushOp b (s.withCdi d) = (sswPushOp b s).map (answerWithCdi d) := by
  refine ite_eq_map (Except.map _) rfl (ite_eq_map (Except.map _) rfl (ite_eq_map (Except.map _) rfl ?_))
  simp only [State.withCdi_ssw, State.withCdi_cfg, State.withCdi_left]
  cases readBuf .left (leftCap s.cfg s.ssw) s.left 0 s.ssw.leftLen.toNat with
  | error f => rfl
  | ok l =>
    exact (congrArg pushEnd (pushLoop_withCdi d _ (s.withSsw { s.ssw with hand := l ++ b }))).trans (pushEnd_withCdi ..)

end
end Sys2Proof.Machine
end

section
/-! PROOFS. The dispatcher as an observer sees it: what it turns away, what each of the six commands comes to, and how it reacts to a
header rejected on USB and to an engine that aborts (44_command_interface.md rules R344 to R356). -/

namespace Sys2Proof.Machine

/-! ## Dispatch (rules R344, R346, R348, R351) -/

section
variable {s : State} {via : Transport} {hb payload : Bytes}

/-- The echoed byte 6 stands in a header of 7 bytes (rule R344; log 21). -/
theorem handleCommandOp_rejected {e : CdiErr} (h : hdrDecode s.cfg Config.cmdMagic hb = .error e) (hlen : 7 ≤ hb.length) :
    handleCommandOp via hb payload s = .next { s.noted via true with
      ret := some (.rejected e (hdrEncode s.cfg Config.rspMagic ⟨1, 1, byteAt hb 6, s.cfg.rspFailed, 0⟩)) } := by
  have hecho : echoOf hb = byteAt hb 6 := if_pos hlen
  simp only [handleCommandOp, h, noteHeader_eq, hecho]
  rfl

/-- Whatever is echoed, a header rejected on USB is noted (rule R344; log 21, log 28). -/
theorem handleCommandOp_noted {e : CdiErr} (h : hdrDecode s.cfg Config.cmdMagic hb = .error e) :
    ∃ r, handleCommandOp via hb payload s = .next ((s.noted via true).withRet r) := by
  simp only [handleCommandOp, h, noteHeader_eq]
  exact ⟨_, rfl⟩

section
variable {x : HdrRecord} (h : hdrDecode s.cfg Config.cmdMagic hb = .ok x)
include h

theorem handleCommandOp_wrongLength (hlen : payload.length ≠ x.dataLength.toNat) :
    handleCommandOp via hb payload s = .next { s.noted via false with ret := answered s.cfg x.command s.cfg.rspFailed [] } := by
  simp only [handleCommandOp, h, noteHeader_eq]
  exact if_pos hlen

theorem handleCommandOp_unknown (hlen : payload.length = x.dataLength.toNat)
    (hno : handlerOf via x.command payload (s.noted via false) = none) :
    handleCommandOp via hb payload s = .next { s.noted via false with ret := answered s.cfg x.command s.cfg.rspInvalid [] } := by
  simp only [handleCommandOp, h, noteHeader_eq]
  rw [if_neg (not_not.2 hlen), hno]
  rfl

end

/-- A handler that ends hands its reply back in a response (rules R348, R349). -/
theorem handleCommandOp_answered {cmd rsv : Byte} {r : HdrRest} (hgood : goodCommand s.cfg cmd rsv r payload) {st : Byte}
    {out : Bytes} {t : State} (hq : handlerOf via cmd payload (s.noted via false) = some (.ok (⟨st, out⟩, t)))
    (hcfg : t.cfg = s.cfg) :
    handleCommandOp via (headerBytes Config.cmdMagic cmd rsv r) payload s =
      .next { t with ret := answered s.cfg cmd st out } := by
  rw [handleCommandOp_good via hgood, hq, ← hcfg]
  rfl

end

/-! ## Which handler a command has (rules R11, R118) -/

section
variable {s : State} (via : Transport) (payload : Bytes)

theorem handlerOf_unknown {cmd : Byte} (h : cmd ∉ [s.cfg.cmdSetFwcMeta, s.cfg.cmdSendFwcData, s.cfg.cmdGetFwcCrc,
    s.cfg.cmdGetFwcBurnResult, s.cfg.cmdSetUpgCfg, s.cfg.cmdSetUpgEnd]) : handlerOf via cmd payload s = none := by
  simp only [List.mem_cons, List.not_mem_nil, or_false, not_or] at h
  obtain ⟨hmeta, hdata, hcrc, hresult, hcfg, hend⟩ := h
  rw [handlerOf, if_neg hmeta, if_neg hdata, if_neg hcrc, if_neg hresult, if_neg hcfg, if_neg hend]

theorem handlerOf_setFwcMeta :
    handlerOf via s.cfg.cmdSetFwcMeta payload s = some (.ok (handleSetMeta via payload s)) := if_pos rfl

variable (hok : s.cfg.ok)
include hok

theorem handlerOf_sendFwcData : handlerOf via s.cfg.cmdSendFwcData payload s = some (handleSendData payload s) := by
  obtain ⟨hmeta, -⟩ := commands_distinct hok
  rw [handlerOf, if_neg hmeta.symm, if_pos rfl]

theorem handlerOf_getFwcCrc : handlerOf via s.cfg.cmdGetFwcCrc payload s = some (.ok (handleGetCrc s)) := by
  obtain ⟨-, hmeta, -, -, -, hdata, -⟩ := commands_distinct hok
  rw [handlerOf, if_neg hmeta.symm, if_neg hdata.symm, if_pos rfl]

theorem handlerOf_getFwcBurnResult :
    handlerOf via s.cfg.cmdGetFwcBurnResult payload s = some (.ok (handleGetResult s)) := by
  obtain ⟨-, -, hmeta, -, -, -, hdata, -, -, hcrc, -⟩ := commands_distinct hok
  rw [handlerOf, if_neg hmeta.symm, if_neg hdata.symm, if_neg hcrc.symm, if_pos rfl]

theorem handlerOf_setUpgCfg : handlerOf via s.cfg.cmdSetUpgCfg payload s = some (.ok (handleSetCfg payload s)) := by
  obtain ⟨-, -, -, hmeta, -, -, -, hdata, -, -, hcrc, -, hresult, -⟩ := commands_distinct hok
  rw [handlerOf, if_neg hmeta.symm, if_neg hdata.symm, if_neg hcrc.symm, if_neg hresult.symm, if_pos rfl]

theorem handlerOf_setUpgEnd : handlerOf via s.cfg.cmdSetUpgEnd payload s = some (.ok (handleSetEnd s)) := by
  obtain ⟨-, -, -, -, hmeta, -, -, -, hdata, -, -, hcrc, -, hresult, hcfg⟩ := commands_distinct hok
  rw [handlerOf, if_neg hmeta.symm, if_neg hdata.symm, if_neg hcrc.symm, if_neg hresult.symm, if_neg hcfg.symm, if_pos rfl]

end

/-- Settles O42: the three tests of HANDLE_COMMAND in their order; none of them runs a handler. -/
theorem commandsRejected : Obligations.CommandsRejected := by
  refine fun s via hb payload => ⟨fun e he hlen => ?header, fun x hx => ⟨fun hlen => ?length, fun hlen hcmd => ?command⟩⟩
  case header => exact handleCommandOp_rejected he hlen
  case length => exact handleCommandOp_wrongLength hx hlen
  case command => exact handleCommandOp_unknown hx hlen (handlerOf_unknown via payload hcmd)

/-! ## SEND_FWC_DATA (rule R349) -/

/-- SEND_FWC_DATA does what SSW.PUSH does: the writer takes no notice of what the dispatcher has noted of the header. -/
theorem handleSendData_noted {s t : State} {code : Byte} {payload : Bytes} (via : Transport)
    (h : sswPushOp payload s = .ok (code, t)) :
    handleSendData payload (s.noted via false) = .ok (⟨statusOfCode s.cfg code, []⟩, t.noted via false) := by
  obtain ⟨⟨hcfg, -⟩, hcdi⟩ := onlySsw_of_beside (sswPushOp_beside h)
  have hpush : sswPushOp payload (s.noted via false) = _ := sswPushOp_withCdi (s.noted via false).cdi s payload
  have hnoted : t.noted via false = t.withCdi (s.noted via false).cdi := by
    rw [State.noted, hcdi]
    rfl
  rw [handleSendData, hpush, h, hnoted, ← hcfg]
  rfl

/-- Settles O43: a push does not fault (`sswPushOp_ne_error`), and what the dispatcher noted before it makes no difference to it. -/
theorem dataForwarded : Obligations.DataForwarded := by
  intro s via rsv r payload i hok hinv hgood hi
  cases hp : sswPushOp payload s with
  | error f => exact absurd hp (sswPushOp_ne_error hok hinv payload f)
  | ok p =>
    obtain ⟨code, t⟩ := p
    obtain ⟨⟨hcfg, -⟩, -⟩ := onlySsw_of_beside (sswPushOp_beside hp)
    have hexec : exec i s = handleCommandOp via (headerBytes Config.cmdMagic s.cfg.cmdSendFwcData rsv r) payload s := by
      rcases hi with rfl | rfl <;> rfl
    have hhandler := (handlerOf_sendFwcData (s := s.noted via false) via payload hok).trans
      (congrArg some (handleSendData_noted via hp))
    refine ⟨t, code, exec_sswPush_ok hp, ?_⟩
    rw [hexec, handleCommandOp_answered hgood hhandler hcfg]
    rfl

/-! ## The other commands but for SET_FWC_META (rules R349, R353) -/

theorem handleGetCrc_noSession {s : State} (h : s.ssw.phase = .closed) :
    handleGetCrc s = (⟨s.cfg.rspFailed, Config.crcPayload 1 0⟩, s) := by
  rw [handleGetCrc, sswCrcOf, if_pos h]
  rfl

theorem handleGetCrc_session {s : State} (h : s.ssw.phase ≠ .closed) :
    handleGetCrc s = (⟨0, Config.crcPayload 0 s.ssw.crcWr⟩, s) := by
  rw [handleGetCrc, sswCrcOf, if_neg h]
  rfl

theorem handleGetResult_eq (s : State) : handleGetResult s =
    (⟨resultStatus s.cfg (sswResultOf s.ssw), (Config.burnReply (sswResultOf s.ssw)).2⟩, s) := rfl

/-- The status of GET_FWC_BURN_RESULT (rules R347, R385; log 18). -/
theorem resultStatus_eq (c : Config) (code : Byte) : resultStatus c code =
    if code = 0 then 0 else if code = 1 ∨ (Config.burnReply code).1 = 0 then c.rspFailed else (Config.burnReply code).1 := by
  by_cases h0 : code = 0
  · rw [if_pos h0, resultStatus, if_pos (.inl h0), h0]
    rfl
  · have htest : (code = sswNum .ok ∨ code = sswNum .noSession ∨ (Config.burnReply code).1 = 0) ↔
        code = 1 ∨ (Config.burnReply code).1 = 0 := or_iff_right h0
    rw [if_neg h0, resultStatus, statusOfCode, if_neg h0]
    simp only [htest]

theorem rspFailed_ne_zero {c : Config} (hok : c.ok) : c.rspFailed ≠ 0 := by
  obtain ⟨⟨-, -, -, -, -, -, -, -, -, -, -, -, -, hrsp, -⟩, -⟩ := hok
  simp only [List.nodup_cons, List.mem_cons, List.not_mem_nil, or_false, not_or] at hrsp
  obtain ⟨⟨-, hne⟩, -⟩ := hrsp
  exact Ne.symm hne

/-- An error is never answered with 0 (rules R347, R385). -/
theorem resultStatus_eq_zero_iff {c : Config} (hok : c.ok) (code : Byte) : resultStatus c code = 0 ↔ code = 0 := by
  rw [resultStatus_eq]
  split
  next h0 => exact iff_of_true rfl h0
  next h0 =>
  refine iff_of_false ?_ h0
  split
  · exact rspFailed_ne_zero hok
  next hfree => exact (not_or.1 hfree).2

/-- A session is closed (rules R285, R350). -/
theorem sswCloseOp_session {s : State} (h : s.ssw.phase ≠ .closed) :
    sswCloseOp s = (0, { s with ssw := closedSession s.cfg, cdi := { s.cdi with owner := none } }) :=
  (sswCloseOp_eq s).trans (if_neg h)

theorem handleSetEnd_noSession {s : State} (h : s.ssw.phase = .closed) : handleSetEnd s = (⟨s.cfg.rspFailed, []⟩, s) := by
  rw [handleSetEnd, sswCloseOp_eq, if_pos h]
  rfl

theorem handleSetEnd_session {s : State} (h : s.ssw.phase ≠ .closed) : handleSetEnd s =
    (⟨0, []⟩, { s with ssw := closedSession s.cfg, cdi := { s.cdi with owner := none } }) := by
  rw [handleSetEnd, sswCloseOp_session h]
  rfl

/-- The reading of a SET_UPG_CFG payload, with the answer `nextAnswer` gives (rule R353; log 18). -/
theorem readModeCall_eq {s : State} {m : UpgradeMode} {rest : List UpgradeMode}
    (h : nextAnswer s.ans.mode (Config.freeMode s.asked) = (m, rest)) (payload : Bytes) :
    readModeCall payload s = (m, { s with
      ans := { s.ans with mode := rest }, asked := s.asked + 1, log := s.log ++ [.readMode payload m] }) := by
  simp only [readModeCall, h]
  rfl

section
variable {s t : State} {m : UpgradeMode} {payload : Bytes} (h : readModeCall payload s = (m, t))
include h

theorem handleSetCfg_allowed (hm : m ∈ t.cdi.initMode) :
    handleSetCfg payload s = (⟨0, []⟩, { t with cdi := { t.cdi with mode := m, modeSet := true } }) := by
  rw [handleSetCfg, h]
  exact if_pos hm

theorem handleSetCfg_refused (hm : m ∉ t.cdi.initMode) : handleSetCfg payload s = (⟨t.cfg.rspFailed, []⟩, t) := by
  rw [handleSetCfg, h]
  exact if_neg hm

end

/-- Settles O44: each handler by its lemma, in the state in which the header has been noted. -/
theorem commandsHandled : Obligations.CommandsHandled := by
  rintro s u via rsv r payload hok rfl
  refine ⟨fun hgood => ?crc, fun hgood => ?result, fun hgood => ?ended, fun hgood m rest hm t ht => ?mode⟩
  case crc =>
    have hh := handlerOf_getFwcCrc (s := s.noted via false) via payload hok
    by_cases hp : s.ssw.phase = .closed
    · rw [handleGetCrc_noSession (s := s.noted via false) hp] at hh
      rw [if_pos hp]
      exact handleCommandOp_answered hgood hh rfl
    · rw [handleGetCrc_session (s := s.noted via false) hp] at hh
      rw [if_neg hp]
      exact handleCommandOp_answered hgood hh rfl
  case result =>
    have hh := handlerOf_getFwcBurnResult (s := s.noted via false) via payload hok
    rw [handleGetResult_eq] at hh
    exact ⟨sswResultOf s.ssw, resultStatus s.cfg (sswResultOf s.ssw), resultStatus_eq_zero_iff hok _, resultStatus_eq _ _, rfl,
      handleCommandOp_answered hgood hh rfl⟩
  case ended =>
    have hh := handlerOf_setUpgEnd (s := s.noted via false) via payload hok
    refine ⟨fun hp => ?_, fun hp => ?_⟩
    · rw [handleSetEnd_noSession (s := s.noted via false) hp] at hh
      exact handleCommandOp_answered hgood hh rfl
    · rw [handleSetEnd_session (s := s.noted via false) hp] at hh
      exact handleCommandOp_answered hgood hh rfl
  case mode =>
    have hh := handlerOf_setUpgCfg (s := s.noted via false) via payload hok
    have hread := readModeCall_eq (s := s.noted via false) hm payload
    subst ht
    refine ⟨fun hin => ?_, fun hin => ?_⟩
    · rw [handleSetCfg_allowed hread hin] at hh
      exact handleCommandOp_answered hgood hh rfl
    · rw [handleSetCfg_refused hread hin] at hh
      exact handleCommandOp_answered hgood hh rfl

/-! ## SET_FWC_META (rules R349, R350) -/

/-- The lookup of a partition, with the answer `nextAnswer` gives (rules R61, R349; log 18). -/
theorem lookupCall_eq {s : State} {d : Option Desc} {rest : List (Option Desc)}
    (h : nextAnswer s.ans.lookup (Config.freeLookup s.asked) = (d, rest)) (payload : Bytes) :
    lookupCall payload s = (d, { s with
      ans := { s.ans with lookup := rest }, asked := s.asked + 1, log := s.log ++ [.lookup payload d] }) := by
  simp only [lookupCall, h]
  rfl

/-- The state in which a session that may be replaced has been closed (rules R285, R350). -/
def vacated (s : State) : State := if s.ssw.phase = .closed then s else (sswCloseOp s).2

theorem vacated_of_closed {s : State} (h : s.ssw.phase = .closed) : vacated s = s := if_pos h

theorem vacated_of_open {s : State} (h : s.ssw.phase ≠ .closed) :
    vacated s = { s with ssw := closedSession s.cfg, cdi := { s.cdi with owner := none } } := by
  rw [vacated, if_neg h, sswCloseOp_session h]

theorem vacated_phase (s : State) : (vacated s).ssw.phase = .closed := by
  by_cases h : s.ssw.phase = .closed
  · rwa [vacated_of_closed h]
  · rw [vacated_of_open h]
    rfl

/-- However a session is replaced, what is left of the old one is nothing (rules R284, R350). -/
theorem vacated_reopened (s : State) (w : Ssw) (via : Transport) :
    { vacated s with ssw := w, cdi := { (vacated s).cdi with owner := some via } } =
      { s with ssw := w, cdi := { s.cdi with owner := some via } } := by
  by_cases h : s.ssw.phase = .closed
  · rw [vacated_of_closed h]
  · rw [vacated_of_open h]

theorem vacated_cfg (s : State) : (vacated s).cfg = s.cfg := by
  by_cases h : s.ssw.phase = .closed
  · rw [vacated_of_closed h]
  · rw [vacated_of_open h]

section
variable {s t : State} {via : Transport} {payload : Bytes}

theorem handleSetMeta_refused (h : s.ssw.phase ≠ .closed) (ho : s.cdi.owner ≠ some via) :
    handleSetMeta via payload s = (⟨s.cfg.rspFailed, []⟩, s) := if_pos ⟨h, ho⟩

variable (hmay : s.ssw.phase = .closed ∨ s.cdi.owner = some via)
include hmay

theorem handleSetMeta_noPartition (hl : lookupCall payload s = (none, t)) :
    handleSetMeta via payload s = (⟨t.cfg.rspFailed, []⟩, t) := by
  rw [handleSetMeta, if_neg (by tauto), hl]

section
variable {x : Desc} (hl : lookupCall payload s = (some x, t))
include hl

/-- A partition has been found: the writer's answer to SSW.OPEN of it decides (rules R284, R349). -/
theorem handleSetMeta_found {code : Byte} {v : State} (ho : sswOpenOp x (vacated t) = (code, v)) :
    handleSetMeta via payload s =
      (⟨statusOfCode v.cfg code, []⟩, if code = 0 then v.withCdi { v.cdi with owner := some via } else v) := by
  rw [handleSetMeta, if_neg (by tauto), hl]
  simp only
  rw [← vacated, ho]

theorem handleSetMeta_opened (hd : descOk x = true) :
    handleSetMeta via payload s =
      (⟨0, []⟩, { t with ssw := openedSession t.cfg x.start x.size x.bs, cdi := { t.cdi with owner := some via } }) := by
  have ho : sswOpenOp x (vacated t) = (0, { vacated t with ssw := openedSession (vacated t).cfg x.start x.size x.bs }) := by
    rw [sswOpenOp_eq, if_neg (not_not.2 (vacated_phase t)), if_pos hd]
  rw [handleSetMeta_found hmay hl ho, ← vacated_reopened, ← vacated_cfg t]
  rfl

theorem handleSetMeta_badDesc (hd : ¬ descOk x = true) :
    handleSetMeta via payload s = (⟨t.cfg.rspFailed, []⟩, vacated t) := by
  have ho : sswOpenOp x (vacated t) = (3, vacated t) := by
    rw [sswOpenOp_eq, if_neg (not_not.2 (vacated_phase t)), if_neg hd]
  rw [handleSetMeta_found hmay hl ho, vacated_cfg]
  rfl

end

end

/-- Settles O45: who owns the session, what the lookup answers, and whether SSW.OPEN takes the descriptor, in this order. -/
theorem sessionRetargeted : Obligations.SessionRetargeted := by
  rintro s u via rsv r payload d rest hok rfl hgood hd t ht
  have hh := handlerOf_setFwcMeta (s := s.noted via false) via payload
  have hl : lookupCall payload (s.noted via false) = (d, t) := ht ▸ lookupCall_eq (s := s.noted via false) hd payload
  refine ⟨fun hp ho => ?refused, fun hmay => ⟨?noPartition, fun x hx hbs hmod hsum => ?opened, fun x hx hbad => ?bad⟩⟩
  case refused =>
    rw [handleSetMeta_refused (s := s.noted via false) hp ho] at hh
    exact handleCommandOp_answered hgood hh rfl
  case noPartition =>
    rintro rfl
    rw [handleSetMeta_noPartition (s := s.noted via false) hmay hl] at hh
    subst ht
    exact handleCommandOp_answered hgood hh rfl
  case opened =>
    subst hx
    rw [handleSetMeta_opened (s := s.noted via false) hmay hl ((descOk_iff x).2 ⟨hbs, hmod, hsum⟩)] at hh
    subst ht
    exact handleCommandOp_answered hgood hh rfl
  case bad =>
    have hno : ¬ descOk x = true := by
      rw [descOk_iff]
      omega
    have hssw : t.ssw = s.ssw := by rw [ht]; rfl
    subst hx
    rw [handleSetMeta_badDesc (s := s.noted via false) hmay hl hno] at hh
    refine ⟨fun hp => ?_, fun hp => ?_⟩
    · rw [vacated_of_closed (hssw ▸ hp)] at hh
      subst ht
      exact handleCommandOp_answered hgood hh rfl
    · rw [vacated_of_open (hssw ▸ hp)] at hh
      subst ht
      exact handleCommandOp_answered hgood hh rfl

/-! ## Reactions (rules R344, R356, R436) -/

/-- Without a phase error a rejected header shows in the CSW (rules R246, R344). -/
theorem statusPhase_csw_of_rejected {s : State} (hrej : s.cdi.usbRejected = true) (herr : s.ute.phaseErr = false) :
    s.statusPhase.ute.csw = cswBytes s.ute.tag (s.ute.dlen - s.ute.moved) 1 := by
  simp only [State.statusPhase, herr, if_neg (verdict_ne_zero hrej)]
  rfl

theorem decode_sswClose (c : Config) : decode c ⟨.sswClose, []⟩ = .ok .sswClose := rfl

/-- Settles O46: the note makes DISP.STATUS answer other than 0; an abort leaves SSW.CLOSE pending, and a step runs it when its turn
comes. -/
theorem dispatcherReacts : Obligations.DispatcherReacts := by
  refine fun s => ⟨fun hb payload e he => ?rejected, fun hl hsess n rest hn => ?aborted, fun rest hp hbox => ?closed⟩
  case rejected =>
    obtain ⟨x, hx⟩ := handleCommandOp_noted (via := .usb) (payload := payload) he
    have hrej : ((s.noted .usb true).withRet x).cdi.usbRejected = true := rfl
    exact ⟨_, hx, ⟨_, _, verdict_ne_zero hrej, exec_dispStatus rfl, rfl, rfl⟩, statusPhase_csw_of_rejected hrej⟩
  case aborted =>
    refine ⟨_, exec_tick_expired hl hsess, ?_⟩
    rw [releaseWriter_eq (s := sessionTimeout (s.withUpe s.upe.ticked)) hn]
    exact ⟨rfl, rfl, rfl, rfl⟩
  case closed =>
    rw [step_of_decode_ok hbox (decode_sswClose s.cfg), exec_sswClose,
      sswCloseOp_session (s := s.withInbox rest) hp]
    rfl

end Sys2Proof.Machine
end

section
/-! PROOFS. The beginning of a data phase: what the dispatcher's answer to DISP.EXPECT makes of a good CBW, and the CBWs after which
no byte moves (42_usb_engine.md rules R236, R238). -/

namespace Sys2Proof.Machine

/-- The state once the dispatcher has said what it expects: any other length than the declared one is a phase error (rule R238). -/
def State.expected (s : State) (e : U32) (rest : List U32) : State :=
  { s with
    ute := { s.ute with
      phaseErr := s.ute.phaseErr || decide (e ≠ s.ute.dlen), err := if e = s.ute.dlen then s.ute.err else 2 }
    ans := { s.ans with expect := rest }
    asked := s.asked + 1
    log := s.log ++ [.dispExpect s.ute.cmd s.ute.dlen e] }

/-- DISP.EXPECT and what its answer is compared with (rules R233, R238). -/
theorem expected_eq (s : State) (e : U32) (rest : List U32) :
    (if e ≠ s.ute.dlen then
      raiseUte .length ((s.withAns { s.ans with expect := rest }).act (.dispExpect s.ute.cmd s.ute.dlen e))
    else (s.withAns { s.ans with expect := rest }).act (.dispExpect s.ute.cmd s.ute.dlen e)) = s.expected e rest := by
  by_cases he : e = s.ute.dlen
  · rw [if_neg (not_not.2 he)]
    simp [State.expected, he, State.withAns, State.act]
  · rw [if_pos he]
    simp [State.expected, he, raiseUte, uteErrNum, State.withAns, State.act, State.withUte]

section
variable {s : State} {e : U32} {rest : List U32}

/-- With nothing to move `begin_data` goes on to the status phase (rule R238): a read with no length or no data, a write with no length. -/
theorem beginData_nothing (hans : nextAnswer s.ans.expect (Config.freeExpect s.asked) = (e, rest))
    (h : s.ute.dlen = 0 ∨ (s.ute.dirIn = true ∧ e = 0)) :
    beginData s = .next (State.statusPhase ((s.expected e rest).withUte { (s.expected e rest).ute with
      drain := if s.ute.dirIn = true then s.ute.drain else (s.expected e rest).ute.phaseErr, remain := 0 })) := by
  simp only [beginData, dispExpectCall_eq hans, State.act_ute, State.withAns_ute, expected_eq]
  have hdir : (s.expected e rest).ute.dirIn = s.ute.dirIn := rfl
  have hdlen : (s.expected e rest).ute.dlen = s.ute.dlen := rfl
  cases hd : s.ute.dirIn with
  | true =>
    have hmin : min s.ute.dlen.toNat e.toNat = 0 := by
      rcases h with h | ⟨-, h⟩ <;> simp [h]
    simp only [hdir, hdlen, hd, hmin, if_true, State.withUte_ute, sendCsw_eq]
    rfl
  | false =>
    have hlen : s.ute.dlen = 0 := h.resolve_right (by simp [hd])
    simp only [hdir, hdlen, hd, hlen, if_true, State.withUte_ute, sendCsw_eq]
    rfl

end

/-- Settles O17: the CBW is taken in (`outReadCbw_good`), and nothing is left to move, whatever the dispatcher expects. -/
theorem nothingToMove : Obligations.NothingToMove := by
  rintro s tag len r i read b e rest hrun hst hlen hnothing rfl hrow hans
  rw [exec_outRow hrow, outDone_readCbw hrun hst]
  have hpaired : cbwPaired s.cfg (if read = true then s.cfg.usbCmdRead else s.cfg.usbCmdWrite) read = true := by
    cases read <;> simp [cbwPaired]
  rw [outReadCbw_good s tag len read _ r hlen hpaired]
  refine (beginData_nothing (e := e) (rest := rest) ?asked ?nothing).trans ?_
  case asked => exact hans
  case nothing => exact hnothing
  simp only [State.expected, Bool.false_or]
  rfl

end Sys2Proof.Machine
end

section
/-! PROOFS. Masked events (rule R376): while an engine's gate is shut, what arrives at it is dropped, not deferred. -/

namespace Sys2Proof.Machine

section
variable {s : State} {i : Instr}

/-! ## UPE does not listen (rules R170, R172, R195) -/

theorem tickOp_masked (h : upeMasked s.upe = true) : tickOp s = .next s := if_pos h

theorem exec_upeEvent_masked (hdeaf : ¬ s.listening)
    (hrow : (∃ b, byteRow s.cfg b i) ∨ i = .tick ∨ (∃ blk cblk data crc, i = .shortFrame blk cblk data crc) ∨
      (∃ blk cblk data crc, i = .longFrame blk cblk data crc)) : exec i s = .next s := by
  have hmask : upeMasked s.upe = true := upeMasked_of_deaf hdeaf
  obtain ⟨b, hb⟩ | rfl | ⟨blk, cblk, data, crc, rfl⟩ | ⟨blk, cblk, data, crc, rfl⟩ := hrow
  case inl => rw [exec_byteRow hb, uartRx_masked b hmask]
  case inr.inl => exact tickOp_masked hmask
  case inr.inr.inl => exact uartRxs_masked hmask (shortFrameBytes s.cfg blk cblk data crc)
  case inr.inr.inr => exact uartRxs_masked hmask (longFrameBytes s.cfg blk cblk data crc)

/-! ## UTE does not run (rules R230, R374) -/

theorem outDone_stopped (hstop : s.ute.run = false) (b : Bytes) : outDone b s = .next s := if_neg (by simp [hstop])

theorem inDone_stopped (hstop : s.ute.run = false) (n : U32) : inDone n s = .next s := if_neg (by simp [hstop])

theorem usbResetOp_stopped (hstop : s.ute.run = false) : usbResetOp s = s := if_neg (by simp [hstop])

/-- An event of UTE is a bulk-OUT completion, a bulk-IN completion or a bus reset. -/
theorem uteEvent_kind {c : Config}
    (hrow : (∃ b, i = .outDoneReadCbw b) ∨ (∃ b, i = .outDoneDataOut b) ∨ (∃ n, i = .inDoneDataIn n) ∨
      (∃ n, i = .inDoneWaitCsw n) ∨ (∃ d, i = .doneIgnored d) ∨ (∃ tag len r, i = .cbwWrite tag len r) ∨
      (∃ tag len r, i = .cbwRead tag len r) ∨ (∃ b, i = .cbwMalformed b) ∨ i = .usbReset) :
    (∃ b, outRow c b i) ∨ (∃ n, inRow n i) ∨ i = .usbReset := by
  obtain ⟨b, rfl⟩ | ⟨b, rfl⟩ | ⟨n, rfl⟩ | ⟨n, rfl⟩ | ⟨b | n, rfl⟩ | ⟨tag, len, r, rfl⟩ | ⟨tag, len, r, rfl⟩ | ⟨b, rfl⟩ |
    rfl := hrow
  · exact .inl ⟨b, by simp [outRow]⟩
  · exact .inl ⟨b, by simp [outRow]⟩
  · exact .inr (.inl ⟨n, by simp [inRow]⟩)
  · exact .inr (.inl ⟨n, by simp [inRow]⟩)
  · exact .inl ⟨b, by simp [outRow]⟩
  · exact .inr (.inl ⟨n, by simp [inRow]⟩)
  · exact .inl ⟨cbwBytes tag len false c.usbCmdWrite r, by simp [outRow]⟩
  · exact .inl ⟨cbwBytes tag len true c.usbCmdRead r, by simp [outRow]⟩
  · exact .inl ⟨b, by simp [outRow]⟩
  · exact .inr (.inr rfl)

end

/-- Settles O9: every row of UPE is bytes or a tick, every row of UTE a completion or a bus reset, and each asks the gate first. -/
theorem maskedDropped : Obligations.MaskedDropped := by
  refine fun s i => ⟨exec_upeEvent_masked, fun hstop hrow => ?ute⟩
  obtain ⟨b, hout⟩ | ⟨n, hin⟩ | rfl := uteEvent_kind (c := s.cfg) hrow
  case inl => rw [exec_outRow hout, outDone_stopped hstop]
  case inr.inl => rw [exec_inRow hin, inDone_stopped hstop]
  case inr.inr => exact congrArg Host.Outcome.next (usbResetOp_stopped hstop)

end Sys2Proof.Machine
end

section
/-! PROOFS. A whole damaged frame, and the direction switches DC1 and DC2 (rules R147, R178, R179, R181). -/

namespace Sys2Proof.Machine

/-! ## The engine's two direction switches, and a damaged frame (rules R147, R178, R179, R181) -/

section
variable {s : State}

theorem commandByte_dc1 (hok : s.cfg.ok) : commandByte s.cfg.dc1 s = .next (cmdSwitch .recv .dataRecv s) := by
  obtain ⟨⟨hnodup, -⟩, -⟩ := hok
  simp only [List.nodup_cons, List.mem_cons, not_or] at hnodup
  obtain ⟨-, -, -, -, -, ⟨hsig, -⟩, -⟩ := hnodup
  rw [commandByte, if_neg (Ne.symm hsig), if_pos rfl]

theorem commandByte_dc2 (hok : s.cfg.ok) : commandByte s.cfg.dc2 s = .next (cmdSwitch .send .dataSend s) := by
  obtain ⟨⟨hnodup, -⟩, -⟩ := hok
  simp only [List.nodup_cons, List.mem_cons, not_or] at hnodup
  obtain ⟨-, -, -, -, -, ⟨-, hsig, -⟩, ⟨hdc1, -⟩, -⟩ := hnodup
  rw [commandByte, if_neg (Ne.symm hsig), if_neg (Ne.symm hdc1), if_pos rfl]

/-- With a receive task at the head, or none, nothing is sent (rule R186). -/
theorem quiet_of_head (h : ∀ t ∈ s.upe.q.head?, t.dir = .recv) : s.quiet := by
  by_contra hsend
  obtain ⟨-, t, r, hq, hd⟩ := exists_send_of_not_quiet hsend
  have := h t (by simp [hq])
  rw [hd] at this
  cases this

/-- A direction switch outside a frame, once the byte is known to be one: what `try_send` is called with (rules R172, R187). -/
theorem uartRx_switch {b : Byte} {d : Dir} {st : UpeSt} (hl : s.listening) (hf : inFrame s.cfg s.upe b = false)
    (hb : commandByte b (s.withUpe s.upe.heard) = .next (cmdSwitch d st (s.withUpe s.upe.heard))) :
    uartRx b s = trySend { s with upe := { s.upe.heard with
      st := st, awaitAck := false, fcnt := 0, fneed := 0, q := announced d s.upe.q } } := by
  rw [uartRx_out hl hf, hb, cmdSwitch_eq]
  rfl

end

/-- Settles O2: after the switch only a send task at the head in DATA_SEND makes `try_send` send. -/
theorem directionSwitched : Obligations.DirectionSwitched := by
  refine fun s hok hl => ⟨fun hf i hi => ?dc1, fun hf i hi => ?dc2⟩
  case dc1 =>
    rw [exec_controlByte hi rfl, uartRx_switch hl hf (commandByte_dc1 (s := s.withUpe s.upe.heard) hok)]
    exact trySend_quiet (quiet_of_st nofun)
  case dc2 =>
    rw [exec_controlByte hi rfl, uartRx_switch hl hf (commandByte_dc2 (s := s.withUpe s.upe.heard) hok)]
    refine ⟨fun hrecv => trySend_quiet (quiet_of_head hrecv), fun t r hq hd hlt => ?_⟩
    obtain ⟨f, hpack, hsend⟩ := trySend_sends (s := { s with upe := { s.upe.heard with
      st := .dataSend, awaitAck := false, fcnt := 0, fneed := 0, q := announced .send s.upe.q } }) rfl hq hd hlt
    refine ⟨f, hpack, ?_⟩
    rw [hsend, ← hq]

/-- A frame row that is no good frame: its bytes, which are a whole frame, and what the codec refuses it for (rules R91, R92, R147). -/
theorem exec_damagedRow {s : State} {i : Instr} {blk cblk code : Byte} {data frame : Bytes} {crc : U16} {short : Bool}
    (hok : s.cfg.ok)
    (h : (short = true ∧ data.length ≤ 255 ∧ i = .shortFrame blk cblk data crc ∧
        frame = shortFrameBytes s.cfg blk cblk data crc) ∨
      (short = false ∧ data.length = 1024 ∧ i = .longFrame blk cblk data crc ∧
        frame = longFrameBytes s.cfg blk cblk data crc))
    (hcode : (code = 2 ∧ (blk.toNat + cblk.toNat ≠ 255 ∨ (short = true ∧ 61 < data.length))) ∨
      (code = 1 ∧ blk.toNat + cblk.toNat = 255 ∧ (short = true → data.length ≤ 61) ∧ crc ≠ crc16Of s.cfg.crc16 data)) :
    exec i s = uartRxs frame s ∧ frameTotalOf s.cfg frame = .total frame.length ∧
      ∃ e, unpackOf s.cfg frame = .error e ∧ fcErrNum e = code := by
  rcases h with ⟨rfl, hlen, rfl, rfl⟩ | ⟨rfl, hlen, rfl, rfl⟩
  case inl =>
    refine ⟨rfl, frameTotalOf_short s.cfg (soh_ne_stx hok) blk cblk data crc hlen, ?_⟩
    rw [unpackOf_short s.cfg blk cblk data crc hlen]
    rcases hcode with ⟨rfl, hbad | ⟨-, hlong⟩⟩ | ⟨rfl, hsum, hfits, hcrc⟩
    · exact ⟨.frame, if_pos hbad, rfl⟩
    · refine ⟨.frame, ?_, rfl⟩
      rw [if_pos hlong, ite_self]
    · exact ⟨.data, by rw [if_neg (not_not.2 hsum), if_neg (not_lt.2 (hfits rfl)), if_pos hcrc.symm], rfl⟩
  case inr =>
    refine ⟨rfl, frameTotalOf_long s.cfg blk cblk data crc hlen, ?_⟩
    rw [unpackOf_long s.cfg (soh_ne_stx hok) blk cblk data crc hlen]
    rcases hcode with ⟨rfl, hbad | ⟨hshort, -⟩⟩ | ⟨rfl, hsum, -, hcrc⟩
    · exact ⟨.frame, if_pos hbad, rfl⟩
    · cases hshort
    · exact ⟨.data, by rw [if_neg (not_not.2 hsum), if_pos hcrc.symm], rfl⟩

/-- Settles O8: the bytes are gathered one by one (`uartRxs_frame`), and the whole frame is refused at the codec's first check
that fails. -/
theorem framesRefused : Obligations.FramesRefused := by
  intro s i blk cblk data frame crc short code hok hl _ hst hc hframe hcode
  obtain ⟨hexec, htotal, e, hu, rfl⟩ := exec_damagedRow hok hframe hcode
  obtain ⟨m, hm, hgather⟩ := uartRxs_frame hl hst hc htotal
  have hfcnt : s.upe.heard.fcnt = 0 := hc
  refine ⟨m, hm, ?_⟩
  rw [hexec, hgather, ← State.gathered, gathered_refused hst (completeFrame_damaged hu)]
  simp only [hfcnt]
  rfl

end Sys2Proof.Machine
end

section
/-! PROOFS. RESET, CHECK_UPG_MODE and the words written out from the encodings (rules R354, R410 to R413). -/

namespace Sys2Proof.Machine

/-- Settles O50: the reset values of the three units are the records that the statement writes out. -/
theorem resetTaken : Obligations.ResetTaken := fun _ => rfl

/-- Settles O51: at reset no unit has anything under way, and the writer's header registers have the length of a header. -/
theorem resetMeetsInvariants : Obligations.ResetMeetsInvariants := by
  refine ⟨rfl, ?upe, ?ute, ?ssw, ?mem, ⟨by decide, trivial⟩, rfl, by decide⟩
  case upe => decide
  case ute => decide
  case ssw => decide
  case mem => decide

section
variable {s : State} {m : UpgradeMode} {limit : Nat} (now : U64)

theorem requiredMode_none {init : List UpgradeMode} (hu : .burnUserId ∉ init) (hf : .burnImgForce ∉ init) :
    requiredMode init = none := by rw [requiredMode, if_neg hu, if_neg hf]

/-- The mode that is required, and its time limit (rules R11, R354; log 20). -/
theorem requiredMode_some {c : Config} {init : List UpgradeMode}
    (h : (m = .burnUserId ∧ limit = c.tModeUserId ∧ .burnUserId ∈ init ∧ (.burnImgForce ∈ init → Config.userIdFirst = true)) ∨
      (m = .burnImgForce ∧ limit = c.tModeImgForce ∧ .burnImgForce ∈ init ∧
        (.burnUserId ∈ init → Config.userIdFirst = false))) :
    requiredMode init = some m ∧ tModeOf c m = limit := by
  rcases h with ⟨rfl, rfl, hin, hboth⟩ | ⟨rfl, rfl, hin, hboth⟩
  · refine ⟨?_, rfl⟩
    rw [requiredMode, if_pos hin]
    split
    next hf => rw [if_pos (hboth hf)]
    · rfl
  · refine ⟨?_, rfl⟩
    by_cases hu : .burnUserId ∈ init
    · rw [requiredMode, if_pos hu, if_pos hin, hboth hu]
      rfl
    · rw [requiredMode, if_neg hu, if_pos hin]

theorem checkUpgModeOp_free (h : requiredMode s.cdi.initMode = none) :
    checkUpgModeOp now s = s.withRet (.exitUpgrade false) := by rw [checkUpgModeOp, h]

theorem checkUpgModeOp_set (h : requiredMode s.cdi.initMode = some m) (hm : s.cdi.mode = m) (hset : s.cdi.modeSet = true) :
    checkUpgModeOp now s = (s.withCdi { s.cdi with tStart := now, modeSet := false }).withRet (.exitUpgrade false) := by
  rw [checkUpgModeOp, h]
  exact if_pos ⟨hm, hset⟩

theorem checkUpgModeOp_waiting (h : requiredMode s.cdi.initMode = some m) (hm : s.cdi.mode ≠ m ∨ s.cdi.modeSet = false) :
    checkUpgModeOp now s =
      s.withRet (.exitUpgrade (decide (tModeOf s.cfg m < now.toNat - s.cdi.tStart.toNat))) := by
  rw [checkUpgModeOp, h]
  exact if_neg fun hboth => hm.elim (absurd hboth.1) fun hunset => absurd (hunset.symm.trans hboth.2) (by decide)

end

/-- Settles O47: which mode is required decides between three outcomes, and only the last of them looks at the time. -/
theorem upgradeModeChecked : Obligations.UpgradeModeChecked := by
  intro s now
  have hrow : exec (.checkUpgMode now) s = .next (checkUpgModeOp now s) := rfl
  rw [hrow]
  refine ⟨fun hu hf => congrArg _ (checkUpgModeOp_free now (requiredMode_none hu hf)), fun m limit hreq => ?_⟩
  obtain ⟨hmode, rfl⟩ := requiredMode_some hreq
  refine ⟨fun hm hset => congrArg _ (checkUpgModeOp_set now hmode hm hset), fun hwait hlate => ?late, fun hwait hearly => ?early⟩
  case late => rw [checkUpgModeOp_waiting now hmode hwait, decide_eq_true hlate]; rfl
  case early => rw [checkUpgModeOp_waiting now hmode hwait, decide_eq_false (not_lt.2 hearly)]; rfl

/-- Settles O53: eleven closed words, each read field by field by its decoder. -/
theorem wordsDecode : Obligations.WordsDecode := by
  rintro c rfl
  refine ⟨?_, ?_, ?_, ?_, ?_, ?_, ?_, ?_, ?_, ?_, ?_⟩ <;> decide

end Sys2Proof.Machine
end

section
/-! PROOFS. A good CBW that declares a data phase (rules R236, R238, R239, R242). -/

namespace Sys2Proof.Machine

section
variable {s : State} {e : U32} {rest : List U32} (hans : nextAnswer s.ans.expect (Config.freeExpect s.asked) = (e, rest))
include hans

/-- A write with a length goes on to its first task; on a mismatch what is received is thrown away (rules R238, R239). -/
theorem beginData_write (hdir : s.ute.dirIn = false) (hlen : s.ute.dlen ≠ 0) :
    beginData s = .next (startOutTask (((s.expected e rest).withUte { (s.expected e rest).ute with
      drain := (s.expected e rest).ute.phaseErr, remain := s.ute.dlen }).inStage .dataOut)) := by
  have hdir' : (s.expected e rest).ute.dirIn = false := hdir
  simp only [beginData, dispExpectCall_eq hans, State.act_ute, State.withAns_ute, expected_eq, hdir', Bool.false_eq_true, if_false]
  exact if_neg hlen

/-- A read with bytes to send goes on to its first task: as many as the host asked for and the command has (rules R238, R242). -/
theorem beginData_read (hdir : s.ute.dirIn = true) (hlen : s.ute.dlen ≠ 0) (he : e ≠ 0) :
    beginData s = startInTask (((s.expected e rest).withUte { (s.expected e rest).ute with
      remain := BitVec.ofNat 32 (min s.ute.dlen.toNat e.toNat) }).inStage .dataIn) := by
  have hdir' : (s.expected e rest).ute.dirIn = true := hdir
  have hpos : min s.ute.dlen.toNat e.toNat ≠ 0 := by
    have h1 : s.ute.dlen.toNat ≠ 0 := fun h => hlen (BitVec.eq_of_toNat_eq h)
    have h2 : e.toNat ≠ 0 := fun h => he (BitVec.eq_of_toNat_eq h)
    omega
  simp only [beginData, dispExpectCall_eq hans, State.act_ute, State.withAns_ute, expected_eq, hdir', if_true]
  exact if_neg (ofNat_ne_zero hpos (by omega))

end

/-- Settles O15: the CBW is taken in (`outReadCbw_good`), and the first task begins with its first packet armed. -/
theorem writeDeclared : Obligations.WriteDeclared := by
  intro s tag len r i e rest hrun hst hres hlen hrow hans
  rw [exec_outRow hrow, outDone_readCbw hrun hst, outReadCbw_good s tag len false _ r hres (cbwPaired_iff.2 (.inl ⟨rfl, rfl⟩))]
  refine (beginData_write (e := e) (rest := rest) ?asked rfl ?length).trans ?_
  case asked => exact hans
  case length => exact hlen
  rw [startOutTask_eq]
  simp only [State.expected, State.inStage, State.withUte, Bool.false_or, List.append_assoc]
  rfl

/-- Settles O16: the CBW is taken in, and the first task is asked for and its first packet submitted (`startInTask_eq`). -/
theorem readDeclared : Obligations.ReadDeclared := by
  intro s tag len r i e rest _ hrun hst hres hlen he hrow hans s1 hs1
  rw [exec_outRow hrow, outDone_readCbw hrun hst, outReadCbw_good s tag len true _ r hres (cbwPaired_iff.2 (.inr ⟨rfl, rfl⟩))]
  refine ⟨_, wrote_writeRun _ _ _, (beginData_read (e := e) (rest := rest) ?asked rfl ?length he).trans ?_⟩
  case asked => exact hans
  case length => exact hlen
  rw [startInTask_eq, hs1]
  simp only [State.expected, State.inStage, State.withUte, Bool.false_or]

end Sys2Proof.Machine
end

section
/-! PROOFS. The layer of the wire formats: reading a field that stands behind others, and putting the fields of a byte string together
again (rules R13, R110). -/

namespace Sys2Proof

/-! ## A field that stands behind others -/

section
variable (r : Bytes) (i : Nat)

@[simp] theorem byteAt_cons_zero (b : Byte) : byteAt (b :: r) 0 = b := rfl

@[simp] theorem byteAt_cons_succ (b : Byte) : byteAt (b :: r) (i + 1) = byteAt r i := rfl

@[simp] theorem byteAt_after16 (v : U16) : byteAt (encLe16 v ++ r) (i + 2) = byteAt r i := rfl

@[simp] theorem byteAt_after32 (v : U32) : byteAt (encLe32 v ++ r) (i + 4) = byteAt r i := rfl

@[simp] theorem le16_after16 (v : U16) : le16 (encLe16 v ++ r) (i + 2) = le16 r i := rfl

@[simp] theorem le16_after32 (v : U32) : le16 (encLe32 v ++ r) (i + 4) = le16 r i := rfl

@[simp] theorem le32_cons_succ (b : Byte) : le32 (b :: r) (i + 1) = le32 r i := rfl

@[simp] theorem le32_after16 (v : U16) : le32 (encLe16 v ++ r) (i + 2) = le32 r i := rfl

@[simp] theorem le32_after32 (v : U32) : le32 (encLe32 v ++ r) (i + 4) = le32 r i := rfl

@[simp] theorem drop_after16 (v : U16) : (encLe16 v ++ r).drop (i + 2) = r.drop i := rfl

@[simp] theorem drop_after32 (v : U32) : (encLe32 v ++ r).drop (i + 4) = r.drop i := rfl

end

end Sys2Proof
end

section
/-! PROOFS. SSW.PUSH as a whole: a header that is all it brings, a raw image, and the run of its steps (rules R286 to R290, R301). -/

namespace Sys2Proof.Machine

/-! ## A sparse header that arrives whole (rules R287, R288) -/

section
variable {c : Config} {major minor : U16} {blkSz totalBlks totalChunks : U32} {r : SparseRest} {h : Bytes}

/-- The fields of a sparse header that the writer reads (rule R102). -/
theorem sparseHeaderBytes_fields (hok : c.ok) (hh : h = sparseHeaderBytes c major minor blkSz totalBlks totalChunks r) :
    le32 h 0 = c.sparseMagic ∧ (le16 h 8).toNat = c.sparseHdrLen ∧ (le16 h 10).toNat = c.chunkHdrLen ∧ le32 h 12 = blkSz ∧
      le32 h 16 = totalBlks ∧ le32 h 20 = totalChunks := by
  obtain ⟨⟨-, -, -, -, -, -, -, -, -, -, -, -, -, -, -, hs, -, hc⟩, -⟩ := hok
  have hslen : (BitVec.ofNat 16 c.sparseHdrLen).toNat = c.sparseHdrLen := Nat.mod_eq_of_lt hs
  have hclen : (BitVec.ofNat 16 c.chunkHdrLen).toNat = c.chunkHdrLen := Nat.mod_eq_of_lt hc
  simp [hh, sparseHeaderBytes, le16_encLe16, le32_encLe32, hslen, hclen]

end

/-- The state of a session that waits for the sparse header, with the bytes `h` at hand. -/
def State.atHeader (s : State) (h : Bytes) : State := { s with ssw := { s.ssw with phase := .spHdr, hand := h } }

section
variable {s u : State} {h : Bytes}

/-- The magic leads from DETECT to SP_HDR, and the loop goes on there (rule R287). -/
theorem pushLoop_atHeader (hp : s.ssw.phase = .detect ∨ s.ssw.phase = .spHdr) (hlen : 4 ≤ h.length)
    (hmagic : le32 h 0 = s.cfg.sparseMagic) :
    ∃ n, pushLoop (h.length + 2) (s.holding h) = pushLoop (n + 1) (s.atHeader h) := by
  rcases hp with hp | hp
  · refine ⟨h.length, ?_⟩
    have hstep : pushStep (s.holding h) = .go (s.atHeader h) := by
      refine (pushStep_detect (s := s.holding h) hp).trans ((stepDetect_go (s := s.holding h) hlen).trans ?_)
      exact congrArg (fun p => PushStep.go { s with ssw := { s.ssw with hand := h, phase := p } }) (if_pos hmagic)
    rw [pushLoop_go _ hstep]
    exact if_neg Phase.noConfusion
  · refine ⟨h.length + 1, ?_⟩
    rw [State.atHeader, ← hp, State.holding]

/-- A push that is a whole sparse header: what the step SP_HDR makes of it decides (rules R286, R287, R288). -/
theorem pushBytes_sparseHeader (hok : s.cfg.ok) (hp : s.ssw.phase = .detect ∨ s.ssw.phase = .spHdr) (hl : s.ssw.leftLen = 0)
    (hlen : h.length = s.cfg.sparseHdrLen) (hmagic : le32 h 0 = s.cfg.sparseMagic)
    (hstep : pushStep (s.atHeader h) = .go u) :
    (u.ssw.phase = .failed →
      pushBytes h s = .next { u with ssw := { u.ssw with hand := [] }, ret := some (.code u.ssw.fail) }) ∧
    (u.ssw.phase ≠ .failed → u.ssw.hand = [] → pushStep u = .wait →
      pushBytes h s = .next { u with
        left := u.left.writeRun 0 [], ssw := { u.ssw with leftLen := 0, hand := [] }, ret := some (.code 0) }) := by
  obtain ⟨hmin, -⟩ := lengths_of_ok hok
  have hopen : s.ssw.phase ≠ .closed ∧ s.ssw.phase ≠ .failed := by rcases hp with hp | hp <;> simp [hp]
  obtain ⟨n, hloop⟩ := pushLoop_atHeader hp (by omega) hmagic
  have hop : sswPushOp h s = pushEnd (if u.ssw.phase = .failed then u else pushLoop n u) := by
    rw [sswPushOp_fresh hopen.1 hopen.2 (List.ne_nil_of_length_pos (by omega)) hl]
    exact congrArg pushEnd (hloop.trans (pushLoop_go _ hstep))
  refine ⟨fun hfail => ?_, fun halive hhand hwait => ?_⟩
  · rw [pushBytes, hop, if_pos hfail, pushEnd_failed hfail]
    rfl
  · rw [pushBytes, hop, if_neg halive, pushLoop_wait _ hwait, pushEnd_empty halive hhand]
    rfl

end

/-- Settles O24: the header's own fields meet the first two tests of SP_HDR, so that its block size decides. -/
theorem sparseHeaderTaken : Obligations.SparseHeaderTaken := by
  intro s major minor blkSz totalBlks totalChunks r hok hinv hr hp hl h hh
  obtain ⟨hs0, -, -, -, hdesc, -⟩ := hinv
  have hlen : h.length = s.cfg.sparseHdrLen := by rw [hh, length_sparseHeaderBytes hr]
  obtain ⟨hmagic, h8, h10, h12, h16, h20⟩ := sparseHeaderBytes_fields hok hh
  have hrow : exec (.sparseHeader major minor blkSz totalBlks totalChunks r) s = pushBytes h s := by rw [hh]; rfl
  have hstep := stepSpHdr_go (s := s.atHeader h) (lengths_of_ok hok).1 hlen.ge
  rw [← pushStep_spHdr rfl] at hstep
  have hpush := fun u hu => pushBytes_sparseHeader (u := u) hok hp hl hlen hmagic hu
  rw [hrow]
  refine ⟨fun hbad => ?refused, fun hne hmod => ⟨s.left.writeRun 0 [], sameBytes_writeRun_nil _ _, ?taken⟩⟩
  case refused =>
    have hno : ¬ sparseHdrOk (s.atHeader h) := by
      rintro ⟨-, -, hne, hmod⟩
      rw [← h12] at hbad
      exact hbad.elim hne (absurd hmod)
    rw [if_neg hno] at hstep
    rw [(hpush _ hstep).1 rfl, ← hs0]
    rfl
  case taken =>
    have hyes : sparseHdrOk (s.atHeader h) := by
      refine ⟨h8, h10, ?_⟩
      rw [← h12] at hne hmod
      exact ⟨hne, hmod⟩
    rw [if_pos hyes] at hstep
    have hopen : s.ssw.phase ≠ .closed := by rcases hp with hp | hp <;> simp [hp]
    have hrest : h.drop s.cfg.sparseHdrLen = [] := List.drop_eq_nil_of_le hlen.le
    have hall : h.take s.cfg.sparseHdrLen = h := List.take_of_length_le hlen.le
    have hbs : 0 < s.ssw.bs.toNat := Nat.lt_of_lt_of_le (by decide) (hdesc hopen).1
    refine ((hpush _ hstep).2 ?alive hrest (pushStep_empty hok hrest hbs)).trans ?_
    case alive =>
      dsimp only
      split <;> decide
    simp only [State.atHeader, Ssw.ate, h12, h16, h20, hall, hl, hs0]
    rfl

/-! ## A chunk header that is refused (rules R290, R303) -/

section
variable {s : State} {r : ChunkRest} {csz tsz : U32} {ty : U16} {want : Nat}

/-- The header of a known chunk, pushed whole, is refused for its size and then for an overrun, which CRC32 is exempt from (rules R290,
R292, R303). -/
theorem pushBytes_chunkRefused (hok : s.cfg.ok) (hinv : SswInv s) (hr : r.wf s.cfg) (hp : s.ssw.phase = .spChunkHdr)
    (hl : s.ssw.leftLen = 0)
    (hwant : (ty = s.cfg.typeRaw ∧ want = csz.toNat * s.ssw.sbs.toNat) ∨ (ty = s.cfg.typeFill ∧ want = 4) ∨
      ((ty = s.cfg.typeDontCare ∨ ty = s.cfg.typeCrc32) ∧ want = 0)) :
    (tsz.toNat ≠ s.cfg.chunkHdrLen + want → pushBytes (chunkHeaderBytes ty r csz tsz) s = .next (s.sessionFailed 5)) ∧
    (tsz.toNat = s.cfg.chunkHdrLen + want → ty ≠ s.cfg.typeCrc32 →
      s.ssw.partSize.toNat < s.ssw.cursor.toNat + csz.toNat * (s.ssw.sbs.toNat / s.ssw.bs.toNat) →
      pushBytes (chunkHeaderBytes ty r csz tsz) s = .next (s.sessionFailed 7)) := by
  have hty : ty ∈ s.cfg.chunkTypes := mem_chunkTypes.2 (by tauto)
  have hbegin := knownChunk_pushed hok hinv hp hl (length_chunkHeaderBytes hr) (h := chunkHeaderBytes ty r csz tsz)
    (by rwa [chunkHeaderBytes_type])
  have hparts := hbegin csz tsz.toNat _ _ (chunkHeaderBytes_csz ty r csz tsz).symm
    (congrArg _ (chunkHeaderBytes_tsz ty r csz tsz)).symm rfl rfl
  simp only [chunkHeaderBytes_type] at hparts
  exact hparts.1 want hwant

end

/-- Settles O26: the four rows are the four known types (`pushBytes_chunkRefused`). -/
theorem chunkRefused : Obligations.ChunkRefused := by
  intro s r csz tsz i want hok hinv hr hp hl hi
  have hparts := fun ty hwant => pushBytes_chunkRefused (ty := ty) (csz := csz) (tsz := tsz) (want := want) hok hinv hr hp hl hwant
  obtain ⟨⟨-, -, -, -, -, -, -, -, hn, -⟩, -⟩ := hok
  simp only [List.nodup_cons, List.mem_cons, List.not_mem_nil, or_false, not_or] at hn
  obtain ⟨⟨-, -, hraw⟩, ⟨-, hfill⟩, hdont, -⟩ := hn
  rcases hi with ⟨rfl, hw⟩ | ⟨rfl, hw⟩ | ⟨rfl, hw⟩ | ⟨rfl, hw⟩
  · obtain ⟨hsize, hover⟩ := hparts _ (.inl ⟨rfl, hw⟩)
    exact ⟨hsize, fun hsz _ => hover hsz hraw⟩
  · obtain ⟨hsize, hover⟩ := hparts _ (.inr (.inl ⟨rfl, hw⟩))
    exact ⟨hsize, fun hsz _ => hover hsz hfill⟩
  · obtain ⟨hsize, hover⟩ := hparts _ (.inr (.inr ⟨.inl rfl, hw⟩))
    exact ⟨hsize, fun hsz _ => hover hsz hdont⟩
  · obtain ⟨hsize, -⟩ := hparts _ (.inr (.inr ⟨.inr rfl, hw⟩))
    exact ⟨hsize, fun _ hne => absurd rfl hne⟩

/-! ## A raw image (rule R301) -/

/-- Settles O30: RAW is a test of the room, the write, and the read-back of what the write left. -/
theorem rawImageStep : Obligations.RawImageStep := by
  rintro s k a ok wrest rb rrest hp hbs hk rfl hw hr
  obtain rfl : k = s.ssw.imageBlocks := hk
  refine ⟨fun h0 => pushRaw_row.wait (stepRaw_wait h0), fun h0 hover => pushRaw_row.go hp (stepRaw_overrun h0 hover),
    fun h0 hfit => ?_⟩
  have hlen : s.ssw.imageBlocks * s.ssw.bs.toNat ≤ s.ssw.hand.length := Nat.div_mul_le_self _ _
  have hwrite := devWriteCall_eq (cursorBlk s) (s.ssw.hand.take (s.ssw.imageBlocks * s.ssw.bs.toNat)) hw
  have hv : (stored ok (s.ssw.hand.take (s.ssw.imageBlocks * s.ssw.bs.toNat)) s.asked (cursorBlk s * s.ssw.bs.toNat)).length =
      s.ssw.imageBlocks * s.ssw.bs.toNat := by rw [length_stored, List.length_take, min_eq_left hlen]
  refine ⟨_, _, wrote_writeRun _ _ _, hv, stored_of_ok, ?_⟩
  generalize stored ok _ _ _ = v at hwrite hv ⊢
  have hback : (s.store.writeRun (cursorBlk s * s.ssw.bs.toNat) v).readRun (cursorBlk s * s.ssw.bs.toNat)
      (s.ssw.imageBlocks * s.ssw.bs.toNat) = v := by rw [← hv]; exact Memory.readRun_writeRun _ _ _
  have hread := fun d hd => devReadCall_eq (s := (devWriteCall (cursorBlk s) (s.ssw.hand.take
    (s.ssw.imageBlocks * s.ssw.bs.toNat)) s).2) (a := rb) (rest := rrest) (cursorBlk s) s.ssw.imageBlocks
    (by rw [hwrite]; exact hr) (d := d) hd
  rw [hwrite] at hread
  simp only [hback] at hread
  refine ⟨?failed, ?unread, ?done⟩
  case failed =>
    rintro rfl
    exact pushRaw_row.go hp (stepRaw_go hp h0 hfit hwrite (hread _ rfl))
  case unread =>
    rintro rfl rfl
    refine pushRaw_row.go hp ((stepRaw_go hp h0 hfit hwrite (hread none rfl)).trans ?_)
    simp [State.stepFailed, cursorBlk]
  case done =>
    rintro o d rfl rfl hd
    refine pushRaw_row.go hp ((stepRaw_go hp h0 hfit hwrite (hread (some d) (by rw [hd]; rfl))).trans ?_)
    simp [Ssw.readBack, cursorBlk]

/-! ## The run of a PUSH (rules R286, R300) -/

section
variable {s : State}

/-- With the leftover and the new bytes at hand, an open session is what the loop needs (rules R286, R300). -/
theorem SswInv.ready (hinv : SswInv s) (hok : s.cfg.ok) (hopen : s.ssw.phase ≠ .closed) (halive : s.ssw.phase ≠ .failed)
    (b : Bytes) : Ready (s.holding b) := by
  obtain ⟨-, -, -, hcur, hdesc, -, -, hsparse, hraw, hfill⟩ := hinv
  obtain ⟨h4, hmod, -⟩ := hdesc hopen
  have hchunk : s.ssw.phase = .spRaw → 0 < s.ssw.chunkRem.toNat ∧ s.ssw.chunkRem.toNat % s.ssw.bs.toNat = 0 := fun hp => by
    obtain ⟨hpos, hmod, -⟩ := hraw hp
    exact ⟨hpos, hmod⟩
  exact ⟨halive, ⟨hok, hopen, Nat.lt_of_lt_of_le (by decide) h4, fun hp => (hsparse hp).2, hchunk⟩, hcur, ⟨h4, hmod⟩,
    fun hp => (hsparse hp).2, fun hp => (hraw hp).2.2, hfill⟩

/-- With fuel for all its turns the loop is a run of steps to a failure or to a step that waits (rule R286). -/
theorem pushLoop_runs (fuel : Nat) : ∀ {s : State}, Ready s → turnsLeft s.ssw < fuel →
    PushRun s (pushLoop fuel s) ∧
      ((pushLoop fuel s).ssw.phase = .failed ∨ (Ready (pushLoop fuel s) ∧ pushStep (pushLoop fuel s) = .wait)) := by
  induction fuel with
  | zero => exact fun _ hf => absurd hf (Nat.not_lt_zero _)
  | succ fuel ih =>
    intro s h hf
    cases hstep : pushStep s with
    | wait =>
      rw [pushLoop_wait _ hstep]
      exact ⟨.here s, .inr ⟨h, hstep⟩⟩
    | go t =>
      rw [pushLoop_go _ hstep]
      split
      next hfail => exact ⟨.more h.alive hstep (.here t), .inl hfail⟩
      next halive =>
        obtain ⟨ht, hless, -⟩ := h.step hstep halive
        obtain ⟨hrun, hend⟩ := ih ht (by omega)
        exact ⟨.more h.alive hstep hrun, hend⟩

/-- A step that waits leaves a tail for which LEFT has room (rules R286, R300). -/
theorem Ready.tail_fits (h : Ready s) (hwait : pushStep s = .wait) : s.ssw.hand.length < leftCap s.cfg s.ssw := by
  have hgo := pushStep_goesOn h.pushing h.alive
  rwa [hwait] at hgo

/-- A push whose loop waits leaves the tail (rules R286, R300). -/
theorem pushEnd_waits (h : Ready s) (hwait : pushStep s = .wait) :
    pushEnd s = .ok (0, { s with
      left := s.left.writeRun 0 s.ssw.hand
      ssw := { s.ssw with leftLen := BitVec.ofNat 32 s.ssw.hand.length, hand := [] } }) := by
  have hfits := h.tail_fits hwait
  rw [pushEnd, if_neg h.alive, writeBuf, if_pos (by omega)]
  rfl

/-- A push of bytes to an open session is a run of its loop, then the end of R286. -/
theorem sswPushOp_runs (hok : s.cfg.ok) (hinv : SswInv s) (hopen : s.ssw.phase ≠ .closed) (halive : s.ssw.phase ≠ .failed)
    {b : Bytes} (hb : b ≠ []) :
    ∃ w, sswPushOp b s = pushEnd w ∧ PushRun (s.holding (s.left.readRun 0 s.ssw.leftLen.toNat ++ b)) w ∧
      (w.ssw.phase = .failed ∨ (Ready w ∧ pushStep w = .wait)) := by
  have hready := hinv.ready hok hopen halive (s.left.readRun 0 s.ssw.leftLen.toNat ++ b)
  obtain ⟨hrun, hend⟩ := pushLoop_runs (pushFuel (s.left.readRun 0 s.ssw.leftLen.toNat ++ b).length) hready
    (turnsLeft_holding s _)
  obtain ⟨-, -, -, -, -, hleft, -⟩ := hinv
  refine ⟨_, ?_, hrun, hend⟩
  rw [sswPushOp, if_neg hopen, if_neg halive, if_neg (mt List.length_eq_zero_iff.1 hb), readBuf, if_pos (by omega)]
  rfl

theorem sswPushOp_closed (h : s.ssw.phase = .closed) (b : Bytes) : sswPushOp b s = .ok (1, s) := if_pos h

theorem sswPushOp_failed (h : s.ssw.phase = .failed) (b : Bytes) : sswPushOp b s = .ok (s.ssw.fail, s) := by
  rw [sswPushOp, if_neg (by simp [h]), if_pos h]

theorem sswPushOp_nil (hopen : s.ssw.phase ≠ .closed) (halive : s.ssw.phase ≠ .failed) : sswPushOp [] s = .ok (0, s) := by
  rw [sswPushOp, if_neg hopen, if_neg halive]
  rfl

end

/-- Settles O23: the loop's fuel is enough for the run to end as R286 has it end. -/
theorem pushRuns : Obligations.PushRuns := by
  intro s b hok hinv
  refine ⟨fun hp => exec_sswPush_ok (sswPushOp_closed hp b), fun hp => exec_sswPush_ok (sswPushOp_failed hp b),
    fun hopen halive hb => ?empty, fun hopen halive hb => ?bytes⟩
  case empty =>
    rw [hb]
    exact exec_sswPush_ok (sswPushOp_nil hopen halive)
  case bytes =>
    obtain ⟨w, hop, hrun, hend⟩ := sswPushOp_runs hok hinv hopen halive hb
    refine ⟨w, hrun, hend.imp (fun hfail => ⟨hfail, ?failed⟩) fun ⟨hready, hwait⟩ =>
      ⟨hready.alive, by simp [hwait], hready.tail_fits hwait, _, wrote_writeRun _ _ _, ?waits⟩⟩
    case failed => exact exec_sswPush_ok (hop.trans (pushEnd_failed hfail))
    case waits => exact exec_sswPush_ok (hop.trans (pushEnd_waits hready hwait))

end Sys2Proof.Machine
end

section
/-! PROOFS. Every step keeps the invariant of UPE (rules R26, R180, R188, R192): UPE's own rows by the lemmas on what they make of it, and
all others because they leave the engine alone. -/

namespace Sys2Proof.Machine

/-! ## What leaves both engines alone -/

/-- Both engines and the configuration are what they were. -/
structure EnginesKept (s t : State) : Prop where
  cfg : t.cfg = s.cfg
  upe : t.upe = s.upe
  fbuf : t.fbuf = s.fbuf
  ute : t.ute = s.ute

section
variable {s t u : State}

theorem EnginesKept.trans (h : EnginesKept s t) (h' : EnginesKept t u) : EnginesKept s u :=
  ⟨h'.cfg.trans h.cfg, h'.upe.trans h.upe, h'.fbuf.trans h.fbuf, h'.ute.trans h.ute⟩

theorem enginesKept_of_beside (h : t.besideSsw = s.besideSsw) : EnginesKept s t := by
  simp only [State.besideSsw, State.mk.injEq, true_and] at h
  obtain ⟨hcfg, hupe, hfbuf, hute, -⟩ := h
  exact ⟨hcfg, hupe, hfbuf, hute⟩

theorem sswCloseOp_engines (s : State) : EnginesKept s (sswCloseOp s).2 := by
  rw [sswCloseOp_eq]
  split <;> exact ⟨rfl, rfl, rfl, rfl⟩

theorem sswOpenOp_engines (d : Desc) (s : State) : EnginesKept s (sswOpenOp d s).2 :=
  enginesKept_of_beside (sswOpenOp_beside d s)

theorem retLast_engines (s : State) : EnginesKept s (retLast s) := enginesKept_of_beside (besideSsw_retLast s)

theorem noteHeader_engines (via : Transport) (rejected : Bool) (s : State) : EnginesKept s (noteHeader via rejected s) := by
  cases via <;> exact ⟨rfl, rfl, rfl, rfl⟩

/-- The session of another owner is left, or the own one closed and another opened (rule R349). -/
theorem handleSetMeta_engines (via : Transport) (payload : Bytes) (s : State) :
    EnginesKept s (handleSetMeta via payload s).2 := by
  have hlookup : EnginesKept s (lookupCall payload s).2 := ⟨rfl, rfl, rfl, rfl⟩
  have hclosed : EnginesKept s (if (lookupCall payload s).2.ssw.phase = .closed then (lookupCall payload s).2
      else (sswCloseOp (lookupCall payload s).2).2) := by
    split
    · exact hlookup
    · exact hlookup.trans (sswCloseOp_engines _)
  unfold handleSetMeta
  split
  · exact ⟨rfl, rfl, rfl, rfl⟩
  dsimp only
  split
  · exact hlookup
  next d _ =>
    refine hclosed.trans ((sswOpenOp_engines d _).trans ?_)
    generalize sswOpenOp d _ = r
    show EnginesKept r.2 (ite _ _ _)
    split <;> exact ⟨rfl, rfl, rfl, rfl⟩

theorem handleSendData_engines {payload : Bytes} {r : Reply × State} (h : handleSendData payload s = .ok r) :
    EnginesKept s r.2 := by
  unfold handleSendData at h
  split at h
  · cases h
  next hp =>
    cases h
    exact enginesKept_of_beside (sswPushOp_beside hp)

theorem handlerOf_engines {via : Transport} {cmd : Byte} {payload : Bytes} {e : Except Fault (Reply × State)}
    {r : Reply × State} (he : handlerOf via cmd payload s = some e) (hr : e = .ok r) : EnginesKept s r.2 := by
  subst hr
  unfold handlerOf at he
  split at he
  · cases he
    exact handleSetMeta_engines via payload s
  split at he
  · exact handleSendData_engines (Option.some.inj he)
  split at he
  · cases he
    exact ⟨rfl, rfl, rfl, rfl⟩
  split at he
  · cases he
    exact ⟨rfl, rfl, rfl, rfl⟩
  split at he
  · cases he
    unfold handleSetCfg
    dsimp only
    split <;> exact ⟨rfl, rfl, rfl, rfl⟩
  split at he
  · cases he
    exact sswCloseOp_engines s
  · cases he

theorem handleCommandOp_engines {via : Transport} {hb payload : Bytes} (h : handleCommandOp via hb payload s = .next t) :
    EnginesKept s t := by
  have hnote := fun rejected => noteHeader_engines via rejected s
  unfold handleCommandOp at h
  split at h
  · cases h
    exact (hnote true).trans ⟨rfl, rfl, rfl, rfl⟩
  dsimp only at h
  split at h
  · cases h
    exact (hnote false).trans ⟨rfl, rfl, rfl, rfl⟩
  split at h
  · cases h
    exact (hnote false).trans ⟨rfl, rfl, rfl, rfl⟩
  next he =>
    obtain ⟨r, hr, h⟩ := withVal_eq_next h
    cases h
    exact (hnote false).trans ((handlerOf_engines he hr).trans ⟨rfl, rfl, rfl, rfl⟩)

theorem checkUpgModeOp_engines (now : U64) (s : State) : EnginesKept s (checkUpgModeOp now s) := by
  unfold checkUpgModeOp
  split
  · exact ⟨rfl, rfl, rfl, rfl⟩
  split <;> exact ⟨rfl, rfl, rfl, rfl⟩

/-- A row of SSW leaves both engines alone (rule R74). -/
theorem sswRow_engines {i : Instr} (hrow : sswRow i) (h : exec i s = .next t) : EnginesKept s t := by
  rcases eq_or_ne i .sswClose with rfl | hne
  · cases h
    exact (sswCloseOp_engines s).trans ⟨rfl, rfl, rfl, rfl⟩
  · exact enginesKept_of_beside (sswRow_beside hrow hne h)

/-- A row that is not an engine's, and not RESET, leaves both engines alone (rules R8, R74). -/
theorem exec_engines {i : Instr} (hupe : ¬ upeRow s.cfg i) (hute : ¬ uteRow i) (hreset : i ≠ .reset)
    (h : exec i s = .next t) : EnginesKept s t := by
  cases i with
  | sigC | dc1 | dc2 | ack | nak | can | soh | stx | uartDropped | uartRx | shortFrame | longFrame | tick | upeInit | upeDeinit |
    startRead | startWrite | getStatus | setStatus | uartTx => exact absurd (by simp [upeRow, byteRow]) hupe
  | cbwWrite | cbwRead | cbwMalformed | csw | uteInit | usbReset | outDoneReadCbw | outDoneDataOut | inDoneDataIn |
    inDoneWaitCsw | doneIgnored | epRecv | epSend => exact absurd (by simp [uteRow]) hute
  | reset => exact absurd rfl hreset
  | sparseHeader | chunkRaw | chunkFill | chunkDontCare | chunkCrc32 | chunkUnknown | sswOpen | sswClose | sswPush | pushDetect |
    pushSpHdr | pushSpChunkHdr | pushSpRaw | pushSpFill | pushSpDone | pushRaw | sswGetResult | sswGetCrc | devWrite | devRead |
    devErase | progress => exact sswRow_engines (by simp [sswRow]) h
  | cmdSetFwcMeta | cmdSendFwcData | cmdGetFwcCrc | cmdGetFwcBurnResult | cmdSetUpgCfg | cmdSetUpgEnd | handleCommand =>
    exact handleCommandOp_engines h
  | checkUpgMode now =>
    cases h
    exact checkUpgModeOp_engines now s
  | commandHeader | responseHeader | hdrEncodeCmd | hdrDecodeCmd | hdrEncodeRsp | hdrDecodeRsp | crc16 | packShort | packLong |
    packFrame | frameTotal | unpack | slice | split =>
    cases h
    exact ⟨rfl, rfl, rfl, rfl⟩
  | dispExpect | dispOut | dispIn | dispStatus =>
    cases h
    refine .trans ?_ (retLast_engines _)
    exact ⟨rfl, rfl, rfl, rfl⟩

end

/-! ## The invariant of UPE -/

/-- What the next step comes to: a row, bytes of no row, or nothing where nothing is pending (rules R7, R72). -/
theorem of_step {P : State → Prop} {s t : State} (hidle : P s) (hrow : ∀ i rest, exec i (s.withInbox rest) = .next t → P t)
    (hno : ∀ p rest, undecoded p (s.withInbox rest) = .next t → P t) (ht : step s = .next t) : P t := by
  cases hp : s.inbox with
  | nil =>
    rw [step_of_inbox_nil hp] at ht
    cases ht
    exact hidle
  | cons p rest =>
    cases hd : decode s.cfg p with
    | ok i => exact hrow i rest ((step_of_decode_ok hp hd).symm.trans ht)
    | error e => exact hno p rest ((step_of_decode_error hp hd).symm.trans ht)

theorem Sound.next {P : State → Prop} {o : Result} {t : State} (ho : Sound P o) (h : o = .next t) : P t := by
  subst h
  exact ho

section
variable {s t : State}

/-- The invariant speaks of UPE's registers, the queue, FBUF and the configuration only. -/
theorem UpeInv.of_eq (h : UpeInv s) (hcfg : t.cfg = s.cfg) (hupe : t.upe = s.upe) (hfbuf : t.fbuf = s.fbuf) : UpeInv t := by
  rwa [UpeInv, hcfg, hupe, hfbuf]

theorem EnginesKept.upeInv (hk : EnginesKept s t) (h : UpeInv s) : UpeInv t := h.of_eq hk.cfg hk.upe hk.fbuf

/-- An engine that has nothing under way and nothing queued (rules R175, R410). -/
theorem upeInv_atRest (hq : s.upe.q = []) (hframe : s.upe.fcnt = 0 ∧ s.upe.fneed = 0) (hack : s.upe.awaitAck = false) :
    UpeInv s := by
  refine upeInv_iff.2 ⟨.idle ?_ ?_ hframe hack, ?_⟩
  · simp [hq]
  · simp [hq]
  · simp [State.quiet, sendReady, hq]

theorem NearUte.upe_kept (h : NearUte s t) : t.cfg = s.cfg ∧ t.upe = s.upe ∧ t.fbuf = s.fbuf := by
  simp only [NearUte, State.unnoted, State.withCdi, State.besideUte, State.mk.injEq, true_and] at h
  tauto

theorem upeRow_sound {i : Instr} (h : UpeInv s) (hrow : upeRow s.cfg i) : Sound UpeInv (exec i s) := by
  obtain ⟨b, hb⟩ | ⟨blk, cblk, data, crc, rfl⟩ | ⟨blk, cblk, data, crc, rfl⟩ | rfl | rfl | rfl | ⟨len, rfl⟩ | ⟨data, rfl⟩ |
    rfl | ⟨c, rfl⟩ | ⟨b, rfl⟩ := hrow
  · rw [exec_byteRow hb]
    exact uartRx_sound h b
  iterate 2 exact uartRxs_sound _ h
  · exact tickOp_sound h
  · exact upeInv_atRest (s := upeInitOp s) rfl ⟨rfl, rfl⟩ rfl
  · show Sound UpeInv (execUpeDeinit s)
    unfold execUpeDeinit
    split <;> exact h
  iterate 2 exact startTask_sound h rfl
  · show Sound UpeInv (execGetStatus s)
    unfold execGetStatus
    split <;> exact h
  iterate 2 exact h

theorem exec_upeInv {i : Instr} (h : UpeInv s) (ht : exec i s = .next t) : UpeInv t := by
  by_cases hupe : upeRow s.cfg i
  · exact (upeRow_sound h hupe).next ht
  by_cases hute : uteRow i
  · obtain ⟨hcfg, hkept, hfbuf⟩ := (uteRow_near hute ht).upe_kept
    exact h.of_eq hcfg hkept hfbuf
  by_cases hreset : i = .reset
  · subst hreset
    cases ht
    exact upeInv_atRest rfl ⟨rfl, rfl⟩ rfl
  · exact (exec_engines hupe hute hreset ht).upeInv h

/-- Bytes that are no row reach UPE as bytes of the UART link, the writer as a push, the dispatcher as a command (rules R115, R119). -/
theorem undecoded_upeInv {p : Packet} (h : UpeInv s) (ht : undecoded p s = .next t) : UpeInv t := by
  unfold undecoded at ht
  split at ht
  iterate 2 exact (uartRxs_sound _ h).next ht
  iterate 2 exact (enginesKept_of_beside (pushBytes_beside ht)).upeInv h
  · cases ht
    exact h
  · exact (handleCommandOp_engines ht).upeInv h
  · cases ht
    exact h

end

/-- Settles O57: whatever is next, a row or bytes of no row, taking it from what is pending changes no unit. -/
theorem stepKeepsUpe : Obligations.StepKeepsUpe := fun s _ h =>
  of_step h (fun _ rest => exec_upeInv (s := s.withInbox rest) h) fun _ rest => undecoded_upeInv (s := s.withInbox rest) h

end Sys2Proof.Machine
end

section
/-! PROOFS. Every step keeps the invariant of UTE (rules R231, R239, R250): one lemma for each operation that ends an event. -/

namespace Sys2Proof.Machine

/-! ## The invariant, clause by clause -/

/-- The part of the invariant that does not speak of the stage. -/
structure Ute.Sized (u : Ute) : Prop where
  cbw : u.cbw.length = Config.cbwLen
  csw : u.csw.length = Config.cswLen
  moved : u.moved.toNat ≤ u.dlen.toNat

/-- What the counters of a task promise of the packet and of the packet buffer (rules R239, R243). -/
structure Ute.TaskFits (u : Ute) (c : Config) : Prop where
  packet : u.taskDone.toNat + u.pktXfer.toNat ≤ u.taskXfer.toNat
  phase : u.taskXfer.toNat ≤ u.taskDone.toNat + u.remain.toNat
  buffer : u.taskXfer.toNat ≤ c.pktBufSize

section
variable {s t : State}

theorem UteInv.sized (h : UteInv s) : s.ute.Sized := by
  obtain ⟨-, hcbw, hcsw, hmoved, -⟩ := h
  exact ⟨hcbw, hcsw, hmoved⟩

/-- The invariant speaks of UTE's registers and the configuration only. -/
theorem UteInv.of_eq (h : UteInv s) (hcfg : t.cfg = s.cfg) (hute : t.ute = s.ute) : UteInv t := by
  rwa [UteInv, hcfg, hute]

theorem EnginesKept.uteInv (hk : EnginesKept s t) (h : UteInv s) : UteInv t := h.of_eq hk.cfg hk.ute

/-- Outside the data phases only the sizes matter. -/
theorem uteInv_idle (h : s.ute.Sized) (hst : s.ute.stage = .readCbw ∨ s.ute.stage = .waitCsw) : UteInv s := by
  refine ⟨?_, h.cbw, h.csw, h.moved, fun hout => ?_, fun hin => ?_⟩
  all_goals rcases hst with hst | hst <;> simp_all

theorem uteInv_out (h : s.ute.Sized) (hst : s.ute.stage = .dataOut ∨ s.ute.stage = .dataOutBuf)
    (hsum : s.ute.moved.toNat + s.ute.taskDone.toNat + s.ute.remain.toNat ≤ s.ute.dlen.toNat) (hfit : s.ute.TaskFits s.cfg) :
    UteInv s := by
  refine ⟨?_, h.cbw, h.csw, h.moved, fun _ => ⟨hsum, hfit.packet, hfit.phase, hfit.buffer⟩, fun hin => ?_⟩
  all_goals rcases hst with hst | hst <;> simp_all

theorem uteInv_in (h : s.ute.Sized) (hst : s.ute.stage = .dataIn ∨ s.ute.stage = .dataInBuf)
    (hsum : s.ute.moved.toNat + s.ute.remain.toNat ≤ s.ute.dlen.toNat) (hfit : s.ute.TaskFits s.cfg) : UteInv s := by
  refine ⟨?_, h.cbw, h.csw, h.moved, fun hout => ?_, fun _ => ⟨hsum, hfit.packet, hfit.phase, hfit.buffer⟩⟩
  all_goals rcases hst with hst | hst <;> simp_all

/-! ## Operations that end an event -/

theorem submitCsw_uteInv (h : s.ute.Sized) (tag res : U32) (st : Byte) : UteInv (submitCsw tag res st s) :=
  uteInv_idle ⟨h.cbw, by simp [submitCsw, epSendAct, cswBytes, Config.cswLen], h.moved⟩ (.inr rfl)

theorem sendCsw_uteInv (h : s.ute.Sized) : UteInv (sendCsw s) := by
  unfold sendCsw
  split
  · exact submitCsw_uteInv h ..
  · exact submitCsw_uteInv (s := (dispStatusCall s).2) h ..

/-- A packet is no more than the task still wants (rules R239, R243). -/
theorem nextPacket_le (h : s.ute.taskDone.toNat ≤ s.ute.taskXfer.toNat) :
    s.ute.taskDone.toNat + (nextPacket s.cfg s.ute).toNat ≤ s.ute.taskXfer.toNat := by
  rw [toNat_nextPacket h, Ute.nextLen]
  omega

theorem armOutPacket_uteInv (h : s.ute.Sized) (hst : s.ute.stage = .dataOut ∨ s.ute.stage = .dataOutBuf)
    (hsum : s.ute.moved.toNat + s.ute.taskDone.toNat + s.ute.remain.toNat ≤ s.ute.dlen.toNat)
    (hdone : s.ute.taskDone.toNat ≤ s.ute.taskXfer.toNat)
    (hphase : s.ute.taskXfer.toNat ≤ s.ute.taskDone.toNat + s.ute.remain.toNat)
    (hbuf : s.ute.taskXfer.toNat ≤ s.cfg.pktBufSize) : UteInv (armOutPacket s) :=
  uteInv_out ⟨h.cbw, h.csw, h.moved⟩ hst hsum ⟨nextPacket_le hdone, hphase, hbuf⟩

theorem submitInPacket_uteInv (h : s.ute.Sized) (hst : s.ute.stage = .dataIn ∨ s.ute.stage = .dataInBuf)
    (hsum : s.ute.moved.toNat + s.ute.remain.toNat ≤ s.ute.dlen.toNat)
    (hdone : s.ute.taskDone.toNat ≤ s.ute.taskXfer.toNat)
    (hphase : s.ute.taskXfer.toNat ≤ s.ute.taskDone.toNat + s.ute.remain.toNat)
    (hbuf : s.ute.taskXfer.toNat ≤ s.cfg.pktBufSize) : Nexts UteInv (submitInPacket s) :=
  .withVal fun _ _ => uteInv_in (s := epSendAct _ (s.withUte _)) ⟨h.cbw, h.csw, h.moved⟩ hst hsum
    ⟨nextPacket_le hdone, hphase, hbuf⟩

/-- A new task is a filling of the packet buffer, of what remains of the phase (rule R239). -/
theorem startOutTask_uteInv (h : s.ute.Sized) (hst : s.ute.stage = .dataOut ∨ s.ute.stage = .dataOutBuf)
    (hsum : s.ute.moved.toNat + s.ute.remain.toNat ≤ s.ute.dlen.toNat) : UteInv (startOutTask s) := by
  have hlen : (nextTask s).ute.taskXfer.toNat = min s.ute.remain.toNat s.cfg.pktBufSize :=
    Nat.mod_eq_of_lt (Nat.lt_of_le_of_lt (Nat.min_le_left _ _) s.ute.remain.isLt)
  refine armOutPacket_uteInv (s := nextTask s) ⟨h.cbw, h.csw, h.moved⟩ hst hsum (Nat.zero_le _) ?_ ?_
  · rw [hlen]
    exact (Nat.min_le_left _ _).trans (Nat.le_add_left _ _)
  · rw [hlen]
    exact Nat.min_le_right _ _

/-- A new task is what the dispatcher supplies, no more than a filling of the packet buffer of what remains (rules R242, R243). -/
theorem supplied_uteInv (h : s.ute.Sized) (hst : s.ute.stage = .dataIn ∨ s.ute.stage = .dataInBuf)
    (hsum : s.ute.moved.toNat + s.ute.remain.toNat ≤ s.ute.dlen.toNat) (m : Memory) : UteInv (s.supplied m) := by
  have hle := length_nextChunk s
  have hlt := s.ute.remain.isLt
  have hlen : (BitVec.ofNat 32 s.nextChunk.length).toNat = s.nextChunk.length := Nat.mod_eq_of_lt (by omega)
  unfold State.supplied
  extract_lets want a d _ _ s1
  have hs1 : s1.ute.Sized := ⟨h.cbw, h.csw, h.moved⟩
  split
  · rw [← sendCsw_eq]
    exact sendCsw_uteInv hs1
  have hdlen : (BitVec.ofNat 32 d.length).toNat = d.length := hlen
  have hdle : d.length ≤ min s.ute.remain.toNat s.cfg.pktBufSize := hle
  have hremain : d.length ≤ s1.ute.remain.toNat ∧ s1.ute.remain.toNat ≤ s.ute.remain.toNat := by
    show d.length ≤ (ite _ _ _ : U32).toNat ∧ (ite _ _ _ : U32).toNat ≤ _
    split <;> omega
  have hpkt : (BitVec.ofNat 32 (min d.length s.cfg.epMps)).toNat = min d.length s.cfg.epMps := Nat.mod_eq_of_lt (by omega)
  refine uteInv_in ⟨hs1.cbw, hs1.csw, hs1.moved⟩ hst ?_ ⟨?_, ?_, ?_⟩
  · exact (Nat.add_le_add_left hremain.2 _).trans hsum
  · show 0 + (BitVec.ofNat 32 (min d.length s.cfg.epMps)).toNat ≤ (BitVec.ofNat 32 d.length).toNat
    omega
  · show (BitVec.ofNat 32 d.length).toNat ≤ 0 + s1.ute.remain.toNat
    omega
  · show (BitVec.ofNat 32 d.length).toNat ≤ s.cfg.pktBufSize
    omega

theorem startInTask_uteInv (h : s.ute.Sized) (hst : s.ute.stage = .dataIn ∨ s.ute.stage = .dataInBuf)
    (hsum : s.ute.moved.toNat + s.ute.remain.toNat ≤ s.ute.dlen.toNat) : Nexts UteInv (startInTask s) := by
  rw [startInTask_eq]
  exact supplied_uteInv h hst hsum _

/-! ## Completions -/

/-- A data phase begins with nothing moved (rule R238). -/
theorem beginData_uteInv (h : s.ute.Sized) (hmoved : s.ute.moved = 0) : Nexts UteInv (beginData s) := by
  unfold beginData
  dsimp only
  generalize hp : dispExpectCall s.ute.cmd s.ute.dlen s = p
  have hp2 : p.2.ute = s.ute := by rw [← hp]; rfl
  generalize hs2 : (if p.1 ≠ p.2.ute.dlen then raiseUte .length p.2 else p.2) = s2
  have hs : s2.ute.Sized ∧ s2.ute.moved = 0 := by
    rw [← hs2]
    split <;> simp only [raiseUte, State.withUte_ute, hp2, hmoved, and_true] <;> exact ⟨h.cbw, h.csw, by simp [hmoved]⟩
  obtain ⟨hs, hm⟩ := hs
  have hdlen : (BitVec.ofNat 32 (min s2.ute.dlen.toNat p.1.toNat)).toNat ≤ s2.ute.dlen.toNat :=
    (Nat.mod_le _ _).trans (Nat.min_le_left _ _)
  split
  · split
    · exact sendCsw_uteInv ⟨hs.cbw, hs.csw, hs.moved⟩
    · exact startInTask_uteInv ⟨hs.cbw, hs.csw, hs.moved⟩ (.inl rfl) (by simpa [hm] using hdlen)
  · split
    · exact sendCsw_uteInv ⟨hs.cbw, hs.csw, hs.moved⟩
    · exact startOutTask_uteInv ⟨hs.cbw, hs.csw, hs.moved⟩ (.inl rfl) (by simp [hm])

theorem outReadCbw_wellFormed {b : Bytes} (hlen : b.length = Config.cbwLen) (hsig : le32 b 0 = Config.cbwSig) :
    outReadCbw b s =
      if cbwPaired s.cfg (byteAt b 15) (bit7 (byteAt b 12)) = true then
        beginData (s.withUte (cbwFields b (cbwStart b s.ute)))
      else .next (malformedCbw (s.withUte (cbwFields b (cbwStart b s.ute)))) :=
  if_neg (not_or.2 ⟨not_not_intro hlen, not_not_intro hsig⟩)

/-- Whatever comes as a CBW, what is kept in the register for it is one of its length (rule R236). -/
theorem outReadCbw_uteInv (h : s.ute.Sized) (b : Bytes) : Nexts UteInv (outReadCbw b s) := by
  by_cases hform : b.length ≠ Config.cbwLen ∨ le32 b 0 ≠ Config.cbwSig
  · rw [outReadCbw_badForm hform]
    exact sendCsw_uteInv ⟨h.cbw, h.csw, Nat.zero_le _⟩
  obtain ⟨hlen, hsig⟩ := not_or.1 hform
  have hsized : (s.withUte (cbwFields b (cbwStart b s.ute))).ute.Sized := ⟨not_not.1 hlen, h.csw, Nat.zero_le _⟩
  rw [outReadCbw_wellFormed (not_not.1 hlen) (not_not.1 hsig)]
  split
  · exact beginData_uteInv hsized rfl
  · exact sendCsw_uteInv ⟨hsized.cbw, hsized.csw, hsized.moved⟩

/-- Forwarding a task moves no more than the task's bytes (rule R241). -/
theorem forwarded_sized (h : s.ute.Sized) (hsum : s.ute.moved.toNat + s.ute.taskDone.toNat + s.ute.remain.toNat ≤ s.ute.dlen.toNat) :
    s.forwarded.ute.Sized ∧ s.forwarded.ute.moved.toNat + s.forwarded.ute.remain.toNat ≤ s.forwarded.ute.dlen.toNat := by
  unfold State.forwarded
  split
  · exact ⟨h, by omega⟩
  extract_lets a c
  have hc : c ≤ s.ute.taskDone.toNat := Nat.min_le_right _ _
  have hlt := s.ute.dlen.isLt
  have hmoved : (s.ute.moved + BitVec.ofNat 32 c).toNat = s.ute.moved.toNat + c := add_ofNat_toNat (by omega)
  refine ⟨⟨h.cbw, h.csw, ?_⟩, ?_⟩
  · show (s.ute.moved + BitVec.ofNat 32 c).toNat ≤ s.ute.dlen.toNat
    omega
  · show (s.ute.moved + BitVec.ofNat 32 c).toNat + s.ute.remain.toNat ≤ s.ute.dlen.toNat
    omega

theorem outData_uteInv (h : UteInv s) (hst : s.ute.stage = .dataOut ∨ s.ute.stage = .dataOutBuf) (b : Bytes) :
    Nexts UteInv (outData b s) := by
  by_cases hlong : s.ute.pktXfer.toNat < b.length
  · rw [outData_tooLong hlong]
    trivial
  have hfit := h.packetFits (.inl hst) (not_lt.1 hlong)
  have hs := h.sized
  obtain ⟨-, -, -, -, hout, -⟩ := h
  obtain ⟨hsum, -, hphase, hbuf⟩ := hout hst
  have hdone := hfit.toNat_taskDone hfit.toNat_ofNat
  have hremain := hfit.toNat_remain hfit.toNat_ofNat
  have htask := hfit.task
  have hle := hfit.phase
  rw [outData_of_fits hfit rfl]
  generalize s.pktbuf.writeRun s.ute.taskDone.toNat b = m
  have hr : (s.received m b).ute.Sized := ⟨hs.cbw, hs.csw, hs.moved⟩
  have hrsum : (s.received m b).ute.moved.toNat + (s.received m b).ute.taskDone.toNat + (s.received m b).ute.remain.toNat ≤
      (s.received m b).ute.dlen.toNat := by
    simp only [State.received, hdone, hremain]
    omega
  obtain ⟨hf, hfsum⟩ := forwarded_sized hr hrsum
  split
  · split
    · rw [← sendCsw_eq]
      exact sendCsw_uteInv hf
    · exact startOutTask_uteInv (s := (s.received m b).forwarded.inStage .dataOutBuf) ⟨hf.cbw, hf.csw, hf.moved⟩ (.inr rfl) hfsum
  · refine armOutPacket_uteInv (s := (s.received m b).inStage .dataOutBuf) ⟨hr.cbw, hr.csw, hr.moved⟩ (.inr rfl) hrsum ?_ ?_ hbuf <;>
      simp only [State.inStage, State.received, hdone, hremain] <;> omega

theorem inData_uteInv (h : UteInv s) (hst : s.ute.stage = .dataIn ∨ s.ute.stage = .dataInBuf) (n : U32) :
    Nexts UteInv (inData n s) := by
  by_cases hlong : s.ute.pktXfer.toNat < n.toNat
  · rw [inData_tooLong hlong]
    trivial
  have hfit := h.packetFits (.inr hst) (not_lt.1 hlong)
  have hs := h.sized
  obtain ⟨-, -, -, -, -, hin⟩ := h
  obtain ⟨hsum, -, hphase, hbuf⟩ := hin hst
  have hdone := hfit.toNat_taskDone rfl
  have hremain := hfit.toNat_remain rfl
  have htask := hfit.task
  have hle := hfit.phase
  have hlt := s.ute.dlen.isLt
  have hmoved : (s.ute.moved + n).toNat = s.ute.moved.toNat + n.toNat := BitVec.toNat_add_of_lt (by omega)
  have hd : (s.delivered n).ute.Sized := by
    refine ⟨hs.cbw, hs.csw, ?_⟩
    simp only [State.delivered, hmoved]
    omega
  have hdsum : (s.delivered n).ute.moved.toNat + (s.delivered n).ute.remain.toNat ≤ (s.delivered n).ute.dlen.toNat := by
    simp only [State.delivered, hmoved, hremain]
    omega
  rw [inData_of_fits hfit]
  split
  · split
    · rw [← sendCsw_eq]
      exact sendCsw_uteInv hd
    · exact startInTask_uteInv (s := (s.delivered n).inStage .dataInBuf) ⟨hd.cbw, hd.csw, hd.moved⟩ (.inr rfl) hdsum
  · refine submitInPacket_uteInv (s := (s.delivered n).inStage .dataInBuf) ⟨hd.cbw, hd.csw, hd.moved⟩ (.inr rfl) hdsum ?_ ?_ hbuf <;>
      simp only [State.inStage, State.delivered, hdone, hremain] <;> omega

theorem outDone_uteInv (h : UteInv s) (b : Bytes) : Nexts UteInv (outDone b s) := by
  unfold outDone
  split
  · cases hst : s.ute.stage with
    | readCbw => exact outReadCbw_uteInv h.sized b
    | dataOut => exact outData_uteInv h (.inl hst) b
    | dataOutBuf => exact outData_uteInv h (.inr hst) b
    | dataIn | dataInBuf | sendCsw | waitCsw => exact h
  · exact h

theorem inDone_uteInv (h : UteInv s) (n : U32) : Nexts UteInv (inDone n s) := by
  unfold inDone
  split
  · cases hst : s.ute.stage with
    | dataIn => exact inData_uteInv h (.inl hst) n
    | dataInBuf => exact inData_uteInv h (.inr hst) n
    | waitCsw => exact uteInv_idle (s := inWaitCsw s) ⟨h.sized.cbw, h.sized.csw, h.sized.moved⟩ (.inl rfl)
    | readCbw | dataOut | dataOutBuf | sendCsw => exact h
  · exact h

/-! ## The rows -/

/-- An engine that has just been reset (rules R235, R249, R410). -/
theorem uteInv_atReset {run : Bool} (h : s.ute = { uteReset with run := run }) : UteInv s :=
  uteInv_idle (by rw [h]; exact ⟨rfl, rfl, Nat.le_refl _⟩) (.inl (by rw [h]; rfl))

theorem uteRow_uteInv {i : Instr} (h : UteInv s) (hrow : uteRow i) : Nexts UteInv (exec i s) := by
  obtain ⟨tag, len, r, rfl⟩ | ⟨tag, len, r, rfl⟩ | ⟨b, rfl⟩ | ⟨tag, res, st, rfl⟩ | rfl | rfl | ⟨b, rfl⟩ | ⟨b, rfl⟩ |
    ⟨n, rfl⟩ | ⟨n, rfl⟩ | ⟨c, rfl⟩ | ⟨n, rfl⟩ | ⟨b, rfl⟩ := hrow
  iterate 3 exact outDone_uteInv h _
  · exact submitCsw_uteInv h.sized tag res st
  · exact uteInv_atReset (s := uteInitOp s) rfl
  · show UteInv (ite _ _ _)
    split
    · exact uteInv_atReset (s := uteInitOp s) rfl
    · exact h
  iterate 2 exact outDone_uteInv h b
  iterate 2 exact inDone_uteInv h n
  · cases c with
    | out b => exact outDone_uteInv h b
    | inn n => exact inDone_uteInv h n
  iterate 2 exact h

theorem ute_kept_of_beside (h : t.besideUpe = s.besideUpe) : t.cfg = s.cfg ∧ t.ute = s.ute := by
  simp only [State.besideUpe, State.mk.injEq] at h
  tauto

theorem upeRow_ute_kept {i : Instr} (hrow : upeRow s.cfg i) (h : exec i s = .next t) : t.cfg = s.cfg ∧ t.ute = s.ute := by
  rcases eq_or_ne i .tick with rfl | hne
  · rcases tickOp_beside h with hb | ⟨-, u, rfl, -, hb⟩
    · exact ute_kept_of_beside hb
    · rw [releaseWriter_eq rfl]
      exact ute_kept_of_beside (t := u) hb
  · exact ute_kept_of_beside (upeRow_beside hrow hne h)

theorem Nexts.next {P : State → Prop} {o : Result} {t : State} (ho : Nexts P o) (h : o = .next t) : P t := by
  subst h
  exact ho

theorem exec_uteInv {i : Instr} (h : UteInv s) (ht : exec i s = .next t) : UteInv t := by
  by_cases hute : uteRow i
  · exact (uteRow_uteInv h hute).next ht
  by_cases hupe : upeRow s.cfg i
  · obtain ⟨hcfg, hkept⟩ := upeRow_ute_kept hupe ht
    exact h.of_eq hcfg hkept
  by_cases hreset : i = .reset
  · subst hreset
    cases ht
    exact uteInv_atReset rfl
  · exact (exec_engines hupe hute hreset ht).uteInv h

/-- Bytes that are no row do not reach UTE: on the USB link they are no event (log 34). -/
theorem undecoded_uteInv {p : Packet} (h : UteInv s) (ht : undecoded p s = .next t) : UteInv t := by
  unfold undecoded at ht
  split at ht
  iterate 2
    obtain ⟨hcfg, hkept⟩ := ute_kept_of_beside (uartRxs_beside ht)
    exact h.of_eq hcfg hkept
  iterate 2 exact (enginesKept_of_beside (pushBytes_beside ht)).uteInv h
  · cases ht
    exact h
  · exact (handleCommandOp_engines ht).uteInv h
  · cases ht
    exact h

end

/-- Settles O58: only UTE's rows and RESET touch its registers, and each ends with the counters within their phase. -/
theorem stepKeepsUte : Obligations.StepKeepsUte := fun s _ h =>
  of_step h (fun _ rest => exec_uteInv (s := s.withInbox rest) h) fun _ rest => undecoded_uteInv (s := s.withInbox rest) h

end Sys2Proof.Machine
end

section
/-! PROOFS. Every step keeps the invariant of SSW (rules R292, R300, R302): what a running PUSH keeps, one lemma for each of its steps, and
then the rows. -/

namespace Sys2Proof.Machine

/-! ## The header registers -/

/-- The header registers have the length of a header, a sparse image has a block size, and a failed session has no leftover
(rules R288, R290, R304). -/
structure Orderly (s : State) : Prop where
  cur : s.ssw.curHdr.length = s.cfg.chunkHdrLen
  last : s.ssw.lastHdr.length = s.cfg.chunkHdrLen
  sparse : s.ssw.phase.inSparse → 0 < s.ssw.sbs.toNat
  failed : s.ssw.phase = .failed → s.ssw.leftLen = 0

/-- A step keeps it if the state that it goes on with has it. -/
def GoOrderly : PushStep → Prop
  | .wait => True
  | .go t => Orderly t

section
variable {s t : State}

theorem Orderly.fail (h : Orderly s) (e : SswCode) : Orderly (failSsw e s) :=
  ⟨h.cur, h.last, fun hp => (by rcases hp with hp | hp | hp | hp <;> cases hp), fun _ => rfl⟩

theorem Orderly.chunkDone (h : Orderly s) (hsbs : 0 < s.ssw.sbs.toNat) : Orderly (chunkDone s) := by
  refine ⟨h.cur, h.last, fun _ => hsbs, fun hp => ?_⟩
  rw [chunkDone_eq] at hp
  simp only [State.chunkEnded] at hp
  split at hp <;> cases hp

theorem stepDetect_orderly (h : Orderly s) : GoOrderly (stepDetect s) := by
  unfold stepDetect
  split
  · trivial
  refine ⟨h.cur, h.last, fun hp => ?_, fun hp => ?_⟩
  all_goals
    simp only [State.withSsw_ssw, Phase.inSparse] at hp
    split at hp <;> simp at hp

theorem stepSpHdr_orderly (h : Orderly s) : GoOrderly (stepSpHdr s) := by
  unfold stepSpHdr
  split
  · trivial
  dsimp only
  split
  · exact h.fail _
  split
  · exact h.fail _
  next hsbs =>
    obtain ⟨hne, -⟩ := not_or.1 hsbs
    refine ⟨h.cur, h.last, fun _ => Nat.pos_of_ne_zero fun h0 => hne (BitVec.eq_of_toNat_eq h0), fun hp => ?_⟩
    simp only [State.withSsw_ssw] at hp
    split at hp <;> cases hp

theorem takeChunk_orderly (h : Orderly s) (hsbs : 0 < s.ssw.sbs.toNat) {hdr eff : Bytes} (heff : eff.length = s.cfg.chunkHdrLen)
    (k : ChunkKind) : Orderly (takeChunk hdr eff k s) := by
  unfold takeChunk
  extract_lets csz nblk s1 _ s2 _ s3
  split
  · exact h.fail _
  split
  · exact h.fail _
  have hlast : s2.ssw.lastHdr.length = s.cfg.chunkHdrLen := by
    show (ite (eff = hdr) hdr s.ssw.lastHdr).length = _
    split
    next he => exact he ▸ heff
    next => exact h.last
  have h2 : Orderly s2 := ⟨heff, hlast, fun _ => hsbs, h.failed⟩
  cases k with
  | raw =>
    dsimp only
    split
    · exact Orderly.chunkDone (s := s3) ⟨heff, hlast, fun _ => hsbs, h.failed⟩ hsbs
    · exact ⟨heff, hlast, fun _ => hsbs, nofun⟩
  | fill => exact ⟨heff, hlast, fun _ => hsbs, nofun⟩
  | dontCare => exact Orderly.chunkDone (s := advance nblk s2) ⟨heff, hlast, fun _ => hsbs, h.failed⟩ hsbs
  | crc32 => exact h2.chunkDone hsbs

theorem unknownChunk_orderly (h : Orderly s) (hsbs : 0 < s.ssw.sbs.toNat) (hdr : Bytes) : Orderly (unknownChunk hdr s) := by
  have hr : Orderly (raiseSsw .chunkType s) := ⟨h.cur, h.last, h.sparse, h.failed⟩
  unfold unknownChunk
  dsimp only
  split
  · exact hr.fail _
  split
  · exact hr.fail _
  · exact takeChunk_orderly hr hsbs hr.last _

theorem stepSpChunkHdr_orderly (h : Orderly s) (hp : s.ssw.phase = .spChunkHdr) : GoOrderly (stepSpChunkHdr s) := by
  have hsbs := h.sparse (.inl hp)
  unfold stepSpChunkHdr
  split
  · trivial
  next hlen =>
  have htake : (s.ssw.hand.take s.cfg.chunkHdrLen).length = s.cfg.chunkHdrLen := List.length_take_of_le (not_lt.1 hlen)
  dsimp only
  split
  · exact takeChunk_orderly h hsbs htake _
  · exact unknownChunk_orderly h hsbs _

theorem stepSpRaw_orderly (h : Orderly s) (hp : s.ssw.phase = .spRaw) : GoOrderly (stepSpRaw s) := by
  have hsbs := h.sparse (.inr (.inl hp))
  unfold stepSpRaw
  dsimp only
  split
  · trivial
  split
  · show Orderly (ite _ _ _)
    split
    · exact Orderly.chunkDone (s := State.withSsw _ _) ⟨h.cur, h.last, h.sparse, h.failed⟩ hsbs
    · exact ⟨h.cur, h.last, h.sparse, h.failed⟩
  · exact Orderly.fail (s := (devWriteCall _ _ s).2) ⟨h.cur, h.last, h.sparse, h.failed⟩ _

theorem fillWrite_orderly (w : Bytes) (fuel : Nat) : ∀ {n : Nat} {s : State}, Orderly s → Orderly (fillWrite w fuel n s) := by
  induction fuel with
  | zero => exact fun h => h
  | succ fuel ih =>
    intro n s h
    unfold fillWrite
    split
    · exact h
    dsimp only
    split
    · exact ih (s := advance _ (devWriteCall _ _ s).2) ⟨h.cur, h.last, h.sparse, h.failed⟩
    · exact Orderly.fail (s := (devWriteCall _ _ s).2) ⟨h.cur, h.last, h.sparse, h.failed⟩ _

theorem eraseMid_orderly (mid : Nat) (h : Orderly s) : Orderly (eraseMid mid s) := by
  unfold eraseMid
  split
  · dsimp only
    split
    · exact ⟨h.cur, h.last, h.sparse, h.failed⟩
    · exact Orderly.fail (s := (devEraseCall _ _ s).2) ⟨h.cur, h.last, h.sparse, h.failed⟩ _
  · exact h

theorem doFill_orderly (w : Bytes) (nblk : Nat) (h : Orderly s) : Orderly (doFill w nblk s) := by
  unfold doFill
  split
  · exact fillWrite_orderly _ _ (eraseMid_orderly _ (fillWrite_orderly _ _ h))
  · exact fillWrite_orderly _ _ h

theorem stepSpFill_orderly (h : Orderly s) (hp : s.ssw.phase = .spFill) : GoOrderly (stepSpFill s) := by
  by_cases hl : s.ssw.hand.length < 4
  · rw [stepSpFill_wait hl]
    trivial
  rw [stepSpFill_go (not_lt.1 hl)]
  have hcalls : Orderly (fillCalls s) := doFill_orderly _ _ ⟨h.cur, h.last, h.sparse, h.failed⟩
  show Orderly (ite _ _ _)
  split
  · exact hcalls
  next halive =>
    refine hcalls.chunkDone ?_
    obtain ⟨-, c, hssw⟩ := (doFill_frame (s.ssw.hand.take 4) (fillBlks s.ssw) (eatWord s)).resolve_left halive
    rw [fillCalls, hssw]
    exact h.sparse (.inr (.inr (.inl hp)))

theorem stepSpDone_orderly (h : Orderly s) : GoOrderly (stepSpDone s) := by
  unfold stepSpDone
  split
  · exact h.fail _
  · trivial

theorem stepRaw_orderly (h : Orderly s) (hp : s.ssw.phase = .raw) : GoOrderly (stepRaw s) := by
  by_cases h0 : s.ssw.imageBlocks = 0
  · rw [stepRaw_wait h0]
    trivial
  by_cases hroom : s.ssw.partSize.toNat < s.ssw.cursor.toNat + s.ssw.imageBlocks
  · rw [stepRaw_overrun h0 hroom]
    exact h.fail .overrun
  obtain ⟨⟨ok, t⟩, hw⟩ : ∃ r, rawCall s.ssw.imageBlocks s = r := ⟨_, rfl⟩
  obtain ⟨⟨rb, u⟩, hr⟩ : ∃ r, devReadCall (cursorBlk s) s.ssw.imageBlocks t = r := ⟨_, rfl⟩
  rw [stepRaw_go hp h0 (not_lt.1 hroom) hw hr]
  have ht : Orderly (rawCall s.ssw.imageBlocks s).2 := ⟨h.cur, h.last, h.sparse, h.failed⟩
  rw [hw] at ht
  have hu : Orderly (devReadCall (cursorBlk s) s.ssw.imageBlocks t).2 := ⟨ht.cur, ht.last, ht.sparse, ht.failed⟩
  rw [hr] at hu
  cases ok with
  | false => exact ht.fail .dev
  | true =>
    cases rb with
    | none => exact hu.fail .dev
    | some d =>
      have hcfg : u.cfg = s.cfg := (congrArg (fun r => r.2.cfg) hr).symm.trans (congrArg (fun r => r.2.cfg) hw).symm
      have hlen := congrArg Config.chunkHdrLen hcfg.symm
      exact ⟨h.cur.trans hlen, h.last.trans hlen, h.sparse, h.failed⟩

theorem pushStep_orderly (h : Orderly s) : GoOrderly (pushStep s) := by
  unfold pushStep
  cases hp : s.ssw.phase with
  | closed | failed => trivial
  | detect => exact stepDetect_orderly h
  | spHdr => exact stepSpHdr_orderly h
  | spChunkHdr => exact stepSpChunkHdr_orderly h hp
  | spRaw => exact stepSpRaw_orderly h hp
  | spFill => exact stepSpFill_orderly h hp
  | spDone => exact stepSpDone_orderly h
  | raw => exact stepRaw_orderly h hp

end

/-! ## A running PUSH -/

/-- What holds along the run of a PUSH that began in `s0`, a failure at its end included. -/
structure Running (s0 s : State) : Prop where
  cfg : s.cfg = s0.cfg
  safe : Safe s0 s
  orderly : Orderly s
  going : s.ssw.phase = .failed ∨ Pushing s

section
variable {s0 s t w : State}

theorem Running.step (h : Running s0 s) (halive : s.ssw.phase ≠ .failed) (hstep : pushStep s = .go t) : Running s0 t := by
  have hsafe := pushStep_safe h.safe
  have horderly := pushStep_orderly h.orderly
  have hgo := pushStep_goesOn (h.going.resolve_left halive) halive
  rw [hstep] at hsafe horderly hgo
  exact ⟨(enginesKept_of_beside (pushStep_beside hstep)).cfg.trans h.cfg, hsafe, horderly, hgo.imp id And.left⟩

theorem Running.run (h : Running s0 s) (hrun : PushRun s t) : Running s0 t := by
  induction hrun with
  | here => exact h
  | more halive hstep _ ih => exact ih (h.step halive hstep)

/-- A run begins with the invariant, and with any bytes at hand. -/
theorem SswInv.running (hinv : SswInv s) (hok : s.cfg.ok) (hopen : s.ssw.phase ≠ .closed) (halive : s.ssw.phase ≠ .failed)
    (b : Bytes) : Running s (s.holding b) := by
  have hready := hinv.ready hok hopen halive b
  have hcur := hready.cursor
  obtain ⟨-, hcurHdr, hlastHdr, -, -, -, -, hsparse, -⟩ := hinv
  exact ⟨rfl, ⟨⟨.withSsw (.refl hcur) hcur, rfl, rfl, rfl, hready.block⟩, hready.fits⟩,
    ⟨hcurHdr, hlastHdr, fun hp => (hsparse hp).1, fun hp => absurd hp halive⟩, .inr hready.pushing⟩

theorem Running.isOpen (h : Running s0 s) : s.ssw.phase ≠ .closed := by
  rcases h.going with hp | hp
  · simp [hp]
  · exact hp.isOpen

/-- A run ends with the invariant, once nothing is at hand and the leftover is what LEFT has room for (rules R286, R300). -/
theorem Running.sswInv (h : Running s0 s) (hinv : SswInv s0) (hopen : s0.ssw.phase ≠ .closed) {n : U32}
    (hleft : n.toNat < leftCap s.cfg s.ssw) (hnone : s.ssw.phase = .spDone ∨ s.ssw.phase = .failed → n = 0)
    (hcfg : t.cfg = s.cfg) (ht : t.ssw = { s.ssw with leftLen := n, hand := [] }) : SswInv t := by
  obtain ⟨-, -, -, -, hdesc, -⟩ := hinv
  obtain ⟨-, -, hrange⟩ := hdesc hopen
  obtain ⟨halong, hfits⟩ := h.safe
  have hblock : 4 ≤ s.ssw.bs.toNat ∧ s.ssw.bs.toNat % 4 = 0 := by rw [halong.bs]; exact halong.block
  have halive : ∀ p, s.ssw.phase = p → p ≠ .failed → Pushing s := fun p hp hne =>
    h.going.resolve_left fun hfail => hne (hp.symm.trans hfail)
  rw [SswInv, hcfg, ht]
  refine ⟨rfl, h.orderly.cur, h.orderly.last, halong.cursor, fun _ => ⟨hblock.1, hblock.2, ?_⟩, hleft, fun hp => ?_,
    fun hp => ⟨h.orderly.sparse hp, hfits.sparse hp⟩, fun hp => ?_, hfits.fill⟩
  · dsimp only
    rwa [halong.start, halong.size]
  · rcases hp with hp | hp | hp
    · exact hnone (.inl hp)
    · exact hnone (.inr hp)
    · exact absurd hp h.isOpen
  · obtain ⟨hpos, hmod⟩ := (halive _ hp nofun).chunk hp
    exact ⟨hpos, hmod, hfits.raw hp⟩

/-- A push keeps the invariant (rules R286, R300). -/
theorem sswPushOp_sswInv (hok : s.cfg.ok) (hinv : SswInv s) {b : Bytes} {r : Byte × State} (hr : sswPushOp b s = .ok r) :
    SswInv r.2 := by
  by_cases hopen : s.ssw.phase = .closed
  · rw [sswPushOp_closed hopen] at hr
    cases hr
    exact hinv
  by_cases halive : s.ssw.phase = .failed
  · rw [sswPushOp_failed halive] at hr
    cases hr
    exact hinv
  by_cases hb : b = []
  · rw [hb, sswPushOp_nil hopen halive] at hr
    cases hr
    exact hinv
  obtain ⟨w, hop, hrun, hend⟩ := sswPushOp_runs hok hinv hopen halive hb
  have hw := (hinv.running hok hopen halive _).run hrun
  rw [hop] at hr
  rcases hend with hfail | ⟨hready, hwait⟩
  · rw [pushEnd_failed hfail] at hr
    cases hr
    have hleft := hw.orderly.failed hfail
    have hcap : 4 ≤ leftCap w.cfg w.ssw := by
      have := hw.safe.1.block.1
      rw [leftCap, hw.safe.1.bs]
      omega
    refine hw.sswInv (n := 0) hinv hopen (by simp; omega) (fun _ => rfl) rfl ?_
    rw [← hleft]
  · rw [pushEnd_waits hready hwait] at hr
    cases hr
    have hfits := hready.tail_fits hwait
    refine hw.sswInv hinv hopen ((Nat.mod_le _ _).trans_lt hfits) (fun hp => ?_) rfl rfl
    have hdone := hp.resolve_right hready.alive
    rw [pushStep_spDone hdone] at hwait
    have hnone : w.ssw.hand = [] := by
      by_contra hne
      rw [stepSpDone_go hne] at hwait
      cases hwait
    rw [hnone]
    rfl

theorem pushBytes_sswInv (hok : s.cfg.ok) (hinv : SswInv s) {b : Bytes} (h : pushBytes b s = .next t) : SswInv t := by
  obtain ⟨r, hr, h⟩ := withVal_eq_next h
  cases h
  exact sswPushOp_sswInv hok hinv hr

end

/-! ## Sessions and commands (rules R284, R285, R349) -/

section
variable {s t : State}

/-- The invariant speaks of SSW's registers and the configuration only. -/
theorem SswInv.of_eq (h : SswInv s) (hcfg : t.cfg = s.cfg) (hssw : t.ssw = s.ssw) : SswInv t := by
  rwa [SswInv, hcfg, hssw]

theorem sswInv_closed (hok : s.cfg.ok) (h : s.ssw = closedSession s.cfg) : SswInv s := by
  obtain ⟨hmin, -⟩ := lengths_of_ok hok
  have hcap : 28 ≤ leftCap s.cfg s.ssw := by
    unfold leftCap
    omega
  rw [h] at hcap
  rw [SswInv, h]
  refine ⟨rfl, List.length_replicate, List.length_replicate, Nat.le_refl _, fun hp => absurd rfl hp,
    Nat.lt_of_lt_of_le (Nat.succ_pos _) hcap, fun _ => rfl, fun hp => ?_, nofun, nofun⟩
  rcases hp with hp | hp | hp | hp <;> cases hp

theorem sswCloseOp_sswInv (hok : s.cfg.ok) (hinv : SswInv s) : SswInv (sswCloseOp s).2 := by
  rw [sswCloseOp_eq]
  split
  · exact hinv
  · exact sswInv_closed hok rfl

theorem sswOpenOp_sswInv (hinv : SswInv s) (d : Desc) : SswInv (sswOpenOp d s).2 := by
  rw [sswOpenOp_eq]
  split
  · exact hinv
  split
  next hdesc =>
    obtain ⟨h4, hmod, hrange⟩ := (descOk_iff d).1 hdesc
    have hcap : 4 ≤ leftCap s.cfg (openedSession s.cfg d.start d.size d.bs) := h4.trans (Nat.le_max_left _ _)
    refine ⟨rfl, List.length_replicate, List.length_replicate, Nat.zero_le _, fun _ => ⟨h4, hmod, hrange⟩,
      Nat.lt_of_lt_of_le (Nat.succ_pos _) hcap, fun _ => rfl, fun hp => ?_, nofun, nofun⟩
    rcases hp with hp | hp | hp | hp <;> cases hp
  · exact hinv

theorem handleSetMeta_sswInv (hok : s.cfg.ok) (hinv : SswInv s) (via : Transport) (payload : Bytes) :
    SswInv (handleSetMeta via payload s).2 := by
  have hclosed : SswInv (if (lookupCall payload s).2.ssw.phase = .closed then (lookupCall payload s).2
      else (sswCloseOp (lookupCall payload s).2).2) := by
    split
    · exact hinv
    · exact sswCloseOp_sswInv (s := (lookupCall payload s).2) hok hinv
  unfold handleSetMeta
  split
  · exact hinv
  dsimp only
  split
  · exact hinv
  next d _ =>
    have hopened := sswOpenOp_sswInv hclosed d
    revert hopened
    generalize sswOpenOp d _ = r
    intro hopened
    show SswInv (ite _ _ _)
    split <;> exact hopened

theorem handleSendData_sswInv (hok : s.cfg.ok) (hinv : SswInv s) {payload : Bytes} {r : Reply × State}
    (h : handleSendData payload s = .ok r) : SswInv r.2 := by
  unfold handleSendData at h
  split at h
  · cases h
  next hp =>
    cases h
    exact sswPushOp_sswInv hok hinv hp

theorem handlerOf_sswInv (hok : s.cfg.ok) (hinv : SswInv s) {via : Transport} {cmd : Byte} {payload : Bytes}
    {e : Except Fault (Reply × State)} {r : Reply × State} (he : handlerOf via cmd payload s = some e) (hr : e = .ok r) :
    SswInv r.2 := by
  subst hr
  unfold handlerOf at he
  split at he
  · cases he
    exact handleSetMeta_sswInv hok hinv via payload
  split at he
  · exact handleSendData_sswInv hok hinv (Option.some.inj he)
  split at he
  · cases he
    exact hinv
  split at he
  · cases he
    exact hinv
  split at he
  · cases he
    unfold handleSetCfg
    dsimp only
    split <;> exact hinv
  split at he
  · cases he
    exact sswCloseOp_sswInv hok hinv
  · cases he

theorem handleCommandOp_sswInv (hok : s.cfg.ok) (hinv : SswInv s) {via : Transport} {hb payload : Bytes}
    (h : handleCommandOp via hb payload s = .next t) : SswInv t := by
  have hnote : ∀ rejected, (noteHeader via rejected s).cfg.ok ∧ SswInv (noteHeader via rejected s) := by
    cases via <;> exact fun _ => ⟨hok, hinv⟩
  unfold handleCommandOp at h
  split at h
  · cases h
    exact (hnote true).2
  dsimp only at h
  split at h
  · cases h
    exact (hnote false).2
  split at h
  · cases h
    exact (hnote false).2
  next he =>
    obtain ⟨r, hr, h⟩ := withVal_eq_next h
    cases h
    obtain ⟨hok', hinv'⟩ := hnote false
    exact handlerOf_sswInv hok' hinv' he hr

/-! ## The rows -/

theorem checkUpgModeOp_sswInv (hinv : SswInv s) (now : U64) : SswInv (checkUpgModeOp now s) := by
  unfold checkUpgModeOp
  split
  · exact hinv
  split <;> exact hinv

theorem retLast_sswInv (hinv : SswInv s) : SswInv (retLast s) := by
  unfold retLast
  split <;> exact hinv

theorem execDevWrite_sswInv (hinv : SswInv s) {blk : U32} {data : Bytes} (h : execDevWrite blk data s = .next t) : SswInv t := by
  unfold execDevWrite at h
  split at h
  · cases h
    exact retLast_sswInv (s := (devWriteCall _ _ s).2) hinv
  · cases h
    exact retLast_sswInv (s := (devWriteOdd _ _ s).2) hinv

/-- Between events nothing is at hand, and then a step of the loop waits (rule R286; log 15). -/
theorem stepRow.idle {i : Instr} {p : Phase} {f : State → PushStep} (hrow : stepRow i p f)
    (hf : s.ssw.phase = p → pushStep s = f s) (hp : p ≠ .closed) (hok : s.cfg.ok) (hinv : SswInv s) (h : exec i s = .next t) :
    SswInv t := by
  obtain ⟨hhand, -, -, -, hdesc, -⟩ := id hinv
  have hsame : exec i s = .next s := by
    by_cases hphase : s.ssw.phase = p
    · have hbs : 0 < s.ssw.bs.toNat := Nat.lt_of_lt_of_le (by decide) (hdesc (hphase ▸ hp)).1
      exact hrow.wait ((hf hphase).symm.trans (pushStep_empty hok hhand hbs))
    · exact (hrow s).trans (if_neg hphase)
  rw [hsame] at h
  cases h
  exact hinv

theorem ssw_kept_of_beside (h : t.besideUpe = s.besideUpe) : t.cfg = s.cfg ∧ t.ssw = s.ssw := by
  simp only [State.besideUpe, State.mk.injEq] at h
  tauto

theorem upeRow_sswInv {i : Instr} (hinv : SswInv s) (hrow : upeRow s.cfg i) (h : exec i s = .next t) : SswInv t := by
  have hkept : t.cfg = s.cfg ∧ t.ssw = s.ssw := by
    rcases eq_or_ne i .tick with rfl | hne
    · rcases tickOp_beside h with hb | ⟨-, u, rfl, -, hb⟩
      · exact ssw_kept_of_beside hb
      · rw [releaseWriter_eq rfl]
        exact ssw_kept_of_beside (t := u) hb
    · exact ssw_kept_of_beside (upeRow_beside hrow hne h)
  exact hinv.of_eq hkept.1 hkept.2

theorem uteRow_sswInv {i : Instr} (hinv : SswInv s) (hrow : uteRow i) (h : exec i s = .next t) : SswInv t := by
  obtain ⟨hcfg, -, hssw, -⟩ := onlyUte_of_near (uteRow_near hrow h)
  exact hinv.of_eq hcfg hssw

/-- Every row keeps the invariant, by the lemma of the operation that it is. -/
theorem exec_sswInv (hok : s.cfg.ok) (hinv : SswInv s) {i : Instr} (h : exec i s = .next t) : SswInv t := by
  cases i with
  | sigC | dc1 | dc2 | ack | nak | can | soh | stx | uartDropped | uartRx | shortFrame | longFrame | tick | upeInit | upeDeinit |
    startRead | startWrite | getStatus | setStatus | uartTx => exact upeRow_sswInv hinv (by simp [upeRow, byteRow]) h
  | cbwWrite | cbwRead | cbwMalformed | csw | uteInit | usbReset | outDoneReadCbw | outDoneDataOut | inDoneDataIn |
    inDoneWaitCsw | doneIgnored | epRecv | epSend => exact uteRow_sswInv hinv (by simp [uteRow]) h
  | reset =>
    cases h
    exact sswInv_closed hok rfl
  | sparseHeader | chunkRaw | chunkFill | chunkDontCare | chunkCrc32 | chunkUnknown | sswPush => exact pushBytes_sswInv hok hinv h
  | sswOpen =>
    cases h
    exact sswOpenOp_sswInv hinv _
  | sswClose =>
    cases h
    exact sswCloseOp_sswInv hok hinv
  | pushDetect => exact pushDetect_row.idle pushStep_detect nofun hok hinv h
  | pushSpHdr => exact pushSpHdr_row.idle pushStep_spHdr nofun hok hinv h
  | pushSpChunkHdr => exact pushSpChunkHdr_row.idle pushStep_spChunkHdr nofun hok hinv h
  | pushSpRaw => exact pushSpRaw_row.idle pushStep_spRaw nofun hok hinv h
  | pushSpFill => exact pushSpFill_row.idle pushStep_spFill nofun hok hinv h
  | pushSpDone => exact pushSpDone_row.idle pushStep_spDone nofun hok hinv h
  | pushRaw => exact pushRaw_row.idle pushStep_raw nofun hok hinv h
  | cmdSetFwcMeta | cmdSendFwcData | cmdGetFwcCrc | cmdGetFwcBurnResult | cmdSetUpgCfg | cmdSetUpgEnd | handleCommand =>
    exact handleCommandOp_sswInv hok hinv h
  | checkUpgMode =>
    cases h
    exact checkUpgModeOp_sswInv hinv _
  | devWrite => exact execDevWrite_sswInv hinv h
  | devRead | devErase | dispExpect | dispOut | dispIn | dispStatus =>
    cases h
    refine retLast_sswInv ?_
    exact hinv
  | commandHeader | responseHeader | hdrEncodeCmd | hdrDecodeCmd | hdrEncodeRsp | hdrDecodeRsp | crc16 | packShort | packLong |
    packFrame | frameTotal | unpack | slice | split | sswGetResult | sswGetCrc | progress =>
    cases h
    exact hinv

/-- Bytes that are no row reach the writer as a push or as a command, or not at all (rules R119, R344). -/
theorem undecoded_sswInv (hok : s.cfg.ok) (hinv : SswInv s) {p : Packet} (h : undecoded p s = .next t) : SswInv t := by
  unfold undecoded at h
  split at h
  iterate 2
    obtain ⟨hcfg, hssw⟩ := ssw_kept_of_beside (uartRxs_beside h)
    exact hinv.of_eq hcfg hssw
  iterate 2 exact pushBytes_sswInv hok hinv h
  · cases h
    exact hinv
  · exact handleCommandOp_sswInv hok hinv h
  · cases h
    exact hinv

end

/-- Settles O59: a push keeps the invariant because each step of its run does; the other rows open or close a session or leave it alone. -/
theorem stepKeepsSsw : Obligations.StepKeepsSsw := fun s _ hok hinv =>
  of_step hinv (fun _ rest => exec_sswInv (s := s.withInbox rest) hok hinv) fun _ rest =>
    undecoded_sswInv (s := s.withInbox rest) hok hinv

end Sys2Proof.Machine
end

section
/-! PROOFS. Decoding what the encoder writes (30_encoding.md): one lemma for each format that the fields of its bytes are read back, and
then the rows. -/

namespace Sys2Proof

/-! ## Fields -/

@[simp] theorem le16_encLe16_all (v : U16) : le16 (encLe16 v) 0 = v := le16_encLe16 v []

@[simp] theorem le32_encLe32_all (v : U32) : le32 (encLe32 v) 0 = v := le32_encLe32 v []

@[simp] theorem low7_flagsByte (d : Bool) (l : BitVec 7) : low7 (flagsByte d l) = l := by
  apply BitVec.eq_of_toNat_eq
  have := l.isLt
  cases d <;> simp [low7, flagsByte] <;> omega

/-- `le64` reads what `encLe64` writes (log 12). -/
theorem le64_encLe64 (v : U64) : le64 (encLe64 v) 0 = v := by
  apply BitVec.eq_of_toNat_eq
  have := v.isLt
  have hlow : le32 (encLe64 v) 0 = BitVec.ofNat 32 v.toNat := le32_encLe32 _ _
  have hhigh : le32 (encLe64 v) 4 = BitVec.ofNat 32 (v.toNat / 4294967296) := le32_encLe32_all _
  rw [le64, hlow, hhigh]
  simp only [BitVec.toNat_ofNat]
  omega

namespace Machine

/-! ## The formats -/

section
variable {c : Config}

/-- The control bytes differ (rules R11, R93). -/
theorem controlBytes_distinct (hok : c.ok) : c.controlBytes.Nodup := by
  obtain ⟨⟨hn, -⟩, -⟩ := hok
  exact hn

/-- A control byte is its own row (rule R93). -/
theorem decodeUartByte_control (hok : c.ok) :
    decodeUartByte c c.sigC = .sigC ∧ decodeUartByte c c.dc1 = .dc1 ∧ decodeUartByte c c.dc2 = .dc2 ∧
      decodeUartByte c c.ack = .ack ∧ decodeUartByte c c.nak = .nak ∧ decodeUartByte c c.can = .can ∧
      decodeUartByte c c.soh = .soh ∧ decodeUartByte c c.stx = .stx := by
  have hn := controlBytes_distinct hok
  simp only [Config.controlBytes, List.nodup_cons, List.mem_cons, List.not_mem_nil, or_false, not_or] at hn
  obtain ⟨hsoh, hstx, hack, hnak, hcan, hsig, hdc1, -⟩ := hn
  unfold decodeUartByte
  grind

theorem decodeUartByte_dropped {b : Byte} (h : b ∉ c.controlBytes) : decodeUartByte c b = .uartDropped b := by
  simp only [Config.controlBytes, List.mem_cons, List.not_mem_nil, or_false, not_or] at h
  simp [decodeUartByte, h]

theorem decodeFrame_long (blk cblk : Byte) {data : Bytes} (crc : U16) (hdata : data.length = Config.longLen) :
    decodeFrame c (longFrameBytes c blk cblk data crc) = .ok (.longFrame blk cblk data crc) := by
  have hlen : (longFrameBytes c blk cblk data crc).length = Config.longFrameLen := by
    rw [length_longFrameBytes, hdata]
    rfl
  have hbytes : bytesAt (longFrameBytes c blk cblk data crc) 3 Config.longLen = data := by
    simp [longFrameBytes, bytesAt, ← hdata]
  have hcrc : be16 (longFrameBytes c blk cblk data crc) (3 + Config.longLen) = crc :=
    be16_at (a := c.stx :: blk :: cblk :: data) (r := []) (by simp only [List.length_cons, hdata]; omega)
  refine (if_pos rfl).trans ((if_pos hlen).trans ?_)
  rw [hbytes, hcrc]
  rfl

theorem decodeFrame_short (hok : c.ok) (blk cblk : Byte) {data : Bytes} (crc : U16) (hdata : data.length ≤ 255) :
    decodeFrame c (shortFrameBytes c blk cblk data crc) = .ok (.shortFrame blk cblk data crc) := by
  have hlead : c.soh ≠ c.stx := by
    have hn := controlBytes_distinct hok
    simp only [Config.controlBytes, List.nodup_cons, List.mem_cons, not_or] at hn
    obtain ⟨⟨hne, -⟩, -⟩ := hn
    exact hne
  have hlenByte : (byteAt (shortFrameBytes c blk cblk data crc) 3).toNat = data.length := Nat.mod_eq_of_lt (by omega)
  have hlen := length_shortFrameBytes c blk cblk data crc
  have hbytes : bytesAt (shortFrameBytes c blk cblk data crc) 4 (6 + data.length - 6) = data := by
    simp [shortFrameBytes, bytesAt]
  have hcrc : be16 (shortFrameBytes c blk cblk data crc) (6 + data.length - 2) = crc :=
    be16_at (a := c.soh :: blk :: cblk :: BitVec.ofNat 8 data.length :: data) (r := []) (by simp; omega)
  refine (if_neg hlead).trans ((if_pos rfl).trans ((if_pos (by rw [hlen, hlenByte])).trans ?_))
  rw [hlen, hbytes, hcrc]
  rfl

/-- The bytes of a CBW that the block ignores (rules R100, R124). -/
theorem cbwRestOf_cbwBytes (tag len : U32) (d : Bool) (cmd : Byte) {r : CbwRest} (hr : r.reserved.length = 15) :
    cbwRestOf (cbwBytes tag len d cmd r) = r := by
  have hreserved : bytesAt (cbwBytes tag len d cmd r) 16 15 = r.reserved := List.take_of_length_le hr.le
  rw [cbwRestOf, cbwBytes_flags, low7_flagsByte, hreserved]
  rfl

/-- A CBW is good when the command byte goes with the direction (rules R117, R123). -/
theorem goodCbw_cbwBytes (tag len : U32) {d : Bool} {cmd : Byte} {r : CbwRest} (hr : r.reserved.length = 15)
    (hpair : (cmd = c.usbCmdWrite ∧ d = false) ∨ (cmd = c.usbCmdRead ∧ d = true)) : c.goodCbw (cbwBytes tag len d cmd r) := by
  refine ⟨length_cbwBytes hr, rfl, ?_⟩
  have hflag : ((cbwBytes tag len d cmd r).getD 12 0).msb = d := bit7_flagsByte d r.flags
  rw [hflag]
  exact hpair

theorem decodeCbw_write (tag len : U32) {r : CbwRest} (hr : r.reserved.length = 15) :
    decodeCbw c (cbwBytes tag len false c.usbCmdWrite r) = .cbwWrite tag len r := by
  rw [decodeCbw, if_pos (goodCbw_cbwBytes tag len hr (.inl ⟨rfl, rfl⟩)), cbwBytes_flags, bit7_flagsByte, if_neg Bool.false_ne_true,
    cbwBytes_tag, cbwBytes_len, cbwRestOf_cbwBytes _ _ _ _ hr]

theorem decodeCbw_read (tag len : U32) {r : CbwRest} (hr : r.reserved.length = 15) :
    decodeCbw c (cbwBytes tag len true c.usbCmdRead r) = .cbwRead tag len r := by
  rw [decodeCbw, if_pos (goodCbw_cbwBytes tag len hr (.inr ⟨rfl, rfl⟩)), cbwBytes_flags, bit7_flagsByte, if_pos rfl,
    cbwBytes_tag, cbwBytes_len, cbwRestOf_cbwBytes _ _ _ _ hr]

theorem decodeCbw_malformed {b : Bytes} (h : ¬ c.goodCbw b) : decodeCbw c b = .cbwMalformed b := if_neg h

theorem decodeCsw_cswBytes (tag residue : U32) (status : Byte) :
    decodeCsw (cswBytes tag residue status) = .ok (.csw tag residue status) := by
  have hlen : (cswBytes tag residue status).length = Config.cswLen := rfl
  rw [decodeCsw, if_pos hlen]
  simp [cswBytes, le32_encLe32]

theorem decodeSparseHeader_bytes (hok : c.ok) (major minor : U16) (blkSz totalBlks totalChunks : U32) {r : SparseRest}
    (hr : r.wf c) : decodeSparseHeader c (sparseHeaderBytes c major minor blkSz totalBlks totalChunks r) =
      .ok (.sparseHeader major minor blkSz totalBlks totalChunks r) := by
  obtain ⟨hmagic, h8, h10, h12, h16, h20⟩ :=
    sparseHeaderBytes_fields (h := sparseHeaderBytes c major minor blkSz totalBlks totalChunks r) hok rfl
  rw [decodeSparseHeader, if_pos (length_sparseHeaderBytes hr), if_pos hmagic, if_pos ⟨h8, h10⟩, h12, h16, h20]
  simp [sparseHeaderBytes, le16_encLe16, le32_encLe32]

/-- The fields of a chunk header that no rule reads (rule R103). -/
theorem chunkRestOf_bytes (ty : U16) (r : ChunkRest) (csz tsz : U32) : chunkRestOf (chunkHeaderBytes ty r csz tsz) = r := by
  simp [chunkRestOf, chunkHeaderBytes, le16_encLe16]

/-- The chunk types differ (rules R11, R104). -/
theorem chunkTypes_distinct (hok : c.ok) : c.chunkTypes.Nodup := by
  obtain ⟨⟨-, -, -, -, -, -, -, -, hn, -⟩, -⟩ := hok
  exact hn

/-- A chunk header is read by its type, in the order of the rows (rules R104, R126). -/
theorem decodeChunkHeader_bytes (ty : U16) (csz tsz : U32) {r : ChunkRest} (hr : r.wf c) :
    decodeChunkHeader c (chunkHeaderBytes ty r csz tsz) = .ok
      (if ty = c.typeRaw then .chunkRaw r csz tsz else if ty = c.typeFill then .chunkFill r csz tsz
       else if ty = c.typeDontCare then .chunkDontCare r csz tsz else if ty = c.typeCrc32 then .chunkCrc32 r csz tsz
       else .chunkUnknown ty r csz tsz) := by
  simp only [decodeChunkHeader, length_chunkHeaderBytes hr, if_true, chunkHeaderBytes_type, chunkHeaderBytes_csz, chunkHeaderBytes_tsz,
    chunkRestOf_bytes, apply_ite Except.ok]

/-- The fields of a header that stand for no row, whatever comes behind it (rules R98, R99). -/
theorem hdrRestOf_bytes (m : U32) (cmd b7 : Byte) {r : HdrRest} (hr : r.wf c) (p : Bytes) :
    hdrRestOf c (headerBytes m cmd b7 r ++ p) = r := by
  have hpad : bytesAt (headerBytes m cmd b7 r ++ p) 12 (Config.padBytes c.hdrPad) = r.pad := by
    rw [← show r.pad.length = _ from hr]
    simp [headerBytes, bytesAt]
  have hsum : le32 (headerBytes m cmd b7 r ++ p) (12 + Config.padBytes c.hdrPad) = r.checksum := by
    rw [le32_append (by rw [length_headerBytes hr, Config.hdrLen]; omega)]
    exact headerBytes_sum m cmd b7 r hr
  rw [hdrRestOf, hpad, hsum]
  simp [headerBytes, le32_encLe32]

theorem decodeHeader_bytes (m : U32) (cmd b7 : Byte) {r : HdrRest} (hr : r.wf c) :
    decodeHeader c (headerBytes m cmd b7 r) =
      if m = Config.cmdMagic then .ok (.commandHeader cmd b7 r)
      else if m = Config.rspMagic then .ok (.responseHeader cmd b7 r) else .error .magic := by
  have hrest := hdrRestOf_bytes m cmd b7 hr []
  rw [List.append_nil] at hrest
  rw [decodeHeader, if_pos (length_headerBytes hr), headerBytes_magic, hrest]
  rfl

/-- A command is read by its command byte, in the order of the rows (rules R118, R349). -/
theorem decodeCommand_bytes (via : Transport) (cmd b7 : Byte) {r : HdrRest} (hr : r.wf c) (p : Bytes) :
    decodeCommand c via (headerBytes Config.cmdMagic cmd b7 r ++ p) =
      if cmd = c.cmdSetFwcMeta then .ok (.cmdSetFwcMeta via b7 r p)
      else if cmd = c.cmdSendFwcData then .ok (.cmdSendFwcData via b7 r p)
      else if cmd = c.cmdGetFwcCrc then .ok (.cmdGetFwcCrc via b7 r p)
      else if cmd = c.cmdGetFwcBurnResult then .ok (.cmdGetFwcBurnResult via b7 r p)
      else if cmd = c.cmdSetUpgCfg then .ok (.cmdSetUpgCfg via b7 r p)
      else if cmd = c.cmdSetUpgEnd then .ok (.cmdSetUpgEnd via b7 r p) else .error .command := by
  have hlen : c.hdrLen ≤ (headerBytes Config.cmdMagic cmd b7 r ++ p).length := by
    rw [List.length_append, length_headerBytes hr]
    exact Nat.le_add_right _ _
  have hmagic : le32 (headerBytes Config.cmdMagic cmd b7 r ++ p) 0 = Config.cmdMagic := by
    simp [headerBytes, le32_encLe32]
  have hpayload : (headerBytes Config.cmdMagic cmd b7 r ++ p).drop c.hdrLen = p := List.drop_left' (length_headerBytes hr)
  rw [decodeCommand, if_pos hlen, if_pos hmagic, hdrRestOf_bytes _ cmd b7 hr, hpayload]
  rfl

/-- The header of HANDLE_COMMAND is preceded by its length (log 12). -/
theorem decode_handleCommand (via : Transport) {h : Bytes} (p : Bytes) (hh : h.length < 2 ^ 32) :
    decode c (encode c (.handleCommand via h p)) = .ok (.handleCommand via h p) := by
  have hn : (le32 (encLe32 (BitVec.ofNat 32 h.length) ++ h ++ p) 0).toNat = h.length := by
    rw [List.append_assoc, le32_encLe32]
    exact Nat.mod_eq_of_lt hh
  simp only [decode, encode, hn]
  rw [if_pos (by simp)]
  simp [bytesAt, Nat.add_comm 4]

end

/-! ## The rows -/

theorem decode_encode {c : Config} {i : Instr} (hok : c.ok) (hwf : i.wf c) : decode c (encode c i) = .ok i := by
  obtain ⟨hsig, hdc1, hdc2, hack, hnak, hcan, hsoh, hstx⟩ := decodeUartByte_control hok
  have htypes := chunkTypes_distinct hok
  simp only [Config.chunkTypes, List.nodup_cons, List.mem_cons, List.not_mem_nil, or_false, not_or] at htypes
  obtain ⟨⟨hraw1, hraw2, hraw3⟩, ⟨hfill1, hfill2⟩, hdont, -⟩ := htypes
  obtain ⟨hm1, hm2, hm3, hm4, hm5, hd1, hd2, hd3, hd4, hg1, hg2, hg3, hb1, hb2, hcfg⟩ := commands_distinct hok
  cases i with
  | sigC => exact congrArg Except.ok hsig
  | dc1 => exact congrArg Except.ok hdc1
  | dc2 => exact congrArg Except.ok hdc2
  | ack => exact congrArg Except.ok hack
  | nak => exact congrArg Except.ok hnak
  | can => exact congrArg Except.ok hcan
  | soh => exact congrArg Except.ok hsoh
  | stx => exact congrArg Except.ok hstx
  | uartDropped b => exact congrArg Except.ok (decodeUartByte_dropped hwf)
  | shortFrame => exact decodeFrame_short hok _ _ _ hwf
  | longFrame => exact decodeFrame_long _ _ _ hwf
  | cbwWrite => exact congrArg Except.ok (decodeCbw_write _ _ hwf)
  | cbwRead => exact congrArg Except.ok (decodeCbw_read _ _ hwf)
  | cbwMalformed => exact congrArg Except.ok (decodeCbw_malformed hwf)
  | csw => exact decodeCsw_cswBytes _ _ _
  | sparseHeader => exact decodeSparseHeader_bytes hok _ _ _ _ _ hwf
  | chunkRaw => exact (decodeChunkHeader_bytes _ _ _ hwf).trans (by simp)
  | chunkFill => exact (decodeChunkHeader_bytes _ _ _ hwf).trans (by simp [Ne.symm hraw1])
  | chunkDontCare => exact (decodeChunkHeader_bytes _ _ _ hwf).trans (by simp [Ne.symm hraw2, Ne.symm hfill1])
  | chunkCrc32 => exact (decodeChunkHeader_bytes _ _ _ hwf).trans (by simp [Ne.symm hraw3, Ne.symm hfill2, Ne.symm hdont])
  | chunkUnknown ty =>
    obtain ⟨hty, hr⟩ := hwf
    simp only [mem_chunkTypes, not_or] at hty
    exact (decodeChunkHeader_bytes _ _ _ hr).trans (by simp [hty])
  | commandHeader => exact (decodeHeader_bytes _ _ _ hwf).trans (if_pos rfl)
  | responseHeader => exact (decodeHeader_bytes _ _ _ hwf).trans (if_neg (by decide))
  | cmdSetFwcMeta => exact (decodeCommand_bytes _ _ _ hwf _).trans (by simp)
  | cmdSendFwcData => exact (decodeCommand_bytes _ _ _ hwf _).trans (by simp [Ne.symm hm1])
  | cmdGetFwcCrc => exact (decodeCommand_bytes _ _ _ hwf _).trans (by simp [Ne.symm hm2, Ne.symm hd1])
  | cmdGetFwcBurnResult => exact (decodeCommand_bytes _ _ _ hwf _).trans (by simp [Ne.symm hm3, Ne.symm hd2, Ne.symm hg1])
  | cmdSetUpgCfg =>
    exact (decodeCommand_bytes _ _ _ hwf _).trans (by simp [Ne.symm hm4, Ne.symm hd3, Ne.symm hg2, Ne.symm hb1])
  | cmdSetUpgEnd =>
    exact (decodeCommand_bytes _ _ _ hwf _).trans (by simp [Ne.symm hm5, Ne.symm hd4, Ne.symm hg3, Ne.symm hb2, Ne.symm hcfg])
  | handleCommand via h p => exact decode_handleCommand via p hwf
  | startWrite => exact if_pos hwf
  | doneIgnored done => cases done <;> simp [decode, encode, decodeFixed]
  | reset | tick | upeInit | upeDeinit | getStatus | uteInit | usbReset | sswClose | pushDetect | pushSpHdr | pushSpChunkHdr |
    pushSpRaw | pushSpFill | pushSpDone | pushRaw | sswGetResult | sswGetCrc | dispStatus => rfl
  | uartRx | setStatus | progress => rfl
  | outDoneReadCbw | outDoneDataOut | sswPush | crc16 | frameTotal | unpack | hdrDecodeCmd | hdrDecodeRsp | uartTx | epSend |
    dispOut => rfl
  | startRead | inDoneDataIn | inDoneWaitCsw | slice | epRecv | dispIn => simp [decode, encode, decodeFixed]
  | sswOpen | devRead | devErase | dispExpect | hdrEncodeCmd | hdrEncodeRsp => simp [decode, encode, decodeFixed, le32_encLe32]
  | checkUpgMode => simp [decode, encode, decodeFixed, le64_encLe64]
  | packShort | packLong | packFrame | split | devWrite => simp [decode, encode, decodeAtLeast, le32_encLe32]

/-- Settles O54: the fields of each row's bytes are its operands, and the constants that tell rows of one wire apart differ. -/
theorem decodeEncode : Obligations.DecodeEncode := fun _ _ => decode_encode

end Machine
end Sys2Proof
end

section
/-! PROOFS. What decodes is the encoding of what it decodes to (30_encoding.md): putting the fields of a byte string one behind the other
gives the byte string back, one lemma for each format, and then the ports. -/

namespace Sys2Proof

/-! ## Fields, put together again -/

section
variable (b : Bytes) (i : Nat)

theorem encLe16_le16 : encLe16 (le16 b i) = [byteAt b i, byteAt b (i + 1)] := by
  have h0 := (byteAt b i).isLt
  have h1 := (byteAt b (i + 1)).isLt
  have hv : (le16 b i).toNat = (byteAt b i).toNat + 256 * (byteAt b (i + 1)).toNat := Nat.mod_eq_of_lt (by omega)
  have hlow : byteOf (le16 b i).toNat 0 = byteAt b i := BitVec.eq_of_toNat_eq (by rw [byteOf_toNat, hv]; omega)
  have hhigh : byteOf (le16 b i).toNat 1 = byteAt b (i + 1) := BitVec.eq_of_toNat_eq (by rw [byteOf_toNat, hv]; omega)
  rw [encLe16, hlow, hhigh]

theorem encBe16_be16_at : encBe16 (be16 b i) = [byteAt b i, byteAt b (i + 1)] := Machine.encBe16_be16 (byteAt b i) (byteAt b (i + 1))

theorem encLe32_le32 : encLe32 (le32 b i) = [byteAt b i, byteAt b (i + 1), byteAt b (i + 2), byteAt b (i + 3)] := by
  rw [encLe32, Machine.byteOf_le32 b i (by decide), Machine.byteOf_le32 b i (by decide), Machine.byteOf_le32 b i (by decide),
    Machine.byteOf_le32 b i (by decide), Nat.add_zero]

variable {b i}

/-- A byte and what follows it. -/
theorem byteAt_cons_drop (h : i < b.length) : byteAt b i :: b.drop (i + 1) = b.drop i := by
  rw [List.drop_eq_getElem_cons h, byteAt, List.getD_eq_getElem b 0 h]

theorem encLe16_append_drop (h : i + 2 ≤ b.length) : encLe16 (le16 b i) ++ b.drop (i + 2) = b.drop i := by
  rw [encLe16_le16, ← byteAt_cons_drop (b := b) (i := i) (by omega), ← byteAt_cons_drop (b := b) (i := i + 1) (by omega)]
  rfl

theorem encBe16_append_drop (h : i + 2 ≤ b.length) : encBe16 (be16 b i) ++ b.drop (i + 2) = b.drop i := by
  rw [encBe16_be16_at, ← byteAt_cons_drop (b := b) (i := i) (by omega), ← byteAt_cons_drop (b := b) (i := i + 1) (by omega)]
  rfl

theorem encLe32_append_drop (h : i + 4 ≤ b.length) : encLe32 (le32 b i) ++ b.drop (i + 4) = b.drop i := by
  rw [encLe32_le32, ← byteAt_cons_drop (b := b) (i := i) (by omega), ← byteAt_cons_drop (b := b) (i := i + 1) (by omega),
    ← byteAt_cons_drop (b := b) (i := i + 2) (by omega), ← byteAt_cons_drop (b := b) (i := i + 3) (by omega)]
  rfl

theorem bytesAt_append_drop (n : Nat) : bytesAt b i n ++ b.drop (i + n) = b.drop i := by
  rw [bytesAt, ← List.drop_drop, List.take_append_drop]

/-- A field that is the last one. -/
theorem byteAt_last (h : b.length = i + 1) : [byteAt b i] = b.drop i := by
  rw [← byteAt_cons_drop (b := b) (i := i) (by omega), List.drop_eq_nil_of_le h.le]

theorem encBe16_last (h : b.length = i + 2) : encBe16 (be16 b i) = b.drop i := by
  rw [← encBe16_append_drop h.ge, List.drop_eq_nil_of_le h.le, List.append_nil]

theorem encLe32_last (h : b.length = i + 4) : encLe32 (le32 b i) = b.drop i := by
  rw [← encLe32_append_drop h.ge, List.drop_eq_nil_of_le h.le, List.append_nil]

theorem bytesAt_last {n : Nat} (h : b.length = i + n) : bytesAt b i n = b.drop i :=
  List.take_of_length_le (by rw [List.length_drop]; omega)

theorem length_bytesAt {n : Nat} (h : i + n ≤ b.length) : (bytesAt b i n).length = n := by
  rw [bytesAt, List.length_take, List.length_drop]
  omega

theorem encLe64_le64 (h : b.length = 8) : encLe64 (le64 b 0) = b := by
  have h0 := (le32 b 0).isLt
  have h4 := (le32 b 4).isLt
  have hv : (le64 b 0).toNat = (le32 b 0).toNat + 4294967296 * (le32 b 4).toNat := Nat.mod_eq_of_lt (by simp only [Nat.zero_add]; omega)
  have hlow : BitVec.ofNat 32 (le64 b 0).toNat = le32 b 0 := BitVec.eq_of_toNat_eq (by rw [hv, BitVec.toNat_ofNat]; omega)
  have hhigh : BitVec.ofNat 32 ((le64 b 0).toNat / 4294967296) = le32 b 4 :=
    BitVec.eq_of_toNat_eq (by rw [hv, BitVec.toNat_ofNat]; omega)
  rw [encLe64, hlow, hhigh, encLe32_last (i := 4) h]
  exact encLe32_append_drop (by omega)

/-- A flags byte is its top bit and the seven below it (rule R100). -/
theorem flagsByte_bit7_low7 (x : Byte) : flagsByte (bit7 x) (low7 x) = x := by
  apply BitVec.eq_of_toNat_eq
  have hx := x.isLt
  by_cases h : bit7 x = true
  · have hmsb : 128 ≤ x.toNat := by simpa [bit7, BitVec.msb_eq_decide] using h
    simp only [flagsByte, low7, h, if_true, BitVec.toNat_ofNat]
    omega
  · have hmsb : x.toNat < 128 := by simpa [bit7, BitVec.msb_eq_decide] using h
    simp only [flagsByte, low7, h, Bool.false_eq_true, if_false, BitVec.toNat_ofNat]
    omega

end

namespace Machine

/-! ## Decoders that read operands only -/

/-- The instruction is one that an encoding can carry, and the packet is its encoding. -/
def Written (c : Config) (i : Instr) (p : Packet) : Prop := i.wf c ∧ encode c i = p

section
variable {c : Config} {b : Bytes} {i : Instr}

theorem decodePlain_eq_ok {j : Instr} (h : decodePlain j b = .ok i) : b = [] ∧ i = j := by
  unfold decodePlain at h
  split at h
  next hlen =>
    cases h
    exact ⟨List.length_eq_zero_iff.1 hlen, rfl⟩
  next => cases h

theorem decodeFixed_eq_ok {n : Nat} {f : Bytes → Instr} (h : decodeFixed n f b = .ok i) : b.length = n ∧ i = f b := by
  unfold decodeFixed at h
  split at h
  next hlen =>
    cases h
    exact ⟨hlen, rfl⟩
  next => cases h

theorem decodeAtLeast_eq_ok {n : Nat} {f : Bytes → Instr} (h : decodeAtLeast n f b = .ok i) : n ≤ b.length ∧ i = f b := by
  unfold decodeAtLeast at h
  split at h
  next hlen =>
    cases h
    exact ⟨hlen, rfl⟩
  next => cases h

/-! ## The formats -/

theorem decodeUartByte_written (c : Config) (x : Byte) : Written c (decodeUartByte c x) ⟨.uartWire, [x]⟩ := by
  unfold decodeUartByte
  iterate 8
    split
    next h => exact ⟨trivial, by rw [h]; rfl⟩
  exact ⟨by simp_all [Instr.wf, Config.controlBytes], rfl⟩

/-- The fields of a long frame (rule R92). -/
theorem longFrameBytes_fields (hlead : byteAt b 0 = c.stx) (hlen : b.length = Config.longFrameLen) :
    longFrameBytes c (byteAt b 1) (byteAt b 2) (bytesAt b 3 Config.longLen) (be16 b (3 + Config.longLen)) = b := by
  have hlen' : b.length = 3 + Config.longLen + 2 := hlen
  rw [longFrameBytes, ← hlead, encBe16_last hlen', bytesAt_append_drop, byteAt_cons_drop (by omega), byteAt_cons_drop (by omega),
    byteAt_cons_drop (by omega), List.drop_zero]

/-- The fields of a short frame, whose length byte is the number of its data bytes (rule R91). -/
theorem shortFrameBytes_fields (hlead : byteAt b 0 = c.soh) (hlen : b.length = 6 + (byteAt b 3).toNat) :
    shortFrameBytes c (byteAt b 1) (byteAt b 2) (bytesAt b 4 (b.length - 6)) (be16 b (b.length - 2)) = b := by
  have hn : b.length - 6 = (byteAt b 3).toNat := by omega
  have hcrc : b.length - 2 = 4 + (byteAt b 3).toNat := by omega
  have hlenByte : BitVec.ofNat 8 (bytesAt b 4 (byteAt b 3).toNat).length = byteAt b 3 := by
    rw [length_bytesAt (by omega), BitVec.ofNat_toNat, BitVec.setWidth_eq]
  rw [shortFrameBytes, hn, hcrc, hlenByte, ← hlead, encBe16_last (by omega), bytesAt_append_drop, byteAt_cons_drop (by omega),
    byteAt_cons_drop (by omega), byteAt_cons_drop (by omega), byteAt_cons_drop (by omega), List.drop_zero]

theorem decodeFrame_written (h : decodeFrame c b = .ok i) : Written c i ⟨.frameWire, b⟩ := by
  unfold decodeFrame at h
  split at h
  · cases h
  next lead r =>
  split at h
  next hlead =>
    split at h
    next hlen =>
      cases h
      refine ⟨length_bytesAt ?_, congrArg (Packet.mk _) (longFrameBytes_fields hlead hlen)⟩
      exact (Nat.le_add_right _ 2).trans hlen.ge
    next => cases h
  split at h
  next hlead =>
    split at h
    next hlen =>
      cases h
      refine ⟨?_, congrArg (Packet.mk _) (shortFrameBytes_fields hlead hlen)⟩
      have hbyte := (byteAt (lead :: r) 3).isLt
      show (bytesAt _ 4 _).length ≤ 255
      rw [length_bytesAt] <;> omega
    next => cases h
  next => cases h

/-- The fields of a good CBW (rules R100, R123). -/
theorem cbwBytes_fields (h : c.goodCbw b) :
    cbwBytes (le32 b 4) (le32 b 8) (bit7 (byteAt b 12)) (byteAt b 15) (cbwRestOf b) = b := by
  obtain ⟨hlen, hsig, -⟩ := h
  have hlen' : b.length = 31 := hlen
  have hsig' : encLe32 Config.cbwSig = b.take 4 := hsig.symm
  rw [cbwBytes, cbwRestOf, flagsByte_bit7_low7, hsig', bytesAt_last hlen']
  simp only [List.append_assoc, List.cons_append, List.nil_append]
  rw [byteAt_cons_drop (by omega), byteAt_cons_drop (by omega), byteAt_cons_drop (by omega), byteAt_cons_drop (by omega),
    encLe32_append_drop (by omega), encLe32_append_drop (by omega), List.take_append_drop]

theorem decodeCbw_written (c : Config) (b : Bytes) : Written c (decodeCbw c b) ⟨.outWire, b⟩ := by
  unfold decodeCbw
  split
  next hgood =>
    have hfields := cbwBytes_fields hgood
    obtain ⟨hlen, -, hpair⟩ := hgood
    have hwf : (cbwRestOf b).reserved.length = 15 := length_bytesAt hlen.ge
    split
    next hdir =>
      obtain ⟨hcmd, -⟩ := hpair.resolve_left fun hw => Bool.noConfusion (hdir.symm.trans hw.2)
      refine ⟨hwf, congrArg (Packet.mk _) ?_⟩
      rwa [hdir, show byteAt b 15 = _ from hcmd] at hfields
    next hdir =>
      have hdir' := Bool.eq_false_iff.2 hdir
      obtain ⟨hcmd, -⟩ := hpair.resolve_right fun hr => hdir hr.2
      refine ⟨hwf, congrArg (Packet.mk _) ?_⟩
      rwa [hdir', show byteAt b 15 = _ from hcmd] at hfields
  next hbad => exact ⟨hbad, rfl⟩

theorem decodeCsw_written (h : decodeCsw b = .ok i) : Written c i ⟨.inWire, b⟩ := by
  unfold decodeCsw at h
  split at h
  next hlen =>
    have hlen' : b.length = 13 := hlen
    split at h
    next hsig =>
      cases h
      refine ⟨trivial, congrArg (Packet.mk _) ?_⟩
      rw [cswBytes, ← hsig, byteAt_last hlen']
      simp only [List.append_assoc]
      rw [encLe32_append_drop (by omega), encLe32_append_drop (by omega), encLe32_append_drop (by omega), List.drop_zero]
    next => cases h
  next => cases h

theorem decodeSparseHeader_written (hok : c.ok) (h : decodeSparseHeader c b = .ok i) : Written c i ⟨.imageWire, b⟩ := by
  obtain ⟨hmin, -⟩ := lengths_of_ok hok
  unfold decodeSparseHeader at h
  split at h
  next hlen =>
    split at h
    next hmagic =>
      split at h
      next hsizes =>
        cases h
        obtain ⟨h8, h10⟩ := hsizes
        have h8' : BitVec.ofNat 16 c.sparseHdrLen = le16 b 8 := by rw [← h8, BitVec.ofNat_toNat, BitVec.setWidth_eq]
        have h10' : BitVec.ofNat 16 c.chunkHdrLen = le16 b 10 := by rw [← h10, BitVec.ofNat_toNat, BitVec.setWidth_eq]
        refine ⟨?_, congrArg (Packet.mk _) ?_⟩
        · show (b.drop 28).length + 28 = c.sparseHdrLen
          rw [List.length_drop]
          omega
        · rw [sparseHeaderBytes, ← hmagic, h8', h10']
          simp only [List.append_assoc]
          rw [encLe32_append_drop (by omega), encLe32_append_drop (by omega), encLe32_append_drop (by omega),
            encLe32_append_drop (by omega), encLe16_append_drop (by omega), encLe16_append_drop (by omega),
            encLe16_append_drop (by omega), encLe16_append_drop (by omega), encLe32_append_drop (by omega), List.drop_zero]
      next => cases h
    next => cases h
  next => cases h

/-- The fields of a chunk header (rule R103). -/
theorem chunkHeaderBytes_fields (h : 12 ≤ b.length) :
    chunkHeaderBytes (le16 b 0) (chunkRestOf b) (le32 b 4) (le32 b 8) = b := by
  rw [chunkHeaderBytes, chunkRestOf]
  simp only [List.append_assoc]
  rw [encLe32_append_drop (by omega), encLe32_append_drop (by omega), encLe16_append_drop (by omega), encLe16_append_drop (by omega),
    List.drop_zero]

theorem decodeChunkHeader_written (hok : c.ok) (h : decodeChunkHeader c b = .ok i) : Written c i ⟨.chunkWire, b⟩ := by
  obtain ⟨-, hmin⟩ := lengths_of_ok hok
  unfold decodeChunkHeader at h
  split at h
  next hlen =>
    have hfields := chunkHeaderBytes_fields (b := b) (by omega)
    have hwf : (chunkRestOf b).wf c := by
      show (b.drop 12).length + 12 = c.chunkHdrLen
      rw [List.length_drop]
      omega
    iterate 4
      split at h
      next hty =>
        cases h
        rw [hty] at hfields
        exact ⟨hwf, congrArg (Packet.mk _) hfields⟩
    next hraw hfill hdont hcrc =>
      cases h
      exact ⟨⟨by simp [mem_chunkTypes, hraw, hfill, hdont, hcrc], hwf⟩, congrArg (Packet.mk _) hfields⟩
  next => cases h

/-- The fields of a header, and what follows it (rules R98, R99). -/
theorem headerBytes_fields {m : U32} (hm : le32 b 0 = m) (h : c.hdrLen ≤ b.length) :
    headerBytes m (byteAt b 6) (byteAt b 7) (hdrRestOf c b) ++ b.drop c.hdrLen = b := by
  have hlen : c.hdrLen = 12 + Config.padBytes c.hdrPad + 4 := by
    rw [Config.hdrLen]
    omega
  rw [hlen] at h ⊢
  rw [headerBytes, hdrRestOf, ← hm]
  simp only [List.append_assoc, List.cons_append, List.nil_append]
  rw [encLe32_append_drop h, bytesAt_append_drop, encLe32_append_drop (by omega), byteAt_cons_drop (by omega),
    byteAt_cons_drop (by omega), byteAt_cons_drop (by omega), byteAt_cons_drop (by omega), encLe32_append_drop (by omega), List.drop_zero]

theorem hdrRestOf_wf (h : c.hdrLen ≤ b.length) : (hdrRestOf c b).wf c := by
  refine length_bytesAt (le_trans ?_ h)
  rw [Config.hdrLen]
  omega

theorem decodeHeader_written (h : decodeHeader c b = .ok i) : Written c i ⟨.headerWire, b⟩ := by
  unfold decodeHeader at h
  split at h
  next hlen =>
    have hwf := hdrRestOf_wf hlen.ge
    have hfields := fun m hm => headerBytes_fields (m := m) hm hlen.ge
    simp only [List.drop_eq_nil_of_le hlen.le, List.append_nil] at hfields
    split at h
    next hm =>
      cases h
      exact ⟨hwf, congrArg (Packet.mk _) (hfields _ hm)⟩
    split at h
    next hm =>
      cases h
      exact ⟨hwf, congrArg (Packet.mk _) (hfields _ hm)⟩
    next => cases h
  next => cases h

theorem decodeCommand_written {via : Transport} (h : decodeCommand c via b = .ok i) : Written c i ⟨.commandWire via, b⟩ := by
  unfold decodeCommand at h
  split at h
  next hlen =>
    have hwf := hdrRestOf_wf hlen
    split at h
    next hm =>
      have hfields := headerBytes_fields hm hlen
      iterate 6
        split at h
        next hcmd =>
          cases h
          rw [hcmd] at hfields
          exact ⟨hwf, congrArg (Packet.mk _) hfields⟩
      cases h
    next => cases h
  next => cases h

/-- The header of HANDLE_COMMAND is preceded by its length (log 12). -/
theorem decode_handleCommand_written {via : Transport} (h : decode c ⟨.handleCommand via, b⟩ = .ok i) :
    Written c i ⟨.handleCommand via, b⟩ := by
  simp only [decode] at h
  split at h
  next hlen =>
    cases h
    have hn : (bytesAt b 4 (le32 b 0).toNat).length = (le32 b 0).toNat := length_bytesAt hlen
    refine ⟨hn.trans_lt (le32 b 0).isLt, congrArg (Packet.mk _) ?_⟩
    rw [hn, BitVec.ofNat_toNat, BitVec.setWidth_eq, List.append_assoc, bytesAt_append_drop, encLe32_append_drop (by omega),
      List.drop_zero]
  next => cases h

end

/-! ## The ports -/

theorem decode_written {c : Config} {p : Packet} {i : Instr} (hok : c.ok) (h : decode c p = .ok i) : Written c i p := by
  obtain ⟨port, b⟩ := p
  unfold decode at h
  cases port with
  | uartWire =>
    obtain ⟨hlen, rfl⟩ := decodeFixed_eq_ok h
    have hb : [byteAt b 0] = b := byteAt_last hlen
    have hw := decodeUartByte_written c (byteAt b 0)
    rwa [hb] at hw
  | frameWire => exact decodeFrame_written h
  | outWire =>
    cases h
    exact decodeCbw_written c b
  | inWire => exact decodeCsw_written h
  | imageWire => exact decodeSparseHeader_written hok h
  | chunkWire => exact decodeChunkHeader_written hok h
  | headerWire => exact decodeHeader_written h
  | commandWire via => exact decodeCommand_written h
  | handleCommand via => exact decode_handleCommand_written h
  | startWrite =>
    dsimp only at h
    split at h
    next hlen =>
      cases h
      exact ⟨hlen, rfl⟩
    next => cases h
  | reset | tick | upeInit | upeDeinit | getStatus | uteInit | usbReset | sswClose | pushDetect | pushSpHdr | pushSpChunkHdr |
    pushSpRaw | pushSpFill | pushSpDone | pushRaw | sswGetResult | sswGetCrc | dispStatus =>
    obtain ⟨rfl, rfl⟩ := decodePlain_eq_ok h
    exact ⟨trivial, rfl⟩
  | outDoneReadCbw | outDoneDataOut | ignoredOut | sswPush | crc16 | frameTotal | unpack | hdrDecodeCmd | hdrDecodeRsp | uartTx |
    epSend | dispOut =>
    cases h
    exact ⟨trivial, rfl⟩
  | uartRx | setStatus | progress =>
    obtain ⟨hlen, rfl⟩ := decodeFixed_eq_ok h
    exact ⟨trivial, congrArg (Packet.mk _) (byteAt_last hlen)⟩
  | startRead | inDoneDataIn | inDoneWaitCsw | ignoredIn | slice | epRecv | dispIn =>
    obtain ⟨hlen, rfl⟩ := decodeFixed_eq_ok h
    exact ⟨trivial, congrArg (Packet.mk _) (encLe32_last hlen)⟩
  | checkUpgMode =>
    obtain ⟨hlen, rfl⟩ := decodeFixed_eq_ok h
    exact ⟨trivial, congrArg (Packet.mk _) (encLe64_le64 hlen)⟩
  | devRead | devErase =>
    obtain ⟨hlen, rfl⟩ := decodeFixed_eq_ok h
    refine ⟨trivial, congrArg (Packet.mk _) ?_⟩
    rw [encLe32_last (i := 4) hlen]
    exact encLe32_append_drop (by omega)
  | sswOpen =>
    obtain ⟨hlen, rfl⟩ := decodeFixed_eq_ok h
    refine ⟨trivial, congrArg (Packet.mk _) ?_⟩
    rw [encLe32_last (i := 8) hlen, List.append_assoc, encLe32_append_drop (by omega)]
    exact encLe32_append_drop (by omega)
  | dispExpect =>
    obtain ⟨hlen, rfl⟩ := decodeFixed_eq_ok h
    refine ⟨trivial, congrArg (Packet.mk _) ?_⟩
    rw [encLe32_last (i := 1) hlen]
    exact byteAt_cons_drop (by omega)
  | hdrEncodeCmd | hdrEncodeRsp =>
    obtain ⟨hlen, rfl⟩ := decodeFixed_eq_ok h
    refine ⟨trivial, congrArg (Packet.mk _) ?_⟩
    rw [encLe32_last (i := 4) hlen, byteAt_cons_drop (by omega), byteAt_cons_drop (by omega), byteAt_cons_drop (by omega)]
    exact byteAt_cons_drop (by omega)
  | packShort | packLong | packFrame | split =>
    obtain ⟨hlen, rfl⟩ := decodeAtLeast_eq_ok h
    exact ⟨trivial, congrArg (Packet.mk _) (byteAt_cons_drop hlen)⟩
  | devWrite =>
    obtain ⟨hlen, rfl⟩ := decodeAtLeast_eq_ok h
    exact ⟨trivial, congrArg (Packet.mk _) (encLe32_append_drop hlen)⟩

/-- Settles O55: each decoder reads every byte of its format into a field, or tests it against a constant. -/
theorem encodeDecode : Obligations.EncodeDecode := fun _ _ _ => decode_written

end Machine
end Sys2Proof
end
